-- ==== Sys2Proof/Word.lean ====
section
/-!
DEFINITION. The plain types every layer shares: bytes, port and slot numbers, the encoders and a direction.

Quantities of the manual (coordinates, lengths, temperatures, tensions) are natural or whole numbers in the units of
Table 3; bit vectors hold what the manual treats as bits: bytes of frames and of the store, and sets that are bit fields.
-/
namespace Sys2Proof

/-- One byte of a frame or of the store array. -/
abbrev Byte := BitVec 8

/-- A station port, 0 to 3. -/
abbrev PortId := Fin 4

/-- A slot of the profile store, 0 to 31 (R135). -/
abbrev SlotId := Fin 32

/-- The three quadrature encoders (R25). -/
inductive Encoder where
  | penc
  | cenc
  | fenc
  deriving DecidableEq, Repr

/-- The direction of one encoder count (R25). -/
inductive Direction where
  | forward
  | reverse
  deriving DecidableEq, Repr

end Sys2Proof
end

