-- ==== Sys2Proof/Syntax.lean ====
section
/-!
DEFINITION. The commands: one constructor per row of spec/opcode_table.json.

A request row is the take event of that request's frame on a port (R189), with the arguments of Table 43 as they stand in
the payload. The other rows are the part's own steps, each whole and indivisible (95_what_each_step_holds.md).
-/
namespace Sys2Proof

/-- The commands the block takes, in the order of the table. -/
inductive Instr where
  -- requests of every role
  | readStatus (port : PortId)
  | readPanel (port : PortId) (id : BitVec 16)
  | readQueueSummary (port : PortId)
  | readStopRecord (port : PortId)
  | readMeasurements (port : PortId)
  | readRecords (port : PortId) (n : Byte)
  | readAndClearAttention (port : PortId)
  | setAttentionMask (port : PortId) (mask : BitVec 16)
  | stop (port : PortId)
  -- PRODUCTION requests
  | announcePanel (port : PortId) (jobId : BitVec 32) (slot : Byte) (length : BitVec 32) (width : BitVec 16) (coverage : List Byte)
  | withdrawPanel (port : PortId) (id : BitVec 16)
  | scrapPanel (port : PortId) (id : BitVec 16)
  | lineClear (port : PortId) (span : BitVec 32)
  | setTrim (port : PortId) (trim : BitVec 16)
  | ackRecords (port : PortId) (n : Byte)
  | setRecordQueue (port : PortId) (mode : Byte) (watermark : Byte) (filter : Byte)
  | eraseSlot (port : PortId) (slot : Byte)
  | writeSlot (port : PortId) (slot : Byte) (offset : BitVec 16) (data : List Byte)
  | commitSlot (port : PortId) (slot : Byte)
  | lockSlot (port : PortId) (slot : Byte)
  | readSlot (port : PortId) (slot : Byte) (offset : BitVec 16) (n : Byte)
  | storeClear (port : PortId)
  | probeCache (port : PortId) (slot : Byte)
  | invalidateCache (port : PortId)
  -- PRINT requests
  | getCorrection (port : PortId) (id : BitVec 16)
  | printAbort (port : PortId) (id : BitVec 16)
  -- CALENDER and DRIVE requests
  | reportTemperatures (port : PortId) (values : List (BitVec 16))
  | readHeatAdvice (port : PortId)
  | reportTensions (port : PortId) (paperIn : BitVec 16) (fabricUnwind : BitVec 16) (calIn : BitVec 16) (fabricRewind : BitVec 16) (diameter : BitVec 16)
  | readSetpoints (port : PortId)
  | hold (port : PortId)
  | unhold (port : PortId)
  | releaseStop (port : PortId)
  -- a transaction on a port: the MOSI bits in the order SCK samples them (R187)
  | spiTransaction (port : PortId) (mosi : List Bool)
  -- device reset and start-up; strap levels one bit per port, port 0 lowest (R184, R185)
  | powerOnReset
  | supplyMonitorReset
  | resetnReset
  | resetEnd (rolea : BitVec 4) (roleb : BitVec 4) (maint : Bool)
  | startUpScanEnd
  -- encoders, pace and line inputs
  | pencCount (direction : Direction)
  | cencCount (direction : Direction)
  | fencCount (direction : Direction)
  | pacePulseTimer
  | pgateRisingEdge
  | pgateFallingEdge
  | breaknAssertion
  | breaknRelease
  | stopinnAssertion
  | stopinnRelease
  | markWord (mkdat : Bool)
  | markWordTimeout
  -- timed events
  | speedWindowExpiry
  | doseTick
  | tensionTick
  | temperatureStaleExpiry
  | tensionStaleExpiry
  | hardStaleExpiry
  | refreshExpiry
  -- engine, cache and store
  | correctionCompletion
  | cacheFillGrant
  | cacheFillCompletion
  | eraseSlotGrant
  | eraseSlotCompletion
  | storeGrant
  | writeSlotCompletion
  | commitSlotCompletion
  | lockSlotCompletion
  | readSlotCompletion
  | storeClearGrant
  | storeClearCompletion
  | lineClearReadCompletion
  | mkclkRisingEdge (mkdat : Bool)
  | quadratureTransitionError (encoder : Encoder)
  deriving DecidableEq, Repr

end Sys2Proof
end

