-- ==== Sys2Proof/Decode.lean ====
section
/-!
DEFINITION. The command that a word spells by the table's bits. No row of spec/opcode_table.json gives bits ("fields" is
empty in each of the 73 rows and none has a "fixed"), so no word spells a command (notes/assumptions/35.md). The frames of
the SPI ports, which do spell requests, are read by SPI_TRANSACTION itself (Machine/Ports.lean).
-/
namespace Sys2Proof

/-- The command a word of `nbits` bits spells by the opcode table: none, since no row gives bits. -/
def decodeTableWord (_nbits _w : Nat) : Option Instr :=
  none

end Sys2Proof
end

