-- ==== Sys2Proof/Config.lean ====
section
/-!
DEFINITION. The values the manual leaves open and the machine goes on with: each is a constant with no body, so that
nothing can be proved of it and every claim holds whatever it is (notes/assumptions/8.md, 11.md, 40.md, 41.md).
-/
namespace Sys2Proof

/-- How far a store operation had come when a device reset cut it off (R141, R185); fresh for every number.
DESIGN CHOICE, safe: R141 lists the classes and picks none. -/
opaque Config.cutProgress : Nat → Nat

/-- The bits of an array byte (address) that an interrupted erase or program has not yet brought to their new value (R141).
DESIGN CHOICE, safe: the manual gives the class the next scan finds, not the bits. -/
opaque Config.cutByte : Nat → Nat → Byte

/-- What a four-byte field reports for a time in ms that no longer fits it (R21, R133; Table 46 gives four bytes).
DESIGN CHOICE, safe: the manual states no limit for these times. -/
opaque Config.wideTime : Nat → BitVec 32

/-- What the four-byte field of the blanking end reports for a coordinate that no longer fits it (R42, R51, R194).
DESIGN CHOICE, safe: the manual gives the blanking end no range. -/
opaque Config.wideEnd : Nat → BitVec 32

/-- How many samples at the end of a millisecond without a command find MKCLK low after it was high (R34); fresh for every
number. DESIGN CHOICE, safe: the mark reader decides when its clock falls, and no row of the table tells it. -/
opaque Config.mkclkLow : Nat → Nat

end Sys2Proof
end

