-- ==== Sys2Proof/Machine/State.lean ====
section
/-!
DEFINITION. The state of the part as plain data, block by block (Table 1), and its value at device reset.
Every field cites the rule that names it; INVENTORY.md lists them with widths and reset values.
-/
namespace Sys2Proof.Machine

/-! ## Names -/

/-- Roles of a station port (R184), coded by Table 41. -/
inductive Role where
  | observer | print | calender | drive | production
  deriving DecidableEq, Repr

/-- Line states (R158). -/
inductive LineState where
  | unset | tracking | halted
  deriving DecidableEq, Repr

/-- Stop causes, in the order of Table 35. -/
inductive StopCause where
  | break | external | requested | fillLowLimit | fillHighLimit | registrationLost | trackingLost | nipOverrun
  | measureLost | coordLimit
  deriving DecidableEq, Repr

/-- Panel record flags, in the order of Table 7. -/
inductive Flag where
  | lengthMismatch | gateFault | markMissed | markRejected | offDose | scorch | standstill | spread | slip
  | tensionExcursion | unverified | overrun | stoppedDuringPrint | heldStart | uncorrected
  | doseClamped | inkLimited | inkScaled | scaleClamped | stoppedInArc | scrapped
  deriving DecidableEq, Repr

/-- Attention kinds, in the order of Table 39. -/
inductive Attn where
  | lineHalted | lineReleased | holdChanged | correctionReady | panelFlagged | scorch | markFault | gateFault
  | measureStale | setpointChanged | heatAdviceChanged | fillWarning | recordWatermark | recordLost | storeDone
  | profileDamaged
  deriving DecidableEq, Repr

/-- A record's flag set: bit i stands for row i + 1 of Table 7 (R194). -/
abbrev FlagSet := BitVec 21

/-- A set of attention kinds: bit k − 1 stands for kind k of Table 39 (R194). -/
abbrev AttnSet := BitVec 16

/-! ## Slot content (Tables 31 and 32) -/

/-- The active machine record: the fields of Table 32 (R157). -/
structure MachineRecord where
  zoneCount : Nat
  name : List Byte
  pencRes : Nat
  cencRes : Nat
  fencRes : Nat
  gateActiveLow : Bool
  filterInterval : Nat
  arcLen : Nat
  drumWidth : Nat
  markLead : Nat
  blankLen : Nat
  syncLimit : Nat
  haltOnNonMatch : Bool
  holdOnUnready : Bool
  stopLow : Nat
  warnLow : Nat
  resume : Nat
  holdHigh : Nat
  stopHigh : Nat
  lengthTolerance : Nat
  nominalSpeed : Nat
  vMin : Nat
  slipLimit : Nat
  tempStaleMs : Nat
  tensionStaleMs : Nat
  hardStaleMs : Nat
  fallbackTemp : Nat
  fallbackDRef : Nat
  scorchLimit : Nat
  spreadLimit : Nat
  t0 : Nat
  tempStep : Nat
  rates : List Nat
  refreshInterval : Nat
  pitch : Nat
  defaultPaperIn : Nat
  defaultFabricUnwind : Nat
  defaultCalIn : Nat
  defaultFabricRewind : Nat
  rampRate : Nat
  excursionBand : Nat
  coreDiameter : Nat
  maxDiameter : Nat
  deriving DecidableEq, Repr

/-- One ink channel of an expanded profile (Table 31): base gain, channel limit, five-point curve. -/
structure Channel where
  base : Nat
  limit : Nat
  curve : List Nat
  deriving DecidableEq, Repr

/-- The five profile values a correction carries on (R68). -/
structure ProfileCopies where
  dRef : Nat
  band : Nat
  baseTension : Nat
  paperTension : Nat
  taper : Nat
  deriving DecidableEq, Repr

/-- An expanded profile (R72). -/
structure Profile where
  channels : List Channel
  inkLimit : Nat
  stretch : Nat
  neck : Nat
  copies : ProfileCopies
  deriving DecidableEq, Repr

/-! ## Panel records -/

/-- A correction as written into a panel record (R67). -/
structure Correction where
  qPred : Nat
  dwell : Nat
  tPred : Nat
  targetTension : Nat
  gains : List Nat
  along : Nat
  cross : Nat
  generation : Nat
  copies : ProfileCopies
  deriving DecidableEq, Repr

/-- The fields only a NORMAL record has (Table 5, R3). -/
structure Announced where
  jobId : BitVec 32
  slot : SlotId
  generation : Nat
  length : Nat
  width : Nat
  coverage : List Nat
  deriving DecidableEq, Repr

/-- Panel record states (Table 6). READY carries the fetched sub-flag, the ready time (R4) and the refresh-due mark (R79),
which exist in that state only. -/
inductive PanelState where
  | queued
  | ready (fetched : Bool) (readyTime : Nat) (refreshDue : Bool)
  | printing
  | inTransit
  | transferring
  deriving DecidableEq, Repr

/-- The mark field of a printed NORMAL record (Table 5, R43 to R46). -/
inductive MarkState where
  | noneYet
  | seen (applied : Int)
  | missed
  | rejected
  deriving DecidableEq, Repr

/-- A probe: its coordinate, its accumulator in 0.01 dms and its in-arc indication (R15, R103). -/
structure Probe where
  position : Nat
  accumulator : Nat
  inArc : Bool
  deriving DecidableEq, Repr

/-- A panel record (Table 5). Its kind is NORMAL exactly when `normal` is present. -/
structure Panel where
  id : Nat
  normal : Option Announced
  state : PanelState
  lead : Option Nat
  trail : Option Nat
  mark : Option MarkState
  probes : List Probe
  correction : Option Correction
  flags : FlagSet
  deriving DecidableEq, Repr

/-! ## Ports and device reset -/

/-- A station port (R184, R180, R191). `miso` is the model's record of the bits shifted out in the last transaction. -/
structure Port where
  role : Role
  executing : Bool
  response : Option (List Byte)
  pending : AttnSet
  mask : AttnSet
  miso : List Bool
  deriving DecidableEq, Repr

/-- Where the part stands between a device reset and running (R185, R186). -/
inductive Phase where
  | held | scanning | running
  deriving DecidableEq, Repr

/-- Reset causes (R185). -/
inductive ResetCause where
  | powerOn | supply | pin
  deriving DecidableEq, Repr

/-- What the reset block keeps (R184, R185): `vacant` has bit r for role code r. `beginning` is the model's own: no millisecond
has passed since reset began, so that a further source begins it in the same instant (notes/assumptions/30.md). -/
structure ResetUnit where
  phase : Phase
  cause : ResetCause
  beginning : Bool
  maint : Bool
  conflict : Bool
  vacant : Byte
  deriving DecidableEq, Repr

/-! ## Line control -/

/-- The hold reason set (R167). -/
structure HoldSet where
  fillHigh : Bool
  unready : Bool
  stale : Bool
  requested : Bool
  deriving DecidableEq, Repr

/-- The stop record (Table 36). Print was interrupted exactly when `interrupted` is present. -/
structure StopRecord where
  firstCause : StopCause
  xPrint : Nat
  xNip : Nat
  interrupted : Option Nat
  transferring : Nat
  furtherCount : Nat
  lastFurther : Option StopCause
  released : Bool
  deriving DecidableEq, Repr

/-- Line control (R157, R158, R161, R167). -/
structure LineControl where
  state : LineState
  hold : HoldSet
  stop : Option StopRecord
  active : Option MachineRecord
  recordPending : Bool
  deriving DecidableEq, Repr

/-! ## Position and mark units, input filters -/

/-- A speed: magnitude in mm/s and direction (R30). -/
structure Speed where
  magnitude : Nat
  reverse : Bool
  deriving DecidableEq, Repr

/-- The position unit (R25 to R32). Net counts are of the running window, kept counts of the last completed one. -/
structure Position where
  xPrint : Nat
  remPrint : Nat
  xNip : Nat
  remNip : Nat
  lastFill : Nat
  netPrint : Int
  netCal : Int
  netFab : Int
  keptPrint : Int
  keptCal : Int
  keptFab : Int
  vPrint : Speed
  vCal : Speed
  vFab : Speed
  slip : Nat
  errPrint : Nat
  errCal : Nat
  errFab : Nat
  deriving DecidableEq, Repr

/-- A noise filter: the accepted pin level (true is high) and how many samples have agreed on the other level (R34). -/
structure InputFilter where
  level : Bool
  agree : Nat
  deriving DecidableEq, Repr

/-- The qualified inputs (R34). -/
structure Inputs where
  pgate : InputFilter
  breakn : InputFilter
  stopinn : InputFilter
  mkclk : InputFilter
  deriving DecidableEq, Repr

/-- A mark word being assembled: the stamp of its first bit and the bits so far, oldest first (R41). -/
structure PartialMark where
  stamp : Nat
  bits : List Bool
  deriving DecidableEq, Repr

/-- The last accepted stamp and the blanking end set from it (R42, R44). -/
structure AcceptedMark where
  stamp : Nat
  blankingEnd : Nat
  deriving DecidableEq, Repr

/-- The last unmatched mark (R43). -/
structure UnmatchedMark where
  code : Nat
  stamp : Nat
  deriving DecidableEq, Repr

/-- The mark unit (R41 to R45). -/
structure MarkUnit where
  partialWord : Option PartialMark
  accepted : Option AcceptedMark
  streak : Nat
  unmatched : Option UnmatchedMark
  deriving DecidableEq, Repr

/-! ## Pace generator -/

/-- Pulse states of the PACE output (R89, R93). -/
inductive PulseState where
  | idle | high | highPending | gap | gapPending
  deriving DecidableEq, Repr

/-- The scale source when it names a record: its panel id and the along value in use (R89, R97). -/
structure PaceSource where
  panel : Nat
  along : Nat
  deriving DecidableEq, Repr

/-- The pace generator (R89). -/
structure Pace where
  accumulator : Nat
  threshold : Option Nat
  source : Option PaceSource
  pulse : PulseState
  total : Nat
  panel : Nat
  lost : Nat
  deriving DecidableEq, Repr

/-! ## Correction engine and profile cache -/

/-- What a computation works on (R53). Each zone is its value and whether it was fresh. -/
structure Snapshot where
  width : Nat
  coverage : List Nat
  profile : Profile
  generation : Nat
  machine : MachineRecord
  vCal : Speed
  zones : List (Nat × Bool)
  trim : Int
  bias : Int
  deriving DecidableEq, Repr

/-- The computation in flight (R52). -/
structure Computation where
  panel : Nat
  snapshot : Snapshot
  deriving DecidableEq, Repr

/-- A valid cache entry (R72). -/
structure CacheEntry where
  slot : SlotId
  generation : Nat
  profile : Profile
  deriving DecidableEq, Repr

/-- The profile cache (R72). The fill in flight is kept by the store arbiter, waiting or reading. -/
structure Cache where
  entries : Vector (Option CacheEntry) 8
  nlu : Fin 8
  deriving DecidableEq, Repr

/-! ## Profile store -/

/-- The store array as cells (address, byte), address = slot × 1,024 + offset, in canonical form: addresses strictly
rising, no cell holding FFh, which is what an unlisted address reads as (R135). -/
abbrev Memory := List Host.Cell

/-- Slot states (Table 29). -/
inductive SlotState where
  | erased | writing | valid | locked | damaged
  deriving DecidableEq, Repr

/-- A line of the slot directory (R137): bit i of `programmed` stands for row i. -/
structure DirEntry where
  state : SlotState
  generation : Nat
  channels : Option Nat
  name : Option (List Byte)
  programmed : BitVec 32
  deriving DecidableEq, Repr

/-- A held staging row: 32 bytes, absent where not staged (R148). -/
structure StagingRow where
  slot : SlotId
  row : Nat
  bytes : List (Option Byte)
  deriving DecidableEq, Repr

/-- A PRODUCTION store request that waits at the arbiter (R142), with the port it is answered on. -/
inductive StoreRequest where
  | erase (port : PortId) (slot : SlotId)
  | write (port : PortId) (slot : SlotId) (offset : Nat) (data : List Byte)
  | commit (port : PortId) (slot : SlotId)
  | lock (port : PortId) (slot : SlotId)
  | read (port : PortId) (slot : SlotId) (offset : Nat) (n : Nat)
  | clear (port : PortId)
  | lineClear (port : PortId) (span : Nat)
  deriving DecidableEq, Repr

/-- The operation in progress, with its holder (R142, Table 30). A write or commit carries the rows it programs, in order. -/
inductive StoreOp where
  | fill (slot : SlotId)
  | erase (port : PortId) (slot : SlotId)
  | write (port : PortId) (rows : List StagingRow)
  | commit (port : PortId) (slot : SlotId) (rows : List StagingRow)
  | lock (port : PortId) (slot : SlotId)
  | read (port : PortId) (slot : SlotId) (offset : Nat) (n : Nat)
  | clear (port : PortId)
  | lineClear (port : PortId) (span : Nat)
  deriving DecidableEq, Repr

/-- The profile store (R135, R137, R142, R148). `staging` lists the held staging rows, oldest first, at most four. -/
structure Store where
  array : Memory
  dir : Vector DirEntry 32
  staging : List StagingRow
  holder : Option StoreOp
  fillWaiting : Option SlotId
  requestWaiting : Option StoreRequest
  deriving DecidableEq, Repr

/-! ## Dose and tension units -/

/-- The standing of a measured zone; a stale zone keeps the time of its stale expiry (R100, R121). -/
inductive Standing where
  | fresh
  | stale (since : Nat)
  deriving DecidableEq, Repr

/-- A zone of the temperature or of the tension table (R98, R119). -/
structure Zone where
  value : Nat
  age : Nat
  standing : Standing
  deriving DecidableEq, Repr

/-- Indications of the heat advice (R114). -/
inductive AdviceRange where
  | within | low | high
  deriving DecidableEq, Repr

/-- The heat advice (R113). -/
structure HeatAdvice where
  temperature : Nat
  range : AdviceRange
  panel : Nat
  dTarget : Nat
  dwell : Nat
  rateRequired : Nat
  deriving DecidableEq, Repr

/-- The advice at the last raise of HEAT_ADVICE_CHANGED (R115). -/
structure AdviceReference where
  temperature : Nat
  range : AdviceRange
  deriving DecidableEq, Repr

/-- The dose unit (R98, R111, R115, R117). -/
structure Dose where
  zones : List Zone
  trim : Int
  advice : Option HeatAdvice
  reference : Option AdviceReference
  ticks : Nat
  deriving DecidableEq, Repr

/-- One value for each of the four tension zones (R119). -/
structure Tensions where
  paperIn : Nat
  fabricUnwind : Nat
  calIn : Nat
  fabricRewind : Nat
  deriving DecidableEq, Repr

/-- The tension unit (R119 to R132). -/
structure Tension where
  paperIn : Zone
  fabricUnwind : Zone
  calIn : Zone
  fabricRewind : Zone
  diameter : Nat
  targets : Tensions
  setpoints : Tensions
  governed : Bool
  bias : Int
  lostTemperature : Bool
  lostTension : Bool
  deriving DecidableEq, Repr

/-! ## Transfer records -/

/-- Outcomes of a completed panel (R20). -/
inductive PanelOutcome where
  | good | flagged | scrapped | untracked
  deriving DecidableEq, Repr

/-- A transfer record (R172). -/
structure TransferRecord where
  id : Nat
  jobId : Option (BitVec 32)
  slot : Option SlotId
  generation : Option Nat
  outcome : PanelOutcome
  flags : FlagSet
  lead : Nat
  trail : Nat
  length : Nat
  syncError : Option Int
  qPred : Option Nat
  dAct : Nat
  probeMin : Nat
  probeMax : Nat
  qAct : Option Nat
  deriving DecidableEq, Repr

/-- Queue modes (R173). -/
inductive QueueMode where
  | blocking | overwrite
  deriving DecidableEq, Repr

/-- Queue filters (R174). -/
inductive QueueFilter where
  | all | exceptions | none
  deriving DecidableEq, Repr

/-- The transfer record queue (R173). -/
structure RecordQueue where
  list : List TransferRecord
  mode : QueueMode
  watermark : Nat
  filter : QueueFilter
  lost : Bool
  drops : Nat
  deriving DecidableEq, Repr

/-! ## The whole state -/

/-- The state of the part, its clock and the queue of commands that wait. -/
structure State where
  now : Nat
  resetUnit : ResetUnit
  ports : Vector Port 4
  line : LineControl
  queue : List Panel
  idCounter : Nat
  pos : Position
  inputs : Inputs
  mark : MarkUnit
  pace : Pace
  engine : Option Computation
  cache : Cache
  store : Store
  dose : Dose
  tension : Tension
  records : RecordQueue
  freeSeq : Nat
  pending : List Instr
  deriving DecidableEq, Repr

/-- The part stops with no fault: every condition the manual names is a response, a stop cause or an attention kind
(INVENTORY.md, Faults). The type has no constructor. -/
inductive Fault where
  deriving DecidableEq, Repr

/-- Refusals of the model. -/
inductive Refusal where
  /-- Raised by an arm of `exec` whose command has no meaning yet; safe: the model stops where the part goes on. -/
  | notModelled (mnemonic : String)
  deriving DecidableEq, Repr

/-! ## Device reset -/

/-- A port as a device reset leaves it (R180, R185, R191). The role and the mask are set when the reset ends
(R184, R183); until then the port shows no role and no mask: DESIGN CHOICE, notes/assumptions/6.md. -/
def Port.reset : Port :=
  { role := .observer, executing := false, response := none, pending := 0, mask := 0, miso := [] }

/-- A zone never reported: value 0, age 0, stale since the reset (R98, R119). -/
def Zone.reset : Zone :=
  { value := 0, age := 0, standing := .stale 0 }

/-- An erased slot of generation 0 (R137, R138). The scan classifies every slot before a request can see it. -/
def DirEntry.reset : DirEntry :=
  { state := .erased, generation := 0, channels := none, name := none, programmed := 0 }

/-- No speed: 0 mm/s forward (R30). -/
def Speed.zero : Speed :=
  { magnitude := 0, reverse := false }

/-- Four zeros (R124). -/
def Tensions.zero : Tensions :=
  { paperIn := 0, fabricUnwind := 0, calIn := 0, fabricRewind := 0 }

/-- The part held in its first power-on reset, with an erased array (notes/assumptions/6.md, 7.md): every block at the
values its chapter gives for device reset (R24, R29, R34, R41 to R45, R71, R72, R89, R118, R134, R142, R148, R158, R166,
R167, R173, R180, R185, R191). -/
def State.reset : State where
  now := 0
  resetUnit := { phase := .held, cause := .powerOn, beginning := false, maint := false, conflict := false, vacant := 0 }
  ports := Vector.replicate 4 Port.reset
  line :=
    { state := .unset
      hold := { fillHigh := false, unready := false, stale := false, requested := false }
      stop := none
      active := none
      recordPending := false }
  queue := []
  idCounter := 1
  pos :=
    { xPrint := 0, remPrint := 0, xNip := 0, remNip := 0, lastFill := 0, netPrint := 0, netCal := 0, netFab := 0
      keptPrint := 0, keptCal := 0, keptFab := 0, vPrint := Speed.zero, vCal := Speed.zero, vFab := Speed.zero
      slip := 0, errPrint := 0, errCal := 0, errFab := 0 }
  inputs :=
    { pgate := { level := false, agree := 0 }, breakn := { level := true, agree := 0 }
      stopinn := { level := true, agree := 0 }, mkclk := { level := false, agree := 0 } }
  mark := { partialWord := none, accepted := none, streak := 0, unmatched := none }
  pace := { accumulator := 0, threshold := none, source := none, pulse := .idle, total := 0, panel := 0, lost := 0 }
  engine := none
  cache := { entries := Vector.replicate 8 none, nlu := 0 }
  store :=
    { array := [], dir := Vector.replicate 32 DirEntry.reset, staging := [], holder := none, fillWaiting := none
      requestWaiting := none }
  dose := { zones := [], trim := 0, advice := none, reference := none, ticks := 0 }
  tension :=
    { paperIn := Zone.reset, fabricUnwind := Zone.reset, calIn := Zone.reset, fabricRewind := Zone.reset, diameter := 0
      targets := Tensions.zero, setpoints := Tensions.zero, governed := false, bias := 0, lostTemperature := false
      lostTension := false }
  records := { list := [], mode := .blocking, watermark := 0, filter := .all, lost := false, drops := 0 }
  freeSeq := 0
  pending := []

end Sys2Proof.Machine
end

