-- ==== Sys2Proof/Machine/Flags.lean ====
section
/-!
DEFINITION. Sets and codes: the flag set of a record (Table 7), the attention sets (Table 39), the hold reason set, and the
numbers R194 gives to every enumeration.
-/
namespace Sys2Proof.Machine

/-! ## Numbers of the enumerations (R194, Tables 7, 35, 39, 41, 44) -/

/-- Role codes (Table 41). -/
def Role.code : Role → Nat
  | .observer => 0
  | .print => 1
  | .calender => 2
  | .drive => 3
  | .production => 4

/-- Line state codes (R194). -/
def LineState.code : LineState → Nat
  | .unset => 0
  | .tracking => 1
  | .halted => 2

/-- The place of a stop cause in Table 35, from 0. -/
def StopCause.code : StopCause → Nat
  | .break => 0
  | .external => 1
  | .requested => 2
  | .fillLowLimit => 3
  | .fillHighLimit => 4
  | .registrationLost => 5
  | .trackingLost => 6
  | .nipOverrun => 7
  | .measureLost => 8
  | .coordLimit => 9

/-- The bit of a flag: row i + 1 of Table 7 is bit i. -/
def Flag.index : Flag → Nat
  | .lengthMismatch => 0
  | .gateFault => 1
  | .markMissed => 2
  | .markRejected => 3
  | .offDose => 4
  | .scorch => 5
  | .standstill => 6
  | .spread => 7
  | .slip => 8
  | .tensionExcursion => 9
  | .unverified => 10
  | .overrun => 11
  | .stoppedDuringPrint => 12
  | .heldStart => 13
  | .uncorrected => 14
  | .doseClamped => 15
  | .inkLimited => 16
  | .inkScaled => 17
  | .scaleClamped => 18
  | .stoppedInArc => 19
  | .scrapped => 20

/-- The bit of an attention kind: kind k of Table 39 is bit k − 1. -/
def Attn.index : Attn → Nat
  | .lineHalted => 0
  | .lineReleased => 1
  | .holdChanged => 2
  | .correctionReady => 3
  | .panelFlagged => 4
  | .scorch => 5
  | .markFault => 6
  | .gateFault => 7
  | .measureStale => 8
  | .setpointChanged => 9
  | .heatAdviceChanged => 10
  | .fillWarning => 11
  | .recordWatermark => 12
  | .recordLost => 13
  | .storeDone => 14
  | .profileDamaged => 15

/-- Record state codes (R194). -/
def PanelState.code : PanelState → Nat
  | .queued => 0
  | .ready _ _ _ => 1
  | .printing => 2
  | .inTransit => 3
  | .transferring => 4

/-- Mark state codes (R194). -/
def MarkState.code : MarkState → Nat
  | .noneYet => 0
  | .seen _ => 1
  | .missed => 2
  | .rejected => 3

/-- Slot state codes (R194). -/
def SlotState.code : SlotState → Nat
  | .erased => 0
  | .writing => 1
  | .valid => 2
  | .locked => 3
  | .damaged => 4

/-- Outcome codes (R194). -/
def PanelOutcome.code : PanelOutcome → Nat
  | .good => 0
  | .flagged => 1
  | .scrapped => 2
  | .untracked => 3

/-- Queue mode codes (R194). -/
def QueueMode.code : QueueMode → Nat
  | .blocking => 0
  | .overwrite => 1

/-- The queue mode a byte names, if any (R179, R194). -/
def queueModeOf (b : Byte) : Option QueueMode :=
  if b.toNat = 0 then some .blocking else if b.toNat = 1 then some .overwrite else none

/-- Filter codes (R194). -/
def QueueFilter.code : QueueFilter → Nat
  | .all => 0
  | .exceptions => 1
  | .none => 2

/-- The filter a byte names, if any (R179, R194). -/
def queueFilterOf (b : Byte) : Option QueueFilter :=
  if b.toNat = 0 then some .all
  else if b.toNat = 1 then some .exceptions
  else if b.toNat = 2 then some .none
  else none

/-- Heat advice indication codes, in the order R113 lists them. -/
def AdviceRange.code : AdviceRange → Nat
  | .within => 0
  | .low => 1
  | .high => 2

/-- Reset cause codes, in the order R185 lists them. -/
def ResetCause.code : ResetCause → Nat
  | .powerOn => 0
  | .supply => 1
  | .pin => 2

/-! ## Flag sets -/

/-- The set holding one flag. -/
def Flag.bit (f : Flag) : FlagSet :=
  BitVec.ofNat 21 (2 ^ f.index)

/-- Whether a flag is present. -/
def hasFlag (fs : FlagSet) (f : Flag) : Bool :=
  fs.getLsbD f.index

/-- The set with a flag added; adding a present flag changes nothing (section 1.6). -/
def addFlag (fs : FlagSet) (f : Flag) : FlagSet :=
  fs ||| f.bit

/-- Adds a flag where the condition holds. -/
def addFlagIf (c : Bool) (f : Flag) (fs : FlagSet) : FlagSet :=
  if c then addFlag fs f else fs

/-- The quality class of Table 7: LENGTH_MISMATCH to UNCORRECTED, bits 0 to 14. -/
def qualityFlags : FlagSet :=
  0x7FFF#21

/-- The flags that are part of a correction's result (R17): UNVERIFIED and the four informational flags of the engine. -/
def correctionFlags : FlagSet :=
  Flag.unverified.bit ||| Flag.doseClamped.bit ||| Flag.inkLimited.bit ||| Flag.inkScaled.bit ||| Flag.scaleClamped.bit

/-- The set without the flags of an earlier correction (R17). -/
def withoutCorrectionFlags (fs : FlagSet) : FlagSet :=
  fs &&& ~~~correctionFlags

/-- The flags that keep a record's dose out of the trim (R111). -/
def trimExcludingFlags : FlagSet :=
  Flag.unverified.bit ||| Flag.standstill.bit ||| Flag.scrapped.bit ||| Flag.slip.bit ||| Flag.uncorrected.bit

/-- Whether two sets have a flag in common. -/
def flagsMeet (a b : FlagSet) : Bool :=
  decide (a &&& b ≠ 0)

/-- The informational flags a correction can carry, packed as Table 45 packs them: bit 0 DOSE_CLAMPED, 1 INK_LIMITED,
2 INK_SCALED, 3 SCALE_CLAMPED. -/
def informationalByte (fs : FlagSet) : Byte :=
  BitVec.ofNat 8 (fs.toNat / 2 ^ 15 % 16)

/-! ## Attention sets and the hold reason set -/

/-- The set holding one kind. -/
def Attn.bit (k : Attn) : AttnSet :=
  BitVec.ofNat 16 (2 ^ k.index)

/-- The set holding the listed kinds. -/
def attnSet (ks : List Attn) : AttnSet :=
  ks.foldl (fun m k => m ||| k.bit) 0

/-- The default mask of a role (R183). -/
def defaultMask : Role → AttnSet
  | .print => attnSet [.lineHalted, .lineReleased, .holdChanged, .correctionReady, .gateFault]
  | .calender => attnSet [.lineHalted, .lineReleased, .scorch, .measureStale, .heatAdviceChanged]
  | .drive => attnSet [.lineHalted, .lineReleased, .measureStale, .setpointChanged, .fillWarning]
  | .production =>
    attnSet [.lineHalted, .panelFlagged, .markFault, .recordWatermark, .recordLost, .storeDone, .profileDamaged]
  | .observer => 0

/-- Whether the hold reason set is non-empty (R169). -/
def HoldSet.any (h : HoldSet) : Bool :=
  h.fillHigh || h.unready || h.stale || h.requested

/-- The hold reason set as a byte: bits 0 to 3 FILL_HIGH, UNREADY, STALE, REQUESTED (R194). -/
def HoldSet.byte (h : HoldSet) : Nat :=
  h.fillHigh.toNat + 2 * h.unready.toNat + 4 * h.stale.toNat + 8 * h.requested.toNat

end Sys2Proof.Machine
end

