-- ==== Sys2Proof/Machine/Ops.lean ====
section
/-!
DEFINITION. The named operations the families share: rounding, byte order, the two CRCs, the store array, attention,
line control's handling of causes and holds (chapter 9), and the panel queue's look-ups.
-/
namespace Sys2Proof.Machine

/-! ## Arithmetic (3.2 Rounding) -/

/-- n / d rounded to the nearest integer, halves away from zero, for n at or above 0. -/
def roundNat (n d : Nat) : Nat :=
  (2 * n + d) / (2 * d)

/-- n / d rounded to the nearest integer, halves away from zero, for a positive d. -/
def roundInt (n : Int) (d : Nat) : Int :=
  if 0 ≤ n then (roundNat n.toNat d : Int) else -(roundNat (-n).toNat d : Int)

/-- A clamp to [lo, hi] (3.2). -/
def clampNat (lo hi x : Nat) : Nat :=
  if x < lo then lo else if hi < x then hi else x

/-- A clamp to [lo, hi] (3.2). -/
def clampInt (lo hi x : Int) : Int :=
  if x < lo then lo else if hi < x then hi else x

/-- A count that stops at its limit. -/
def saturatingSucc (limit n : Nat) : Nat :=
  if n < limit then n + 1 else n

/-- The greatest value of an unsigned 32-bit quantity. -/
def maxU32 : Nat := 4294967295

/-! ## Bytes (R194: low byte first, signed fields in two's complement) -/

/-- A byte from its value. -/
def byte (n : Nat) : Byte :=
  BitVec.ofNat 8 n

/-- A number as k bytes, low byte first. -/
def leBytes (k n : Nat) : List Byte :=
  (List.range k).map fun i => byte (n / 256 ^ i)

/-- A signed number as k bytes in two's complement, low byte first. -/
def leSigned (k : Nat) (z : Int) : List Byte :=
  leBytes k (z % (256 ^ k : Nat)).toNat

/-- The number that bytes stand for, low byte first. -/
def fromLe : List Byte → Nat
  | [] => 0
  | b :: rest => b.toNat + 256 * fromLe rest

/-- An indication of two values as one byte (R194). -/
def indication (b : Bool) : List Byte :=
  [byte b.toNat]

/-- An optional number as k bytes, 0 when absent (R194). -/
def leOption (k : Nat) (n : Option Nat) : List Byte :=
  leBytes k (n.getD 0)

/-- A presence field of k bytes, bit i standing for the i-th optional field (R194). -/
def presence (k : Nat) (present : List Bool) : List Byte :=
  leBytes k (present.foldr (fun b n => b.toNat + 2 * n) 0)

/-- A time in ms for a four-byte field; beyond its range a free value (notes/assumptions/11.md). -/
def timeField (t : Nat) : List Byte :=
  if t ≤ maxU32 then leBytes 4 t else leBytes 4 (Config.wideTime t).toNat

/-- A blanking end for a four-byte field; beyond its range a free value (DESIGN CHOICE, notes/assumptions/40.md). -/
def endField (x : Nat) : List Byte :=
  if x ≤ maxU32 then leBytes 4 x else leBytes 4 (Config.wideEnd x).toNat

/-! ## CRC-8 of frames (R190) and CRC-16 of slots (R136) -/

/-- One bit of the CRC-8, polynomial 07h. -/
def crc8Bit (c : Byte) : Byte :=
  if c.msb then (c <<< 1) ^^^ 0x07#8 else c <<< 1

/-- One byte of the CRC-8, most significant bit first. -/
def crc8Byte (c b : Byte) : Byte :=
  Nat.repeat crc8Bit 8 (c ^^^ b)

/-- The CRC-8 of a list of bytes, initial value 00h, no final inversion (R190). -/
def crc8 (bytes : List Byte) : Byte :=
  bytes.foldl crc8Byte 0

/-- One bit of the CRC-16, polynomial 1021h. -/
def crc16Bit (c : BitVec 16) : BitVec 16 :=
  if c.msb then (c <<< 1) ^^^ 0x1021#16 else c <<< 1

/-- One byte of the CRC-16, most significant bit first. -/
def crc16Byte (c : BitVec 16) (b : Byte) : BitVec 16 :=
  Nat.repeat crc16Bit 8 (c ^^^ (b.zeroExtend 16 <<< 8))

/-- The CRC-16 of a list of bytes, initial value FFFFh, no final inversion (R136). -/
def crc16 (bytes : List Byte) : BitVec 16 :=
  bytes.foldl crc16Byte 0xFFFF#16

/-! ## The store array (R135) -/

/-- What an erased byte reads as (R135). -/
def erasedByte : Byte := 0xFF#8

/-- The canonical form: addresses strictly rising, no cell holding what an unlisted address reads as. -/
def Memory.wf : Memory → Bool
  | [] => true
  | [(_, v)] => decide (v ≠ erasedByte)
  | (a, v) :: (b, w) :: rest => decide (v ≠ erasedByte) && decide (a < b) && Memory.wf ((b, w) :: rest)

/-- The byte at an address: FFh where nothing is listed (R135). -/
def Memory.read : Memory → Nat → Byte
  | [], _ => erasedByte
  | (b, v) :: rest, a => if a = b then v else Memory.read rest a

/-- Lists v before what follows, unless v is what an unlisted address reads as. -/
def Memory.consCell (a : Nat) (v : Byte) (m : Memory) : Memory :=
  if v = erasedByte then m else (a, v) :: m

/-- The array with one byte set, in canonical form. -/
def Memory.write : Memory → Nat → Byte → Memory
  | [], a, v => Memory.consCell a v []
  | (b, w) :: rest, a, v =>
    if a < b then Memory.consCell a v ((b, w) :: rest)
    else if a = b then Memory.consCell a v rest
    else (b, w) :: Memory.write rest a v

/-- Programming clears bits only: FFh takes any value, a programmed byte only loses further bits (R135). -/
def Memory.program (m : Memory) (a : Nat) (v : Byte) : Memory :=
  Memory.write m a (Memory.read m a &&& v)

/-- Programs bytes at rising addresses from a. -/
def Memory.programList (m : Memory) (a : Nat) : List Byte → Memory
  | [] => m
  | v :: rest => Memory.programList (Memory.program m a v) (a + 1) rest

/-- The array with every byte from a on for n bytes erased. -/
def Memory.eraseRange (m : Memory) (a n : Nat) : Memory :=
  m.filter fun c => ¬ (a ≤ c.1 ∧ c.1 < a + n)

/-- The address of a slot's first byte. -/
def slotBase (s : SlotId) : Nat :=
  s.val * 1024

/-- The byte of a slot at an offset. -/
def slotByte (m : Memory) (s : SlotId) (off : Nat) : Byte :=
  Memory.read m (slotBase s + off)

/-- n bytes of a slot from an offset. -/
def slotBytes (m : Memory) (s : SlotId) (off n : Nat) : List Byte :=
  (List.range n).map fun i => slotByte m s (off + i)

/-- A multi-byte field of a slot, low byte first (section 8.7). -/
def slotField (m : Memory) (s : SlotId) (off size : Nat) : Nat :=
  fromLe (slotBytes m s off size)

/-- Whether the CRC over bytes 2 to 1021 agrees with bytes 1022 (high) and 1023 (low) (R136). -/
def slotCrcHolds (m : Memory) (s : SlotId) : Bool :=
  decide ((crc16 (slotBytes m s 2 1020)).toNat = 256 * (slotByte m s 1022).toNat + (slotByte m s 1023).toNat)

/-! ## Slots, ports and records in State -/

/-- The directory line of a slot (R137). -/
def dirEntry (s : State) (slot : SlotId) : DirEntry :=
  s.store.dir[slot]

/-- Changes a directory line. -/
def State.updateDir (s : State) (slot : SlotId) (f : DirEntry → DirEntry) : State :=
  { s with store := { s.store with dir := s.store.dir.set slot (f (dirEntry s slot)) } }

/-- Whether a slot is VALID or LOCKED in the directory. -/
def slotUsable (s : State) (slot : SlotId) : Bool :=
  decide ((dirEntry s slot).state = .valid ∨ (dirEntry s slot).state = .locked)

/-- The slot number a byte names, if it is 0 to 31. -/
def slotOf (b : Byte) : Option SlotId :=
  if h : b.toNat < 32 then some ⟨b.toNat, h⟩ else none

/-- Whether a checked read of a slot passes: a LOCKED slot's content does not change (R135, R157), any other is compared
with its CRC (R136). -/
def readPasses (s : State) (slot : SlotId) : Bool :=
  decide ((dirEntry s slot).state = .locked) || slotCrcHolds s.store.array slot

/-- Changes a port. -/
def State.updatePort (s : State) (p : PortId) (f : Port → Port) : State :=
  { s with ports := s.ports.set p (f s.ports[p]) }

/-- The part answers its inputs: device reset is not held (R185). -/
def State.live (s : State) : Bool :=
  decide (s.resetUnit.phase ≠ .held)

/-- The start-up scan has ended (R186). -/
def State.running (s : State) : Bool :=
  decide (s.resetUnit.phase = .running)

/-- The line is TRACKING or HALTED. -/
def State.onLine (s : State) : Bool :=
  decide (s.line.state ≠ .unset)

/-- The fill x_print − x_nip in WU (section 2.3). -/
def State.fill (s : State) : Nat :=
  s.pos.xPrint - s.pos.xNip

/-- A record is unprinted in QUEUED and READY (section 1.3). -/
def Panel.unprinted (r : Panel) : Bool :=
  match r.state with
  | .queued => true
  | .ready _ _ _ => true
  | _ => false

/-- A record is printed in PRINTING, IN_TRANSIT and TRANSFERRING. -/
def Panel.printed (r : Panel) : Bool :=
  !r.unprinted

/-- A record is READY, fetched or not. -/
def Panel.isReady (r : Panel) : Bool :=
  match r.state with
  | .ready _ _ _ => true
  | _ => false

/-- A record is READY with the fetched sub-flag "yes" (R4). -/
def Panel.isFetched (r : Panel) : Bool :=
  match r.state with
  | .ready true _ _ => true
  | _ => false

/-- A record is TRANSFERRING. -/
def Panel.isTransferring (r : Panel) : Bool :=
  decide (r.state = .transferring)

/-- A record has an open trail: printed, with no trail coordinate (3.3, R10). -/
def Panel.openTrail (r : Panel) : Bool :=
  r.printed && r.trail.isNone

/-- The slot a NORMAL record names. -/
def Panel.slot (r : Panel) : Option SlotId :=
  r.normal.map (·.slot)

/-- A record with a flag added. -/
def Panel.flag (r : Panel) (f : Flag) : Panel :=
  { r with flags := addFlag r.flags f }

/-- A record with a flag added where a condition holds. -/
def Panel.flagIf (r : Panel) (c : Bool) (f : Flag) : Panel :=
  if c then r.flag f else r

/-- The record a panel id names. -/
def findPanel (s : State) (id : Nat) : Option Panel :=
  s.queue.find? fun r => decide (r.id = id)

/-- The first unprinted record (section 1.3). -/
def firstUnprinted (s : State) : Option Panel :=
  s.queue.find? (·.unprinted)

/-- The record with an open trail (R10). -/
def openRecord (s : State) : Option Panel :=
  s.queue.find? (·.openTrail)

/-- The newest printed record: the last of the printed ones from head to tail. -/
def newestPrinted (s : State) : Option Panel :=
  (s.queue.filter (·.printed)).getLast?

/-- The newest TRANSFERRING record. -/
def newestTransferring (s : State) : Option Panel :=
  (s.queue.filter (·.isTransferring)).getLast?

/-- Changes every record of the queue that a condition picks. -/
def State.mapPanels (s : State) (c : Panel → Bool) (f : Panel → Panel) : State :=
  { s with queue := s.queue.map fun r => if c r then f r else r }

/-- Adds a flag to every TRANSFERRING record. -/
def State.flagTransferring (s : State) (f : Flag) : State :=
  s.mapPanels (·.isTransferring) (·.flag f)

/-! ## Attention (R180) -/

/-- Raises a kind: it joins the pending set of every port (R180). -/
def State.raise (s : State) (k : Attn) : State :=
  { s with ports := s.ports.map fun q => { q with pending := q.pending ||| k.bit } }

/-- Raises a kind where a condition holds. -/
def State.raiseIf (s : State) (c : Bool) (k : Attn) : State :=
  if c then s.raise k else s

/-- ATTNn of a port is asserted while its pending set and mask meet (R181). -/
def attnAsserted (s : State) (p : PortId) : Bool :=
  decide (s.ports[p].pending &&& s.ports[p].mask ≠ 0)

/-! ## Line control (chapter 9) -/

/-- HOLDn is asserted exactly when the line is not TRACKING or a hold reason is present (R169). -/
def holdAsserted (s : State) : Bool :=
  decide (s.line.state ≠ .tracking) || s.line.hold.any

/-- STOPOUTn is asserted exactly when the line is HALTED (R169). -/
def stopoutAsserted (s : State) : Bool :=
  decide (s.line.state = .halted)

/-- PACE is high in the two high pulse states (R93). -/
def paceHigh (s : State) : Bool :=
  match s.pace.pulse with
  | .high => true
  | .highPending => true
  | _ => false

/-- Changes the hold reason set. -/
def State.updateHold (s : State) (f : HoldSet → HoldSet) : State :=
  { s with line := { s.line with hold := f s.line.hold } }

/-- The stop record of a latch (Table 36). -/
def latchRecord (s : State) (c : StopCause) : StopRecord :=
  { firstCause := c
    xPrint := s.pos.xPrint
    xNip := s.pos.xNip
    interrupted := (openRecord s).map (·.id)
    transferring := (s.queue.filter (·.isTransferring)).length
    furtherCount := 0
    lastFurther := none
    released := false }

/-- A further cause in the stop record (R162). -/
def StopRecord.further (r : StopRecord) (c : StopCause) : StopRecord :=
  { r with furtherCount := saturatingSucc 255 r.furtherCount, lastFurther := some c }

/-- A raised cause (R160): nothing in UNSET, a latch in TRACKING (R161), a further cause in HALTED (R162). The record with
an open trail gains STOPPED_DURING_PRINT in both. -/
def raiseCause (s : State) (c : StopCause) : State :=
  match s.line.state with
  | .unset => s
  | .tracking =>
    (({ s with line := { s.line with state := .halted, stop := some (latchRecord s c) } } : State).mapPanels
      (·.openTrail) (·.flag .stoppedDuringPrint)).raise .lineHalted
  | .halted =>
    ({ s with line := { s.line with stop := s.line.stop.map (·.further c) } } : State).mapPanels
      (·.openTrail) (·.flag .stoppedDuringPrint)

/-- Every stop cause, in the order of Table 35. -/
def allCauses : List StopCause :=
  [.break, .external, .requested, .fillLowLimit, .fillHighLimit, .registrationLost, .trackingLost, .nipOverrun,
    .measureLost, .coordLimit]

/-- The causes of one event in the order of Table 35, a cause raised twice counting twice (R160). -/
def orderCauses (cs : List StopCause) : List StopCause :=
  allCauses.flatMap fun c => cs.filter fun d => decide (d = c)

/-- Ends an event: line control takes its causes (R160), and HOLD_CHANGED is raised when the level of HOLDn after the event
differs from the level before it (R170). -/
def closeEvent (before s : State) (causes : List StopCause) : State :=
  let t := (orderCauses causes).foldl raiseCause s
  t.raiseIf (holdAsserted before != holdAsserted t) .holdChanged

/-- UNREADY is present while hold-on-unready is set and the first unprinted record is not READY (R86). -/
def unreadyHolds (s : State) : Bool :=
  match s.line.active, firstUnprinted s with
  | some m, some r => m.holdOnUnready && !r.isReady
  | _, _ => false

/-- Brings UNREADY to its condition, within an event that may have changed it (R86). -/
def syncUnready (s : State) : State :=
  s.updateHold fun h => { h with unready := unreadyHolds s }

/-- The calender is moving: a record is active and |v_cal| is at or above v_min, in either direction (R131). -/
def calenderMoving (s : State) : Bool :=
  match s.line.active with
  | some m => decide (m.vMin ≤ s.pos.vCal.magnitude)
  | none => false

/-- A zone is fresh. -/
def Zone.isFresh (z : Zone) : Bool :=
  decide (z.standing = .fresh)

/-- The stale start of a stale zone. -/
def Zone.staleSince (z : Zone) : Option Nat :=
  match z.standing with
  | .fresh => none
  | .stale t => some t

/-- The four tension zones in the order of R119. -/
def Tension.zones (t : Tension) : List Zone :=
  [t.paperIn, t.fabricUnwind, t.calIn, t.fabricRewind]

/-- Since when a table has been stale: the earliest stale expiry among its stale zones; none while every zone is fresh
(R100, R121). -/
def tableStaleSince (zones : List Zone) : Option Nat :=
  (zones.filterMap Zone.staleSince).min?

/-- STALE is present while the calender is moving and a table is stale (R131). -/
def staleHolds (s : State) : Bool :=
  calenderMoving s && ((tableStaleSince s.dose.zones).isSome || (tableStaleSince s.tension.zones).isSome)

/-- Brings STALE to its condition, within an event that may have changed it (R131). -/
def syncStale (s : State) : State :=
  s.updateHold fun h => { h with stale := staleHolds s }

/-! ## Governing record (R113) -/

/-- The record that governs the heat advice and the tension targets: the newest TRANSFERRING record with profile copies,
else the oldest IN_TRANSIT record with them (R113, R123). -/
def governing (s : State) : Option (Panel × Correction) :=
  let withCopies := s.queue.filterMap fun r => r.correction.map fun c => (r, c)
  match (withCopies.filter fun rc => rc.1.isTransferring).getLast? with
  | some rc => some rc
  | none => withCopies.find? fun rc => decide (rc.1.state = .inTransit)

end Sys2Proof.Machine
end

