-- ==== Sys2Proof/Machine/Operands.lean ====
section
/-!
DEFINITION. The content of slots read as records (section 8.7) and its checks (R151); responses and their frames (R191 to
R193); and how a port serves an accepted request (R192).
-/
namespace Sys2Proof.Machine

/-! ## Slot content (Tables 31 and 32) -/

/-- The machine record a slot's content spells (Table 32). -/
def parseMachineRecord (a : Memory) (s : SlotId) : MachineRecord :=
  { zoneCount := slotField a s 3 1
    name := slotBytes a s 4 16
    pencRes := slotField a s 20 4
    cencRes := slotField a s 24 4
    fencRes := slotField a s 28 4
    gateActiveLow := decide (slotField a s 32 1 = 1)
    filterInterval := 4 ^ slotField a s 33 1
    arcLen := slotField a s 34 2
    drumWidth := slotField a s 36 2
    markLead := slotField a s 38 4
    blankLen := slotField a s 42 2
    syncLimit := slotField a s 44 2
    haltOnNonMatch := decide (slotField a s 46 1 = 1)
    holdOnUnready := decide (slotField a s 47 1 = 1)
    stopLow := slotField a s 48 4
    warnLow := slotField a s 52 4
    resume := slotField a s 56 4
    holdHigh := slotField a s 60 4
    stopHigh := slotField a s 64 4
    lengthTolerance := slotField a s 68 2
    nominalSpeed := slotField a s 70 2
    vMin := slotField a s 72 2
    slipLimit := slotField a s 74 4
    tempStaleMs := slotField a s 78 2
    tensionStaleMs := slotField a s 80 2
    hardStaleMs := slotField a s 82 2
    fallbackTemp := slotField a s 84 2
    fallbackDRef := slotField a s 86 4
    scorchLimit := slotField a s 90 2
    spreadLimit := slotField a s 92 2
    t0 := slotField a s 94 2
    tempStep := slotField a s 96 1
    rates := (List.range 16).map fun k => slotField a s (98 + 2 * k) 2
    refreshInterval := slotField a s 130 2
    pitch := slotField a s 132 4
    defaultPaperIn := slotField a s 136 2
    defaultFabricUnwind := slotField a s 138 2
    defaultCalIn := slotField a s 140 2
    defaultFabricRewind := slotField a s 142 2
    rampRate := slotField a s 144 2
    excursionBand := slotField a s 146 2
    coreDiameter := slotField a s 148 2
    maxDiameter := slotField a s 150 2 }

/-- One channel block of a profile (Table 31). -/
def parseChannel (a : Memory) (s : SlotId) (c : Nat) : Channel :=
  { base := slotField a s (64 + 16 * c) 2
    limit := slotField a s (66 + 16 * c) 2
    curve := (List.range 5).map fun i => slotField a s (68 + 16 * c + 2 * i) 2 }

/-- The profile a slot's content spells (Table 31, R72). -/
def parseProfile (a : Memory) (s : SlotId) : Profile :=
  { channels := (List.range (slotField a s 3 1)).map (parseChannel a s)
    inkLimit := slotField a s 20 2
    stretch := slotField a s 28 2
    neck := slotField a s 30 2
    copies :=
      { dRef := slotField a s 22 4
        band := slotField a s 26 2
        baseTension := slotField a s 32 2
        paperTension := slotField a s 34 2
        taper := slotField a s 36 1 } }

/-- A field of a layout with its range. -/
structure FieldRange where
  offset : Nat
  size : Nat
  low : Nat
  high : Nat
  deriving DecidableEq, Repr

/-- The format code of a slot: 4Dh for slot 0, 50h for the others (R151). -/
def formatCode (s : SlotId) : Nat :=
  if s.val = 0 then 0x4D else 0x50

/-- The ranges of Table 32 in ascending offset order. -/
def machineRecordRanges : List FieldRange :=
  [⟨2, 1, 0x4D, 0x4D⟩, ⟨3, 1, 1, 8⟩, ⟨20, 4, 1000, 200000⟩, ⟨24, 4, 1000, 200000⟩, ⟨28, 4, 1000, 200000⟩, ⟨32, 1, 0, 1⟩,
    ⟨33, 1, 0, 3⟩, ⟨34, 2, 500, 8000⟩, ⟨36, 2, 1000, 4000⟩, ⟨38, 4, 0, 100000⟩, ⟨42, 2, 50, 20000⟩, ⟨44, 2, 10, 2000⟩,
    ⟨46, 1, 0, 1⟩, ⟨47, 1, 0, 1⟩, ⟨48, 4, 40000, 500000⟩, ⟨52, 4, 0, 500000⟩, ⟨56, 4, 0, 500000⟩, ⟨60, 4, 0, 500000⟩,
    ⟨64, 4, 0, 500000⟩, ⟨68, 2, 10, 2000⟩, ⟨70, 2, 10, 2000⟩, ⟨72, 2, 1, 50⟩, ⟨74, 4, 100, 100000⟩, ⟨78, 2, 100, 10000⟩,
    ⟨80, 2, 100, 10000⟩, ⟨82, 2, 100, 60000⟩, ⟨84, 2, 0, 3000⟩, ⟨86, 4, 1000, 120000⟩, ⟨90, 2, 1100, 3000⟩, ⟨92, 2, 0, 300⟩,
    ⟨94, 2, 1000, 2500⟩, ⟨96, 1, 5, 50⟩] ++
  ((List.range 16).map fun k => ⟨98 + 2 * k, 2, 50, 4000⟩) ++
  [⟨130, 2, 500, 60000⟩, ⟨132, 4, 10000, 200000⟩, ⟨136, 2, 0, 5000⟩, ⟨138, 2, 0, 5000⟩, ⟨140, 2, 0, 5000⟩, ⟨142, 2, 0, 5000⟩,
    ⟨144, 2, 1, 1000⟩, ⟨146, 2, 5, 500⟩, ⟨148, 2, 50, 600⟩, ⟨150, 2, 200, 2000⟩]

/-- The ranges of Table 31 for a profile of n channels, in ascending offset order. -/
def profileRanges (n : Nat) : List FieldRange :=
  [⟨2, 1, 0x50, 0x50⟩, ⟨3, 1, 1, 8⟩, ⟨20, 2, 100, 800⟩, ⟨22, 4, 1000, 120000⟩, ⟨26, 2, 10, 300⟩, ⟨28, 2, 0, 400⟩,
    ⟨30, 2, 0, 400⟩, ⟨32, 2, 20, 1500⟩, ⟨34, 2, 10, 800⟩, ⟨36, 1, 0, 50⟩] ++
  (List.range n).flatMap fun c =>
    [⟨64 + 16 * c, 2, 1024, 8192⟩, ⟨66 + 16 * c, 2, 1024, 8192⟩] ++
      (List.range 5).map fun i => ⟨68 + 16 * c + 2 * i, 2, 1024, 8192⟩

/-- The offset of the first field out of its range (R151). -/
def firstOutOfRange (a : Memory) (s : SlotId) (fields : List FieldRange) : Option Nat :=
  (fields.find? fun f => decide (slotField a s f.offset f.size < f.low ∨ f.high < slotField a s f.offset f.size)).map
    (·.offset)

/-- The offset of the first field of a chain that is not greater than the field before it (R151). -/
def firstNotRising (a : Memory) (s : SlotId) (size : Nat) : List Nat → Option Nat
  | x :: y :: rest =>
    if slotField a s x size < slotField a s y size then firstNotRising a s size (y :: rest) else some y
  | _ => none

/-- The relations of a profile: each channel limit is at least its base gain; a failure reports the base gain (R151). -/
def profileRelations (a : Memory) (s : SlotId) (n : Nat) : Option Nat :=
  ((List.range n).find? fun c => decide (slotField a s (66 + 16 * c) 2 < slotField a s (64 + 16 * c) 2)).map
    fun c => 64 + 16 * c

/-- Reports an offset where a relation fails. -/
def failsAt (fails : Bool) (offset : Nat) : Option Nat :=
  if fails then some offset else none

/-- The relations of a machine record in the order of R151. -/
def machineRecordRelations (a : Memory) (s : SlotId) : Option Nat :=
  (firstNotRising a s 2 ((List.range 16).map fun k => 98 + 2 * k)).or <|
  (firstNotRising a s 4 [48, 52, 56, 60, 64]).or <|
  (failsAt (decide (slotField a s 82 2 < slotField a s 78 2)) 78).or <|
  (failsAt (decide (slotField a s 82 2 < slotField a s 80 2)) 80).or <|
  (failsAt (decide (slotField a s 150 2 ≤ slotField a s 148 2)) 150).or <|
  failsAt (decide (slotField a s 132 4 * 950000 / 1000000 < slotField a s 20 4)) 132

/-- The content check of a commit: the offset of the first failing field, none when all passes (R151). -/
def contentFault (a : Memory) (s : SlotId) : Option Nat :=
  if s.val = 0 then
    (firstOutOfRange a s machineRecordRanges).or (machineRecordRelations a s)
  else
    (firstOutOfRange a s (profileRanges (slotField a s 3 1))).or (profileRelations a s (slotField a s 3 1))

/-! ## Responses (R193, Table 44) -/

/-- Refusal reasons (Table 44). -/
inductive Reason where
  | notPermitted | badArg | noSuchPanel | tooLate | queueFull | noProfile | inUse | locked | alreadyWritten | badCheck
  | badContent | notReady | stillActive | noMachineRecord | wrongState | badRequest
  deriving DecidableEq, Repr

/-- Reason codes (Table 44). -/
def Reason.code : Reason → Nat
  | .notPermitted => 0x01
  | .badArg => 0x02
  | .noSuchPanel => 0x03
  | .tooLate => 0x04
  | .queueFull => 0x05
  | .noProfile => 0x06
  | .inUse => 0x07
  | .locked => 0x08
  | .alreadyWritten => 0x09
  | .badCheck => 0x0A
  | .badContent => 0x0B
  | .notReady => 0x0C
  | .stillActive => 0x0D
  | .noMachineRecord => 0x0E
  | .wrongState => 0x0F
  | .badRequest => 0x10

/-- What a request's owner answers: a response placed on the take event, or `later`, when the operation ends (R191). -/
inductive Reply where
  | done (fields : List Byte)
  | clamped (fields : List Byte)
  | refused (reason : Reason)
  | badContent (offset : Nat)
  | linkError
  | later
  deriving DecidableEq, Repr

/-- A response frame: length low byte first, code, payload, CRC-8 (Table 42, R193). -/
def responseFrame (code : Nat) (payload : List Byte) : List Byte :=
  let body := leBytes 2 (payload.length + 1) ++ byte code :: payload
  body ++ [crc8 body]

/-- The frame of a reply to a request code (R193); none while the answer is to come. -/
def Reply.frame (request : Byte) : Reply → Option (List Byte)
  | .done fields => some (responseFrame 0x80 (request :: fields))
  | .clamped fields => some (responseFrame 0x81 (request :: fields))
  | .refused r => some (responseFrame 0x82 [request, byte r.code])
  | .badContent offset => some (responseFrame 0x82 (request :: byte Reason.badContent.code :: leBytes 2 offset))
  | .linkError => some (responseFrame 0x83 [])
  | .later => none

/-- DONE, or DONE_CLAMPED when a value the request carried was clamped. -/
def doneOr (clamped : Bool) (fields : List Byte) : Reply :=
  if clamped then .clamped fields else .done fields

/-! ## Serving a request (R189 to R192) -/

/-- What serving a request gives: the state, the stop causes it raised and the reply. -/
structure Served where
  st : State
  causes : List StopCause
  reply : Reply

/-- A reply that raises no cause. -/
def Served.of (s : State) (r : Reply) : Served :=
  { st := s, causes := [], reply := r }

/-- A request that is refused changes nothing. -/
def Served.refuse (s : State) (r : Reason) : Served :=
  Served.of s (.refused r)

/-- Accepts a frame: the port executes and its buffer is emptied (R191). -/
def Port.accept (q : Port) : Port :=
  { q with executing := true, response := none }

/-- Places a reply: the port is idle and holds the frame; a reply to come leaves it executing (R191). -/
def Port.place (q : Port) (request : Byte) (r : Reply) : Port :=
  match r.frame request with
  | some f => { q with executing := false, response := some f }
  | none => q

/-- Places a reply in a port of the state. -/
def State.answer (s : State) (p : PortId) (request : Byte) (r : Reply) : State :=
  s.updatePort p fun q => q.place request r

/-- A frame can be taken on a port: the scan has ended and the port does not execute (R190: BUSY is clear). -/
def portFree (s : State) (p : PortId) : Bool :=
  s.running && !s.ports[p].executing

/-- An accepted frame handed to its owner after the role check (R192 steps 2 and 4), as one event. -/
def serve (p : PortId) (request : Byte) (allowed : Role → Bool) (owner : State → Served) (s : State) : State :=
  if allowed s.ports[p].role then
    let r := owner (s.updatePort p Port.accept)
    closeEvent s (r.st.answer p request r.reply) r.causes
  else (s.updatePort p Port.accept).answer p request (.refused .notPermitted)

/-- A request row: the request's frame taken on a port. A frame in a transaction that shows BUSY is discarded (R190). -/
def takeRequest (p : PortId) (request : Byte) (allowed : Role → Bool) (owner : State → Served) (s : State) : State :=
  if portFree s p then serve p request allowed owner s else s

/-- Requests of all roles (Table 43). -/
def anyRole (_ : Role) : Bool := true

/-- Requests of PRODUCTION alone. -/
def onlyProduction (r : Role) : Bool := decide (r = .production)

/-- Requests of PRINT alone. -/
def onlyPrint (r : Role) : Bool := decide (r = .print)

/-- Requests of CALENDER alone. -/
def onlyCalender (r : Role) : Bool := decide (r = .calender)

/-- Requests of DRIVE alone. -/
def onlyDrive (r : Role) : Bool := decide (r = .drive)

/-- STOP: every role but OBSERVER. -/
def anyStation (r : Role) : Bool := decide (r ≠ .observer)

/-- HOLD and UNHOLD: PRODUCTION, CALENDER and DRIVE. -/
def holdRoles (r : Role) : Bool := decide (r = .production ∨ r = .calender ∨ r = .drive)

/-- RELEASE_STOP: CALENDER and DRIVE. -/
def releaseRoles (r : Role) : Bool := decide (r = .calender ∨ r = .drive)

end Sys2Proof.Machine
end

