-- ==== Sys2Proof/Machine/Pace.lean ====
section
/-!
DEFINITION. Chapter 5: the pace generator, its threshold, its counts and its pulse state.
-/
namespace Sys2Proof.Machine

/-- Changes the pace generator. -/
def State.updatePace (s : State) (f : Pace → Pace) : State :=
  { s with pace := f s.pace }

/-- The threshold for a scale in ppm (R90). -/
def paceThreshold (m : MachineRecord) (scale : Nat) : Nat :=
  roundNat (m.pitch * scale) 1000000

/-- The nominal threshold: scale 1,000,000, which is the pitch (R90). -/
def nominalThreshold (m : MachineRecord) : Nat :=
  paceThreshold m 1000000

/-- A pulse falls due in a pulse state: the next state, and whether a pulse is lost (R93). -/
def pulseDue : PulseState → PulseState × Bool
  | .idle => (.high, false)
  | .high => (.highPending, false)
  | .highPending => (.highPending, true)
  | .gap => (.gapPending, false)
  | .gapPending => (.gapPending, true)

/-- 1 µs elapses in a pulse state (R93). -/
def pulseElapse : PulseState → PulseState
  | .idle => .idle
  | .high => .gap
  | .highPending => .gapPending
  | .gap => .idle
  | .gapPending => .high

/-- A pulse due at a count: the counts rise and the output takes it (R91, R93). -/
def Pace.due (g : Pace) : Pace :=
  { g with
    pulse := (pulseDue g.pulse).1
    total := (g.total + 1) % 4294967296
    panel := saturatingSucc 65535 g.panel
    lost := if (pulseDue g.pulse).2 then saturatingSucc 65535 g.lost else g.lost }

/-- A forward count taken into x_print: the resolution is added, and at or above the threshold one pulse falls due and the
threshold is subtracted once (R91). -/
def Pace.forward (g : Pace) (res : Nat) : Pace :=
  match g.threshold with
  | some th =>
    if th ≤ g.accumulator + res then { g.due with accumulator := g.accumulator + res - th }
    else { g with accumulator := g.accumulator + res }
  | none => g

/-- A reverse count taken into x_print: the resolution is subtracted, never below 0 (R92). -/
def Pace.backward (g : Pace) (res : Nat) : Pace :=
  { g with accumulator := g.accumulator - res }

/-- The threshold and the scale source return to nominal (R95). -/
def paceNominal (s : State) : State :=
  match s.line.active with
  | some m => s.updatePace fun g => { g with threshold := some (nominalThreshold m), source := none }
  | none => s

/-- The generator takes the record that a rising edge has left with an open trail: its correction's scale, else nominal; the
panel pulse count starts again and the accumulator is kept (R94). -/
def paceAtEdge (s : State) : State :=
  let t :=
    match s.line.active, (openRecord s).bind fun r => r.correction.map fun c => (r.id, c.along) with
    | some m, some (id, along) =>
      s.updatePace fun g => { g with threshold := some (paceThreshold m along), source := some { panel := id, along := along } }
    | _, _ => paceNominal s
  t.updatePace fun g => { g with panel := 0 }

/-- The pulse state after a line clear: a held pulse is discarded, the pulse on the pin ends as it stands (R96). -/
def PulseState.withoutPending : PulseState → PulseState
  | .highPending => .high
  | .gapPending => .gap
  | p => p

/-- The generator after a completed line clear under a record (R96). -/
def Pace.clear (g : Pace) (m : MachineRecord) : Pace :=
  { accumulator := 0
    threshold := some (nominalThreshold m)
    source := none
    pulse := g.pulse.withoutPending
    total := 0
    panel := 0
    lost := 0 }

/-- PACE_PULSE_TIMER: 1 µs of a PACE high level or gap elapses (R93). -/
def execPacePulseTimer (s : State) : Host.Outcome State Fault Refusal :=
  .next (s.updatePace fun g => { g with pulse := pulseElapse g.pulse })

end Sys2Proof.Machine
end

