-- ==== Sys2Proof/Machine/Records.lean ====
section
/-!
DEFINITION. Chapter 10, the transfer record queue: offers (R174 to R176) and the requests READ_RECORDS, ACK_RECORDS and
SET_RECORD_QUEUE (R177 to R179).
-/
namespace Sys2Proof.Machine

/-- The most transfer records the queue holds (R173). -/
def recordCapacity : Nat := 32

/-- Whether the filter passes an outcome (R174). -/
def filterPasses : QueueFilter → PanelOutcome → Bool
  | .all, _ => true
  | .exceptions, o => decide (o ≠ .good)
  | .none, _ => false

/-- Changes the transfer record queue. -/
def State.updateRecords (s : State) (f : RecordQueue → RecordQueue) : State :=
  { s with records := f s.records }

/-- Appends a record at the tail; RECORD_WATERMARK when the count reaches the watermark from one below it (R175, R176). -/
def appendRecord (s : State) (t : TransferRecord) : State :=
  (s.updateRecords fun q => { q with list := q.list ++ [t] }).raiseIf
    (decide (s.records.watermark ≠ 0 ∧ s.records.list.length + 1 = s.records.watermark)) .recordWatermark

/-- An offer to a full queue: BLOCKING drops it and loses it, OVERWRITE drops the oldest (R175). -/
def offerToFull (s : State) (t : TransferRecord) : State :=
  match s.records.mode with
  | .blocking =>
    (s.updateRecords fun q => { q with lost := true, drops := saturatingSucc 65535 q.drops }).raise .recordLost
  | .overwrite =>
    s.updateRecords fun q => { q with list := q.list.tail ++ [t], drops := saturatingSucc 65535 q.drops }

/-- A transfer record offered by a completion: filtered, then appended, dropped or overwriting (R174, R175). -/
def offerRecord (s : State) (t : TransferRecord) : State :=
  if filterPasses s.records.filter t.outcome then
    if s.records.list.length < recordCapacity then appendRecord s t else offerToFull s t
  else s

/-! ## Requests -/

/-- One entry of READ_RECORDS: presence of the NORMAL fields, the sync error, q_pred and q_act, then every field of R172
(R177, R194; layout: notes/assumptions/12.md). -/
def recordEntry (t : TransferRecord) : List Byte :=
  presence 2 [t.jobId.isSome, t.syncError.isSome, t.qPred.isSome, t.qAct.isSome] ++
  leBytes 2 t.id ++ leBytes 4 ((t.jobId.getD 0).toNat) ++ leBytes 1 ((t.slot.map (·.val)).getD 0) ++
  leOption 2 t.generation ++ leBytes 1 t.outcome.code ++ leBytes 4 t.flags.toNat ++
  leBytes 4 t.lead ++ leBytes 4 t.trail ++ leBytes 4 t.length ++ leSigned 4 (t.syncError.getD 0) ++
  leOption 2 t.qPred ++ leBytes 4 t.dAct ++ leBytes 4 t.probeMin ++ leBytes 4 t.probeMax ++ leOption 2 t.qAct

/-- The response fields of READ_RECORDS (R177). -/
def recordsPayload (n : Nat) (q : RecordQueue) : List Byte :=
  leBytes 1 (min n q.list.length) ++ (q.list.take n).flatMap recordEntry ++ leBytes 1 q.list.length ++
  leBytes 1 q.mode.code ++ leBytes 1 q.watermark ++ leBytes 1 q.filter.code ++ indication q.lost ++ leBytes 2 q.drops

/-- READ_RECORDS(n), n from 1 to 4; nothing changes (R177). -/
def readRecordsOwner (n : Byte) (s : State) : Served :=
  if 1 ≤ n.toNat ∧ n.toNat ≤ 4 then Served.of s (.done (recordsPayload n.toNat s.records))
  else Served.refuse s .badArg

/-- ACK_RECORDS(n): the oldest n leave, or with n = 0 the lost flag and the drop count are cleared (R178). -/
def ackRecordsOwner (n : Byte) (s : State) : Served :=
  if n.toNat = 0 then
    Served.of (s.updateRecords fun q => { q with lost := false, drops := 0 })
      (.done (leBytes 1 0 ++ leBytes 1 s.records.list.length))
  else
    Served.of (s.updateRecords fun q => { q with list := q.list.drop n.toNat })
      (doneOr (decide (s.records.list.length < n.toNat))
        (leBytes 1 (min n.toNat s.records.list.length) ++ leBytes 1 (s.records.list.length - n.toNat)))

/-- SET_RECORD_QUEUE(mode, watermark, filter) (R179). -/
def setRecordQueueOwner (mode watermark filter : Byte) (s : State) : Served :=
  match queueModeOf mode, queueFilterOf filter with
  | some m, some f =>
    if watermark.toNat ≤ 32 then
      Served.of (s.updateRecords fun q => { q with mode := m, watermark := watermark.toNat, filter := f }) (.done [])
    else Served.refuse s .badArg
  | _, _ => Served.refuse s .badArg

/-- READ_RECORDS on a port. -/
def execReadRecords (p : PortId) (n : Byte) (s : State) : Host.Outcome State Fault Refusal :=
  .next (takeRequest p 0x15 anyRole (readRecordsOwner n) s)

/-- ACK_RECORDS on a port. -/
def execAckRecords (p : PortId) (n : Byte) (s : State) : Host.Outcome State Fault Refusal :=
  .next (takeRequest p 0x25 onlyProduction (ackRecordsOwner n) s)

/-- SET_RECORD_QUEUE on a port. -/
def execSetRecordQueue (p : PortId) (mode watermark filter : Byte) (s : State) : Host.Outcome State Fault Refusal :=
  .next (takeRequest p 0x26 onlyProduction (setRecordQueueOwner mode watermark filter) s)

end Sys2Proof.Machine
end

