-- ==== Sys2Proof/Machine/Correction.lean ====
section
/-!
DEFINITION. Chapter 3: the stages A to G of a correction, in exact integer arithmetic (R66), and the correction record.
Stages A to C serve the dose unit too (R104, R105, R113).
-/
namespace Sys2Proof.Machine

/-! ## Stage A: dwell (R55) -/

/-- The predicted calender speed: v_cal when forward and at or above v_min, else the nominal speed (R55). -/
def predictedSpeed (m : MachineRecord) (v : Speed) : Nat :=
  if v.reverse = false ∧ m.vMin ≤ v.magnitude then v.magnitude else m.nominalSpeed

/-- The dwell in ms before its clamp (R55). -/
def rawDwell (m : MachineRecord) (v : Speed) : Nat :=
  roundNat (m.arcLen * 1000) (predictedSpeed m v)

/-- The dwell in ms, clamped to 1,000 to 600,000 (R55). -/
def stageDwell (m : MachineRecord) (v : Speed) : Nat :=
  clampNat 1000 600000 (rawDwell m v)

/-! ## Stage B: drum temperature (R56, R57) -/

/-- The width of a drum zone in mm (R56). -/
def zoneWidth (m : MachineRecord) : Nat :=
  m.drumWidth / m.zoneCount

/-- Whether zone i is covered by a panel of a width centred on the drum (R56). -/
def zoneCovered (m : MachineRecord) (width i : Nat) : Bool :=
  let used := min width m.drumWidth
  let left := (m.drumWidth - used) / 2
  decide (i * zoneWidth m < left + used ∧ left < (i + 1) * zoneWidth m)

/-- The zones a panel covers, in zone order (R56). -/
def coveredZones (m : MachineRecord) (width : Nat) : List Nat :=
  (List.range m.zoneCount).filter (zoneCovered m width)

/-- The rounded mean of values (R57, R104). -/
def meanOf (values : List Nat) : Nat :=
  roundNat values.sum values.length

/-- The values of the listed zones that are fresh. -/
def freshValues (zones : List (Nat × Bool)) (picked : List Nat) : List Nat :=
  picked.filterMap fun i => (zones[i]?).bind fun z => if z.2 then some z.1 else none

/-- The values of the listed zones, fresh or stale. -/
def anyValues (zones : List (Nat × Bool)) (picked : List Nat) : List Nat :=
  picked.filterMap fun i => (zones[i]?).map (·.1)

/-! ## Stage C: sublimation rate (R58) -/

/-- The rate r_k of the rate table. -/
def rateAt (m : MachineRecord) (k : Nat) : Nat :=
  m.rates.getD k 0

/-- The top of the rate table (R58). -/
def tableTop (m : MachineRecord) : Nat :=
  m.t0 + 15 * m.tempStep

/-- The rate at a temperature: r0 below T0, r15 from the top on, else interpolated (R58). -/
def stageRate (m : MachineRecord) (t : Nat) : Nat :=
  if t < m.t0 then rateAt m 0
  else if tableTop m ≤ t then rateAt m 15
  else
    let k := (t - m.t0) / m.tempStep
    let rest := (t - m.t0) - k * m.tempStep
    ((rateAt m k : Int) + roundInt (((rateAt m (k + 1) : Int) - rateAt m k) * rest) m.tempStep).toNat

/-- Whether Stage C clamps: below T0 or above the top of the table (R58). -/
def rateClamps (m : MachineRecord) (t : Nat) : Bool :=
  decide (t < m.t0 ∨ tableTop m < t)

/-! ## Stages D and E: dose and dose ratio (R59, R60) -/

/-- D_pred in dms (R59). -/
def stageDose (dwell rate : Nat) : Nat :=
  roundNat (dwell * rate) 1000

/-- q_pred before its clamp: q_raw + trim (R60). -/
def rawRatio (dose dRef : Nat) (trim : Int) : Int :=
  (roundNat (dose * 1000) dRef : Int) + trim

/-- q_pred, clamped to 500 to 1,500 (R60). -/
def stageRatio (dose dRef : Nat) (trim : Int) : Nat :=
  (clampInt 500 1500 (rawRatio dose dRef trim)).toNat

/-! ## Stage F: ink gains (R61 to R63) -/

/-- A curve read at q: its end values at or beyond 600 and 1,400, else the segment's interpolation (R61). -/
def curveAt (curve : List Nat) (q : Nat) : Nat :=
  if q ≤ 600 then curve.getD 0 0
  else if 1400 ≤ q then curve.getD 4 0
  else
    let i := (q - 600) / 200
    let x0 := 600 + 200 * i
    let left : Int := curve.getD i 0
    let right : Int := curve.getD (i + 1) 0
    (left + roundInt ((right - left) * (q - x0 : Nat)) 200).toNat

/-- g1 before the channel limit (R62). -/
def rawGain (c : Channel) (q : Nat) : Nat :=
  roundNat (curveAt c.curve q * c.base) 4096

/-- g1 clamped to the channel limit (R62). -/
def limitedGain (c : Channel) (q : Nat) : Nat :=
  min (rawGain c q) c.limit

/-- The coverage-weighted sum S of gains (R63). -/
def weightedSum (coverage gains : List Nat) : Nat :=
  (List.zipWith (· * ·) coverage gains).sum

/-- The gains bounded by the total ink limit L (R63). -/
def inkScaled (coverage g1 : List Nat) (inkLimit : Nat) : List Nat :=
  if inkLimit * 4096 < weightedSum coverage g1 then
    g1.map fun g => g * inkLimit * 4096 / weightedSum coverage g1
  else g1

/-! ## Stage G: target tension and image scales (R64, R65) -/

/-- T_t in N/m, clamped to 0 to 2,000 (R64). -/
def stageTension (base : Nat) (bias : Int) : Nat :=
  (clampInt 0 2000 ((base : Int) + bias)).toNat

/-- along before its clamp (R65). -/
def rawAlong (k t : Nat) : Int :=
  1000000 + (k * t : Nat)

/-- cross before its clamp (R65). -/
def rawCross (n t : Nat) : Int :=
  1000000 - (n * t : Nat)

/-- An image scale, clamped to 950,000 to 1,050,000 ppm (R65). -/
def clampScale (x : Int) : Nat :=
  (clampInt 950000 1050000 x).toNat

/-! ## The computation (R52, R53, R66 to R68) -/

/-- The fresh covered values a computation uses (R57). -/
def snapshotFresh (s : Snapshot) : List Nat :=
  freshValues s.zones (coveredZones s.machine s.width)

/-- T_pred: the mean of the fresh covered zones, else the fallback temperature (R57). -/
def snapshotTemperature (s : Snapshot) : Nat :=
  if (snapshotFresh s).isEmpty then s.machine.fallbackTemp else meanOf (snapshotFresh s)

/-- The dose of Stage D on a snapshot. -/
def snapshotDose (s : Snapshot) : Nat :=
  stageDose (stageDwell s.machine s.vCal) (stageRate s.machine (snapshotTemperature s))

/-- q_pred of a snapshot. -/
def snapshotRatio (s : Snapshot) : Nat :=
  stageRatio (snapshotDose s) s.profile.copies.dRef s.trim

/-- g1 of every channel, in channel order. -/
def snapshotG1 (s : Snapshot) : List Nat :=
  s.profile.channels.map fun c => limitedGain c (snapshotRatio s)

/-- T_t of a snapshot. -/
def snapshotTension (s : Snapshot) : Nat :=
  stageTension s.profile.copies.baseTension s.bias

/-- The correction a snapshot gives (R67). -/
def computeCorrection (s : Snapshot) : Correction :=
  { qPred := snapshotRatio s
    dwell := stageDwell s.machine s.vCal
    tPred := snapshotTemperature s
    targetTension := snapshotTension s
    gains := inkScaled s.coverage (snapshotG1 s) s.profile.inkLimit
    along := clampScale (rawAlong s.profile.stretch (snapshotTension s))
    cross := clampScale (rawCross s.profile.neck (snapshotTension s))
    generation := s.generation
    copies := s.profile.copies }

/-- Stages A, C or E clamp (R55, R58, R60). -/
def snapshotDoseClamped (s : Snapshot) : Bool :=
  decide (stageDwell s.machine s.vCal ≠ rawDwell s.machine s.vCal) ||
    rateClamps s.machine (snapshotTemperature s) ||
    decide ((snapshotRatio s : Int) ≠ rawRatio (snapshotDose s) s.profile.copies.dRef s.trim)

/-- A channel limit acts (R62). -/
def snapshotInkLimited (s : Snapshot) : Bool :=
  s.profile.channels.any fun c => decide (c.limit < rawGain c (snapshotRatio s))

/-- The total ink limit acts (R63). -/
def snapshotInkScaled (s : Snapshot) : Bool :=
  decide (s.profile.inkLimit * 4096 < weightedSum s.coverage (snapshotG1 s))

/-- A scale is clamped (R65). -/
def snapshotScaleClamped (s : Snapshot) : Bool :=
  decide ((clampScale (rawAlong s.profile.stretch (snapshotTension s)) : Int) ≠
      rawAlong s.profile.stretch (snapshotTension s)) ||
    decide ((clampScale (rawCross s.profile.neck (snapshotTension s)) : Int) ≠
      rawCross s.profile.neck (snapshotTension s))

/-- The flags a computation produces, as one set (R66). -/
def computeFlags (s : Snapshot) : FlagSet :=
  addFlagIf (snapshotFresh s).isEmpty .unverified <|
  addFlagIf (snapshotDoseClamped s) .doseClamped <|
  addFlagIf (snapshotInkLimited s) .inkLimited <|
  addFlagIf (snapshotInkScaled s) .inkScaled <|
  addFlagIf (snapshotScaleClamped s) .scaleClamped 0

end Sys2Proof.Machine
end

