-- ==== Sys2Proof/Machine/Dose.lean ====
section
/-!
DEFINITION. Chapter 6: the temperature table, the dose tick, the completion evaluation, the dose trim and the heat advice.
-/
namespace Sys2Proof.Machine

/-! ## Zones of a table (R98, R99, R120) -/

/-- One reading taken into a zone: 65,535 is no reading; a value above the range is stored as its limit; age 0, fresh
(R99, R120). -/
def Zone.take (limit : Nat) (z : Zone) (v : Nat) : Zone :=
  if v = 65535 then z else { value := min v limit, age := 0, standing := .fresh }

/-- Whether a reading counts as clamped (R99, R120). -/
def readingClamps (limit v : Nat) : Bool :=
  decide (limit < v ∧ v ≠ 65535)

/-- Whether a fresh zone's age has passed the stale limit (R100, R121). -/
def Zone.expires (limit : Nat) (z : Zone) : Bool :=
  z.isFresh && decide (limit < z.age)

/-- The zone after its stale expiry, if it has one now (R100, R121). -/
def Zone.expire (limit now : Nat) (z : Zone) : Zone :=
  if z.expires limit then { z with standing := .stale now } else z

/-- A millisecond of age; ages stop at 4,294,967,295 (R98, R119). -/
def Zone.older (z : Zone) : Zone :=
  { z with age := saturatingSucc maxU32 z.age }

/-- A zone for a new table: value 0, age 0, stale from now on (R98, R101, R121). -/
def Zone.new (now : Nat) : Zone :=
  { value := 0, age := 0, standing := .stale now }

/-- Changes the dose unit. -/
def State.updateDose (s : State) (f : Dose → Dose) : State :=
  { s with dose := f s.dose }

/-- The temperature table as values and whether each is fresh (R53, R104). -/
def zoneReadings (s : State) : List (Nat × Bool) :=
  s.dose.zones.map fun z => (z.value, z.isFresh)

/-! ## The dose tick (R102 to R108) -/

/-- The greatest value of an accumulator (R103). -/
def maxAccumulator : Nat := 2147483647

/-- The arc in WU (R103). -/
def arcWu (m : MachineRecord) : Nat :=
  10 * m.arcLen

/-- A probe is in the arc when x_nip is at or past its coordinate by less than the arc (R103). -/
def probeInArc (m : MachineRecord) (xNip : Nat) (p : Probe) : Bool :=
  decide (p.position ≤ xNip ∧ xNip < p.position + arcWu m)

/-- The zones a record covers; an ANONYMOUS record covers every zone (R104). -/
def panelZones (m : MachineRecord) (r : Panel) : List Nat :=
  match r.normal with
  | some a => coveredZones m a.width
  | none => List.range m.zoneCount

/-- The values used at a tick: the fresh covered zones, or all covered zones when none is fresh (R104). -/
def valuesUsed (m : MachineRecord) (zones : List (Nat × Bool)) (r : Panel) : List Nat :=
  if (freshValues zones (panelZones m r)).isEmpty then anyValues zones (panelZones m r)
  else freshValues zones (panelZones m r)

/-- The spread of the values used (R106). -/
def spreadOf (values : List Nat) : Nat :=
  values.max?.getD 0 - values.min?.getD 0

/-- The calender stands still for the dose unit: v_cal below v_min, or reverse (R107). -/
def standsStill (m : MachineRecord) (v : Speed) : Bool :=
  decide (v.magnitude < m.vMin) || v.reverse

/-- A probe at a tick: its in-arc indication set afresh, and the rate added while in the arc (R103, R105). -/
def Probe.tick (m : MachineRecord) (xNip rate : Nat) (p : Probe) : Probe :=
  if probeInArc m xNip p then
    { p with accumulator := min (p.accumulator + rate) maxAccumulator, inArc := true }
  else { p with inArc := false }

/-- D_ref of a record: its copy, else the fallback of the machine record (R108). -/
def panelDRef (m : MachineRecord) (r : Panel) : Nat :=
  match r.correction with
  | some c => c.copies.dRef
  | none => m.fallbackDRef

/-- D_scorch in dms (R108). -/
def scorchDose (m : MachineRecord) (r : Panel) : Nat :=
  roundNat (panelDRef m r * m.scorchLimit) 1000

/-- An accumulator beyond the scorch dose (R108). -/
def scorches (m : MachineRecord) (r : Panel) : Bool :=
  r.probes.any fun p => decide (100 * scorchDose m r < p.accumulator)

/-- A TRANSFERRING record after a tick (R103 to R108). -/
def tickPanel (m : MachineRecord) (zones : List (Nat × Bool)) (xNip : Nat) (v : Speed) (halted : Bool) (r : Panel) : Panel :=
  let inArc := r.probes.any (probeInArc m xNip)
  let used := valuesUsed m zones r
  let rate := stageRate m (meanOf used)
  let r1 := { r with probes := r.probes.map (Probe.tick m xNip rate) }
  let r2 :=
    (((r1.flagIf (inArc && (freshValues zones (panelZones m r)).isEmpty) .unverified).flagIf
      (inArc && decide (m.spreadLimit < spreadOf used)) .spread).flagIf
      (inArc && standsStill m v) .standstill).flagIf
      (inArc && standsStill m v && halted) .stoppedInArc
  r2.flagIf (scorches m r2) .scorch

/-- The tick on the queue: SCORCH attention when a record takes the flag for the first time (R108). -/
def tickQueue (m : MachineRecord) (s : State) : State :=
  let step := tickPanel m (zoneReadings s) s.pos.xNip s.pos.vCal (stopoutAsserted s)
  let scorched := s.queue.any fun r => r.isTransferring && !hasFlag r.flags .scorch && hasFlag (step r).flags .scorch
  (s.mapPanels (·.isTransferring) step).raiseIf scorched .scorch

/-- DOSE_TICK: counted in every line state, acting in TRACKING and HALTED (R102, R117). -/
def doseTick (s : State) : State :=
  let t := s.updateDose fun d => { d with ticks := (d.ticks + 1) % 4294967296 }
  match s.line.active with
  | some m => if s.onLine then tickQueue m t else t
  | none => t

/-- DOSE_TICK; the ticks run from the end of the scan (R102). -/
def execDoseTick (s : State) : Host.Outcome State Fault Refusal :=
  .next (if s.running then doseTick s else s)

/-! ## Completion evaluation (R109 to R111) -/

/-- The probe accumulators of a record. -/
def Panel.accumulators (r : Panel) : List Nat :=
  r.probes.map (·.accumulator)

/-- D_act in dms (R109). -/
def Panel.dAct (r : Panel) : Nat :=
  roundNat r.accumulators.sum (100 * r.probes.length)

/-- The probe minimum in dms (R109). -/
def Panel.probeMin (r : Panel) : Nat :=
  roundNat (r.accumulators.min?.getD 0) 100

/-- The probe maximum in dms (R109). -/
def Panel.probeMax (r : Panel) : Nat :=
  roundNat (r.accumulators.max?.getD 0) 100

/-- q_act in per-mille, stopped at 9,999; absent without a D_ref copy (R110). -/
def Panel.qAct (r : Panel) : Option Nat :=
  r.correction.map fun c => min (roundNat (r.dAct * 1000) c.copies.dRef) 9999

/-- err = q_act − q_pred, where both exist (R110, R111). -/
def Panel.ratioError (r : Panel) : Option Int :=
  match r.correction, r.qAct with
  | some c, some q => some ((q : Int) - c.qPred)
  | _, _ => none

/-- Whether the actual dose lies outside the off-dose band (R110). -/
def Panel.isOffDose (r : Panel) : Bool :=
  match r.correction, r.ratioError with
  | some c, some e => decide (c.copies.band < e.natAbs)
  | _, _ => false

/-- The record after the evaluation: OFF_DOSE added where it applies (R110). -/
def evaluated (r : Panel) : Panel :=
  r.flagIf r.isOffDose .offDose

/-- A trim clamped to −250 to +250 (R111, R112). -/
def clampTrim (t : Int) : Int :=
  clampInt (-250) 250 t

/-- The trim after an evaluated record: moved by trunc(err / 8), unless the record has no prediction or an excluding flag
(R111). -/
def trimAfter (trim : Int) (r : Panel) : Int :=
  match r.ratioError with
  | some e => if flagsMeet r.flags trimExcludingFlags then trim else clampTrim (trim + e.tdiv 8)
  | none => trim

/-! ## Heat advice (R113 to R116) -/

/-- T_adv and its indication for a required rate: the rate table run backwards (R114). -/
def adviseTemperature (m : MachineRecord) (rReq : Nat) : Nat × AdviceRange :=
  if rReq ≤ rateAt m 0 then (m.t0, .low)
  else if rateAt m 15 ≤ rReq then (tableTop m, .high)
  else
    let k := (((List.range 15).filter fun k => decide (rateAt m k ≤ rReq)).getLast?).getD 0
    (m.t0 + k * m.tempStep + roundNat ((rReq - rateAt m k) * m.tempStep) (rateAt m (k + 1) - rateAt m k), .within)

/-- D_target in dms (R113). -/
def targetDose (dRef : Nat) (trim : Int) : Nat :=
  (roundInt ((dRef : Int) * (1000 - trim)) 1000).toNat

/-- The heat advice for a correction of a record (R113). -/
def adviceFor (m : MachineRecord) (v : Speed) (trim : Int) (id : Nat) (c : Correction) : HeatAdvice :=
  let target := targetDose c.copies.dRef trim
  let dwell := stageDwell m v
  let rReq := roundNat (target * 1000) dwell
  { temperature := (adviseTemperature m rReq).1
    range := (adviseTemperature m rReq).2
    panel := id
    dTarget := target
    dwell := dwell
    rateRequired := rReq }

/-- The heat advice as it is computed now; absent without a governing record or machine record (R113). -/
def currentAdvice (s : State) : Option HeatAdvice :=
  match s.line.active, governing s with
  | some m, some (r, c) => some (adviceFor m s.pos.vCal s.dose.trim r.id c)
  | _, _ => none

/-- Whether a recomputed advice has moved from the reference (R115). -/
def adviceMoved : Option AdviceReference → Option HeatAdvice → Bool
  | none, none => false
  | none, some _ => true
  | some _, none => true
  | some r, some a =>
    decide (10 ≤ ((a.temperature : Int) - r.temperature).natAbs) || decide (a.range ≠ r.range)

/-- The reference that an advice leaves (R115). -/
def referenceOf (a : Option HeatAdvice) : Option AdviceReference :=
  a.map fun h => { temperature := h.temperature, range := h.range }

/-- The advice recomputed: in force from now on; HEAT_ADVICE_CHANGED and a new reference when it has moved (R115). -/
def recomputeAdvice (s : State) : State :=
  let a := currentAdvice s
  let moved := adviceMoved s.dose.reference a
  (s.updateDose fun d =>
    { d with advice := a, reference := if moved then referenceOf a else d.reference }).raiseIf moved .heatAdviceChanged

/-- The fields of an advice in the order of R116. -/
def advicePayload (a : Option HeatAdvice) : List Byte :=
  leOption 2 (a.map (·.temperature)) ++ leOption 1 (a.map (·.range.code)) ++ leOption 2 (a.map (·.panel)) ++
  leOption 4 (a.map (·.dTarget)) ++ leOption 4 (a.map (·.dwell)) ++ leOption 4 (a.map (·.rateRequired))

/-- READ_HEAT_ADVICE: recomputed, then answered (R116). -/
def readHeatAdviceOwner (s : State) : Served :=
  let t := recomputeAdvice s
  Served.of t (.done (presence 2 [t.dose.advice.isSome] ++ advicePayload t.dose.advice))

/-- READ_HEAT_ADVICE on a port. -/
def execReadHeatAdvice (p : PortId) (s : State) : Host.Outcome State Fault Refusal :=
  .next (takeRequest p 0x51 onlyCalender readHeatAdviceOwner s)

/-! ## Requests and expiries of the temperature table -/

/-- SET_TRIM: the signed value clamped (R112). -/
def setTrimOwner (trim : BitVec 16) (s : State) : Served :=
  Served.of (s.updateDose fun d => { d with trim := clampTrim trim.toInt })
    (doneOr (decide (clampTrim trim.toInt ≠ trim.toInt)) [])

/-- SET_TRIM on a port. -/
def execSetTrim (p : PortId) (trim : BitVec 16) (s : State) : Host.Outcome State Fault Refusal :=
  .next (takeRequest p 0x24 onlyProduction (setTrimOwner trim) s)

/-- The temperature table's lost indication ends when the table is fresh as a whole (R132). -/
def clearLostTemperature (s : State) : State :=
  { s with tension := { s.tension with
      lostTemperature := s.tension.lostTemperature && (tableStaleSince s.dose.zones).isSome } }

/-- REPORT_TEMPERATURES: one value per zone, in zone order (R99); the freshness rules then see the new table (R131, R132). -/
def reportTemperaturesOwner (values : List (BitVec 16)) (s : State) : Served :=
  match s.line.active with
  | none => Served.refuse s .noMachineRecord
  | some m =>
    if values.length = m.zoneCount then
      let t := s.updateDose fun d => { d with zones := List.zipWith (fun z v => z.take 3000 v.toNat) d.zones values }
      Served.of (syncStale (clearLostTemperature t))
        (doneOr (values.any fun v => readingClamps 3000 v.toNat) [])
    else Served.refuse s .badArg

/-- REPORT_TEMPERATURES on a port. -/
def execReportTemperatures (p : PortId) (values : List (BitVec 16)) (s : State) : Host.Outcome State Fault Refusal :=
  .next (takeRequest p 0x50 onlyCalender (reportTemperaturesOwner values) s)

/-- The stale expiry of every temperature zone whose age has passed the limit, as one event (R100). -/
def expireTemperatures (m : MachineRecord) (s : State) : State :=
  (s.updateDose fun d => { d with zones := d.zones.map (Zone.expire m.tempStaleMs s.now) }).raiseIf
    (s.dose.zones.any (Zone.expires m.tempStaleMs)) .measureStale

/-- TEMPERATURE_STALE_EXPIRY (R100, R131). -/
def execTemperatureStaleExpiry (s : State) : Host.Outcome State Fault Refusal :=
  .next <|
    match s.line.active with
    | some m =>
      if s.dose.zones.any (Zone.expires m.tempStaleMs) then closeEvent s (syncStale (expireTemperatures m s)) [] else s
    | none => s

end Sys2Proof.Machine
end

