-- ==== Sys2Proof/Machine/Scheduler.lean ====
section
/-!
DEFINITION. Chapter 4: the profile cache, the choice of the next computation, and the writing or discarding of a result.
-/
namespace Sys2Proof.Machine

/-! ## The cache (R72, R73, R76) -/

/-- The lowest-numbered entry of the cache that a condition picks. -/
def findEntry (c : Cache) (p : Option CacheEntry → Bool) : Option (Fin 8) :=
  (List.finRange 8).find? fun i => p c.entries[i]

/-- A lookup by slot: the entry's number and content, where a valid entry holds the slot (R73). -/
def lookup (c : Cache) (slot : SlotId) : Option (Fin 8 × CacheEntry) :=
  (findEntry c fun e => decide (e.map (·.slot) = some slot)).bind fun i => c.entries[i].map fun e => (i, e)

/-- The entry after a given one, modulo 8 (R73, R75). -/
def nextEntry (i : Fin 8) : Fin 8 :=
  i + 1

/-- The cache without an entry for a slot (R76). -/
def Cache.invalidate (c : Cache) (slot : SlotId) : Cache :=
  { c with entries := c.entries.map fun e => if e.map (·.slot) = some slot then none else e }

/-- The cache with every entry invalid and the NLU pointer 0 (R76). -/
def Cache.clear (_ : Cache) : Cache :=
  { entries := Vector.replicate 8 none, nlu := 0 }

/-- The victim of a fill: the lowest invalid entry, else the entry at the NLU pointer (R75). -/
def Cache.victim (c : Cache) : Fin 8 :=
  (findEntry c (·.isNone)).getD c.nlu

/-- The cache with a filled entry (R75). -/
def Cache.fill (c : Cache) (e : CacheEntry) : Cache :=
  { entries := c.entries.set c.victim (some e), nlu := nextEntry c.victim }

/-- Changes the cache. -/
def State.updateCache (s : State) (f : Cache → Cache) : State :=
  { s with cache := f s.cache }

/-- The slot of the fill in flight and whether it is reading (R72, R74). -/
def fillInFlight (s : State) : Option (SlotId × Bool) :=
  match s.store.fillWaiting, s.store.holder with
  | some slot, _ => some (slot, false)
  | none, some (.fill slot) => some (slot, true)
  | none, _ => none

/-! ## Eligibility (R78, R79) -/

/-- The lookahead: the first four unprinted records (section 4.2). -/
def lookahead (s : State) : List Panel :=
  (s.queue.filter (·.unprinted)).take 4

/-- Whether a READY record's age has passed the refresh interval (R79). -/
def refreshPast (m : MachineRecord) (now readyTime : Nat) : Bool :=
  decide (m.refreshInterval < now - readyTime)

/-- A record is QUEUED, or READY, unfetched and due for refresh (R78, R79). -/
def wantsCorrection (m : MachineRecord) (now : Nat) (r : Panel) : Bool :=
  match r.state with
  | .queued => true
  | .ready false t due => due || refreshPast m now t
  | _ => false

/-- A record of the lookahead is eligible (R78). -/
def eligible (m : MachineRecord) (s : State) (r : Panel) : Bool :=
  match r.normal with
  | some a =>
    wantsCorrection m s.now r && slotUsable s a.slot &&
      decide ((dirEntry s a.slot).channels = some a.coverage.length) &&
      decide (s.engine.map (·.panel) ≠ some r.id)
  | none => false

/-- The eligible records in lookahead order (R80). -/
def eligibleRecords (m : MachineRecord) (s : State) : List Panel :=
  (lookahead s).filter (eligible m s)

/-! ## Re-evaluation (R52 to R54, R74, R80) -/

/-- The input snapshot of a computation (R53). -/
def takeSnapshot (m : MachineRecord) (s : State) (a : Announced) (e : CacheEntry) : Snapshot :=
  { width := a.width
    coverage := a.coverage
    profile := e.profile
    generation := e.generation
    machine := m
    vCal := s.pos.vCal
    zones := zoneReadings s
    trim := s.dose.trim
    bias := s.tension.bias }

/-- What a start needs of a record: its announced fields and the cache entry it hits, if it is computable under that entry
(R54, R73). -/
def startable (s : State) (r : Panel) : Option (Panel × Announced × Fin 8 × CacheEntry) :=
  r.normal.bind fun a =>
    (lookup s.cache a.slot).bind fun ie =>
      if a.coverage.length = ie.2.profile.channels.length then some (r, a, ie.1, ie.2) else none

/-- In IDLE, the first eligible record whose slot hits is started: the engine takes its snapshot and the entry is used
(R52, R73, R80 step 1). -/
def startComputation (m : MachineRecord) (eligibles : List Panel) (s : State) : State :=
  match s.engine, eligibles.findSome? (startable s) with
  | none, some (r, a, i, e) =>
    { s with
      engine := some { panel := r.id, snapshot := takeSnapshot m s a e }
      cache := { s.cache with nlu := nextEntry i } }
  | _, _ => s

/-- A fill of a slot becomes a client of the store arbiter: granted at once when the store is free, else waiting (R74). -/
def requestFill (slot : SlotId) (s : State) : State :=
  match s.store.holder with
  | none => { s with store := { s.store with holder := some (.fill slot) } }
  | some _ => { s with store := { s.store with fillWaiting := some slot } }

/-- The first eligible record misses and no fill is in flight: a fill of its slot is requested (R80 step 2). -/
def requestMissing (eligibles : List Panel) (s : State) : State :=
  match eligibles.head?.bind (·.slot) with
  | some slot =>
    if (lookup s.cache slot).isNone ∧ (fillInFlight s).isNone then requestFill slot s else s
  | none => s

/-- The scheduler re-evaluates (R80). -/
def reevaluate (s : State) : State :=
  match s.line.active with
  | some m => requestMissing (eligibleRecords m s) (startComputation m (eligibleRecords m s) s)
  | none => s

/-! ## Writing or discarding a result (R81, R82) -/

/-- Whether a result is written into a record: the record is unprinted, its slot VALID or LOCKED, and the slot's generation
that of the result (R81). -/
def resultWritable (s : State) (generation : Nat) (r : Panel) : Bool :=
  match r.normal with
  | some a => r.unprinted && slotUsable s a.slot && decide ((dirEntry s a.slot).generation = generation)
  | none => false

/-- A record with a result written: the correction replaced as a whole, the generation field, the flags of the result in
place of those of an earlier correction, the ready time, and fetched as it was (R17, R69, R82). -/
def Panel.writeCorrection (r : Panel) (now : Nat) (c : Correction) (fs : FlagSet) : Panel :=
  { r with
    normal := r.normal.map fun a => { a with generation := c.generation }
    state := .ready r.isFetched now false
    correction := some c
    flags := withoutCorrectionFlags r.flags ||| fs }

/-- The result of a finished computation written into its record, with CORRECTION_READY (R82). -/
def writeResult (k : Computation) (s : State) : State :=
  (syncUnready (s.mapPanels (fun r => decide (r.id = k.panel))
    (·.writeCorrection s.now (computeCorrection k.snapshot) (computeFlags k.snapshot)))).raise .correctionReady

/-- CORRECTION_COMPLETION: the engine is IDLE again; its result is written or discarded, and the scheduler re-evaluates
(R52, R80 to R82). -/
def completeComputation (k : Computation) (s : State) : State :=
  let t := { s with engine := none }
  let written :=
    match findPanel s k.panel with
    | some r => if resultWritable s k.snapshot.generation r then writeResult k t else t
    | none => t
  closeEvent s (reevaluate written) []

/-- CORRECTION_COMPLETION: nothing completes while the engine is IDLE. -/
def execCorrectionCompletion (s : State) : Host.Outcome State Fault Refusal :=
  .next <|
    match s.engine with
    | some k => completeComputation k s
    | none => s

/-- A READY record, fetched or not, whose age has passed the refresh interval (R79). -/
def Panel.pastRefresh (r : Panel) (m : MachineRecord) (now : Nat) : Bool :=
  match r.state with
  | .ready _ t _ => refreshPast m now t
  | _ => false

/-- REFRESH_EXPIRY: a READY record's age has passed the refresh interval, so the scheduler re-evaluates (R79, R80). -/
def execRefreshExpiry (s : State) : Host.Outcome State Fault Refusal :=
  .next <|
    match s.line.active with
    | some m =>
      if s.queue.any fun r => r.pastRefresh m s.now then reevaluate s else s
    | none => s

/-! ## Requests -/

/-- A coded entry number of the cache. -/
def hitFields (h : Option (Fin 8 × CacheEntry)) : List Byte :=
  leOption 1 (h.map (·.1.val)) ++ leOption 2 (h.map (·.2.generation))

/-- The fields of the fill in flight: its slot, and 0 waiting or 1 reading (R77, R87). -/
def fillFields (f : Option (SlotId × Bool)) : List Byte :=
  leOption 1 (f.map (·.1.val)) ++ leOption 1 (f.map (·.2.toNat))

/-- PROBE_CACHE: a lookup that is no use (R77; layout: notes/assumptions/12.md). -/
def probeCacheOwner (slot : Byte) (s : State) : Served :=
  match slotOf slot with
  | some i =>
    if i.val = 0 then Served.refuse s .badArg
    else
      let h := lookup s.cache i
      Served.of s
        (.done (presence 2 [h.isSome, (fillInFlight s).isSome] ++ indication h.isSome ++ hitFields h ++
          leBytes 1 s.cache.nlu.val ++ fillFields (fillInFlight s)))
  | none => Served.refuse s .badArg

/-- PROBE_CACHE on a port. -/
def execProbeCache (p : PortId) (slot : Byte) (s : State) : Host.Outcome State Fault Refusal :=
  .next (takeRequest p 0x36 onlyProduction (probeCacheOwner slot) s)

/-- INVALIDATE_CACHE: every entry invalid, the NLU pointer 0, and the scheduler re-evaluates (R77). -/
def invalidateCacheOwner (s : State) : Served :=
  Served.of (reevaluate (s.updateCache Cache.clear)) (.done [])

/-- INVALIDATE_CACHE on a port. -/
def execInvalidateCache (p : PortId) (s : State) : Host.Outcome State Fault Refusal :=
  .next (takeRequest p 0x37 onlyProduction invalidateCacheOwner s)

/-- Sets the fetched sub-flag of a READY record; the refresh-due mark ends with it (R79, R84). -/
def Panel.fetch (r : Panel) : Panel :=
  match r.state with
  | .ready _ t _ => { r with state := .ready true t false }
  | _ => r

/-- The response fields of GET_CORRECTION (Table 45). -/
def correctionPayload (r : Panel) (c : Correction) : List Byte :=
  leBytes 2 r.id ++ leBytes 2 c.generation ++ leBytes 2 c.qPred ++ leBytes 2 c.targetTension ++ leBytes 4 c.along ++
  leBytes 4 c.cross ++ [informationalByte r.flags] ++ leBytes 1 c.gains.length ++ c.gains.flatMap (leBytes 2)

/-- GET_CORRECTION: DONE for a record that holds a correction, setting fetched on a READY one; NOT_READY without one
(R84). -/
def getCorrectionOwner (id : BitVec 16) (s : State) : Served :=
  match findPanel s id.toNat with
  | none => Served.refuse s .noSuchPanel
  | some r =>
    match r.correction with
    | some c =>
      Served.of (s.mapPanels (fun q => decide (q.id = id.toNat)) Panel.fetch) (.done (correctionPayload r c))
    | none => Served.refuse s .notReady

/-- GET_CORRECTION on a port. -/
def execGetCorrection (p : PortId) (id : BitVec 16) (s : State) : Host.Outcome State Fault Refusal :=
  .next (takeRequest p 0x40 onlyPrint (getCorrectionOwner id) s)

end Sys2Proof.Machine
end

