-- ==== Sys2Proof/Machine/Queue.lean ====
section
/-!
DEFINITION. Chapter 1: panel ids, probes, trails, completion, and the requests ANNOUNCE_PANEL, WITHDRAW_PANEL, SCRAP_PANEL
and PRINT_ABORT.
-/
namespace Sys2Proof.Machine

/-! ## Panel ids (R2) -/

/-- The most records the panel queue holds (R1). -/
def queueCapacity : Nat := 64

/-- The counter after a value: 65,535 passes to 1 (R2). -/
def idAfter (c : Nat) : Nat :=
  if c < 65535 then c + 1 else 1

/-- The ids in use in the panel queue and in the transfer record queue (R2). -/
def idsInUse (s : State) : List Nat :=
  s.queue.map (·.id) ++ s.records.list.map (·.id)

/-- The counter advanced past every value in use; 0 is never assigned (R2). The fuel exceeds the number of ids in use. -/
def freeId (used : List Nat) : Nat → Nat → Nat
  | 0, c => c
  | fuel + 1, c => if c = 0 ∨ c ∈ used then freeId used fuel (idAfter c) else c

/-- The id the next record takes (R2). -/
def nextId (s : State) : Nat :=
  freeId (idsInUse s) ((idsInUse s).length + 2) s.idCounter

/-- Appends a record at the tail; the counter passes the id it took (R1, R2). -/
def appendPanel (r : Panel) (s : State) : State :=
  { s with queue := s.queue ++ [r], idCounter := idAfter r.id }

/-- Removes the record an id names; the records behind it close up (R1). -/
def removePanel (id : Nat) (s : State) : State :=
  { s with queue := s.queue.filter fun r => decide (r.id ≠ id) }

/-! ## Probes and trails (R15, R16) -/

/-- A probe at a coordinate, before the next tick has set its in-arc indication (R15, R103). -/
def newProbe (position : Nat) : Probe :=
  { position := position, accumulator := 0, inArc := false }

/-- The lead probe of a record entering TRANSFERRING (R15, R16). -/
def leadProbe (lead : Nat) : List Probe :=
  [newProbe lead]

/-- The middle and trail probes (R15). -/
def laterProbes (lead trail : Nat) : List Probe :=
  [newProbe (lead + (trail - lead) / 2), newProbe trail]

/-- A record whose open trail closes at a coordinate: a PRINTING record becomes IN_TRANSIT, a TRANSFERRING one gains its
middle and trail probes (R9, R10, R13, R16). -/
def Panel.closeTrail (r : Panel) (x : Nat) : Panel :=
  match r.state with
  | .transferring => { r with trail := some x, probes := r.probes ++ laterProbes (r.lead.getD 0) x }
  | _ => { r with trail := some x, state := .inTransit }

/-- A printed record that the nip reaches: IN_TRANSIT gets its three probes (R15); PRINTING, whose trail is open, its lead
probe and OVERRUN (R16). -/
def Panel.arrive (r : Panel) : Panel :=
  match r.state with
  | .inTransit =>
    { r with
      state := .transferring
      probes := leadProbe (r.lead.getD 0) ++ laterProbes (r.lead.getD 0) (r.trail.getD 0) }
  | .printing =>
    { r with state := .transferring, probes := leadProbe (r.lead.getD 0), flags := addFlag r.flags .overrun }
  | _ => r

/-- Whether the nip, at a coordinate, reaches a record that is not yet TRANSFERRING (R15, R16). -/
def Panel.reached (r : Panel) (xNip : Nat) : Bool :=
  decide (r.state = .inTransit ∨ r.state = .printing) && decide (r.lead.getD 0 ≤ xNip)

/-- Nip arrival at the present x_nip, in head-to-tail order; NIP_OVERRUN when the open-trail record is reached
(R15, R16). -/
def nipArrival (s : State) : State × List StopCause :=
  (s.mapPanels (·.reached s.pos.xNip) Panel.arrive,
    if s.queue.any fun r => r.reached s.pos.xNip && decide (r.state = .printing) then [.nipOverrun] else [])

/-! ## Completion (R18 to R20) -/

/-- A TRANSFERRING record whose closed trail lies a full arc behind x_nip (R18). -/
def completes (m : MachineRecord) (xNip : Nat) (r : Panel) : Bool :=
  match r.state, r.trail with
  | .transferring, some t => decide (t + arcWu m ≤ xNip)
  | _, _ => false

/-- The outcome of a completing record (R20). -/
def outcomeOf (r : Panel) : PanelOutcome :=
  if hasFlag r.flags .scrapped then .scrapped
  else if r.normal.isNone then .untracked
  else if flagsMeet r.flags qualityFlags then .flagged
  else .good

/-- The applied sync error, when the mark was seen (R19). -/
def Panel.syncError (r : Panel) : Option Int :=
  match r.mark with
  | some (.seen e) => some e
  | _ => none

/-- The transfer record of an evaluated record (R19). -/
def transferRecord (r : Panel) : TransferRecord :=
  { id := r.id
    jobId := r.normal.map (·.jobId)
    slot := r.normal.map (·.slot)
    generation := r.normal.map (·.generation)
    outcome := outcomeOf r
    flags := r.flags
    lead := r.lead.getD 0
    trail := r.trail.getD 0
    length := r.trail.getD 0 - r.lead.getD 0
    syncError := r.syncError
    qPred := r.correction.map (·.qPred)
    dAct := r.dAct
    probeMin := r.probeMin
    probeMax := r.probeMax
    qAct := r.qAct }

/-- One record's completion: the dose unit's evaluation, the trim, PANEL_FLAGGED for FLAGGED and UNTRACKED, and the offer
(R18 to R20, R110, R111). -/
def completeOne (s : State) (r : Panel) : State :=
  let e := evaluated r
  let o := outcomeOf e
  offerRecord
    ((s.updateDose fun d => { d with trim := trimAfter d.trim e }).raiseIf
      (decide (o = .flagged ∨ o = .untracked)) .panelFlagged)
    (transferRecord e)

/-- Every record that completes at the present x_nip leaves, one at a time from head to tail (R18). -/
def completeRecords (m : MachineRecord) (s : State) : State :=
  (s.queue.filter (completes m s.pos.xNip)).foldl completeOne
    { s with queue := s.queue.filter fun r => !completes m s.pos.xNip r }

/-- Closes the open trail at the present x_print, with a further change to the record, and tests completion again
(R10, R13, R18). -/
def closeOpenTrail (m : MachineRecord) (f : Panel → Panel) (s : State) : State :=
  completeRecords m (s.mapPanels (·.openTrail) fun r => f (r.closeTrail s.pos.xPrint))

/-! ## Requests of the production server (R5 to R8) -/

/-- The width as stored (R6). -/
def storedWidth (w : Nat) : Nat :=
  clampNat 300 3400 w

/-- Whether an announcement had a value clamped (R6). -/
def announceClamps (width : Nat) (coverage : List Nat) : Bool :=
  decide (storedWidth width ≠ width) || coverage.any fun c => decide (100 < c)

/-- The new record of an announcement (R6). -/
def announcedPanel (s : State) (jobId : BitVec 32) (slot : SlotId) (length width : Nat) (coverage : List Nat) : Panel :=
  { id := nextId s
    normal := some
      { jobId := jobId
        slot := slot
        generation := (dirEntry s slot).generation
        length := length
        width := storedWidth width
        coverage := coverage.map (min · 100) }
    state := .queued
    lead := none
    trail := none
    mark := none
    probes := []
    correction := none
    flags := 0 }

/-- The checks of R5 in order; none when the announcement is accepted. -/
def announceRefusal (s : State) (slot : Byte) (length : Nat) (coverage : Nat) : Option Reason :=
  match slotOf slot with
  | none => some .badArg
  | some i =>
    if i.val = 0 then some .badArg
    else if queueCapacity ≤ s.queue.length then some .queueFull
    else if !slotUsable s i then some .noProfile
    else if length < 1000 ∨ 40000 < length then some .badArg
    else if (dirEntry s i).channels ≠ some coverage then some .badArg
    else none

/-- ANNOUNCE_PANEL: form (R192), checks (R5), the record appended (R6), UNREADY (R86) and re-evaluation (R80). -/
def announceOwner (jobId : BitVec 32) (slot : Byte) (length : BitVec 32) (width : BitVec 16) (coverage : List Byte)
    (s : State) : Served :=
  if coverage.length = 0 ∨ 8 < coverage.length then Served.refuse s .badArg
  else
    match announceRefusal s slot length.toNat coverage.length, slotOf slot with
    | none, some i =>
      let cover := coverage.map BitVec.toNat
      let r := announcedPanel s jobId i length.toNat width.toNat cover
      Served.of (reevaluate (syncUnready (appendPanel r s))) (doneOr (announceClamps width.toNat cover) (leBytes 2 r.id))
    | some reason, _ => Served.refuse s reason
    | none, none => Served.refuse s .badArg

/-- ANNOUNCE_PANEL on a port. -/
def execAnnouncePanel (p : PortId) (jobId : BitVec 32) (slot : Byte) (length : BitVec 32) (width : BitVec 16)
    (coverage : List Byte) (s : State) : Host.Outcome State Fault Refusal :=
  .next (takeRequest p 0x20 onlyProduction (announceOwner jobId slot length width coverage) s)

/-- The removal of an unprinted record: the queue closes up, UNREADY follows, and the scheduler re-evaluates
(R7, R8, R80, R86). -/
def removeUnprinted (id : Nat) (s : State) : State :=
  reevaluate (syncUnready (removePanel id s))

/-- WITHDRAW_PANEL: a QUEUED or unfetched READY record is removed, any other is TOO_LATE (R7). -/
def withdrawOwner (id : BitVec 16) (s : State) : Served :=
  match findPanel s id.toNat with
  | none => Served.refuse s .noSuchPanel
  | some r =>
    if r.unprinted && !r.isFetched then Served.of (removeUnprinted id.toNat s) (.done [])
    else Served.refuse s .tooLate

/-- WITHDRAW_PANEL on a port. -/
def execWithdrawPanel (p : PortId) (id : BitVec 16) (s : State) : Host.Outcome State Fault Refusal :=
  .next (takeRequest p 0x21 onlyProduction (withdrawOwner id) s)

/-- SCRAP_PANEL: an unprinted, unfetched record is removed, any other gains SCRAPPED and stays (R8). -/
def scrapOwner (id : BitVec 16) (s : State) : Served :=
  match findPanel s id.toNat with
  | none => Served.refuse s .noSuchPanel
  | some r =>
    if r.unprinted && !r.isFetched then Served.of (removeUnprinted id.toNat s) (.done [])
    else Served.of (s.mapPanels (fun q => decide (q.id = id.toNat)) (·.flag .scrapped)) (.done [])

/-- SCRAP_PANEL on a port. -/
def execScrapPanel (p : PortId) (id : BitVec 16) (s : State) : Host.Outcome State Fault Refusal :=
  .next (takeRequest p 0x22 onlyProduction (scrapOwner id) s)

/-- PRINT_ABORT: the open trail of the record named closes at x_print with SCRAPPED, and the pace returns to nominal; any
other id is NO_SUCH_PANEL (R9, R95). -/
def printAbortOwner (id : BitVec 16) (s : State) : Served :=
  match openRecord s, s.line.active with
  | some r, some m =>
    if r.id = id.toNat then Served.of (paceNominal (closeOpenTrail m (·.flag .scrapped) s)) (.done [])
    else Served.refuse s .noSuchPanel
  | _, _ => Served.refuse s .noSuchPanel

/-- PRINT_ABORT on a port. -/
def execPrintAbort (p : PortId) (id : BitVec 16) (s : State) : Host.Outcome State Fault Refusal :=
  .next (takeRequest p 0x41 onlyPrint (printAbortOwner id) s)

/-! ## Gate edges as the queue sees them (R10 to R13) -/

/-- A record started at the print line from the unprinted part: lead set, trail open, mark "none yet" for a NORMAL record,
HELD_START and UNCORRECTED where they apply (R11). -/
def Panel.start (r : Panel) (x : Nat) (held : Bool) : Panel :=
  ({ r with
      state := .printing
      lead := some x
      trail := none
      mark := r.normal.map fun _ => .noneYet } : Panel).flagIf held .heldStart |>.flagIf (!r.isReady) .uncorrected

/-- An anonymous record started at the print line (R12). -/
def anonymousPanel (id x : Nat) : Panel :=
  { id := id
    normal := none
    state := .printing
    lead := some x
    trail := none
    mark := none
    probes := []
    correction := none
    flags := 0 }

/-- The first record that a condition picks is changed, the others stay. -/
def mapFirst (c : Panel → Bool) (f : Panel → Panel) : List Panel → List Panel
  | [] => []
  | r :: rest => if c r then f r :: rest else r :: mapFirst c f rest

/-- The next panel is started: the first unprinted record, else an anonymous one with GATE_FAULT attention, else, with a full
queue, TRACKING_LOST (R11, R12). -/
def startNext (held : Bool) (s : State) : State × List StopCause :=
  if s.queue.any (·.unprinted) then
    ({ s with queue := mapFirst (·.unprinted) (fun r => r.start s.pos.xPrint held) s.queue }, [])
  else if s.queue.length < queueCapacity then
    ((appendPanel (anonymousPanel (nextId s) s.pos.xPrint) s).raise .gateFault, [])
  else (s, [.trackingLost])

/-- A gate rising edge acted on: any open trail closes with GATE_FAULT, the next panel starts, a lead equal to x_nip arrives
at once, the pace is set, UNREADY follows and the scheduler re-evaluates (R10 to R12, R16, R80, R86, R94). -/
def takeRisingEdge (m : MachineRecord) (s : State) : State :=
  let closed := closeOpenTrail m (·.flag .gateFault) s
  let started := startNext (holdAsserted s) closed
  let arrived := nipArrival started.1
  closeEvent s (reevaluate (syncUnready (paceAtEdge arrived.1))) (started.2 ++ arrived.2)

/-- LENGTH_MISMATCH for a NORMAL record whose measured length is outside the tolerance (R13). -/
def Panel.compareLength (m : MachineRecord) (r : Panel) : Panel :=
  match r.normal with
  | some a =>
    r.flagIf (decide (m.lengthTolerance <
      ((r.trail.getD 0 : Int) - r.lead.getD 0 - a.length).natAbs)) .lengthMismatch
  | none => r

/-- A gate falling edge with an open trail: it closes, the length is compared and the pace returns to nominal (R13, R39,
R95). -/
def takeFallingEdge (m : MachineRecord) (s : State) : State :=
  paceNominal (closeOpenTrail m (Panel.compareLength m) s)

end Sys2Proof.Machine
end

