-- ==== Sys2Proof/Machine/Position.lean ====
section
/-!
DEFINITION. Chapter 2, the position unit: encoder counts and coordinates, fill crossings, the print gate and the stop
inputs. Speeds are in Machine/Speeds.lean, marks in Machine/Marks.lean.
-/
namespace Sys2Proof.Machine

/-- A web unit in nm (Table 3). -/
def wuNm : Nat := 100000

/-- Changes the position unit. -/
def State.updatePos (s : State) (f : Position → Position) : State :=
  { s with pos := f s.pos }

/-! ## Fill (R32, R33) -/

/-- A crossing down to a threshold (R32). -/
def crossesDown (last new threshold : Nat) : Bool :=
  decide (threshold < last ∧ new ≤ threshold)

/-- A crossing up to a threshold (R32). -/
def crossesUp (last new threshold : Nat) : Bool :=
  decide (last < threshold ∧ threshold ≤ new)

/-- FILL_HIGH after a change of fill: added at a crossing up to hold_high, removed at a crossing down to resume (R33). -/
def fillHighAfter (m : MachineRecord) (last new : Nat) (h : HoldSet) : HoldSet :=
  if crossesUp last new m.holdHigh then { h with fillHigh := true }
  else if crossesDown last new m.resume then { h with fillHigh := false }
  else h

/-- The stop causes of a change of fill (R33). -/
def fillCauses (m : MachineRecord) (last new : Nat) : List StopCause :=
  (if crossesDown last new m.stopLow then [.fillLowLimit] else []) ++
  (if crossesUp last new m.stopHigh then [.fillHighLimit] else [])

/-- The fill evaluated at a coordinate change (R32, R33). -/
def evaluateFill (m : MachineRecord) (s : State) : State × List StopCause :=
  let last := s.pos.lastFill
  let new := s.fill
  (((s.updatePos fun x => { x with lastFill := new }).updateHold (fillHighAfter m last new)).raiseIf
      (crossesDown last new m.warnLow) .fillWarning,
    fillCauses m last new)

/-! ## Changes of x_nip (R28, R40, R46) -/

/-- A printed NORMAL record whose mark window x_nip has passed (R46). -/
def markPassed (m : MachineRecord) (xNip : Nat) (r : Panel) : Bool :=
  match r.mark, r.lead with
  | some .noneYet, some lead => decide ((lead : Int) - m.markLead + m.syncLimit ≤ xNip)
  | _, _ => false

/-- A record whose mark is missed (R43, R46). -/
def Panel.missMark (r : Panel) : Panel :=
  { r with mark := some .missed, flags := addFlag r.flags .markMissed }

/-- Missed-by-position (R46). -/
def missByPosition (m : MachineRecord) (s : State) : State :=
  s.mapPanels (markPassed m s.pos.xNip) Panel.missMark

/-- A change of x_nip in whole WU: fill, nip arrival and overrun, completion, missed-by-position, within one event
(R28, R40, R44). -/
def nipChanged (m : MachineRecord) (s : State) : State × List StopCause :=
  let filled := evaluateFill m s
  let arrived := nipArrival filled.1
  (missByPosition m (completeRecords m arrived.1), filled.2 ++ arrived.2)

/-! ## Counts of the print encoder (R26, R27) -/

/-- The print floor: the greatest of x_nip, the newest printed record's lead and its closed trail (R27). -/
def printFloor (s : State) : Nat :=
  match newestPrinted s with
  | some r => max s.pos.xNip (max (r.lead.getD 0) (r.trail.getD 0))
  | none => s.pos.xNip

/-- The nip floor: the lead of the newest TRANSFERRING record, or 0 (R28). -/
def nipFloor (s : State) : Nat :=
  match newestTransferring s with
  | some r => r.lead.getD 0
  | none => 0

/-- How many WU a reverse count borrows (R27). -/
def borrowOf (rem res : Nat) : Nat :=
  (res - rem + (wuNm - 1)) / wuNm

/-- A forward PENC count: the carry, or a discard beyond the coordinate limit (R26), then the pace (R91). -/
def printForward (m : MachineRecord) (s : State) : State × List StopCause :=
  let total := s.pos.remPrint + m.pencRes
  let carry := total / wuNm
  if maxU32 < s.pos.xPrint + carry then (s, [])
  else
    let moved := s.updatePos fun x => { x with xPrint := x.xPrint + carry, remPrint := total % wuNm }
    let filled := if carry = 0 then (moved, []) else evaluateFill m moved
    (filled.1.updatePace fun g => g.forward m.pencRes,
      filled.2 ++ if carry ≠ 0 ∧ s.pos.xPrint + carry = maxU32 then [.coordLimit] else [])

/-- A reverse PENC count: the borrow, or a discard below the print floor (R27), then the pace (R92). -/
def printReverse (m : MachineRecord) (s : State) : State × List StopCause :=
  let borrow := borrowOf s.pos.remPrint m.pencRes
  if borrow = 0 then
    ((s.updatePos fun x => { x with remPrint := x.remPrint - m.pencRes }).updatePace fun g => g.backward m.pencRes, [])
  else if s.pos.xPrint < printFloor s + borrow then (s, [])
  else
    let moved := s.updatePos fun x =>
      { x with xPrint := x.xPrint - borrow, remPrint := x.remPrint + borrow * wuNm - m.pencRes }
    let filled := evaluateFill m moved
    (filled.1.updatePace fun g => g.backward m.pencRes, filled.2)

/-- A PENC count on the coordinates, in TRACKING and HALTED under the active machine record (R26, R29). -/
def printCount (d : Direction) (s : State) : State × List StopCause :=
  match s.line.active with
  | some m =>
    if s.onLine then
      match d with
      | .forward => printForward m s
      | .reverse => printReverse m s
    else (s, [])
  | none => (s, [])

/-- ± 1 for a count (R30). -/
def countStep : Direction → Int
  | .forward => 1
  | .reverse => -1

/-- PENC_COUNT: into the speed window, then the coordinates (R25, R30). -/
def execPencCount (d : Direction) (s : State) : Host.Outcome State Fault Refusal :=
  .next <|
    if s.running then
      let r := printCount d (s.updatePos fun x => { x with netPrint := x.netPrint + countStep d })
      closeEvent s r.1 r.2
    else s

/-! ## Counts of the calender encoder (R28) -/

/-- A forward CENC count: the carry, or the clamp at x_print (R28). -/
def nipForward (m : MachineRecord) (s : State) : State × List StopCause :=
  let total := s.pos.remNip + m.cencRes
  let carry := total / wuNm
  if carry = 0 then (s.updatePos fun x => { x with remNip := total }, [])
  else if s.pos.xPrint < s.pos.xNip + carry then
    let clamped := s.updatePos fun x => { x with xNip := x.xPrint, remNip := 0 }
    if s.pos.xNip = s.pos.xPrint then (clamped, []) else nipChanged m clamped
  else nipChanged m (s.updatePos fun x => { x with xNip := x.xNip + carry, remNip := total % wuNm })

/-- A reverse CENC count: the borrow, or a discard below the nip floor (R28). -/
def nipReverse (m : MachineRecord) (s : State) : State × List StopCause :=
  let borrow := borrowOf s.pos.remNip m.cencRes
  if borrow = 0 then (s.updatePos fun x => { x with remNip := x.remNip - m.cencRes }, [])
  else if s.pos.xNip < nipFloor s + borrow then (s, [])
  else
    nipChanged m (s.updatePos fun x =>
      { x with xNip := x.xNip - borrow, remNip := x.remNip + borrow * wuNm - m.cencRes })

/-- A CENC count on the coordinates (R28, R29). -/
def nipCount (d : Direction) (s : State) : State × List StopCause :=
  match s.line.active with
  | some m =>
    if s.onLine then
      match d with
      | .forward => nipForward m s
      | .reverse => nipReverse m s
    else (s, [])
  | none => (s, [])

/-- CENC_COUNT: into the speed window, then the coordinates (R25, R30). -/
def execCencCount (d : Direction) (s : State) : Host.Outcome State Fault Refusal :=
  .next <|
    if s.running then
      let r := nipCount d (s.updatePos fun x => { x with netCal := x.netCal + countStep d })
      closeEvent s r.1 r.2
    else s

/-- FENC_COUNT: into the speed window; it moves no coordinate (R25). -/
def execFencCount (d : Direction) (s : State) : Host.Outcome State Fault Refusal :=
  .next (if s.running then s.updatePos fun x => { x with netFab := x.netFab + countStep d } else s)

/-- QUADRATURE_TRANSITION_ERROR: that encoder's transition error count rises, stopping at 65,535 (R25). -/
def execQuadratureTransitionError (e : Encoder) (s : State) : Host.Outcome State Fault Refusal :=
  .next <|
    if s.live then
      s.updatePos fun x =>
        match e with
        | .penc => { x with errPrint := saturatingSucc 65535 x.errPrint }
        | .cenc => { x with errCal := saturatingSucc 65535 x.errCal }
        | .fenc => { x with errFab := saturatingSucc 65535 x.errFab }
    else s

/-! ## Input filters (R34, R35) -/

/-- One sample of a noise filter: the accepted level changes at the third consecutive sample on the other level; a sample
equal to it restarts the count (R34). -/
def InputFilter.sample (f : InputFilter) (level : Bool) : InputFilter :=
  if level = f.level then { f with agree := 0 }
  else if f.agree < 2 then { f with agree := f.agree + 1 }
  else { level := level, agree := 0 }

/-- Three consecutive samples on one level: the third takes the change of the accepted level, if that was the other (R34). -/
def InputFilter.settle (f : InputFilter) (level : Bool) : InputFilter :=
  ((f.sample level).sample level).sample level

/-- MKCLK at a qualified rising edge: where the accepted level is still high its falling change comes first, which carries no
bit (R34, R41). -/
def InputFilter.rise (f : InputFilter) : InputFilter :=
  (f.settle false).settle true

/-- A span of samples that ends with n samples on the low level, those before it on the accepted level (R34). -/
def InputFilter.sink (f : InputFilter) (n : Nat) : InputFilter :=
  Nat.repeat (·.sample false) n (f.sample f.level)

/-- A filter after a change of its interval: the accepted level kept, the count restarted (R34). -/
def InputFilter.restart (f : InputFilter) : InputFilter :=
  { f with agree := 0 }

/-- Changes the input filters. -/
def State.updateInputs (s : State) (f : Inputs → Inputs) : State :=
  { s with inputs := f s.inputs }

/-- The pin level at which PGATE is active: high, unless the active record says active low (R35). -/
def gateActiveLevel (s : State) : Bool :=
  match s.line.active with
  | some m => !m.gateActiveLow
  | none => true

/-- BREAKn or STOPINn is asserted at its accepted level (R36). -/
def stopChainOpen (s : State) : Bool :=
  !s.inputs.breakn.level || !s.inputs.stopinn.level

/-! ## The print gate (R37 to R39) -/

/-- A rising edge that is ignored at R38's checks: reverse print motion, or x_print not above the newest printed lead. -/
def risingIgnored (s : State) : Bool :=
  s.pos.vPrint.reverse ||
    match newestPrinted s with
    | some r => decide (s.pos.xPrint ≤ r.lead.getD 0)
    | none => false

/-- A gate rising edge (R37, R38). -/
def gateRising (s : State) : State :=
  match s.line.active with
  | some m => if s.onLine && !risingIgnored s then takeRisingEdge m s else s.raise .gateFault
  | none => s.raise .gateFault

/-- PGATE_RISING_EDGE: the accepted level becomes the active one, and the edge is taken (R34, R35, R38). -/
def execPgateRisingEdge (s : State) : Host.Outcome State Fault Refusal :=
  .next <|
    if s.live then gateRising (s.updateInputs fun i => { i with pgate := i.pgate.settle (gateActiveLevel s) }) else s

/-- A gate falling edge (R37, R39). -/
def gateFalling (s : State) : State :=
  match s.line.active with
  | some m => if s.onLine && (openRecord s).isSome then takeFallingEdge m s else s.raise .gateFault
  | none => s.raise .gateFault

/-- PGATE_FALLING_EDGE: the accepted level becomes the inactive one, and the edge is taken (R34, R35, R39). -/
def execPgateFallingEdge (s : State) : Host.Outcome State Fault Refusal :=
  .next <|
    if s.live then gateFalling (s.updateInputs fun i => { i with pgate := i.pgate.settle (!gateActiveLevel s) }) else s

/-! ## The stop inputs (R36) -/

/-- BREAKN_ASSERTION: stop cause BREAK (R36). -/
def execBreaknAssertion (s : State) : Host.Outcome State Fault Refusal :=
  .next (if s.live then closeEvent s (s.updateInputs fun i => { i with breakn := i.breakn.settle false }) [.break] else s)

/-- BREAKN_RELEASE: the accepted level changes and nothing is raised (R36). -/
def execBreaknRelease (s : State) : Host.Outcome State Fault Refusal :=
  .next (if s.live then s.updateInputs fun i => { i with breakn := i.breakn.settle true } else s)

/-- STOPINN_ASSERTION: stop cause EXTERNAL (R36). -/
def execStopinnAssertion (s : State) : Host.Outcome State Fault Refusal :=
  .next (if s.live then closeEvent s (s.updateInputs fun i => { i with stopinn := i.stopinn.settle false }) [.external] else s)

/-- STOPINN_RELEASE: the accepted level changes and nothing is raised (R36). -/
def execStopinnRelease (s : State) : Host.Outcome State Fault Refusal :=
  .next (if s.live then s.updateInputs fun i => { i with stopinn := i.stopinn.settle true } else s)

end Sys2Proof.Machine
end

