-- ==== Sys2Proof/Machine/Tension.lean ====
section
/-!
DEFINITION. Chapter 7: the tension table, targets and setpoints, the tension bias, and the freshness rules for both tables.
-/
namespace Sys2Proof.Machine

/-- Changes the tension unit. -/
def State.updateTension (s : State) (f : Tension → Tension) : State :=
  { s with tension := f s.tension }

/-! ## MEASURE_LOST (R132) -/

/-- A table raises MEASURE_LOST: the calender moves, the table has been stale for longer than hard_stale_ms, and its lost
indication is "no" (R132). -/
def tableLost (m : MachineRecord) (s : State) (since : Option Nat) (lost : Bool) : Bool :=
  match since with
  | some t => calenderMoving s && decide (m.hardStaleMs < s.now - t) && !lost
  | none => false

/-- A list of as many MEASURE_LOST causes as tables raise it (R132). -/
def lostCause (raises : Bool) : List StopCause :=
  if raises then [.measureLost] else []

/-- Both tables judged: each that raises MEASURE_LOST has its lost indication set (R132). -/
def judgeLost (s : State) : State × List StopCause :=
  match s.line.active with
  | some m =>
    let hot := tableLost m s (tableStaleSince s.dose.zones) s.tension.lostTemperature
    let tight := tableLost m s (tableStaleSince s.tension.zones) s.tension.lostTension
    (s.updateTension fun x =>
        { x with lostTemperature := x.lostTemperature || hot, lostTension := x.lostTension || tight },
      lostCause hot ++ lostCause tight)
  | none => (s, [])

/-- HARD_STALE_EXPIRY: the time since a table's stale start has passed hard_stale_ms (R132). -/
def execHardStaleExpiry (s : State) : Host.Outcome State Fault Refusal :=
  .next (closeEvent s (judgeLost s).1 (judgeLost s).2)

/-! ## REPORT_TENSIONS (R120, R128, R129) -/

/-- The greatest zone value in N/m (R119). -/
def maxTension : Nat := 5000

/-- The rewind diameter after a report: 65,535 is no reading, else clamped to core to max (R120). -/
def takeDiameter (m : MachineRecord) (old v : Nat) : Nat :=
  if v = 65535 then old else clampNat m.coreDiameter m.maxDiameter v

/-- Whether a reported diameter counts as clamped (R120). -/
def diameterClamps (m : MachineRecord) (v : Nat) : Bool :=
  decide (v ≠ 65535 ∧ clampNat m.coreDiameter m.maxDiameter v ≠ v)

/-- The table after a report (R120). -/
def Tension.take (t : Tension) (m : MachineRecord) (v : Tensions) (diameter : Nat) : Tension :=
  { t with
    paperIn := t.paperIn.take maxTension v.paperIn
    fabricUnwind := t.fabricUnwind.take maxTension v.fabricUnwind
    calIn := t.calIn.take maxTension v.calIn
    fabricRewind := t.fabricRewind.take maxTension v.fabricRewind
    diameter := takeDiameter m t.diameter diameter }

/-- Whether any value of a report counts as clamped (R120). -/
def reportClamps (m : MachineRecord) (v : Tensions) (diameter : Nat) : Bool :=
  readingClamps maxTension v.paperIn || readingClamps maxTension v.fabricUnwind ||
    readingClamps maxTension v.calIn || readingClamps maxTension v.fabricRewind || diameterClamps m diameter

/-- The excursion check, for a report that carries a CAL_IN reading (R129). -/
def checkExcursion (m : MachineRecord) (reading : Bool) (s : State) : State :=
  if reading && decide (100 * m.excursionBand <
      (100 * (s.tension.calIn.value : Int) - s.tension.setpoints.calIn).natAbs) then
    s.flagTransferring .tensionExcursion
  else s

/-- The bias after an update with CAL_IN value c and setpoint sp: b + round((100c − sp − 100b) / 1,600), clamped to −200 to
+200 (R128). -/
def biasAfter (b : Int) (c sp : Nat) : Int :=
  clampInt (-200) 200 (b + roundInt (100 * (c : Int) - sp - 100 * b) 1600)

/-- The bias update, made while CAL_IN is fresh (R128). -/
def updateBias (t : Tension) : Tension :=
  if t.calIn.isFresh then { t with bias := biasAfter t.bias t.calIn.value t.setpoints.calIn } else t

/-- The tension table's lost indication ends when the table is fresh as a whole (R132). -/
def clearLostTension (t : Tension) : Tension :=
  { t with lostTension := t.lostTension && (tableStaleSince t.zones).isSome }

/-- REPORT_TENSIONS: values stored, excursion check, bias update, freshness rules (R120). -/
def reportTensionsOwner (v : Tensions) (diameter : Nat) (s : State) : Served :=
  match s.line.active with
  | none => Served.refuse s .noMachineRecord
  | some m =>
    let stored := s.updateTension fun t => t.take m v diameter
    let checked := checkExcursion m (decide (v.calIn ≠ 65535)) stored
    Served.of (syncStale (checked.updateTension fun t => clearLostTension (updateBias t)))
      (doneOr (reportClamps m v diameter) [])

/-- REPORT_TENSIONS on a port. -/
def execReportTensions (p : PortId) (paperIn fabricUnwind calIn fabricRewind diameter : BitVec 16) (s : State) :
    Host.Outcome State Fault Refusal :=
  .next (takeRequest p 0x60 onlyDrive
    (reportTensionsOwner
      { paperIn := paperIn.toNat, fabricUnwind := fabricUnwind.toNat, calIn := calIn.toNat
        fabricRewind := fabricRewind.toNat } diameter.toNat) s)

/-! ## Stale expiry (R121) -/

/-- The table with every zone changed. -/
def Tension.mapZones (t : Tension) (f : Zone → Zone) : Tension :=
  { t with
    paperIn := f t.paperIn
    fabricUnwind := f t.fabricUnwind
    calIn := f t.calIn
    fabricRewind := f t.fabricRewind }

/-- The stale expiry of every tension zone whose age has passed the limit, as one event (R121). -/
def expireTensions (m : MachineRecord) (s : State) : State :=
  (s.updateTension fun t => t.mapZones (Zone.expire m.tensionStaleMs s.now)).raiseIf
    (s.tension.zones.any (Zone.expires m.tensionStaleMs)) .measureStale

/-- TENSION_STALE_EXPIRY (R121, R131). -/
def execTensionStaleExpiry (s : State) : Host.Outcome State Fault Refusal :=
  .next <|
    match s.line.active with
    | some m =>
      if s.tension.zones.any (Zone.expires m.tensionStaleMs) then closeEvent s (syncStale (expireTensions m s)) [] else s
    | none => s

/-! ## Targets (R123, R124) -/

/-- The rewind diameter as used: clamped to core to max (R124, R126). -/
def usedDiameter (m : MachineRecord) (d : Nat) : Nat :=
  clampNat m.coreDiameter m.maxDiameter d

/-- The FABRIC_REWIND target of a governing record's copies (R124). -/
def rewindTarget (m : MachineRecord) (c : ProfileCopies) (d : Nat) : Nat :=
  let span := 100 * (m.maxDiameter - m.coreDiameter)
  roundNat (c.baseTension * (span - c.taper * (usedDiameter m d - m.coreDiameter))) span

/-- The four targets of a governing record's copies (R124). -/
def governedTargets (m : MachineRecord) (c : ProfileCopies) (d : Nat) : Tensions :=
  { paperIn := c.paperTension
    fabricUnwind := c.baseTension
    calIn := c.baseTension
    fabricRewind := rewindTarget m c d }

/-- The four default tensions of a machine record (R123). -/
def defaultTargets (m : MachineRecord) : Tensions :=
  { paperIn := m.defaultPaperIn
    fabricUnwind := m.defaultFabricUnwind
    calIn := m.defaultCalIn
    fabricRewind := m.defaultFabricRewind }

/-- Whether a record has governed since the reset or the last line clear, this tick included (R123). -/
def governedAfter (s : State) : Bool :=
  s.tension.governed || (governing s).isSome

/-- The targets a tick sets (R123). -/
def targetsAt (m : MachineRecord) (s : State) : Tensions :=
  match governing s with
  | some (_, c) => governedTargets m c.copies s.tension.diameter
  | none => if s.tension.governed then s.tension.targets else defaultTargets m

/-! ## Setpoints (R125) -/

/-- 100 × each target (R125). -/
def Tensions.scaled (t : Tensions) : Tensions :=
  { paperIn := 100 * t.paperIn
    fabricUnwind := 100 * t.fabricUnwind
    calIn := 100 * t.calIn
    fabricRewind := 100 * t.fabricRewind }

/-- A setpoint moved toward a goal by at most the ramp rate (R125). -/
def rampOne (rate sp goal : Nat) : Nat :=
  if sp ≤ goal then (if goal - sp ≤ rate then goal else sp + rate)
  else if sp - goal ≤ rate then goal else sp - rate

/-- Every setpoint moved toward its goal (R125). -/
def ramp (rate : Nat) (sp goal : Tensions) : Tensions :=
  { paperIn := rampOne rate sp.paperIn goal.paperIn
    fabricUnwind := rampOne rate sp.fabricUnwind goal.fabricUnwind
    calIn := rampOne rate sp.calIn goal.calIn
    fabricRewind := rampOne rate sp.fabricRewind goal.fabricRewind }

/-- A tension tick under a machine record: targets, SETPOINT_CHANGED when one differs, setpoints (R122 to R125). -/
def tensionTick (m : MachineRecord) (s : State) : State :=
  (s.updateTension fun t =>
    { t with
      targets := targetsAt m s
      governed := governedAfter s
      setpoints := ramp m.rampRate t.setpoints (targetsAt m s).scaled }).raiseIf
    (decide (targetsAt m s ≠ s.tension.targets)) .setpointChanged

/-- TENSION_TICK: nothing without an active machine record (R122). -/
def execTensionTick (s : State) : Host.Outcome State Fault Refusal :=
  .next <|
    match s.line.active with
    | some m => tensionTick m s
    | none => s

/-! ## READ_SETPOINTS (R126) -/

/-- A setpoint as reported, and its target (R126). -/
def setpointFields (sp target : Nat) : List Byte :=
  leBytes 2 (roundNat sp 100) ++ leBytes 2 target

/-- Whether a setpoint has reached its target (R126). -/
def reachedField (sp target : Nat) : List Byte :=
  indication (decide (sp = 100 * target))

/-- The response fields of READ_SETPOINTS (R126; layout: notes/assumptions/12.md, 24.md). -/
def setpointsPayload (s : State) : List Byte :=
  let t := s.tension
  let sp := t.setpoints
  let goal := t.targets
  let used := s.line.active.map fun m => usedDiameter m t.diameter
  presence 2 [(governing s).isSome, used.isSome] ++
  setpointFields sp.paperIn goal.paperIn ++ setpointFields sp.fabricUnwind goal.fabricUnwind ++
  setpointFields sp.calIn goal.calIn ++ setpointFields sp.fabricRewind goal.fabricRewind ++
  reachedField sp.paperIn goal.paperIn ++ reachedField sp.fabricUnwind goal.fabricUnwind ++
  reachedField sp.calIn goal.calIn ++ reachedField sp.fabricRewind goal.fabricRewind ++
  leOption 2 ((governing s).map (·.1.id)) ++ indication t.governed ++ leOption 2 used ++ leBytes 4 s.fill

/-- READ_SETPOINTS: nothing changes (R126). -/
def readSetpointsOwner (s : State) : Served :=
  Served.of s (.done (setpointsPayload s))

/-- READ_SETPOINTS on a port. -/
def execReadSetpoints (p : PortId) (s : State) : Host.Outcome State Fault Refusal :=
  .next (takeRequest p 0x61 onlyDrive readSetpointsOwner s)

end Sys2Proof.Machine
end

