-- ==== Sys2Proof/Machine/Clock.lean ====
section
/-!
DEFINITION. The part's clock between commands: one millisecond, in which the tables age and the input filters sample
(R34, R98, R119; notes/assumptions/1.md).
-/
namespace Sys2Proof.Machine

/-- The ages of both tables after one more millisecond (R98, R119). -/
def olderTables (s : State) : State :=
  (s.updateDose fun d => { d with zones := d.zones.map Zone.older }).updateTension fun t => t.mapZones Zone.older

/-- The samples of a millisecond without a command: PGATE, BREAKn and STOPINn stay on their accepted levels, since a change
of one is a row of the table; MKCLK, once high, falls when the mark reader lets it, a free value
(R34; notes/assumptions/41.md). -/
def sampleInputs (s : State) : State :=
  { s with
    inputs :=
      { pgate := s.inputs.pgate.sample s.inputs.pgate.level
        breakn := s.inputs.breakn.sample s.inputs.breakn.level
        stopinn := s.inputs.stopinn.sample s.inputs.stopinn.level
        mkclk := if s.inputs.mkclk.level then s.inputs.mkclk.sink (Config.mkclkLow s.freeSeq) else s.inputs.mkclk.sink 0 }
    freeSeq := if s.inputs.mkclk.level then s.freeSeq + 1 else s.freeSeq }

/-- A millisecond in which no command is taken. While reset is held no time counts, but the instant in which it began is over
(R185; notes/assumptions/30.md). DESIGN CHOICE, notes/assumptions/1.md. -/
def idle (s : State) : State :=
  if s.live then olderTables (sampleInputs { s with now := s.now + 1 })
  else { s with resetUnit := { s.resetUnit with beginning := false } }

end Sys2Proof.Machine
end

