-- ==== Sys2Proof/Machine/Attention.lean ====
section
/-!
DEFINITION. Chapter 10, the requests on a port's own attention sets: READ_AND_CLEAR_ATTENTION and SET_ATTENTION_MASK.
-/
namespace Sys2Proof.Machine

/-- READ_AND_CLEAR_ATTENTION: the pending set is answered and then emptied, with the mask (R182). -/
def readAndClearOwner (p : PortId) (s : State) : Served :=
  Served.of (s.updatePort p fun q => { q with pending := 0 })
    (.done (leBytes 2 s.ports[p].pending.toNat ++ leBytes 2 s.ports[p].mask.toNat))

/-- READ_AND_CLEAR_ATTENTION on a port. -/
def execReadAndClearAttention (p : PortId) (s : State) : Host.Outcome State Fault Refusal :=
  .next (takeRequest p 0x16 anyRole (readAndClearOwner p) s)

/-- SET_ATTENTION_MASK: the asking port's mask is replaced (R183). -/
def setAttentionMaskOwner (p : PortId) (mask : BitVec 16) (s : State) : Served :=
  Served.of (s.updatePort p fun q => { q with mask := mask }) (.done [])

/-- SET_ATTENTION_MASK on a port. -/
def execSetAttentionMask (p : PortId) (mask : BitVec 16) (s : State) : Host.Outcome State Fault Refusal :=
  .next (takeRequest p 0x17 anyRole (setAttentionMaskOwner p mask) s)

end Sys2Proof.Machine
end

