-- ==== Sys2Proof/Machine/Marks.lean ====
section
/-!
DEFINITION. Chapter 2, the mark unit: the assembly of mark words (R41) and their judgement (R42 to R45).
-/
namespace Sys2Proof.Machine

/-- Changes the mark unit. -/
def State.updateMark (s : State) (f : MarkUnit → MarkUnit) : State :=
  { s with mark := f s.mark }

/-! ## Words (R41, R42) -/

/-- The number that bits stand for, most significant bit first. -/
def bitsValue (bits : List Bool) : Nat :=
  bits.foldl (fun n b => 2 * n + b.toNat) 0

/-- The code of a word: its first twelve bits (R41). -/
def markCode (bits : List Bool) : Nat :=
  bitsValue (bits.take 12)

/-- The check of a word: its last four bits (R41). -/
def markCheck (bits : List Bool) : Nat :=
  bitsValue (bits.drop 12)

/-- The check a code calls for: the exclusive-or of its three 4-bit groups (R42). -/
def expectedCheck (code : Nat) : Nat :=
  (code / 256 % 16) ^^^ (code / 16 % 16) ^^^ (code % 16)

/-- A word whose check is good (R42). -/
def checkHolds (bits : List Bool) : Bool :=
  decide (markCheck bits = expectedCheck (markCode bits))

/-- A stamp below the blanking end, where one is set (R42). -/
def blanked (k : MarkUnit) (stamp : Nat) : Bool :=
  match k.accepted with
  | some a => decide (stamp < a.blankingEnd)
  | none => false

/-! ## Candidates (R43) -/

/-- A printed record whose mark state is "none yet"; only a NORMAL record has a mark state (R3, R43). -/
def Panel.markOpen (r : Panel) : Bool :=
  r.printed && r.normal.isSome && decide (r.mark = some .noneYet)

/-- The candidates: the first four of them, from head to tail (R43). -/
def markCandidates (s : State) : List Panel :=
  (s.queue.filter (·.markOpen)).take 4

/-- A candidate whose panel id modulo 4096 is the code (R43). -/
def codeMatches (code : Nat) (r : Panel) : Bool :=
  decide (r.id % 4096 = code)

/-- The candidates passed over before the matched one (R43). -/
def skippedCandidates (code : Nat) (candidates : List Panel) : List Nat :=
  (candidates.takeWhile fun r => !codeMatches code r).map (·.id)

/-- The skipped candidates missed (R43). -/
def missSkipped (ids : List Nat) (s : State) : State :=
  s.mapPanels (fun r => decide (r.id ∈ ids)) Panel.missMark

/-! ## Judging a match (R43 to R45) -/

/-- A word that names no candidate: stored, MARK_FAULT, and REGISTRATION_LOST under policy HALT (R43). -/
def markUnmatched (m : MachineRecord) (code stamp : Nat) (s : State) : State × List StopCause :=
  ((s.updateMark fun k => { k with unmatched := some { code := code, stamp := stamp } }).raise .markFault,
    if m.haltOnNonMatch then [.registrationLost] else [])

/-- The sync error e = (lead − mark_lead) − stamp (R44). -/
def syncErrorOf (m : MachineRecord) (r : Panel) (stamp : Nat) : Int :=
  ((r.lead.getD 0 : Int) - m.markLead) - stamp

/-- x_nip after a correction by e: clamped between the newest TRANSFERRING lead, or 0, and x_print (R44). -/
def correctedNip (s : State) (e : Int) : Nat :=
  min s.pos.xPrint (max (nipFloor s) ((s.pos.xNip : Int) + e).toNat)

/-- The position unit after a correction: the remainder is kept, and is 0 where the result is x_print (R44). -/
def Position.correctNip (x : Position) (target : Nat) : Position :=
  { x with xNip := target, remNip := if target = x.xPrint then 0 else x.remNip }

/-- A seen match: the applied value stored, the streak 0, the stamp accepted with its blanking end, and the coordinate change
handed on (R44, R40). A correction whose applied value is 0 is handed on like any other: R44 calls the correction a coordinate
change whatever it applies, R46 speaks of a change of x_nip (DESIGN CHOICE, notes/assumptions/38.md). -/
def markSeen (m : MachineRecord) (id stamp : Nat) (e : Int) (s : State) : State × List StopCause :=
  let target := correctedNip s e
  let marked :=
    (s.mapPanels (fun r => decide (r.id = id)) fun r =>
      { r with mark := some (.seen ((target : Int) - s.pos.xNip)) }).updateMark fun k =>
        { k with accepted := some { stamp := stamp, blankingEnd := stamp + m.blankLen }, streak := 0 }
  nipChanged m (marked.updatePos fun x => x.correctNip target)

/-- A rejected match: flagged, the streak risen, REGISTRATION_LOST when it becomes 3 (R45). -/
def markRejected (id : Nat) (s : State) : State × List StopCause :=
  ((s.mapPanels (fun r => decide (r.id = id)) fun r =>
      { r with mark := some .rejected, flags := addFlag r.flags .markRejected }).updateMark fun k =>
        { k with streak := saturatingSucc 255 k.streak },
    if s.mark.streak = 2 then [.registrationLost] else [])

/-- The word matched against the candidates (R43 to R45). -/
def matchMark (m : MachineRecord) (code stamp : Nat) (s : State) : State × List StopCause :=
  match (markCandidates s).find? (codeMatches code) with
  | none => markUnmatched m code stamp s
  | some r =>
    let t := missSkipped (skippedCandidates code (markCandidates s)) s
    let e := syncErrorOf m r stamp
    if e.natAbs ≤ m.syncLimit then markSeen m r.id stamp e t else markRejected r.id t

/-- A complete word (R42): nothing in UNSET, then the check, the blanking and the match. -/
def judgeMark (stamp : Nat) (bits : List Bool) (s : State) : State × List StopCause :=
  match s.line.active with
  | some m =>
    if !s.onLine then (s, [])
    else if !checkHolds bits then (s.raise .markFault, [])
    else if blanked s.mark stamp then (s, [])
    else matchMark m (markCode bits) stamp s
  | none => (s, [])

/-! ## Edges of MKCLK (R41) -/

/-- The partial word after a bit; the stamp is recorded at the first (R41). -/
def takeBit (p : Option PartialMark) (xNip : Nat) (bit : Bool) : PartialMark :=
  match p with
  | some w => { w with bits := w.bits ++ [bit] }
  | none => { stamp := xNip, bits := [bit] }

/-- A qualified MKCLK rising edge: the next bit is taken, and the sixteenth completes the word within the event (R41). -/
def markEdge (bit : Bool) (s : State) : State :=
  let w := takeBit s.mark.partialWord s.pos.xNip bit
  let t := s.updateInputs fun i => { i with mkclk := i.mkclk.rise }
  if w.bits.length < 16 then t.updateMark fun k => { k with partialWord := some w }
  else
    let r := judgeMark w.stamp w.bits (t.updateMark fun k => { k with partialWord := none })
    closeEvent s r.1 r.2

/-- MKCLK_RISING_EDGE with the level of MKDAT at the qualifying sample (R41). -/
def execMkclkRisingEdge (bit : Bool) (s : State) : Host.Outcome State Fault Refusal :=
  .next (if s.live then markEdge bit s else s)

/-- MARK_WORD: the edge that brings the sixteenth bit (R41, R42; notes/assumptions/17.md). -/
def execMarkWord (bit : Bool) (s : State) : Host.Outcome State Fault Refusal :=
  .next (if s.live then markEdge bit s else s)

/-- MARK_WORD_TIMEOUT: a partial word without an edge for 2 ms is discarded with MARK_FAULT (R41). -/
def execMarkWordTimeout (s : State) : Host.Outcome State Fault Refusal :=
  .next <|
    match s.mark.partialWord with
    | some _ => (s.updateMark fun k => { k with partialWord := none }).raise .markFault
    | none => s

end Sys2Proof.Machine
end

