-- ==== Sys2Proof/Machine/Speeds.lean ====
section
/-!
DEFINITION. Chapter 2, speeds and slip: the speed window's expiry and what it hands to the dose and tension units
(R30, R31).
-/
namespace Sys2Proof.Machine

/-! ## Speeds (R30) -/

/-- The speed of a net count at a resolution: |net| × resolution / 100,000 mm/s, truncated; reverse when the net count is
negative (R30). -/
def speedOf (net : Int) (res : Nat) : Speed :=
  { magnitude := net.natAbs * res / 100000, reverse := decide (net < 0) }

/-- The resolutions of PENC, CENC and FENC; 0 where no machine record is active, so that the speed is 0 mm/s
(R29; notes/assumptions/18.md). -/
def resolutions (m : Option MachineRecord) : Nat × Nat × Nat :=
  match m with
  | some r => (r.pencRes, r.cencRes, r.fencRes)
  | none => (0, 0, 0)

/-- The position unit at the end of a window: speeds from the net counts, the net counts kept, a new window begun (R30). -/
def Position.endWindow (x : Position) (m : Option MachineRecord) : Position :=
  { x with
    vPrint := speedOf x.netPrint (resolutions m).1
    vCal := speedOf x.netCal (resolutions m).2.1
    vFab := speedOf x.netFab (resolutions m).2.2
    keptPrint := x.netPrint
    keptCal := x.netCal
    keptFab := x.netFab
    netPrint := 0
    netCal := 0
    netFab := 0 }

/-! ## Slip (R31) -/

/-- slip_ppm of net counts, uncapped, where the net CENC count is above 0 (R31). -/
def slipOf (m : MachineRecord) (netCal netFab : Int) : Nat :=
  (netCal * m.cencRes - netFab * m.fencRes).natAbs * 1000000 / (netCal * m.cencRes).toNat

/-- Slip at a window's expiry: stored capped at 1,000,000; above the limit every TRANSFERRING record gains SLIP (R31). -/
def evaluateSlip (s : State) : State :=
  match s.line.active with
  | some m =>
    if 0 < s.pos.netCal then
      let ppm := slipOf m s.pos.netCal s.pos.netFab
      let t := s.updatePos fun x => { x with slip := min ppm 1000000 }
      if m.slipLimit < ppm then t.flagTransferring .slip else t
    else s.updatePos fun x => { x with slip := 0 }
  | none => s.updatePos fun x => { x with slip := 0 }

/-! ## The expiry (R30) -/

/-- The expiry of a speed window: slip, speeds, then the heat advice (R115), STALE (R131) and MEASURE_LOST (R132). -/
def speedWindow (s : State) : State :=
  let measured := (evaluateSlip s).updatePos fun x => x.endWindow s.line.active
  let r := judgeLost (syncStale (recomputeAdvice measured))
  closeEvent s r.1 r.2

/-- SPEED_WINDOW_EXPIRY; the windows run from the end of the scan (R30, R186). -/
def execSpeedWindowExpiry (s : State) : Host.Outcome State Fault Refusal :=
  .next (if s.running then speedWindow s else s)

end Sys2Proof.Machine
end

