-- ==== Sys2Proof/Machine/Store.lean ====
section
/-!
DEFINITION. Chapter 8: the store arbiter, its operations with their grants and completions, the staging rows, and the store
requests of the PRODUCTION port.
-/
namespace Sys2Proof.Machine

/-- Changes the profile store. -/
def State.updateStore (s : State) (f : Store → Store) : State :=
  { s with store := f s.store }

/-- The directory line of a slot without channel count and name, in a state (R137). -/
def DirEntry.without (d : DirEntry) (st : SlotState) : DirEntry :=
  { d with state := st, channels := none, name := none, programmed := 0 }

/-- A slot found damaged by a failed CRC check: DAMAGED, with PROFILE_DAMAGED (R75, R137, R154, R157). -/
def markDamaged (slot : SlotId) (s : State) : State :=
  (s.updateDir slot fun d => d.without .damaged).raise .profileDamaged

/-- The machine record pending indication, set by what changes slot 0 (R157). -/
def setRecordPending (slot : SlotId) (s : State) : State :=
  { s with line := { s.line with recordPending := s.line.recordPending || decide (slot.val = 0) } }

/-! ## Staging rows (R147 to R149) -/

/-- The staging rows there are (R148). -/
def stagingCapacity : Nat := 4

/-- The rows that bytes of a write fall in: one, or two adjacent ones (R147). -/
def touchedRows (offset len : Nat) : List Nat :=
  if offset / 32 = (offset + len - 1) / 32 then [offset / 32] else [offset / 32, (offset + len - 1) / 32]

/-- A staging row of a slot's row (R148). -/
def StagingRow.isFor (r : StagingRow) (slot : SlotId) (row : Nat) : Bool :=
  decide (r.slot = slot ∧ r.row = row)

/-- A staging row just taken: no byte staged (R148). -/
def emptyRow (slot : SlotId) (row : Nat) : StagingRow :=
  { slot := slot, row := row, bytes := List.replicate 32 none }

/-- A staging row with the bytes of a write that fall in it (R148). -/
def StagingRow.merge (r : StagingRow) (offset : Nat) (data : List Byte) : StagingRow :=
  { r with bytes := r.bytes.mapIdx fun i old => if offset ≤ 32 * r.row + i then (data[32 * r.row + i - offset]?).or old else old }

/-- All the bytes of the row that WRITE_SLOT can write are staged: 2 to 31 of row 0, else all 32 (R148). -/
def StagingRow.complete (r : StagingRow) : Bool :=
  (r.bytes.drop (if r.row = 0 then 2 else 0)).all Option.isSome

/-- What a write does to the staging rows: the rows displaced, oldest first, the rows completed, in row order, and the rows
then held, oldest first (R148, R149). -/
structure WritePlan where
  displaced : List StagingRow
  completed : List StagingRow
  held : List StagingRow

/-- The touched rows that hold no staging row (R148). -/
def missingRows (held : List StagingRow) (slot : SlotId) (rows : List Nat) : List Nat :=
  rows.filter fun row => !held.any (·.isFor slot row)

/-- The rows a write displaces: as many of the oldest untouched ones as it needs beyond the free ones (R149). -/
def displacedRows (held : List StagingRow) (slot : SlotId) (rows : List Nat) : List StagingRow :=
  (held.filter fun r => !rows.any (r.isFor slot)).take
    ((missingRows held slot rows).length - (stagingCapacity - held.length))

/-- The plan of a write (R148, R149). -/
def planWrite (held : List StagingRow) (slot : SlotId) (offset : Nat) (data : List Byte) : WritePlan :=
  let rows := touchedRows offset data.length
  let out := displacedRows held slot rows
  let kept := held.filter fun r => decide (r ∉ out)
  let merged := (kept ++ (missingRows held slot rows).map (emptyRow slot)).map fun r =>
    if rows.any (r.isFor slot) then r.merge offset data else r
  let done := fun r : StagingRow => rows.any (r.isFor slot) && r.complete
  { displaced := out
    completed := rows.flatMap fun row => merged.filter fun r => r.isFor slot row && r.complete
    held := merged.filter fun r => !done r }

/-- The rows a write programs, in order (R149). -/
def WritePlan.programs (w : WritePlan) : List StagingRow :=
  w.displaced ++ w.completed

/-- The bytes a row is programmed with: unstaged ones as FFh (R148). -/
def StagingRow.content (r : StagingRow) : List Byte :=
  r.bytes.map fun b => b.getD erasedByte

/-- A row programmed into the array (R148). -/
def programRow (m : Memory) (r : StagingRow) : Memory :=
  Memory.programList m (slotBase r.slot + 32 * r.row) r.content

/-- Rows programmed, each joining its slot's programmed rows (R148). -/
def programRows (rows : List StagingRow) (s : State) : State :=
  rows.foldl (fun t r =>
    (t.updateStore fun x => { x with array := programRow x.array r }).updateDir r.slot fun d =>
      { d with programmed := d.programmed ||| BitVec.ofNat 32 (2 ^ r.row) }) s

/-! ## Grants (R74, R142, R144, R145, R149, R150, R156) -/

/-- A READY record with fetched "yes" names the slot (R144). -/
def fetchedNames (s : State) (slot : SlotId) : Bool :=
  s.queue.any fun r => r.isFetched && decide (r.slot = some slot)

/-- An unfetched READY record that names the slot (R145). -/
def unfetchedNames (slot : SlotId) (r : Panel) : Bool :=
  r.isReady && !r.isFetched && decide (r.slot = some slot)

/-- A READY record returned to QUEUED: correction, copies, ready time and correction flags removed (R4, R17, R145). -/
def Panel.returnToQueued (r : Panel) : Panel :=
  { r with state := .queued, correction := none, flags := withoutCorrectionFlags r.flags }

/-- The holder takes the store (R142). -/
def hold (op : StoreOp) (s : State) : State :=
  s.updateStore fun x => { x with holder := some op }

/-- The grant of an erase that passes its check (R145). -/
def grantErase (p : PortId) (slot : SlotId) (s : State) : State :=
  let returned := s.mapPanels (unfetchedNames slot) Panel.returnToQueued
  let cleared := (returned.updateCache fun c => c.invalidate slot).updateStore fun x =>
    { x with staging := x.staging.filter fun r => decide (r.slot ≠ slot) }
  let writing := cleared.updateDir slot fun d => d.without .writing
  reevaluate (syncUnready (setRecordPending slot (hold (.erase p slot) writing)))

/-- A store request answered after its take event, with STORE_DONE (R143, R191). -/
def answerLater (p : PortId) (request : Byte) (r : Reply) (s : State) : State :=
  (s.answer p request r).raise .storeDone

/-- The grant of a store clear (R156). -/
def grantClear (p : PortId) (s : State) : State :=
  let blank := s.updateStore fun x =>
    { x with dir := x.dir.map fun d => d.without .erased, staging := [], holder := some (.clear p) }
  setRecordPending 0 (blank.updateCache Cache.clear)

/-- The grant of a write: the staging rows change, and the rows to program are fixed (R149). -/
def grantWrite (p : PortId) (slot : SlotId) (offset : Nat) (data : List Byte) (s : State) : State :=
  let plan := planWrite s.store.staging slot offset data
  s.updateStore fun x => { x with staging := plan.held, holder := some (.write p plan.programs) }

/-- A slot's staging rows in row order (R150). -/
def slotRows (held : List StagingRow) (slot : SlotId) : List StagingRow :=
  (List.range 32).flatMap fun row => held.filter (·.isFor slot row)

/-- The grant of a commit: the slot's staging rows are taken to be programmed (R150). -/
def grantCommit (p : PortId) (slot : SlotId) (s : State) : State :=
  s.updateStore fun x =>
    { x with
      staging := x.staging.filter fun r => decide (r.slot ≠ slot)
      holder := some (.commit p slot (slotRows x.staging slot)) }

/-- A PRODUCTION store request granted: an erase is checked again and may be refused (R144), the others start. -/
def startRequest (r : StoreRequest) (s : State) : State :=
  match r with
  | .erase p slot =>
    if fetchedNames s slot then answerLater p 0x30 (.refused .inUse) s else grantErase p slot s
  | .write p slot offset data => grantWrite p slot offset data s
  | .commit p slot => grantCommit p slot s
  | .lock p slot => hold (.lock p slot) s
  | .read p slot offset n => hold (.read p slot offset n) s
  | .clear p => grantClear p s
  | .lineClear p span => hold (.lineClear p span) s

/-- A waiting fill on a free store: granted, or abandoned when its slot is no longer VALID or LOCKED, and then the scheduler
re-evaluates (R74, R80). -/
def grantFill (s : State) : State :=
  match s.store.holder, s.store.fillWaiting with
  | none, some slot =>
    let t := s.updateStore fun x => { x with fillWaiting := none }
    if slotUsable s slot then hold (.fill slot) t else reevaluate t
  | _, _ => s

/-- A waiting PRODUCTION request on a free store (R142). -/
def grantRequest (s : State) : State :=
  match s.store.holder, s.store.requestWaiting with
  | none, some r => startRequest r (s.updateStore fun x => { x with requestWaiting := none })
  | _, _ => s

/-- The waiting clients of a free store: the fill first (R142). -/
def grantWaiting (s : State) : State :=
  grantRequest (grantFill s)

/-- A PRODUCTION request asks the arbiter: it waits, and is granted at once when the store is free (R142). -/
def askStore (r : StoreRequest) (s : State) : Served :=
  Served.of (grantWaiting (s.updateStore fun x => { x with requestWaiting := some r })) .later

/-- The holder's operation has ended: the store is free (R142). -/
def freeStore (s : State) : State :=
  s.updateStore fun x => { x with holder := none }

/-- CACHE_FILL_GRANT: a waiting fill on a free store (R74, R142; notes/assumptions/5.md). -/
def execCacheFillGrant (s : State) : Host.Outcome State Fault Refusal :=
  .next (if s.store.fillWaiting.isSome then closeEvent s (grantWaiting s) [] else s)

/-- A PRODUCTION request that a condition picks waits, with no fill before it (R142). -/
def requestNext (s : State) (picks : StoreRequest → Bool) : Bool :=
  s.store.fillWaiting.isNone && s.store.requestWaiting.any picks

/-- A waiting request is an erase. -/
def StoreRequest.isErase : StoreRequest → Bool
  | .erase _ _ => true
  | _ => false

/-- A waiting request is a store clear. -/
def StoreRequest.isClear : StoreRequest → Bool
  | .clear _ => true
  | _ => false

/-- ERASE_SLOT_GRANT: a waiting erase on a free store (R144, R145). -/
def execEraseSlotGrant (s : State) : Host.Outcome State Fault Refusal :=
  .next (if requestNext s (·.isErase) then closeEvent s (grantWaiting s) [] else s)

/-- STORE_GRANT: a waiting write, commit, lock, slot read or line clear read on a free store (R142). -/
def execStoreGrant (s : State) : Host.Outcome State Fault Refusal :=
  .next (if requestNext s (fun r => !r.isErase && !r.isClear) then closeEvent s (grantWaiting s) [] else s)

/-- STORE_CLEAR_GRANT: a waiting store clear on a free store (R156). -/
def execStoreClearGrant (s : State) : Host.Outcome State Fault Refusal :=
  .next (if requestNext s (·.isClear) then closeEvent s (grantWaiting s) [] else s)

/-! ## Completions (R75, R146, R149, R150 to R156) -/

/-- An operation of the PRODUCTION port ends: the store is free, the request answered, and a waiting client granted
(R142, R143). -/
def endOperation (before : State) (p : PortId) (request : Byte) (r : Reply) (s : State) : State :=
  closeEvent before (grantWaiting (answerLater p request r s)) []

/-- A fill's read ends: a failed CRC marks the slot DAMAGED, else a victim entry is filled; then re-evaluation (R75). -/
def endFill (slot : SlotId) (s : State) : State :=
  let free := freeStore s
  let judged :=
    if readPasses s slot then
      free.updateCache fun c =>
        c.fill { slot := slot, generation := (dirEntry s slot).generation, profile := parseProfile s.store.array slot }
    else markDamaged slot free
  closeEvent s (grantWaiting (reevaluate judged)) []

/-- CACHE_FILL_COMPLETION (R75). -/
def execCacheFillCompletion (s : State) : Host.Outcome State Fault Refusal :=
  .next <|
    match s.store.holder with
    | some (.fill slot) => endFill slot s
    | _ => s

/-- An erase ends: every byte of the slot reads FFh (R146). -/
def endErase (p : PortId) (slot : SlotId) (s : State) : State :=
  endOperation s p 0x30 (.done [])
    ((freeStore s).updateStore fun x => { x with array := Memory.eraseRange x.array (slotBase slot) 1024 })

/-- ERASE_SLOT_COMPLETION (R146). -/
def execEraseSlotCompletion (s : State) : Host.Outcome State Fault Refusal :=
  .next <|
    match s.store.holder with
    | some (.erase p slot) => endErase p slot s
    | _ => s

/-- WRITE_SLOT_COMPLETION: the rows are programmed (R148, R149). -/
def execWriteSlotCompletion (s : State) : Host.Outcome State Fault Refusal :=
  .next <|
    match s.store.holder with
    | some (.write p rows) => endOperation s p 0x31 (.done []) (programRows rows (freeStore s))
    | _ => s

/-- The directory line a completed commit leaves (R138, R152). -/
def committedEntry (a : Memory) (slot : SlotId) (d : DirEntry) : DirEntry :=
  { state := .valid
    generation := (d.generation + 1) % 65536
    channels := if slot.val = 0 then none else some (slotField a slot 3 1)
    name := some (slotBytes a slot 4 16)
    programmed := 0 }

/-- The commit mark programmed, with the effects of R152. -/
def commitEffects (slot : SlotId) (s : State) : State :=
  let marked := s.updateStore fun x => { x with array := Memory.program x.array (slotBase slot) 0x3C }
  let valid := marked.updateDir slot (committedEntry marked.store.array slot)
  reevaluate (setRecordPending slot (valid.updateCache fun c => c.invalidate slot))

/-- A commit ends: the staged rows programmed, the CRC and the content checked, and the mark programmed if both pass (R150). -/
def endCommit (p : PortId) (slot : SlotId) (rows : List StagingRow) (s : State) : State :=
  let programmed := programRows rows (freeStore s)
  if slotCrcHolds programmed.store.array slot then
    match contentFault programmed.store.array slot with
    | some offset => endOperation s p 0x32 (.badContent offset) programmed
    | none => endOperation s p 0x32 (.done []) (commitEffects slot programmed)
  else endOperation s p 0x32 (.refused .badCheck) programmed

/-- COMMIT_SLOT_COMPLETION (R150 to R153). -/
def execCommitSlotCompletion (s : State) : Host.Outcome State Fault Refusal :=
  .next <|
    match s.store.holder with
    | some (.commit p slot rows) => endCommit p slot rows s
    | _ => s

/-- A lock ends: the lock mark programmed, or the slot found damaged (R154). -/
def endLock (p : PortId) (slot : SlotId) (s : State) : State :=
  let free := freeStore s
  if readPasses s slot then
    endOperation s p 0x33 (.done [])
      ((free.updateStore fun x => { x with array := Memory.program x.array (slotBase slot + 1) 0xC3 }).updateDir slot
        fun d => { d with state := .locked })
  else
    endOperation s p 0x33 (.refused .badCheck) ((markDamaged slot free).updateCache fun c => c.invalidate slot)

/-- LOCK_SLOT_COMPLETION (R154). -/
def execLockSlotCompletion (s : State) : Host.Outcome State Fault Refusal :=
  .next <|
    match s.store.holder with
    | some (.lock p slot) => endLock p slot s
    | _ => s

/-- READ_SLOT_COMPLETION: the bytes as the array holds them, with their count (R155; notes/assumptions/36.md). -/
def execReadSlotCompletion (s : State) : Host.Outcome State Fault Refusal :=
  .next <|
    match s.store.holder with
    | some (.read p slot offset n) =>
      endOperation s p 0x34 (.done (leBytes 1 n ++ slotBytes s.store.array slot offset n)) (freeStore s)
    | _ => s

/-- STORE_CLEAR_COMPLETION: every byte of the array reads FFh, and the scheduler re-evaluates (R156). -/
def execStoreClearCompletion (s : State) : Host.Outcome State Fault Refusal :=
  .next <|
    match s.store.holder with
    | some (.clear p) =>
      endOperation s p 0x35 (.done []) (reevaluate ((freeStore s).updateStore fun x => { x with array := [] }))
    | _ => s

/-! ## Requests -/

/-- ERASE_SLOT (R144). -/
def eraseOwner (p : PortId) (slot : Byte) (s : State) : Served :=
  match slotOf slot with
  | none => Served.refuse s .badArg
  | some i =>
    if (dirEntry s i).state = .locked then Served.refuse s .locked
    else if fetchedNames s i then Served.refuse s .inUse
    else askStore (.erase p i) s

/-- ERASE_SLOT on a port. -/
def execEraseSlot (p : PortId) (slot : Byte) (s : State) : Host.Outcome State Fault Refusal :=
  .next (takeRequest p 0x30 onlyProduction (eraseOwner p slot) s)

/-- A byte of the write lies in a programmed row (R147). -/
def rowsProgrammed (s : State) (i : SlotId) (rows : List Nat) : Bool :=
  rows.any fun row => (dirEntry s i).programmed.getLsbD row

/-- A byte of the write is already staged (R147). -/
def bytesStaged (s : State) (i : SlotId) (offset len : Nat) : Bool :=
  s.store.staging.any fun r =>
    decide (r.slot = i) && (List.range len).any fun k =>
      decide ((offset + k) / 32 = r.row) && ((r.bytes[(offset + k) % 32]?).bind id).isSome

/-- The checks of a write in the order of R147; none when it is accepted. -/
def writeRefusal (s : State) (i : SlotId) (offset len : Nat) : Option Reason :=
  if (dirEntry s i).state ≠ .writing then some .wrongState
  else if offset < 2 ∨ 1024 < offset + len then some .badArg
  else if rowsProgrammed s i (touchedRows offset len) then some .alreadyWritten
  else if bytesStaged s i offset len then some .alreadyWritten
  else none

/-- WRITE_SLOT: form (R192), checks (R147), staged at once when nothing is to be programmed, else through the arbiter
(R149). -/
def writeOwner (p : PortId) (slot : Byte) (offset : BitVec 16) (data : List Byte) (s : State) : Served :=
  if data.length = 0 ∨ 32 < data.length then Served.refuse s .badArg
  else
    match slotOf slot with
    | none => Served.refuse s .badArg
    | some i =>
      match writeRefusal s i offset.toNat data.length with
      | some reason => Served.refuse s reason
      | none =>
        let plan := planWrite s.store.staging i offset.toNat data
        if plan.programs.isEmpty then
          Served.of (s.updateStore fun x => { x with staging := plan.held }) (.done [])
        else askStore (.write p i offset.toNat data) s

/-- WRITE_SLOT on a port. -/
def execWriteSlot (p : PortId) (slot : Byte) (offset : BitVec 16) (data : List Byte) (s : State) :
    Host.Outcome State Fault Refusal :=
  .next (takeRequest p 0x31 onlyProduction (writeOwner p slot offset data) s)

/-- COMMIT_SLOT (R150). -/
def commitOwner (p : PortId) (slot : Byte) (s : State) : Served :=
  match slotOf slot with
  | none => Served.refuse s .badArg
  | some i =>
    if (dirEntry s i).state ≠ .writing then Served.refuse s .wrongState else askStore (.commit p i) s

/-- COMMIT_SLOT on a port. -/
def execCommitSlot (p : PortId) (slot : Byte) (s : State) : Host.Outcome State Fault Refusal :=
  .next (takeRequest p 0x32 onlyProduction (commitOwner p slot) s)

/-- LOCK_SLOT (R154). -/
def lockOwner (p : PortId) (slot : Byte) (s : State) : Served :=
  match slotOf slot with
  | none => Served.refuse s .badArg
  | some i =>
    if (dirEntry s i).state = .locked then Served.of s (.done [])
    else if (dirEntry s i).state ≠ .valid then Served.refuse s .wrongState
    else askStore (.lock p i) s

/-- LOCK_SLOT on a port. -/
def execLockSlot (p : PortId) (slot : Byte) (s : State) : Host.Outcome State Fault Refusal :=
  .next (takeRequest p 0x33 onlyProduction (lockOwner p slot) s)

/-- READ_SLOT (R155). -/
def readSlotOwner (p : PortId) (slot : Byte) (offset : BitVec 16) (n : Byte) (s : State) : Served :=
  match slotOf slot with
  | none => Served.refuse s .badArg
  | some i =>
    if n.toNat = 0 ∨ 32 < n.toNat ∨ 1024 < offset.toNat + n.toNat then Served.refuse s .badArg
    else askStore (.read p i offset.toNat n.toNat) s

/-- READ_SLOT on a port. -/
def execReadSlot (p : PortId) (slot : Byte) (offset : BitVec 16) (n : Byte) (s : State) :
    Host.Outcome State Fault Refusal :=
  .next (takeRequest p 0x34 onlyProduction (readSlotOwner p slot offset n) s)

/-- STORE_CLEAR (R156). -/
def storeClearOwner (p : PortId) (s : State) : Served :=
  if !s.resetUnit.maint then Served.refuse s .notPermitted
  else if s.queue.any (·.unprinted) then Served.refuse s .inUse
  else askStore (.clear p) s

/-- STORE_CLEAR on a port. -/
def execStoreClear (p : PortId) (s : State) : Host.Outcome State Fault Refusal :=
  .next (takeRequest p 0x35 onlyProduction (storeClearOwner p) s)

end Sys2Proof.Machine
end

