-- ==== Sys2Proof/Machine/LineClear.lean ====
section
/-!
DEFINITION. LINE_CLEAR: its checks when it is taken (R48), the judgement at its read of slot 0 (R49), and its effects, which
R50 gathers and the chapters of the blocks give.
-/
namespace Sys2Proof.Machine

/-- LINE_CLEAR when it is taken: two checks, then the store arbiter (R48). -/
def lineClearOwner (p : PortId) (span : BitVec 32) (s : State) : Served :=
  if stopChainOpen s then Served.refuse s .stillActive
  else if !slotUsable s 0 then Served.refuse s .noMachineRecord
  else askStore (.lineClear p span.toNat) s

/-- LINE_CLEAR on a port. -/
def execLineClear (p : PortId) (span : BitVec 32) (s : State) : Host.Outcome State Fault Refusal :=
  .next (takeRequest p 0x23 onlyProduction (lineClearOwner p span) s)

/-- v_cal or v_print, recomputed from the kept net counts with a record's resolutions, is at or above its v_min (R49). -/
def stillMoves (m : MachineRecord) (x : Position) : Bool :=
  decide (m.vMin ≤ (speedOf x.keptCal m.cencRes).magnitude) || decide (m.vMin ≤ (speedOf x.keptPrint m.pencRes).magnitude)

/-- The checks against the record read, in the order of R49; none when the line clear completes. -/
def lineClearRefusal (m : MachineRecord) (span : Nat) (s : State) : Option Reason :=
  if stopChainOpen s then some .stillActive
  else if stillMoves m s.pos then some .wrongState
  else if m.stopLow < span ∧ span < m.stopHigh then none
  else some .badArg

/-! ## The effects, block by block -/

/-- Line control: the record active, nothing pending, the stop record cleared, TRACKING, FILL_HIGH by the span, and
LINE_RELEASED from HALTED (R50, R157, R159). -/
def clearLineControl (m : MachineRecord) (span : Nat) (s : State) : State :=
  ({ s with line :=
      { state := .tracking
        hold := { s.line.hold with fillHigh := decide (m.holdHigh ≤ span) }
        stop := none
        active := some m
        recordPending := false } } : State).raiseIf (stopoutAsserted s) .lineReleased

/-- Coordinates, remainders, last evaluated fill and slip; speeds, net counts and error counts stay (R50, R25, R30). -/
def Position.clear (x : Position) (span : Nat) : Position :=
  { x with xPrint := span, remPrint := 0, xNip := 0, remNip := 0, lastFill := span, slip := 0 }

/-- The mark unit after a line clear (R41, R43, R45, R50). -/
def MarkUnit.clear (_ : MarkUnit) : MarkUnit :=
  { partialWord := none, accepted := none, streak := 0, unmatched := none }

/-- The filter interval in force: that of the active record, else 1 µs (R34). -/
def filterIntervalOf (m : Option MachineRecord) : Nat :=
  match m with
  | some r => r.filterInterval
  | none => 1

/-- Every filter restarts its count when the interval changes (R34). -/
def Inputs.restartIf (i : Inputs) (changed : Bool) : Inputs :=
  if changed then
    { pgate := i.pgate.restart, breakn := i.breakn.restart, stopinn := i.stopinn.restart, mkclk := i.mkclk.restart }
  else i

/-- An unprinted record through a line clear: an unfetched READY one is due for refresh (R23, R79). -/
def Panel.dueAfterClear (r : Panel) : Panel :=
  match r.state with
  | .ready false t _ => { r with state := .ready false t true }
  | _ => r

/-- The queue keeps its unprinted records (R23). -/
def clearQueue (s : State) : State :=
  { s with queue := (s.queue.filter (·.unprinted)).map Panel.dueAfterClear }

/-- The temperature table under a new record: rebuilt for another zone count, with its lost indication "no", else expired
under the new limit (R101, R121, R132). -/
def clearTemperatures (m : MachineRecord) (s : State) : State :=
  if m.zoneCount = s.dose.zones.length then expireTemperatures m s
  else
    ((s.updateDose fun d => { d with zones := List.replicate m.zoneCount (Zone.new s.now) }).updateTension fun t =>
      { t with lostTemperature := false }).raiseIf (s.dose.zones.any (·.isFresh)) .measureStale

/-- The tension unit: bias 0, governed "no", the table expired under the new limit (R121, R127, R134). -/
def clearTensions (m : MachineRecord) (s : State) : State :=
  expireTensions m (s.updateTension fun t => { t with bias := 0, governed := false })

/-- A completed line clear (R50). -/
def clearLine (m : MachineRecord) (span : Nat) (s : State) : State :=
  let placed := (((clearLineControl m span s).updatePos fun x => x.clear span).updateMark fun k => k.clear).updatePace
    fun g => g.clear m
  let filtered := placed.updateInputs fun i =>
    i.restartIf (decide (filterIntervalOf s.line.active ≠ m.filterInterval))
  syncStale (syncUnready (reevaluate (clearTensions m (clearTemperatures m (clearQueue filtered)))))

/-! ## The end of the read (R49) -/

/-- The line clear answered, with no STORE_DONE, and a waiting client granted (R142, R143). -/
def endLineClear (before : State) (p : PortId) (r : Reply) (s : State) : State :=
  closeEvent before (grantWaiting (s.answer p 0x23 r)) []

/-- The read of slot 0 judged (R49). -/
def judgeLineClear (p : PortId) (span : Nat) (s : State) : State :=
  let free := freeStore s
  if readPasses s 0 then
    let m := parseMachineRecord s.store.array 0
    match lineClearRefusal m span s with
    | some reason => endLineClear s p (.refused reason) free
    | none => endLineClear s p (.done []) (clearLine m span free)
  else endLineClear s p (.refused .noMachineRecord) (markDamaged 0 free)

/-- LINE_CLEAR_READ_COMPLETION (R49, R50). -/
def execLineClearReadCompletion (s : State) : Host.Outcome State Fault Refusal :=
  .next <|
    match s.store.holder with
    | some (.lineClear p span) => judgeLineClear p span s
    | _ => s

end Sys2Proof.Machine
end

