-- ==== Sys2Proof/Machine/LineControl.lean ====
section
/-!
DEFINITION. Chapter 9, the requests of line control: STOP, RELEASE_STOP, HOLD, UNHOLD and READ_STOP_RECORD. What a raised
cause does is in Machine/Ops.lean (`raiseCause`).
-/
namespace Sys2Proof.Machine

/-- STOP: cause REQUESTED in TRACKING or HALTED, refused in UNSET (R163). -/
def stopOwner (s : State) : Served :=
  if s.onLine then { st := s, causes := [.requested], reply := .done [] } else Served.refuse s .wrongState

/-- STOP on a port. -/
def execStop (p : PortId) (s : State) : Host.Outcome State Fault Refusal :=
  .next (takeRequest p 0x18 anyStation stopOwner s)

/-- The line released: TRACKING, the stop record kept and marked, LINE_RELEASED (R164). -/
def releaseLine (s : State) : State :=
  ({ s with line := { s.line with
      state := .tracking
      stop := s.line.stop.map fun r => { r with released := true } } } : State).raise .lineReleased

/-- RELEASE_STOP: the checks in the order of R164, so a line that is not HALTED answers WRONG_STATE even while BREAKn or
STOPINn is asserted, where R160 names STILL_ACTIVE for UNSET (DESIGN CHOICE, notes/assumptions/39.md). -/
def releaseStopOwner (s : State) : Served :=
  if stopoutAsserted s then
    if stopChainOpen s then Served.refuse s .stillActive else Served.of (releaseLine s) (.done [])
  else Served.refuse s .wrongState

/-- RELEASE_STOP on a port. -/
def execReleaseStop (p : PortId) (s : State) : Host.Outcome State Fault Refusal :=
  .next (takeRequest p 0x72 releaseRoles releaseStopOwner s)

/-- HOLD: REQUESTED is added (R168). -/
def holdOwner (s : State) : Served :=
  Served.of (s.updateHold fun h => { h with requested := true }) (.done [])

/-- HOLD on a port. -/
def execHold (p : PortId) (s : State) : Host.Outcome State Fault Refusal :=
  .next (takeRequest p 0x70 holdRoles holdOwner s)

/-- UNHOLD: REQUESTED is removed (R168). -/
def unholdOwner (s : State) : Served :=
  Served.of (s.updateHold fun h => { h with requested := false }) (.done [])

/-- UNHOLD on a port. -/
def execUnhold (p : PortId) (s : State) : Host.Outcome State Fault Refusal :=
  .next (takeRequest p 0x71 holdRoles unholdOwner s)

/-- The fields of a stop record in the order of Table 36, 0 where it or a field is absent (R166). -/
def stopRecordFields (r : Option StopRecord) : List Byte :=
  leOption 1 (r.map (·.firstCause.code)) ++ leOption 4 (r.map (·.xPrint)) ++ leOption 4 (r.map (·.xNip)) ++
  leOption 2 (r.bind (·.interrupted)) ++ indication ((r.bind (·.interrupted)).isSome) ++
  leOption 1 (r.map (·.transferring)) ++ leOption 1 (r.map (·.furtherCount)) ++
  leOption 1 ((r.bind (·.lastFurther)).map (·.code)) ++ indication ((r.map (·.released)).getD false)

/-- The response fields of READ_STOP_RECORD: presence of the record, the interrupted panel and the last further cause, then
the line state and the record (R166; layout: notes/assumptions/12.md). -/
def stopRecordPayload (s : State) : List Byte :=
  presence 2 [s.line.stop.isSome, (s.line.stop.bind (·.interrupted)).isSome, (s.line.stop.bind (·.lastFurther)).isSome] ++
  leBytes 1 s.line.state.code ++ stopRecordFields s.line.stop

/-- READ_STOP_RECORD: nothing changes (R166). -/
def readStopRecordOwner (s : State) : Served :=
  Served.of s (.done (stopRecordPayload s))

/-- READ_STOP_RECORD on a port. -/
def execReadStopRecord (p : PortId) (s : State) : Host.Outcome State Fault Refusal :=
  .next (takeRequest p 0x13 anyRole readStopRecordOwner s)

end Sys2Proof.Machine
end

