-- ==== Sys2Proof/Machine/Reports.lean ====
section
/-!
DEFINITION. The requests that report and change nothing: READ_STATUS (R195), READ_PANEL (R21), READ_QUEUE_SUMMARY (R22) and
READ_MEASUREMENTS (R51). The layouts follow R194; what R194 leaves open is in notes/assumptions/12.md and 13.md.
-/
namespace Sys2Proof.Machine

/-! ## READ_PANEL (R21, Table 46) -/

/-- The NORMAL fields with the coverage list (Table 46). -/
def normalFields (a : Option Announced) : List Byte :=
  leBytes 4 ((a.map (·.jobId.toNat)).getD 0) ++ leOption 1 (a.map (·.slot.val)) ++ leOption 2 (a.map (·.generation)) ++
  leOption 4 (a.map (·.length)) ++ leOption 2 (a.map (·.width)) ++
  leBytes 1 ((a.map (·.coverage)).getD []).length ++ ((a.map (·.coverage)).getD []).flatMap (leBytes 1)

/-- The correction, its copies and its gains (Table 46). -/
def correctionFields (c : Option Correction) : List Byte :=
  leOption 2 (c.map (·.qPred)) ++ leOption 4 (c.map (·.dwell)) ++ leOption 2 (c.map (·.tPred)) ++
  leOption 2 (c.map (·.targetTension)) ++ leOption 4 (c.map (·.along)) ++ leOption 4 (c.map (·.cross)) ++
  leOption 2 (c.map (·.generation)) ++
  leOption 4 (c.map (·.copies.dRef)) ++ leOption 2 (c.map (·.copies.band)) ++ leOption 2 (c.map (·.copies.baseTension)) ++
  leOption 2 (c.map (·.copies.paperTension)) ++ leOption 1 (c.map (·.copies.taper)) ++
  leBytes 1 ((c.map (·.gains)).getD []).length ++ ((c.map (·.gains)).getD []).flatMap (leBytes 2)

/-- Fetched and the age of the correction, for a READY record (Table 46). -/
def readyFields (now : Nat) : PanelState → List Byte
  | .ready fetched t _ => indication fetched ++ timeField (now - t)
  | _ => leBytes 5 0

/-- The mark state and the applied sync error (Table 46). -/
def markFields (k : Option MarkState) : List Byte :=
  leOption 1 (k.map (·.code)) ++
  leSigned 4 (match k with
    | some (.seen e) => e
    | _ => 0)

/-- One probe (Table 46). -/
def probeFields (p : Probe) : List Byte :=
  leBytes 4 p.accumulator ++ indication p.inArc

/-- The response fields of READ_PANEL (Table 46). -/
def panelPayload (now : Nat) (r : Panel) : List Byte :=
  presence 2 [r.normal.isSome, r.correction.isSome, r.isReady, r.lead.isSome, r.trail.isSome, r.mark.isSome,
    !r.probes.isEmpty] ++
  leBytes 2 r.id ++ leBytes 1 r.state.code ++ indication r.normal.isNone ++ leBytes 4 r.flags.toNat ++
  normalFields r.normal ++ correctionFields r.correction ++ readyFields now r.state ++
  leOption 4 r.lead ++ leOption 4 r.trail ++ markFields r.mark ++
  leBytes 1 r.probes.length ++ r.probes.flatMap probeFields

/-- READ_PANEL: an id that names no record is NO_SUCH_PANEL (R21). -/
def readPanelOwner (id : BitVec 16) (s : State) : Served :=
  match findPanel s id.toNat with
  | some r => Served.of s (.done (panelPayload s.now r))
  | none => Served.refuse s .noSuchPanel

/-- READ_PANEL on a port. -/
def execReadPanel (p : PortId) (id : BitVec 16) (s : State) : Host.Outcome State Fault Refusal :=
  .next (takeRequest p 0x11 anyRole (readPanelOwner id) s)

/-! ## READ_QUEUE_SUMMARY (R22) -/

/-- How many records a condition picks. -/
def countPanels (s : State) (c : Panel → Bool) : Nat :=
  (s.queue.filter c).length

/-- The response fields of READ_QUEUE_SUMMARY in the order of R22. -/
def summaryPayload (s : State) : List Byte :=
  let head := s.queue.head?.map (·.id)
  let last := s.queue.getLast?.map (·.id)
  let opened := (openRecord s).map (·.id)
  let first := (firstUnprinted s).map (·.id)
  presence 2 [head.isSome, last.isSome, opened.isSome, first.isSome] ++
  leBytes 1 s.queue.length ++
  leBytes 1 (countPanels s fun r => decide (r.state = .queued)) ++
  leBytes 1 (countPanels s (·.isFetched)) ++
  leBytes 1 (countPanels s fun r => r.isReady && !r.isFetched) ++
  leBytes 1 (countPanels s fun r => decide (r.state = .printing)) ++
  leBytes 1 (countPanels s fun r => decide (r.state = .inTransit)) ++
  leBytes 1 (countPanels s (·.isTransferring)) ++
  leOption 2 head ++ leOption 2 last ++ leOption 2 opened ++ leOption 2 first ++ leBytes 2 s.idCounter

/-- READ_QUEUE_SUMMARY (R22). -/
def readQueueSummaryOwner (s : State) : Served :=
  Served.of s (.done (summaryPayload s))

/-- READ_QUEUE_SUMMARY on a port. -/
def execReadQueueSummary (p : PortId) (s : State) : Host.Outcome State Fault Refusal :=
  .next (takeRequest p 0x12 anyRole readQueueSummaryOwner s)

/-! ## READ_MEASUREMENTS (R51, R117, R133) -/

/-- A speed with its direction, 0 where no machine record is active (R51; notes/assumptions/34.md). -/
def speedFields (active : Bool) (v : Speed) : List Byte :=
  if active then leBytes 4 v.magnitude ++ indication v.reverse else leBytes 5 0

/-- A zone of a table: value, age, standing (R117, R133). -/
def zoneFields (z : Zone) : List Byte :=
  leBytes 2 z.value ++ leBytes 4 z.age ++ indication (!z.isFresh)

/-- A table as a whole: standing, time since the stale start, lost indication (R133). -/
def tableFields (now : Nat) (since : Option Nat) (lost : Bool) : List Byte :=
  indication since.isSome ++
  (match since with
    | some t => timeField (now - t)
    | none => leBytes 4 0) ++
  indication lost

/-- The response fields of READ_MEASUREMENTS: position and mark units, temperature table, tension table (R51). A blanking end
beyond four bytes is a free value (notes/assumptions/40.md). -/
def measurementsPayload (s : State) : List Byte :=
  let active := s.line.active.isSome
  let blanking := s.mark.accepted.map (·.blankingEnd)
  let hot := tableStaleSince s.dose.zones
  let tight := tableStaleSince s.tension.zones
  presence 2 [active, active, active, active, blanking.isSome, s.mark.unmatched.isSome, hot.isSome, tight.isSome] ++
  leBytes 1 s.line.state.code ++ leBytes 4 s.pos.xPrint ++ leBytes 4 s.pos.xNip ++ leBytes 4 s.fill ++
  speedFields active s.pos.vPrint ++ speedFields active s.pos.vCal ++ speedFields active s.pos.vFab ++
  leBytes 4 (if active then s.pos.slip else 0) ++
  leBytes 2 s.pos.errPrint ++ leBytes 2 s.pos.errCal ++ leBytes 2 s.pos.errFab ++
  leBytes 1 s.mark.streak ++ (blanking.map endField).getD (leBytes 4 0) ++
  leOption 2 (s.mark.unmatched.map (·.code)) ++ leOption 4 (s.mark.unmatched.map (·.stamp)) ++
  leBytes 1 s.dose.zones.length ++ s.dose.zones.flatMap zoneFields ++ leSigned 2 s.dose.trim ++ leBytes 4 s.dose.ticks ++
  s.tension.zones.flatMap zoneFields ++ leBytes 2 s.tension.diameter ++
  tableFields s.now hot s.tension.lostTemperature ++ tableFields s.now tight s.tension.lostTension ++
  leSigned 2 s.tension.bias

/-- READ_MEASUREMENTS (R51). -/
def readMeasurementsOwner (s : State) : Served :=
  Served.of s (.done (measurementsPayload s))

/-- READ_MEASUREMENTS on a port. -/
def execReadMeasurements (p : PortId) (s : State) : Host.Outcome State Fault Refusal :=
  .next (takeRequest p 0x14 anyRole readMeasurementsOwner s)

/-! ## READ_STATUS (R195, Table 47) -/

/-- The ports group: the asking port's index, the four roles, conflict, vacant roles, MAINT, reset cause, and the asking
port's sets (R195). -/
def portsGroup (p : PortId) (s : State) : List Byte :=
  leBytes 1 p.val ++ s.ports.toList.flatMap (fun q => leBytes 1 q.role.code) ++ indication s.resetUnit.conflict ++
  [s.resetUnit.vacant] ++ indication s.resetUnit.maint ++ leBytes 1 s.resetUnit.cause.code ++
  leBytes 2 s.ports[p].pending.toNat ++ leBytes 2 s.ports[p].mask.toNat

/-- The line control group (R171). -/
def lineGroup (s : State) : List Byte :=
  leBytes 1 s.line.state.code ++ leBytes 1 s.line.hold.byte ++ indication (holdAsserted s) ++ indication (stopoutAsserted s) ++
  indication (!s.inputs.breakn.level) ++ indication (!s.inputs.stopinn.level) ++
  leOption 1 (s.line.stop.map (·.firstCause.code)) ++ indication ((s.line.stop.map (·.released)).getD false)

/-- The machine record group (R157). -/
def recordGroup (s : State) : List Byte :=
  indication s.line.active.isSome ++ (s.line.active.map (·.name)).getD (List.replicate 16 0) ++
  indication s.line.recordPending

/-- The client that holds the store: 0 the fill, 1 PRODUCTION (notes/assumptions/13.md). -/
def StoreOp.client : StoreOp → Nat
  | .fill _ => 0
  | _ => 1

/-- An operation by its row of Table 30 (notes/assumptions/13.md). -/
def StoreOp.code : StoreOp → Nat
  | .fill _ => 0
  | .read _ _ _ _ => 0
  | .lineClear _ _ => 0
  | .erase _ _ => 1
  | .write _ _ => 2
  | .commit _ _ _ => 3
  | .lock _ _ => 4
  | .clear _ => 5

/-- The waiting clients (R142). -/
def waitingClients (s : State) : List Byte :=
  (if s.store.fillWaiting.isSome then [byte 0] else []) ++ (if s.store.requestWaiting.isSome then [byte 1] else [])

/-- One slot: presence of channel count and name, state, generation, channel count, name (R137). -/
def slotEntry (d : DirEntry) : List Byte :=
  presence 2 [d.channels.isSome, d.name.isSome] ++ leBytes 1 d.state.code ++ leBytes 2 d.generation ++
  leOption 1 d.channels ++ d.name.getD (List.replicate 16 0)

/-- The store group (R137, R142). -/
def storeGroup (s : State) : List Byte :=
  indication s.store.holder.isSome ++ leOption 1 (s.store.holder.map (·.client)) ++ leOption 1 (s.store.holder.map (·.code)) ++
  leBytes 1 (waitingClients s).length ++ waitingClients s ++ s.store.dir.toList.flatMap slotEntry

/-- The cache and engine group (R87). -/
def engineGroup (s : State) : List Byte :=
  indication s.engine.isSome ++ leOption 2 (s.engine.map (·.panel)) ++
  leBytes 1 (s.cache.entries.toList.filter (·.isSome)).length ++ fillFields (fillInFlight s) ++
  indication s.line.hold.unready

/-- The pace group (R97). -/
def paceGroup (s : State) : List Byte :=
  indication s.onLine ++ leOption 4 s.pace.threshold ++ leOption 2 (s.pace.source.map (·.panel)) ++
  leOption 4 (s.pace.source.map (·.along)) ++ leBytes 4 s.pace.accumulator ++ leBytes 4 s.pace.total ++
  leBytes 2 s.pace.panel ++ leBytes 2 s.pace.lost

/-- The dose and tension groups (R117, R133). -/
def doseTensionGroup (s : State) : List Byte :=
  leSigned 2 s.dose.trim ++ advicePayload s.dose.advice ++
  leSigned 2 s.tension.bias ++ leOption 2 ((governing s).map (·.1.id)) ++ indication s.line.hold.stale

/-- The response fields of READ_STATUS in the order of R195 and Table 47. -/
def statusPayload (p : PortId) (s : State) : List Byte :=
  presence 2 [s.line.stop.isSome, s.line.active.isSome, s.store.holder.isSome, s.engine.isSome, (fillInFlight s).isSome,
    s.pace.threshold.isSome, s.pace.source.isSome, s.dose.advice.isSome, (governing s).isSome] ++
  portsGroup p s ++ lineGroup s ++ recordGroup s ++ storeGroup s ++ engineGroup s ++ paceGroup s ++ doseTensionGroup s

/-- READ_STATUS (R195). -/
def readStatusOwner (p : PortId) (s : State) : Served :=
  Served.of s (.done (statusPayload p s))

/-- READ_STATUS on a port. -/
def execReadStatus (p : PortId) (s : State) : Host.Outcome State Fault Refusal :=
  .next (takeRequest p 0x10 anyRole (readStatusOwner p) s)

end Sys2Proof.Machine
end

