-- ==== Sys2Proof/Machine/Ports.lean ====
section
/-!
DEFINITION. Chapter 11: the transaction on a port (R187), its status byte (R188), the judgement of the inbound stream (R189,
R190) and the checks of an accepted frame (R192).
-/
namespace Sys2Proof.Machine

/-! ## Bits and bytes on the link (R187: most significant bit first) -/

/-- The eight bits of a byte, most significant first. -/
def byteBits (b : Byte) : List Bool :=
  [b.getLsbD 7, b.getLsbD 6, b.getLsbD 5, b.getLsbD 4, b.getLsbD 3, b.getLsbD 2, b.getLsbD 1, b.getLsbD 0]

/-- The whole bytes of a stream of bits; bits that do not make up a byte are discarded (R187). -/
def bitsBytes : List Bool → List Byte
  | b7 :: b6 :: b5 :: b4 :: b3 :: b2 :: b1 :: b0 :: rest =>
    BitVec.ofNat 8 (128 * b7.toNat + 64 * b6.toNat + 32 * b5.toNat + 16 * b4.toNat + 8 * b3.toNat + 4 * b2.toNat +
      2 * b1.toNat + b0.toNat) :: bitsBytes rest
  | _ => []

/-! ## The status byte (R188, Table 41) -/

/-- BUSY: the port executes a request, or the start-up scan runs (Table 41). -/
def busyBit (s : State) (p : PortId) : Bool :=
  s.ports[p].executing || decide (s.resetUnit.phase = .scanning)

/-- The status byte of a port (Table 41). -/
def statusByte (s : State) (p : PortId) : Byte :=
  BitVec.ofNat 8
    (128 * s.ports[p].response.isSome.toNat + 64 * (busyBit s p).toNat + 32 * (attnAsserted s p).toNat +
      16 * (stopoutAsserted s).toNat + 8 * (holdAsserted s).toNat + s.ports[p].role.code)

/-- What the part shifts out in n bits: the status byte, the response frame when one is held, then zeros (R187). -/
def misoBits (s : State) (p : PortId) (n : Nat) : List Bool :=
  let frame := (s.ports[p].response.getD []).flatMap byteBits
  (byteBits (statusByte s p) ++ frame ++ List.replicate n false).take n

/-! ## Requests in frames (R192, Table 43) -/

/-- What Table 43 gives for a code: the roles, and the owner for a payload of the right form. -/
structure Request where
  allowed : Role → Bool
  owner : Option (State → Served)

/-- A request without payload. -/
def noArgs (payload : List Byte) (owner : State → Served) : Option (State → Served) :=
  if payload.length = 0 then some owner else none

/-- A request with a payload of n bytes. -/
def withArgs (n : Nat) (payload : List Byte) (owner : State → Served) : Option (State → Served) :=
  if payload.length = n then some owner else none

/-- The byte of a payload at an offset. -/
def argByte (payload : List Byte) (at_ : Nat) : Byte :=
  payload.getD at_ 0

/-- The two-byte field of a payload at an offset, low byte first (R194). -/
def argWord (payload : List Byte) (at_ : Nat) : BitVec 16 :=
  BitVec.ofNat 16 (fromLe ((payload.drop at_).take 2))

/-- The four-byte field of a payload at an offset, low byte first (R194). -/
def argLong (payload : List Byte) (at_ : Nat) : BitVec 32 :=
  BitVec.ofNat 32 (fromLe ((payload.drop at_).take 4))

/-- The two-byte values of a payload. -/
def argWords : List Byte → List (BitVec 16)
  | lo :: hi :: rest => BitVec.ofNat 16 (lo.toNat + 256 * hi.toNat) :: argWords rest
  | _ => []

/-- ANNOUNCE_PANEL in a payload: 12 bytes and the coverage its count gives, 1 to 8 (R192). -/
def announceForm (payload : List Byte) : Option (State → Served) :=
  let count := (argByte payload 11).toNat
  if payload.length = 12 + count ∧ 1 ≤ count ∧ count ≤ 8 then
    some (announceOwner (argLong payload 0) (argByte payload 4) (argLong payload 5) (argWord payload 9) (payload.drop 12))
  else none

/-- WRITE_SLOT in a payload: 3 bytes and 1 to 32 bytes of data (R192). -/
def writeForm (p : PortId) (payload : List Byte) : Option (State → Served) :=
  if 4 ≤ payload.length ∧ payload.length ≤ 35 then
    some (writeOwner p (argByte payload 0) (argWord payload 1) (payload.drop 3))
  else none

/-- REPORT_TEMPERATURES in a payload: an even length (R192). -/
def temperaturesForm (payload : List Byte) : Option (State → Served) :=
  if payload.length % 2 = 0 then some (reportTemperaturesOwner (argWords payload)) else none

/-- REPORT_TENSIONS in a payload of five two-byte values (Table 43). -/
def tensionsOwner (payload : List Byte) : State → Served :=
  reportTensionsOwner
    { paperIn := (argWord payload 0).toNat, fabricUnwind := (argWord payload 2).toNat, calIn := (argWord payload 4).toNat
      fabricRewind := (argWord payload 6).toNat } (argWord payload 8).toNat

/-- Requests of all roles, and STOP (Table 43). -/
def generalRequest (p : PortId) (code : Nat) (a : List Byte) : Option Request :=
  match code with
  | 0x10 => some ⟨anyRole, noArgs a (readStatusOwner p)⟩
  | 0x11 => some ⟨anyRole, withArgs 2 a (readPanelOwner (argWord a 0))⟩
  | 0x12 => some ⟨anyRole, noArgs a readQueueSummaryOwner⟩
  | 0x13 => some ⟨anyRole, noArgs a readStopRecordOwner⟩
  | 0x14 => some ⟨anyRole, noArgs a readMeasurementsOwner⟩
  | 0x15 => some ⟨anyRole, withArgs 1 a (readRecordsOwner (argByte a 0))⟩
  | 0x16 => some ⟨anyRole, noArgs a (readAndClearOwner p)⟩
  | 0x17 => some ⟨anyRole, withArgs 2 a (setAttentionMaskOwner p (argWord a 0))⟩
  | 0x18 => some ⟨anyStation, noArgs a stopOwner⟩
  | _ => none

/-- PRODUCTION's requests on panels and records (Table 43). -/
def productionRequest (p : PortId) (code : Nat) (a : List Byte) : Option Request :=
  match code with
  | 0x20 => some ⟨onlyProduction, announceForm a⟩
  | 0x21 => some ⟨onlyProduction, withArgs 2 a (withdrawOwner (argWord a 0))⟩
  | 0x22 => some ⟨onlyProduction, withArgs 2 a (scrapOwner (argWord a 0))⟩
  | 0x23 => some ⟨onlyProduction, withArgs 4 a (lineClearOwner p (argLong a 0))⟩
  | 0x24 => some ⟨onlyProduction, withArgs 2 a (setTrimOwner (argWord a 0))⟩
  | 0x25 => some ⟨onlyProduction, withArgs 1 a (ackRecordsOwner (argByte a 0))⟩
  | 0x26 => some ⟨onlyProduction, withArgs 3 a (setRecordQueueOwner (argByte a 0) (argByte a 1) (argByte a 2))⟩
  | _ => none

/-- PRODUCTION's requests on the store and the cache (Table 43). -/
def storeRequest (p : PortId) (code : Nat) (a : List Byte) : Option Request :=
  match code with
  | 0x30 => some ⟨onlyProduction, withArgs 1 a (eraseOwner p (argByte a 0))⟩
  | 0x31 => some ⟨onlyProduction, writeForm p a⟩
  | 0x32 => some ⟨onlyProduction, withArgs 1 a (commitOwner p (argByte a 0))⟩
  | 0x33 => some ⟨onlyProduction, withArgs 1 a (lockOwner p (argByte a 0))⟩
  | 0x34 => some ⟨onlyProduction, withArgs 4 a (readSlotOwner p (argByte a 0) (argWord a 1) (argByte a 3))⟩
  | 0x35 => some ⟨onlyProduction, noArgs a (storeClearOwner p)⟩
  | 0x36 => some ⟨onlyProduction, withArgs 1 a (probeCacheOwner (argByte a 0))⟩
  | 0x37 => some ⟨onlyProduction, noArgs a invalidateCacheOwner⟩
  | _ => none

/-- The requests of PRINT, CALENDER and DRIVE, and the holds (Table 43). -/
def stationRequest (code : Nat) (a : List Byte) : Option Request :=
  match code with
  | 0x40 => some ⟨onlyPrint, withArgs 2 a (getCorrectionOwner (argWord a 0))⟩
  | 0x41 => some ⟨onlyPrint, withArgs 2 a (printAbortOwner (argWord a 0))⟩
  | 0x50 => some ⟨onlyCalender, temperaturesForm a⟩
  | 0x51 => some ⟨onlyCalender, noArgs a readHeatAdviceOwner⟩
  | 0x60 => some ⟨onlyDrive, withArgs 10 a (tensionsOwner a)⟩
  | 0x61 => some ⟨onlyDrive, noArgs a readSetpointsOwner⟩
  | 0x70 => some ⟨holdRoles, noArgs a holdOwner⟩
  | 0x71 => some ⟨holdRoles, noArgs a unholdOwner⟩
  | 0x72 => some ⟨releaseRoles, noArgs a releaseStopOwner⟩
  | _ => none

/-- The row of Table 43 for a code, if there is one (R192 step 1). -/
def requestOf (p : PortId) (code : Byte) (payload : List Byte) : Option Request :=
  (generalRequest p code.toNat payload).or <| (productionRequest p code.toNat payload).or <|
  (storeRequest p code.toNat payload).or (stationRequest code.toNat payload)

/-- The owner, or BAD_ARG for a payload of the wrong form (R192 step 3). -/
def Request.serveOwner (r : Request) : State → Served :=
  r.owner.getD fun s => Served.refuse s .badArg

/-- A frame whose CRC holds: unknown code, role, form, owner (R192). -/
def acceptFrame (p : PortId) (code : Byte) (payload : List Byte) (s : State) : State :=
  match requestOf p code payload with
  | some r => serve p code r.allowed r.serveOwner s
  | none => (s.updatePort p Port.accept).answer p code (.refused .badRequest)

/-! ## The inbound stream (R189, R190) -/

/-- The most bytes of code and payload in a request frame (Table 42). -/
def maxRequestLength : Nat := 62

/-- A malformed frame: too long, cut short, or with a bad CRC-8 (R189 steps 4 and 5). -/
def malformed (stream : List Byte) (len : Nat) : Bool :=
  decide (maxRequestLength < len ∨ stream.length < len + 2 ∨ crc8 (stream.take (len + 1)) ≠ stream.getD (len + 1) 0)

/-- A stream whose first byte is its length: LINK_ERROR, or the checks of R192 (R189). -/
def judgeFrame (p : PortId) (stream : List Byte) (s : State) : State :=
  let len := (stream.getD 0 0).toNat
  if malformed stream len then (s.updatePort p Port.accept).answer p 0 .linkError
  else acceptFrame p (stream.getD 1 0) ((stream.drop 2).take (len - 1)) s

/-- The inbound stream without its leading idle bytes (R189 step 1). -/
def skipIdle (stream : List Byte) : List Byte :=
  stream.dropWhile fun b => decide (b = 0)

/-- The inbound stream judged: idle bytes change nothing, and a frame in a transaction that showed BUSY is discarded
(R189, R190). -/
def judgeStream (p : PortId) (busy : Bool) (stream : List Byte) (s : State) : State :=
  if (skipIdle stream).isEmpty || busy then s else judgeFrame p (skipIdle stream) s

/-- SPI_TRANSACTION, from the fall to the rise of CSn: what is shifted out, then the inbound stream; while reset is held MISO
is at high impedance and nothing is taken (R185, R187, R189; notes/assumptions/3.md). -/
def execSpiTransaction (p : PortId) (mosi : List Bool) (s : State) : Host.Outcome State Fault Refusal :=
  .next <|
    if s.live then
      judgeStream p (busyBit s p) (bitsBytes mosi) (s.updatePort p fun q => { q with miso := misoBits s p mosi.length })
    else s.updatePort p fun q => { q with miso := [] }

end Sys2Proof.Machine
end

