-- ==== Sys2Proof/Machine/Startup.lean ====
section
/-!
DEFINITION. Device reset and start-up: what a reset leaves of a store operation it cuts off (R141), the reset itself (R185),
its end with the roles (R184), and the end of the start-up scan (R139, R140, R186).
-/
namespace Sys2Proof.Machine

/-! ## A store operation cut off (R141, R185; notes/assumptions/8.md) -/

/-- A byte programmed in part: bits that the new value clears may still be set (R141). -/
def partByte (free old new : Byte) : Byte :=
  old &&& (new ||| free)

/-- Bytes programmed in part from an address on. -/
def programPart (n : Nat) (m : Memory) (a : Nat) : List Byte → Memory
  | [] => m
  | v :: rest => programPart n (Memory.write m a (partByte (Config.cutByte n a) (Memory.read m a) v)) (a + 1) rest

/-- Every byte of a slot reads FFh (R139). -/
def slotBlank (m : Memory) (slot : SlotId) : Bool :=
  !m.any fun c => decide (slotBase slot ≤ c.1 ∧ c.1 < slotBase slot + 1024 ∧ c.2 ≠ erasedByte)

/-- A row program cut off: the row in part; a slot it would leave blank has the row whole, since R141 finds it DAMAGED. A row of
FFh alone leaves a blank slot blank all the same, and the scan then finds it ERASED (DESIGN CHOICE: notes/assumptions/42.md). -/
def cutRow (n : Nat) (m : Memory) (r : StagingRow) : Memory :=
  let part := programPart n m (slotBase r.slot + 32 * r.row) r.content
  if slotBlank part r.slot then programRow m r else part

/-- Row programs cut off in the row that comes after k whole ones. -/
def cutRows (n k : Nat) (m : Memory) (rows : List StagingRow) : Memory :=
  let whole := (rows.take k).foldl programRow m
  match rows[k]? with
  | some r => cutRow n whole r
  | none => whole

/-- A mark programmed in part: never the exact mark (R141). -/
def cutMark (n : Nat) (m : Memory) (a : Nat) (mark : Byte) : Memory :=
  let b := partByte (Config.cutByte n a) (Memory.read m a) mark
  if b = mark then m else Memory.write m a b

/-- A slot with every byte at a free value, byte 0 never the commit mark: an erase cut off after byte 0 has changed (R141). -/
def scrambleSlot (n : Nat) (m : Memory) (slot : SlotId) : Memory :=
  (List.range 1024).foldl (fun t i =>
    let b := Config.cutByte n (slotBase slot + i)
    Memory.write t (slotBase slot + i) (if i = 0 ∧ b = 0x3C then 0 else b)) m

/-- An erase cut off: before byte 0 has changed, with every byte at FFh, or in between (R141). -/
def cutErase (n progress : Nat) (m : Memory) (slot : SlotId) : Memory :=
  if progress % 3 = 0 then m
  else if progress % 3 = 1 then Memory.eraseRange m (slotBase slot) 1024
  else scrambleSlot n m slot

/-- A commit cut off: in its rows, or, when all are programmed and the checks pass, in its mark (R141, R150). -/
def cutCommit (n progress : Nat) (m : Memory) (slot : SlotId) (rows : List StagingRow) : Memory :=
  let k := progress % (rows.length + 1)
  let left := cutRows n k m rows
  if k = rows.length ∧ slotCrcHolds left slot ∧ contentFault left slot = none then cutMark n left (slotBase slot) 0x3C
  else left

/-- A lock cut off: in its mark, when its checked read passes (R141, R154). -/
def cutLock (n : Nat) (m : Memory) (slot : SlotId) : Memory :=
  if slotCrcHolds m slot then cutMark n m (slotBase slot + 1) 0xC3 else m

/-- A store clear cut off: the slots before the one being erased are erased, those after it untouched (R141, R156). -/
def cutClear (n progress : Nat) (m : Memory) : Memory :=
  let reached := progress % 32
  cutErase n (Config.cutProgress (n + 1)) (Memory.eraseRange m 0 (1024 * reached)) (Fin.ofNat 32 reached)

/-- The array a device reset leaves (R141, R185): reads change nothing. -/
def arrayAfterReset (s : State) : Memory :=
  let n := s.freeSeq
  let progress := Config.cutProgress n
  let m := s.store.array
  match s.store.holder with
  | some (.erase _ slot) => cutErase n progress m slot
  | some (.write _ rows) => cutRows n (progress % (rows.length + 1)) m rows
  | some (.commit _ slot rows) => cutCommit n progress m slot rows
  | some (.lock _ slot) => cutLock n m slot
  | some (.clear _) => cutClear n progress m
  | _ => m

/-! ## Device reset (R185) -/

/-- The cause of two sources that begin reset in the same instant: POWER_ON if the power-on source is among them, else SUPPLY if
the supply monitor is (R185). -/
def causeTogether : ResetCause → ResetCause → ResetCause
  | .powerOn, _ => .powerOn
  | _, .powerOn => .powerOn
  | .supply, _ => .supply
  | _, .supply => .supply
  | .pin, .pin => .pin

/-- The state after a device reset begins: every block at its reset values, the array kept, the cause recorded (R185). -/
def beginReset (cause : ResetCause) (s : State) : State :=
  { State.reset with
    resetUnit := { State.reset.resetUnit with cause := cause, beginning := true }
    store := { State.reset.store with array := arrayAfterReset s }
    freeSeq := s.freeSeq + 2
    pending := s.pending }

/-- A source of device reset: it begins the reset, or joins one that begins in the same instant. A reset already held keeps its
cause, and nothing changes (R185; the same instant: notes/assumptions/30.md). -/
def deviceReset (cause : ResetCause) (s : State) : State :=
  if s.live then beginReset cause s
  else if s.resetUnit.beginning then
    { s with resetUnit := { s.resetUnit with cause := causeTogether s.resetUnit.cause cause } }
  else s

/-- POWER_ON_RESET (R185). -/
def execPowerOnReset (s : State) : Host.Outcome State Fault Refusal :=
  .next (deviceReset .powerOn s)

/-- SUPPLY_MONITOR_RESET (R185). -/
def execSupplyMonitorReset (s : State) : Host.Outcome State Fault Refusal :=
  .next (deviceReset .supply s)

/-- RESETN_RESET (R185). -/
def execResetnReset (s : State) : Host.Outcome State Fault Refusal :=
  .next (deviceReset .pin s)

/-! ## The end of reset: roles (R184, R185) -/

/-- The role two strap levels give (R184). -/
def strappedRole (rolea roleb : Bool) : Role :=
  match rolea, roleb with
  | false, false => .print
  | false, true => .calender
  | true, false => .drive
  | true, true => .production

/-- The strapped role of a port. -/
def strapOf (rolea roleb : BitVec 4) (p : PortId) : Role :=
  strappedRole (rolea.getLsbD p.val) (roleb.getLsbD p.val)

/-- How many ports strap a role. -/
def strapCount (rolea roleb : BitVec 4) (r : Role) : Nat :=
  ((List.finRange 4).filter fun p => decide (strapOf rolea roleb p = r)).length

/-- The role a port takes: OBSERVER where another port straps the same (R184). -/
def roleTaken (rolea roleb : BitVec 4) (p : PortId) : Role :=
  if strapCount rolea roleb (strapOf rolea roleb p) = 1 then strapOf rolea roleb p else .observer

/-- Whether a port takes a role. -/
def roleHeld (rolea roleb : BitVec 4) (r : Role) : Bool :=
  (List.finRange 4).any fun p => decide (roleTaken rolea roleb p = r)

/-- The set of roles no port holds, bit r for role code r (R184, R194). -/
def vacantSet (rolea roleb : BitVec 4) : Byte :=
  BitVec.ofNat 8 ((([.print, .calender, .drive, .production] : List Role).map fun r =>
    if roleHeld rolea roleb r then 0 else 2 ^ r.code).sum)

/-- The role conflict indication (R184). -/
def roleConflict (rolea roleb : BitVec 4) : Bool :=
  (List.finRange 4).any fun p => decide (roleTaken rolea roleb p = .observer)

/-- Device reset ends: straps and MAINT sampled, roles and default masks set, the scan begun (R183 to R186). -/
def endReset (rolea roleb : BitVec 4) (maint : Bool) (s : State) : State :=
  { s with
    resetUnit :=
      { s.resetUnit with
        phase := .scanning
        beginning := false
        maint := maint
        conflict := roleConflict rolea roleb
        vacant := vacantSet rolea roleb }
    ports := s.ports.mapFinIdx fun i q h =>
      { q with role := roleTaken rolea roleb ⟨i, h⟩, mask := defaultMask (roleTaken rolea roleb ⟨i, h⟩) } }

/-- RESET_END: a reset that is not held cannot end (R185, R186). -/
def execResetEnd (rolea roleb : BitVec 4) (maint : Bool) (s : State) : Host.Outcome State Fault Refusal :=
  .next (if s.live then s else endReset rolea roleb maint s)

/-! ## The end of the start-up scan (R139, R140, R186) -/

/-- The state of a committed slot, by its lock mark (R139). -/
def committedState (m : Memory) (slot : SlotId) : SlotState :=
  if slotByte m slot 1 = 0xC3 then .locked else .valid

/-- Whether the header of a slot is as R139 asks: the format code and, for profiles, the channel count. -/
def headerHolds (m : Memory) (slot : SlotId) : Bool :=
  decide ((slotByte m slot 2).toNat = formatCode slot) &&
    (decide (slot.val = 0) || decide (1 ≤ (slotByte m slot 3).toNat ∧ (slotByte m slot 3).toNat ≤ 8))

/-- The state the scan gives a slot: the first row of R139's table that applies. A slot that reads blank is ERASED by that row, even
where R141 would have it DAMAGED because rows of FFh had been programmed (DESIGN CHOICE: notes/assumptions/42.md). -/
def scannedState (m : Memory) (slot : SlotId) : SlotState :=
  if slotBlank m slot then .erased
  else if slotByte m slot 0 ≠ 0x3C then .damaged
  else if !headerHolds m slot then .damaged
  else committedState m slot

/-- The directory line the scan gives a slot (R137, R139). -/
def scannedEntry (m : Memory) (slot : SlotId) : DirEntry :=
  let usable := decide (scannedState m slot = .valid ∨ scannedState m slot = .locked)
  { state := scannedState m slot
    generation := 0
    channels := if usable && decide (slot.val ≠ 0) then some (slotByte m slot 3).toNat else none
    name := if usable then some (slotBytes m slot 4 16) else none
    programmed := 0 }

/-- The directory filled (R139). -/
def scanSlots (s : State) : State :=
  s.updateStore fun x => { x with dir := Vector.ofFn fun slot => scannedEntry x.array slot }

/-- Slot 0 loaded: the active record, with what it gives the dose, pace and tension units at start-up (R98, R90, R124, R125,
R140). The input filters keep their counts where its interval is not the 1 µs of a part without a record; R34 gives the restart of
a LINE_CLEAR alone. DESIGN CHOICE, notes/assumptions/43.md. -/
def loadRecord (m : MachineRecord) (s : State) : State :=
  ((({ s with line := { s.line with active := some m } } : State).updateDose fun d =>
      { d with zones := List.replicate m.zoneCount Zone.reset }).updatePace fun g =>
      { g with threshold := some (nominalThreshold m) }).updateTension fun t =>
      { t with targets := defaultTargets m, setpoints := (defaultTargets m).scaled }

/-- Slot 0 checked: loaded, found damaged, or absent (R140). -/
def loadSlotZero (s : State) : State :=
  if slotUsable s 0 then
    if readPasses s 0 then loadRecord (parseMachineRecord s.store.array 0) s else markDamaged 0 s
  else s

/-- The part runs: nothing pending for slot 0, the ports leave BUSY, ticks and windows begin (R157, R186). -/
def startRunning (s : State) : State :=
  { s with resetUnit := { s.resetUnit with phase := .running }, line := { s.line with recordPending := false } }

/-- The scan ends (R139, R140, R186). -/
def endScan (s : State) : State :=
  closeEvent s (syncStale (syncUnready (loadSlotZero (scanSlots (startRunning s))))) []

/-- START_UP_SCAN_END: only a scan that runs can end (R186). -/
def execStartUpScanEnd (s : State) : Host.Outcome State Fault Refusal :=
  .next (if s.resetUnit.phase = .scanning then endScan s else s)

end Sys2Proof.Machine
end

