-- ==== Sys2Proof/Machine/Dispatch.lean ====
section
/-!
DEFINITION. One arm for each command: one direct call of its meaning.
-/
namespace Sys2Proof.Machine

def exec (i : Instr) (s : State) : Host.Outcome State Fault Refusal :=
  match i with
  | .readStatus port => Sys2Proof.Machine.execReadStatus port s
  | .readPanel port id => Sys2Proof.Machine.execReadPanel port id s
  | .readQueueSummary port => Sys2Proof.Machine.execReadQueueSummary port s
  | .readStopRecord port => Sys2Proof.Machine.execReadStopRecord port s
  | .readMeasurements port => Sys2Proof.Machine.execReadMeasurements port s
  | .readRecords port n => Sys2Proof.Machine.execReadRecords port n s
  | .readAndClearAttention port => Sys2Proof.Machine.execReadAndClearAttention port s
  | .setAttentionMask port mask => Sys2Proof.Machine.execSetAttentionMask port mask s
  | .stop port => Sys2Proof.Machine.execStop port s
  | .announcePanel port jobId slot length width coverage => Sys2Proof.Machine.execAnnouncePanel port jobId slot length width coverage s
  | .withdrawPanel port id => Sys2Proof.Machine.execWithdrawPanel port id s
  | .scrapPanel port id => Sys2Proof.Machine.execScrapPanel port id s
  | .lineClear port span => Sys2Proof.Machine.execLineClear port span s
  | .setTrim port trim => Sys2Proof.Machine.execSetTrim port trim s
  | .ackRecords port n => Sys2Proof.Machine.execAckRecords port n s
  | .setRecordQueue port mode watermark filter => Sys2Proof.Machine.execSetRecordQueue port mode watermark filter s
  | .eraseSlot port slot => Sys2Proof.Machine.execEraseSlot port slot s
  | .writeSlot port slot offset data => Sys2Proof.Machine.execWriteSlot port slot offset data s
  | .commitSlot port slot => Sys2Proof.Machine.execCommitSlot port slot s
  | .lockSlot port slot => Sys2Proof.Machine.execLockSlot port slot s
  | .readSlot port slot offset n => Sys2Proof.Machine.execReadSlot port slot offset n s
  | .storeClear port => Sys2Proof.Machine.execStoreClear port s
  | .probeCache port slot => Sys2Proof.Machine.execProbeCache port slot s
  | .invalidateCache port => Sys2Proof.Machine.execInvalidateCache port s
  | .getCorrection port id => Sys2Proof.Machine.execGetCorrection port id s
  | .printAbort port id => Sys2Proof.Machine.execPrintAbort port id s
  | .reportTemperatures port values => Sys2Proof.Machine.execReportTemperatures port values s
  | .readHeatAdvice port => Sys2Proof.Machine.execReadHeatAdvice port s
  | .reportTensions port paperIn fabricUnwind calIn fabricRewind diameter => Sys2Proof.Machine.execReportTensions port paperIn fabricUnwind calIn fabricRewind diameter s
  | .readSetpoints port => Sys2Proof.Machine.execReadSetpoints port s
  | .hold port => Sys2Proof.Machine.execHold port s
  | .unhold port => Sys2Proof.Machine.execUnhold port s
  | .releaseStop port => Sys2Proof.Machine.execReleaseStop port s
  | .spiTransaction port mosi => Sys2Proof.Machine.execSpiTransaction port mosi s
  | .powerOnReset => Sys2Proof.Machine.execPowerOnReset s
  | .supplyMonitorReset => Sys2Proof.Machine.execSupplyMonitorReset s
  | .resetnReset => Sys2Proof.Machine.execResetnReset s
  | .resetEnd rolea roleb maint => Sys2Proof.Machine.execResetEnd rolea roleb maint s
  | .startUpScanEnd => Sys2Proof.Machine.execStartUpScanEnd s
  | .pencCount direction => Sys2Proof.Machine.execPencCount direction s
  | .cencCount direction => Sys2Proof.Machine.execCencCount direction s
  | .fencCount direction => Sys2Proof.Machine.execFencCount direction s
  | .pacePulseTimer => Sys2Proof.Machine.execPacePulseTimer s
  | .pgateRisingEdge => Sys2Proof.Machine.execPgateRisingEdge s
  | .pgateFallingEdge => Sys2Proof.Machine.execPgateFallingEdge s
  | .breaknAssertion => Sys2Proof.Machine.execBreaknAssertion s
  | .breaknRelease => Sys2Proof.Machine.execBreaknRelease s
  | .stopinnAssertion => Sys2Proof.Machine.execStopinnAssertion s
  | .stopinnRelease => Sys2Proof.Machine.execStopinnRelease s
  | .markWord mkdat => Sys2Proof.Machine.execMarkWord mkdat s
  | .markWordTimeout => Sys2Proof.Machine.execMarkWordTimeout s
  | .speedWindowExpiry => Sys2Proof.Machine.execSpeedWindowExpiry s
  | .doseTick => Sys2Proof.Machine.execDoseTick s
  | .tensionTick => Sys2Proof.Machine.execTensionTick s
  | .temperatureStaleExpiry => Sys2Proof.Machine.execTemperatureStaleExpiry s
  | .tensionStaleExpiry => Sys2Proof.Machine.execTensionStaleExpiry s
  | .hardStaleExpiry => Sys2Proof.Machine.execHardStaleExpiry s
  | .refreshExpiry => Sys2Proof.Machine.execRefreshExpiry s
  | .correctionCompletion => Sys2Proof.Machine.execCorrectionCompletion s
  | .cacheFillGrant => Sys2Proof.Machine.execCacheFillGrant s
  | .cacheFillCompletion => Sys2Proof.Machine.execCacheFillCompletion s
  | .eraseSlotGrant => Sys2Proof.Machine.execEraseSlotGrant s
  | .eraseSlotCompletion => Sys2Proof.Machine.execEraseSlotCompletion s
  | .storeGrant => Sys2Proof.Machine.execStoreGrant s
  | .writeSlotCompletion => Sys2Proof.Machine.execWriteSlotCompletion s
  | .commitSlotCompletion => Sys2Proof.Machine.execCommitSlotCompletion s
  | .lockSlotCompletion => Sys2Proof.Machine.execLockSlotCompletion s
  | .readSlotCompletion => Sys2Proof.Machine.execReadSlotCompletion s
  | .storeClearGrant => Sys2Proof.Machine.execStoreClearGrant s
  | .storeClearCompletion => Sys2Proof.Machine.execStoreClearCompletion s
  | .lineClearReadCompletion => Sys2Proof.Machine.execLineClearReadCompletion s
  | .mkclkRisingEdge mkdat => Sys2Proof.Machine.execMkclkRisingEdge mkdat s
  | .quadratureTransitionError encoder => Sys2Proof.Machine.execQuadratureTransitionError encoder s

end Sys2Proof.Machine
end

