-- ==== Sys2Proof/Safety.lean ====
section
/-!
DEFINITION. What stays true of the part whatever it is commanded: the promises the manual makes of its state, as predicates.
-/
namespace Sys2Proof.Safety

open Sys2Proof.Machine

/-- A predicate that every step keeps, from every state that has it. -/
def KeptByEveryStep (inv : State → Prop) : Prop :=
  ∀ s s' : State, inv s → step s = .next s' → inv s'

/-- The array is in canonical form (notes/assumptions/7.md). -/
def ArrayCanonical (s : State) : Prop :=
  Memory.wf s.store.array = true

/-- x_nip is at most x_print, which is at most 4,294,967,295 WU (R26, R28). -/
def WebInRange (s : State) : Prop :=
  s.pos.xNip ≤ s.pos.xPrint ∧ s.pos.xPrint ≤ maxU32

/-- A printed record's presence and the coordinates in UNSET: both 0 with their remainders, and no record printed (R24, R29). -/
def UnsetHoldsNoWeb (s : State) : Prop :=
  s.line.state = .unset →
    s.pos.xPrint = 0 ∧ s.pos.xNip = 0 ∧ s.pos.remPrint = 0 ∧ s.pos.remNip = 0 ∧ ∀ r ∈ s.queue, r.unprinted = true

/-- The stop record is absent in UNSET (R166) and present in HALTED (R161). -/
def StopRecordFitsLine (s : State) : Prop :=
  (s.line.state = .unset → s.line.stop = none) ∧ (s.line.state = .halted → s.line.stop.isSome = true)

/-- The dose trim lies within −250 to +250 (R111, R112). -/
def TrimInRange (s : State) : Prop :=
  -250 ≤ s.dose.trim ∧ s.dose.trim ≤ 250

/-- The tension bias lies within −200 to +200 (R128). -/
def BiasInRange (s : State) : Prop :=
  -200 ≤ s.tension.bias ∧ s.tension.bias ≤ 200

/-- The panel queue holds at most 64 records and the transfer record queue at most 32 (R1, R173). -/
def QueuesBounded (s : State) : Prop :=
  s.queue.length ≤ 64 ∧ s.records.list.length ≤ 32

/-- UNREADY is present exactly under its condition (R86). -/
def UnreadyFollows (s : State) : Prop :=
  s.line.hold.unready = unreadyHolds s

/-- STALE is present exactly under its condition (R131). -/
def StaleFollows (s : State) : Prop :=
  s.line.hold.stale = staleHolds s

/-- Every valid entry names a VALID or LOCKED slot with the entry's generation (R76). -/
def EntriesNameSlots (s : State) : Prop :=
  ∀ (i : Fin 8) (e : CacheEntry), s.cache.entries[i] = some e →
    slotUsable s e.slot = true ∧ (dirEntry s e.slot).generation = e.generation

/-- No entry, no record and no fill is of slot 0, which holds the machine record (R5, R77, R135). -/
def NoProfileInSlotZero (s : State) : Prop :=
  (∀ (i : Fin 8) (e : CacheEntry), s.cache.entries[i] = some e → e.slot ≠ 0) ∧
  (∀ r ∈ s.queue, ∀ a, r.normal = some a → a.slot ≠ 0) ∧
  (∀ f, fillInFlight s = some f → f.1 ≠ 0)

/-- A fill is of a slot that no entry holds, at most one is in flight, and one that reads has found its slot VALID or LOCKED
(R74, R76). -/
def FillsMiss (s : State) : Prop :=
  (∀ f, fillInFlight s = some f → lookup s.cache f.1 = none) ∧
  (∀ slot, s.store.holder = some (.fill slot) → s.store.fillWaiting = none ∧ slotUsable s slot = true)

/-- Until the scan has ended no record is active, no entry valid and no client at the arbiter (R71, R72, R139, R142). -/
def QuietBeforeRunning (s : State) : Prop :=
  s.running = false →
    s.line.active = none ∧ s.store.holder = none ∧ s.store.fillWaiting = none ∧ s.store.requestWaiting = none ∧
      ∀ i : Fin 8, s.cache.entries[i] = none

/-- No two valid entries hold the same slot (R73). -/
def EntriesDistinct (s : State) : Prop :=
  ∀ (i j : Fin 8) (e f : CacheEntry), s.cache.entries[i] = some e → s.cache.entries[j] = some f → e.slot = f.slot → i = j

/-- The cache's promises with what keeps them (R73, R76). -/
def CacheCoherent (s : State) : Prop :=
  EntriesNameSlots s ∧ EntriesDistinct s ∧ NoProfileInSlotZero s ∧ FillsMiss s ∧ QuietBeforeRunning s

/-! ## The order of the web and the ids (R1, R2, R14) -/

/-- A printed record's own coordinates: its lead, and its trail when closed, in order and at most x_print (R14). -/
def CoordinatesOrdered (s : State) (r : Panel) : Prop :=
  r.printed = true →
    ∃ lead, r.lead = some lead ∧ lead ≤ s.pos.xPrint ∧ ∀ trail, r.trail = some trail → lead ≤ trail ∧ trail ≤ s.pos.xPrint

/-- Two records of the queue, the first nearer the head: where the second is printed, so is the first, with its trail closed
at or before the second's lead and its lead before it (R14). -/
def RecordsOrdered (a b : Panel) : Prop :=
  b.printed = true →
    a.printed = true ∧ ∃ trail lead, a.trail = some trail ∧ b.lead = some lead ∧ trail ≤ lead ∧ a.lead.getD 0 < lead

/-- The leads of printed records strictly increase, each closed trail lies between its own lead and the next printed record's
lead, and every lead is at most x_print (R14); in UNSET no record is printed (R24). -/
def WebOrdered (s : State) : Prop :=
  (∀ r ∈ s.queue, CoordinatesOrdered s r) ∧ s.queue.Pairwise RecordsOrdered

/-- The place of a record's state in the order of the web, from the head of the queue (Table 6). -/
def webRank : PanelState → Nat
  | .transferring => 0
  | .inTransit => 1
  | .printing => 2
  | .queued => 3
  | .ready _ _ _ => 3

/-- A printed record is TRANSFERRING exactly when x_nip is at or beyond its lead (R15, R28), a PRINTING record's trail is open and
an IN_TRANSIT record's closed (Table 6). -/
def StateFollowsNip (s : State) (r : Panel) : Prop :=
  (∀ lead, r.printed = true → r.lead = some lead → (r.state = .transferring ↔ lead ≤ s.pos.xNip)) ∧
  (r.state = .printing → r.trail = none) ∧ (r.state = .inTransit → r.trail.isSome = true)

/-- The record states follow the web: from head to tail all TRANSFERRING records, then all IN_TRANSIT records, then one PRINTING
record at most, then the unprinted ones (Table 6), an open trail only at the newest printed record (R10), and each state as the
nip gives it; with the order of the leads that keeps it so (R14). -/
def StatesFollowWeb (s : State) : Prop :=
  WebOrdered s ∧ (∀ r ∈ s.queue, StateFollowsNip s r) ∧
  s.queue.Pairwise fun a b =>
    webRank a.state ≤ webRank b.state ∧ (a.state = .printing → b.unprinted = true) ∧ (a.openTrail = true → b.unprinted = true)

/-- No panel id is twice in use, every one and the counter are 1 to 65,535, and the queues are within their limits
(R1, R2, R173). -/
def IdsDistinct (s : State) : Prop :=
  (idsInUse s).Nodup ∧ (∀ i ∈ idsInUse s, 1 ≤ i ∧ i ≤ 65535) ∧ (1 ≤ s.idCounter ∧ s.idCounter ≤ 65535) ∧ QueuesBounded s

/-! ## Corrections and the slots they rest on (R67, R81) -/

/-- A correction as a computation left it: the values of Stages A to G on some snapshot, one gain per channel within the
channel's limit, their coverage-weighted sum at most the total ink limit × 4096, both scales within 950,000 to 1,050,000 ppm
(R67). -/
def CorrectionAsComputed (c : Correction) : Prop :=
  ∃ k : Snapshot, c = computeCorrection k ∧ c.gains.length = k.profile.channels.length ∧
    (∀ (i : Nat) (g : Nat) (ch : Channel), c.gains[i]? = some g → k.profile.channels[i]? = some ch → g ≤ ch.limit) ∧
    (List.zipWith (· * ·) k.coverage c.gains).sum ≤ k.profile.inkLimit * 4096 ∧
    950000 ≤ c.along ∧ c.along ≤ 1050000 ∧ 950000 ≤ c.cross ∧ c.cross ≤ 1050000

/-- Every correction a record of the panel queue holds is as a computation left it (R67). -/
def CorrectionsAsComputed (s : State) : Prop :=
  ∀ r ∈ s.queue, ∀ c, r.correction = some c → CorrectionAsComputed c

/-- Every READY record holds a correction and names a slot that is VALID, LOCKED or DAMAGED, and the directory's generation of
that slot is the record's and the correction's (R81). -/
def ReadyRecordsNameTheirSlot (s : State) : Prop :=
  ∀ r ∈ s.queue, r.isReady = true →
    ∃ a c, r.normal = some a ∧ r.correction = some c ∧ c.generation = a.generation ∧
      (dirEntry s a.slot).generation = a.generation ∧
      ((dirEntry s a.slot).state = .valid ∨ (dirEntry s a.slot).state = .locked ∨ (dirEntry s a.slot).state = .damaged)

/-- The port an operation in progress is answered on; none for a fill (R142). -/
def holderPort : StoreOp → Option PortId
  | .fill _ => none
  | .erase p _ => some p
  | .write p _ => some p
  | .commit p _ _ => some p
  | .lock p _ => some p
  | .read p _ _ _ => some p
  | .clear p => some p
  | .lineClear p _ => some p

/-- The port a waiting request is answered on (R142). -/
def waitingPort : StoreRequest → PortId
  | .erase p _ => p
  | .write p _ _ _ => p
  | .commit p _ => p
  | .lock p _ => p
  | .read p _ _ _ => p
  | .clear p => p
  | .lineClear p _ => p

/-- One port at most is PRODUCTION (R184), it executes while a store request of its own waits or holds the store, and while one
waits nothing but a fill holds the store (R142, R143). -/
def OneStoreRequest (s : State) : Prop :=
  (∀ p q : PortId, s.ports[p].role = .production → s.ports[q].role = .production → p = q) ∧
  (∀ op p, s.store.holder = some op → holderPort op = some p →
    s.ports[p].role = .production ∧ s.ports[p].executing = true) ∧
  (∀ r, s.store.requestWaiting = some r →
    s.ports[waitingPort r].role = .production ∧ s.ports[waitingPort r].executing = true ∧
      ∀ op, s.store.holder = some op → holderPort op = none)

/-- A commit that waits or runs is of a WRITING slot (R150), no record is unprinted while a store clear waits (R156), and the
panel queue is empty until the scan has ended (R24). -/
def RequestsStillApply (s : State) : Prop :=
  (∀ p i rows, s.store.holder = some (.commit p i rows) → (dirEntry s i).state = .writing) ∧
  (∀ p i, s.store.requestWaiting = some (.commit p i) → (dirEntry s i).state = .writing) ∧
  (∀ p, s.store.requestWaiting = some (.clear p) → ∀ r ∈ s.queue, r.unprinted = false) ∧
  (s.running = false → s.queue = [])

/-- R81's promise with what keeps it. -/
def ReadyRecordsCoherent (s : State) : Prop :=
  ReadyRecordsNameTheirSlot s ∧ OneStoreRequest s ∧ RequestsStillApply s ∧ IdsDistinct s ∧ CacheCoherent s

/-! ## What an event does to the ports -/

/-- The ports after an event that raised a set of kinds and nothing else (R180). -/
def PortsRaise (s t : State) (raised : AttnSet) : Prop :=
  ∀ q : PortId, t.ports[q] = { s.ports[q] with pending := s.ports[q].pending ||| raised }

/-- The ports after a request answered on its take event with a frame: its port idle and holding it, every other port's
execution and buffer as they were, and a set of kinds raised on all (R180, R191). -/
def PortsAnswer (s t : State) (p : PortId) (frame : List Byte) (raised : AttnSet) : Prop :=
  ∀ q : PortId, t.ports[q] =
    { s.ports[q] with
      executing := if q = p then false else s.ports[q].executing
      response := if q = p then some frame else s.ports[q].response
      pending := s.ports[q].pending ||| raised }

/-- The ports after a request that is answered later: its port executes and its buffer is empty (R191). -/
def PortsWait (s t : State) (p : PortId) (raised : AttnSet) : Prop :=
  ∀ q : PortId, t.ports[q] =
    { s.ports[q] with
      executing := if q = p then true else s.ports[q].executing
      response := if q = p then none else s.ports[q].response
      pending := s.ports[q].pending ||| raised }

/-- HOLD_CHANGED where the level of HOLDn differs between two states, else nothing (R170). -/
def holdKind (s t : State) : AttnSet :=
  if holdAsserted s = holdAsserted t then 0 else Attn.holdChanged.bit

/-- A DONE frame for a request code with fields (R193). -/
def doneFrame (code : Byte) (fields : List Byte) : List Byte :=
  responseFrame 0x80 (code :: fields)

/-- A REFUSED frame for a request code with a reason (R193). -/
def refusedFrame (code : Byte) (reason : Reason) : List Byte :=
  responseFrame 0x82 [code, byte reason.code]

/-- A port that may have a request taken: running, idle, and of a role that may make it (R190, R192). -/
def Serves (s : State) (p : PortId) (allowed : Role → Bool) : Prop :=
  s.running = true ∧ s.ports[p].executing = false ∧ allowed s.ports[p].role = true

/-- The state with what a re-evaluation may change taken from another: the engine, the NLU pointer and the fill (R80). -/
def withScheduling (s t : State) : State :=
  { s with
    engine := t.engine
    cache := { s.cache with nlu := t.cache.nlu }
    store := { s.store with holder := t.store.holder, fillWaiting := t.store.fillWaiting } }

/-- No client holds the store or waits for it (R142). -/
def StoreIdle (s : State) : Prop :=
  s.store.holder = none ∧ s.store.fillWaiting = none ∧ s.store.requestWaiting = none

/-- q is n / d rounded to the nearest integer, halves away from zero, for n at or above 0 (3.2). -/
def IsRounded (n d q : Nat) : Prop :=
  2 * q * d ≤ 2 * n + d ∧ 2 * n + d < 2 * (q + 1) * d

/-- The stop record and the flag an event leaves that raises one cause, before the attention of a latch (R160 to R162). -/
def CauseTaken (s t : State) (c : StopCause) : Prop :=
  t.line.hold = s.line.hold ∧ t.line.active = s.line.active ∧ t.line.recordPending = s.line.recordPending ∧
  (s.line.state = .unset → t.line = s.line ∧ t.queue = s.queue) ∧
  (s.line.state ≠ .unset →
    t.line.state = .halted ∧ t.queue = s.queue.map fun r => if r.openTrail then r.flag .stoppedDuringPrint else r) ∧
  (s.line.state = .tracking →
    t.line.stop = some
      { firstCause := c
        xPrint := s.pos.xPrint
        xNip := s.pos.xNip
        interrupted := (openRecord s).map (·.id)
        transferring := (s.queue.filter (·.isTransferring)).length
        furtherCount := 0
        lastFurther := none
        released := false }) ∧
  (s.line.state = .halted →
    t.line.stop = s.line.stop.map fun r =>
      { r with
        furtherCount := if r.furtherCount < 255 then r.furtherCount + 1 else r.furtherCount
        lastFurther := some c })

/-- What an event raises that raises a stop cause and nothing else: LINE_HALTED at a latch, and HOLD_CHANGED by the level of
HOLDn (R161, R170). -/
def causeKinds (s t : State) : AttnSet :=
  (if s.line.state = .tracking then Attn.lineHalted.bit else 0) ||| holdKind s t

/-- A record whose open trail closes at a coordinate: a TRANSFERRING one stays so and gains its middle and trail probes, any
other is IN_TRANSIT (R9, R10, R13, R15, R16). -/
def trailClosed (r : Panel) (x : Nat) : Panel :=
  if r.state = .transferring then
    { r with
      trail := some x
      probes := r.probes ++
        [{ position := r.lead.getD 0 + (x - r.lead.getD 0) / 2, accumulator := 0, inArc := false },
          { position := x, accumulator := 0, inArc := false }] }
  else { r with trail := some x, state := .inTransit }

/-- What the completion of one record leaves of the trim and the transfer record queue, and the kinds it raises: OFF_DOSE and the
trim by its actual dose ratio (R110, R111), its outcome (R20) and its transfer record (R19, R109), which the filter passes or
drops (R174), and which is appended with RECORD_WATERMARK at the watermark, dropped with RECORD_LOST on a full queue in BLOCKING,
or replaces the oldest in OVERWRITE (R175, R176). -/
def Completes (s t : State) (r : Panel) (lead trail : Nat) (raised : AttnSet) : Prop :=
  ∃ k offered,
    k.id = r.id ∧ k.jobId = r.normal.map (·.jobId) ∧ k.slot = r.normal.map (·.slot) ∧
    k.generation = r.normal.map (·.generation) ∧ k.lead = lead ∧ k.trail = trail ∧ k.length = trail - lead ∧
    (∀ e, r.mark = some (.seen e) → k.syncError = some e) ∧
    ((∀ e, r.mark ≠ some (.seen e)) → k.syncError = none) ∧
    (r.probes ≠ [] →
      IsRounded (r.probes.map (·.accumulator)).sum (100 * r.probes.length) k.dAct ∧
      (∃ lo ∈ r.probes, (∀ q ∈ r.probes, lo.accumulator ≤ q.accumulator) ∧ IsRounded lo.accumulator 100 k.probeMin) ∧
      (∃ hi ∈ r.probes, (∀ q ∈ r.probes, q.accumulator ≤ hi.accumulator) ∧ IsRounded hi.accumulator 100 k.probeMax)) ∧
    (r.correction = none →
      k.qPred = none ∧ k.qAct = none ∧ k.flags = r.flags ∧ t.dose.trim = s.dose.trim) ∧
    (∀ c, r.correction = some c → 1 ≤ c.copies.dRef →
      ∃ ratio q, IsRounded (k.dAct * 1000) c.copies.dRef ratio ∧ q = min ratio 9999 ∧
        k.qPred = some c.qPred ∧ k.qAct = some q ∧
        k.flags = (if c.copies.band < ((q : Int) - c.qPred).natAbs then addFlag r.flags .offDose else r.flags) ∧
        t.dose.trim =
          (if k.flags &&& 0x104540#21 = 0 then
            max (-250) (min 250 (s.dose.trim + ((q : Int) - c.qPred).tdiv 8))
          else s.dose.trim)) ∧
    k.outcome =
      (if hasFlag k.flags .scrapped = true then .scrapped
        else if r.normal = none then .untracked
        else if k.flags &&& 0x7FFF#21 ≠ 0 then .flagged else .good) ∧
    raised = ((if k.outcome = .flagged ∨ k.outcome = .untracked then Attn.panelFlagged.bit else 0) ||| offered) ∧
    (s.records.filter = .none ∨ (s.records.filter = .exceptions ∧ k.outcome = .good) →
      t.records = s.records ∧ offered = 0) ∧
    (s.records.filter = .all ∨ (s.records.filter = .exceptions ∧ k.outcome ≠ .good) →
      (s.records.list.length < 32 →
        t.records = { s.records with list := s.records.list ++ [k] } ∧
        offered =
          (if s.records.watermark ≠ 0 ∧ s.records.list.length + 1 = s.records.watermark then
            Attn.recordWatermark.bit else 0)) ∧
      (32 ≤ s.records.list.length → s.records.mode = .blocking →
        t.records =
          { s.records with
            lost := true
            drops := if s.records.drops < 65535 then s.records.drops + 1 else s.records.drops } ∧
        offered = Attn.recordLost.bit) ∧
      (32 ≤ s.records.list.length → s.records.mode = .overwrite →
        t.records =
          { s.records with
            list := s.records.list.tail ++ [k]
            drops := if s.records.drops < 65535 then s.records.drops + 1 else s.records.drops } ∧
        offered = 0))

/-- What a rising edge that starts a record does, behind the records kept on the web: the pace at its scale (R94), UNREADY by its
condition (R86), and, at a lead equal to x_nip, the record TRANSFERRING at once with its lead probe and OVERRUN, and the stop
cause NIP_OVERRUN (R16). -/
def StartsRecord (s t : State) (m : MachineRecord) (kept : List Panel) (new : Panel) (unprinted : List Panel)
    (raised : AttnSet) : Prop :=
  t.pace =
    { s.pace with
      panel := 0
      threshold := some (paceThreshold m ((new.correction.map (·.along)).getD 1000000))
      source := new.correction.map fun c => { panel := new.id, along := c.along } } ∧
  t.line.hold = { s.line.hold with unready := unreadyHolds t } ∧
  (s.pos.xNip < s.pos.xPrint →
    t.queue = kept ++ new :: unprinted ∧ t.line = { s.line with hold := t.line.hold } ∧
    PortsRaise s t (raised ||| holdKind s t)) ∧
  (s.pos.xNip = s.pos.xPrint →
    CauseTaken
      { s with
        line := { s.line with hold := t.line.hold }
        queue := kept ++
          { new with
            state := .transferring
            probes := [{ position := s.pos.xPrint, accumulator := 0, inArc := false }]
            flags := addFlag new.flags .overrun } :: unprinted } t .nipOverrun ∧
    PortsRaise s t (raised ||| causeKinds s t))

/-- What the grant of an erase leaves: unfetched READY records naming the slot back in QUEUED without their correction and its
flags, the slot's entry invalid and its staging rows lost, the slot WRITING with no programmed row, no channel count and no name
and its generation kept, the pending indication set for slot 0, UNREADY by its condition, a computation in flight kept, and the
array as it was until the completion (R145, R157). A re-evaluation may start a computation or a fill (R80). -/
def EraseGranted (s t : State) (p : PortId) (i : SlotId) : Prop :=
  t.queue = s.queue.map (fun r =>
    if r.isReady = true ∧ r.slot = some i then
      { r with state := .queued, correction := none, flags := withoutCorrectionFlags r.flags } else r) ∧
  (∀ k : Fin 8, t.cache.entries[k] =
    if (s.cache.entries[k]).map (·.slot) = some i then none else s.cache.entries[k]) ∧
  t.store =
    { s.store with
      dir := t.store.dir
      staging := s.store.staging.filter fun r => decide (r.slot ≠ i)
      holder := some (.erase p i)
      fillWaiting := t.store.fillWaiting
      requestWaiting := none } ∧
  dirEntry t i =
    { state := .writing, generation := (dirEntry s i).generation, channels := none, name := none, programmed := 0 } ∧
  (∀ j : SlotId, j ≠ i → dirEntry t j = dirEntry s j) ∧
  t.line =
    { s.line with
      recordPending := s.line.recordPending || decide (i = 0)
      hold := { s.line.hold with unready := unreadyHolds t } } ∧
  (∀ k, s.engine = some k → t.engine = some k) ∧
  t =
    { s with
      ports := t.ports, queue := t.queue, line := t.line, engine := t.engine, cache := t.cache, store := t.store }

/-- An array after rows were programmed into it: each byte of a slot keeps the bits that every row programmed over it leaves set,
FFh standing where nothing is staged, and no address outside the slots changes (R135, R148). -/
def RowsProgrammed (before after : Memory) (rows : List StagingRow) : Prop :=
  (∀ (slot : SlotId) (row k : Nat), row < 32 → k < 32 →
    slotByte after slot (32 * row + k) =
      (rows.filter fun r => decide (r.slot = slot ∧ r.row = row)).foldl
        (fun b r => b &&& ((r.bytes.getD k none).getD 0xFF)) (slotByte before slot (32 * row + k))) ∧
  (∀ a, 32768 ≤ a → Memory.read after a = Memory.read before a)

/-- The record that governs, with its correction: the newest TRANSFERRING record with profile copies, or, when no TRANSFERRING
record has them, the oldest IN_TRANSIT record with them (R113, R123). -/
def Governs (queue : List Panel) (r : Panel) (c : Correction) : Prop :=
  r.correction = some c ∧
  ∃ before after, queue = before ++ r :: after ∧
    ((r.state = .transferring ∧ ∀ q ∈ after, q.state = .transferring → q.correction = none) ∨
      (r.state = .inTransit ∧ (∀ q ∈ queue, q.state = .transferring → q.correction = none) ∧
        ∀ q ∈ before, q.state = .inTransit → q.correction = none))

/-- No record governs (R113). -/
def NoneGoverns (queue : List Panel) : Prop :=
  ∀ r ∈ queue, r.state = .transferring ∨ r.state = .inTransit → r.correction = none

/-- The heat advice of a governing record at a speed: D_target, the dwell and r_req (R113), and the rate table run backwards,
LOW at or below r0, HIGH at or above r15, and between them the interpolation in the step of the table that holds r_req (R114). -/
def AdviceGiven (m : MachineRecord) (v : Speed) (trim : Int) (r : Panel) (c : Correction) (a : HeatAdvice) : Prop :=
  a.panel = r.id ∧ a.dwell = stageDwell m v ∧
  IsRounded (c.copies.dRef * (1000 - trim).toNat) 1000 a.dTarget ∧
  IsRounded (a.dTarget * 1000) a.dwell a.rateRequired ∧
  (a.rateRequired ≤ rateAt m 0 → a.temperature = m.t0 ∧ a.range = .low) ∧
  (rateAt m 0 < a.rateRequired → rateAt m 15 ≤ a.rateRequired →
    a.temperature = m.t0 + 15 * m.tempStep ∧ a.range = .high) ∧
  (∀ k part, k < 15 → (∀ i j, i < j → j ≤ 15 → rateAt m i < rateAt m j) → rateAt m 0 < a.rateRequired →
    rateAt m k ≤ a.rateRequired → a.rateRequired < rateAt m (k + 1) →
    IsRounded ((a.rateRequired - rateAt m k) * m.tempStep) (rateAt m (k + 1) - rateAt m k) part →
    a.temperature = m.t0 + k * m.tempStep + part ∧ a.range = .within)

/-- The heat advice recomputed at a speed, and what it raises: HEAT_ADVICE_CHANGED, with the new advice as the reference, where
an advice has come or gone, its temperature has moved by 10 or more from the reference, or its indication differs; in any other
case nothing, and the reference stays (R113 to R115). -/
def AdviceRecomputed (s : State) (v : Speed) (d : Dose) (raised : AttnSet) : Prop :=
  d = { s.dose with advice := d.advice, reference := d.reference } ∧
  (s.line.active = none ∨ NoneGoverns s.queue → d.advice = none) ∧
  (∀ m r c, s.line.active = some m → Governs s.queue r c → s.dose.trim ≤ 1000 →
    ∃ a, d.advice = some a ∧ AdviceGiven m v s.dose.trim r c a) ∧
  (d.advice = none → s.dose.reference = none → raised = 0 ∧ d.reference = none) ∧
  (d.advice = none → s.dose.reference.isSome = true → raised = Attn.heatAdviceChanged.bit ∧ d.reference = none) ∧
  (∀ a, d.advice = some a → s.dose.reference = none →
    raised = Attn.heatAdviceChanged.bit ∧ d.reference = some { temperature := a.temperature, range := a.range }) ∧
  (∀ a r, d.advice = some a → s.dose.reference = some r →
    a.range ≠ r.range ∨ r.temperature + 10 ≤ a.temperature ∨ a.temperature + 10 ≤ r.temperature →
    raised = Attn.heatAdviceChanged.bit ∧ d.reference = some { temperature := a.temperature, range := a.range }) ∧
  (∀ a r, d.advice = some a → s.dose.reference = some r → a.range = r.range →
    a.temperature < r.temperature + 10 → r.temperature < a.temperature + 10 →
    raised = 0 ∧ d.reference = s.dose.reference)

/-- A table raises MEASURE_LOST: the calender moves, in either direction, the table's lost indication is "no", and some zone of it
has been stale for longer than hard_stale_ms (R100, R121, R131, R132). -/
def RaisesMeasureLost (m : MachineRecord) (v : Speed) (now : Nat) (zones : List Zone) (lost : Bool) : Prop :=
  m.vMin ≤ v.magnitude ∧ lost = false ∧
  ∃ z ∈ zones, ∃ since, z.standing = .stale since ∧ since + m.hardStaleMs < now

/-- No threshold of a record lies between two fills or on one of them alone (R32). -/
def NoCrossing (m : MachineRecord) (last new : Nat) : Prop :=
  ∀ th ∈ [m.stopLow, m.warnLow, m.resume, m.holdHigh, m.stopHigh], (last < th ↔ new < th) ∧ (th < last ↔ th < new)

/-- The pace generator after a forward count of a resolution under a threshold (R91, R93). -/
def paceForward (g : Pace) (th res : Nat) : Pace :=
  if th ≤ g.accumulator + res then
    { accumulator := g.accumulator + res - th
      threshold := some th
      source := g.source
      pulse :=
        match g.pulse with
        | .idle => .high
        | .high => .highPending
        | .highPending => .highPending
        | .gap => .gapPending
        | .gapPending => .gapPending
      total := (g.total + 1) % 4294967296
      panel := if g.panel < 65535 then g.panel + 1 else g.panel
      lost := if (g.pulse = .highPending ∨ g.pulse = .gapPending) ∧ g.lost < 65535 then g.lost + 1 else g.lost }
  else { g with accumulator := g.accumulator + res }

/-- A port after a transaction in which no request was taken: MISO carried the status byte, the held frame and zeros, most
significant bit first, for as many bits as MOSI (R187, R188, Table 41). -/
def ShiftedOut (s t : State) (p : PortId) (n : Nat) : Prop :=
  t.ports[p].miso =
    ([s.ports[p].response.isSome, s.ports[p].executing || decide (s.resetUnit.phase = .scanning), attnAsserted s p,
        decide (s.line.state = .halted), holdAsserted s, decide (s.ports[p].role = .production),
        decide (s.ports[p].role = .calender ∨ s.ports[p].role = .drive),
        decide (s.ports[p].role = .print ∨ s.ports[p].role = .drive)] ++
      (s.ports[p].response.getD []).flatMap byteBits ++ List.replicate n false).take n

/-- A request row of the table as Table 43 lays it out: its port, its code and its payload; none for the other rows. -/
def requestBytes : Instr → Option (PortId × Byte × List Byte)
  | .readStatus p => some (p, 0x10, [])
  | .readPanel p id => some (p, 0x11, leBytes 2 id.toNat)
  | .readQueueSummary p => some (p, 0x12, [])
  | .readStopRecord p => some (p, 0x13, [])
  | .readMeasurements p => some (p, 0x14, [])
  | .readRecords p n => some (p, 0x15, [n])
  | .readAndClearAttention p => some (p, 0x16, [])
  | .setAttentionMask p mask => some (p, 0x17, leBytes 2 mask.toNat)
  | .stop p => some (p, 0x18, [])
  | .announcePanel p jobId slot length width coverage =>
    some (p, 0x20, leBytes 4 jobId.toNat ++ [slot] ++ leBytes 4 length.toNat ++ leBytes 2 width.toNat ++
      [byte coverage.length] ++ coverage)
  | .withdrawPanel p id => some (p, 0x21, leBytes 2 id.toNat)
  | .scrapPanel p id => some (p, 0x22, leBytes 2 id.toNat)
  | .lineClear p span => some (p, 0x23, leBytes 4 span.toNat)
  | .setTrim p trim => some (p, 0x24, leBytes 2 trim.toNat)
  | .ackRecords p n => some (p, 0x25, [n])
  | .setRecordQueue p mode watermark filter => some (p, 0x26, [mode, watermark, filter])
  | .eraseSlot p slot => some (p, 0x30, [slot])
  | .writeSlot p slot offset data => some (p, 0x31, [slot] ++ leBytes 2 offset.toNat ++ data)
  | .commitSlot p slot => some (p, 0x32, [slot])
  | .lockSlot p slot => some (p, 0x33, [slot])
  | .readSlot p slot offset n => some (p, 0x34, [slot] ++ leBytes 2 offset.toNat ++ [n])
  | .storeClear p => some (p, 0x35, [])
  | .probeCache p slot => some (p, 0x36, [slot])
  | .invalidateCache p => some (p, 0x37, [])
  | .getCorrection p id => some (p, 0x40, leBytes 2 id.toNat)
  | .printAbort p id => some (p, 0x41, leBytes 2 id.toNat)
  | .reportTemperatures p values => some (p, 0x50, values.flatMap fun v => leBytes 2 v.toNat)
  | .readHeatAdvice p => some (p, 0x51, [])
  | .reportTensions p paperIn fabricUnwind calIn fabricRewind diameter =>
    some (p, 0x60, leBytes 2 paperIn.toNat ++ leBytes 2 fabricUnwind.toNat ++ leBytes 2 calIn.toNat ++
      leBytes 2 fabricRewind.toNat ++ leBytes 2 diameter.toNat)
  | .readSetpoints p => some (p, 0x61, [])
  | .hold p => some (p, 0x70, [])
  | .unhold p => some (p, 0x71, [])
  | .releaseStop p => some (p, 0x72, [])
  | .spiTransaction _ _ | .powerOnReset | .supplyMonitorReset | .resetnReset | .resetEnd _ _ _ | .startUpScanEnd
  | .pencCount _ | .cencCount _ | .fencCount _ | .pacePulseTimer | .pgateRisingEdge | .pgateFallingEdge
  | .breaknAssertion | .breaknRelease | .stopinnAssertion | .stopinnRelease | .markWord _ | .markWordTimeout
  | .speedWindowExpiry | .doseTick | .tensionTick | .temperatureStaleExpiry | .tensionStaleExpiry | .hardStaleExpiry
  | .refreshExpiry | .correctionCompletion | .cacheFillGrant | .cacheFillCompletion | .eraseSlotGrant
  | .eraseSlotCompletion | .storeGrant | .writeSlotCompletion | .commitSlotCompletion | .lockSlotCompletion
  | .readSlotCompletion | .storeClearGrant | .storeClearCompletion | .lineClearReadCompletion | .mkclkRisingEdge _
  | .quadratureTransitionError _ => none

/-- Table 43 as the port checks it: each request code with its roles and the lengths its payload may have. -/
def requestRows : List (Byte × List Role × List Nat) :=
  let all : List Role := [.observer, .print, .calender, .drive, .production]
  [(0x10, all, [0]), (0x11, all, [2]), (0x12, all, [0]), (0x13, all, [0]), (0x14, all, [0]), (0x15, all, [1]), (0x16, all, [0]),
    (0x17, all, [2]), (0x18, [.print, .calender, .drive, .production], [0])] ++
  [(0x20, [.production], [13, 14, 15, 16, 17, 18, 19, 20]), (0x21, [.production], [2]), (0x22, [.production], [2]),
    (0x23, [.production], [4]), (0x24, [.production], [2]), (0x25, [.production], [1]), (0x26, [.production], [3]),
    (0x30, [.production], [1]), (0x31, [.production], List.range' 4 32), (0x32, [.production], [1]), (0x33, [.production], [1]),
    (0x34, [.production], [4]), (0x35, [.production], [0]), (0x36, [.production], [1]), (0x37, [.production], [0])] ++
  [(0x40, [.print], [2]), (0x41, [.print], [2]), (0x50, [.calender], List.range' 0 31 2), (0x51, [.calender], [0]),
    (0x60, [.drive], [10]), (0x61, [.drive], [0]), (0x70, [.production, .calender, .drive], [0]),
    (0x71, [.production, .calender, .drive], [0]), (0x72, [.calender, .drive], [0])]

/-- A payload of the form Table 43 gives a code: a length it may have, and for ANNOUNCE_PANEL the coverage count of byte 11 the
number of coverages that follow (R192 step 3). -/
def FitsRow (code : Byte) (lengths : List Nat) (payload : List Byte) : Prop :=
  payload.length ∈ lengths ∧ (code = 0x20 → (payload.getD 11 0).toNat + 12 = payload.length)

/-- The bits of a request frame on MOSI: length, code, payload, CRC-8 (Table 42, R187). -/
def requestBits (code : Byte) (payload : List Byte) : List Bool :=
  let body := byte (payload.length + 1) :: code :: payload
  (body ++ [crc8 body]).flatMap byteBits

end Sys2Proof.Safety
end

