-- ==== Sys2Proof/WellFormed.lean ====
section
/-!
DEFINITION. Which commands can be sent: a request must fit a frame, whose length byte counts at most 62 bytes of code and
payload (Table 42, R189). Every other command is well formed as it is typed.
-/
namespace Sys2Proof

/-- The most payload bytes a request frame can carry (Table 42: L is 1 to 62, the payload L − 1). -/
def maxPayload : Nat := 61

/-- A command that can be sent: its payload, laid out by Table 43, fits a frame. -/
def Instr.wellFormed : Instr → Bool
  | .announcePanel _ _ _ _ _ coverage => decide (12 + coverage.length ≤ maxPayload)
  | .writeSlot _ _ _ data => decide (3 + data.length ≤ maxPayload)
  | .reportTemperatures _ values => decide (2 * values.length ≤ maxPayload)
  | _ => true

end Sys2Proof
end

