-- ==== Sys2Proof/Certificates/Slice0/Obligations.lean ====
section
/-!
DEFINITION. The statements for the provers. Each docstring names the rules of spec/ it speaks of; OBLIGATIONS.json says which
are the spec's own words and which rest on the model's choices.
-/
open Sys2Proof Sys2Proof.Machine Sys2Proof.Safety

/-! ## Steps, device reset and start-up -/

/-- A step takes the command at the front of the queue and runs it on the state with the rest. -/
def Obligations.StepTakesFrontCommand : Prop :=
  ∀ (c : Instr) (rest : List Instr) (s : State), s.pending = c :: rest → step s = exec c { s with pending := rest }

/-- The model's choice of notes/assumptions/1.md: on an empty queue a millisecond passes, in which the ages of both tables move
(R98, R119: an age stops at 4,294,967,295) and the input filters sample (R34): the levels of PGATE, BREAKn and STOPINn stay, and
MKCLK, once high, stays high with fewer than three low samples counted, or has fallen; when it falls is left free
(notes/assumptions/41.md). While reset is held no time counts, and the instant in which it began is over
(notes/assumptions/30.md). -/
def Obligations.IdleStepAgesAndSamples : Prop :=
  (∀ s : State, s.pending = [] → s.live = true →
    ∃ t, step s = .next t ∧ t.now = s.now + 1 ∧
      t.dose.zones = s.dose.zones.map (fun z => { z with age := if z.age < 4294967295 then z.age + 1 else z.age }) ∧
      t.tension.zones = s.tension.zones.map (fun z => { z with age := if z.age < 4294967295 then z.age + 1 else z.age }) ∧
      t.inputs =
        { pgate := { s.inputs.pgate with agree := 0 }
          breakn := { s.inputs.breakn with agree := 0 }
          stopinn := { s.inputs.stopinn with agree := 0 }
          mkclk := t.inputs.mkclk } ∧
      (t.inputs.mkclk = { level := false, agree := 0 } ∨
        s.inputs.mkclk.level = true ∧ t.inputs.mkclk.level = true ∧ t.inputs.mkclk.agree < 3) ∧
      t =
        { s with
          now := t.now
          dose := { s.dose with zones := t.dose.zones }
          tension :=
            { s.tension with
              paperIn := t.tension.paperIn, fabricUnwind := t.tension.fabricUnwind, calIn := t.tension.calIn
              fabricRewind := t.tension.fabricRewind }
          inputs := t.inputs
          freeSeq := t.freeSeq }) ∧
  (∀ s : State, s.pending = [] → s.live = false →
    step s = .next { s with resetUnit := { s.resetUnit with beginning := false } })

/-- A device reset by any of its three sources: every field of every block at its value after device reset, HOLDn asserted,
STOPOUTn, ATTNn and PACE released or low, and the source the cause. The array is kept where no operation that changes it was in
progress. A further source joins a reset that begins in the same instant, whose cause is then POWER_ON, else SUPPLY, of the
sources; after that it changes nothing and the cause stays (R24, R29, R34, R71, R72, R89, R118, R134, R142, R158, R166, R167,
R173, R185). The model's choices: the roles, masks, MAINT, conflict, vacant set and record pending indication before the reset
ends (notes/assumptions/6.md), the directory before the scan (notes/assumptions/7.md), the clock (notes/assumptions/1.md), the
record of MISO (notes/assumptions/3.md) and what the same instant is (notes/assumptions/30.md). -/
def Obligations.DeviceResetSetsEveryBlock : Prop :=
  (∀ (s : State) (c : Instr) (cause : ResetCause) (zone : Zone), s.live = true →
     zone = { value := 0, age := 0, standing := .stale 0 } →
     (c = .powerOnReset ∧ cause = .powerOn) ∨ (c = .supplyMonitorReset ∧ cause = .supply) ∨
       (c = .resetnReset ∧ cause = .pin) →
     ∃ t, exec c s = .next t ∧ t.live = false ∧ holdAsserted t = true ∧ stopoutAsserted t = false ∧ paceHigh t = false ∧
       (∀ q : PortId, attnAsserted t q = false) ∧ t.now = 0 ∧
       t.resetUnit =
         { phase := .held, cause := cause, beginning := true, maint := false, conflict := false, vacant := 0 } ∧
       (∀ q : PortId, t.ports[q] =
         { role := .observer, executing := false, response := none, pending := 0, mask := 0, miso := [] }) ∧
       t.line =
         { state := .unset
           hold := { fillHigh := false, unready := false, stale := false, requested := false }
           stop := none
           active := none
           recordPending := false } ∧
       t.queue = [] ∧ t.idCounter = 1 ∧
       t.pos =
         { xPrint := 0, remPrint := 0, xNip := 0, remNip := 0, lastFill := 0, netPrint := 0, netCal := 0, netFab := 0
           keptPrint := 0, keptCal := 0, keptFab := 0, vPrint := { magnitude := 0, reverse := false }
           vCal := { magnitude := 0, reverse := false }, vFab := { magnitude := 0, reverse := false }
           slip := 0, errPrint := 0, errCal := 0, errFab := 0 } ∧
       t.inputs =
         { pgate := { level := false, agree := 0 }, breakn := { level := true, agree := 0 }
           stopinn := { level := true, agree := 0 }, mkclk := { level := false, agree := 0 } } ∧
       t.mark = { partialWord := none, accepted := none, streak := 0, unmatched := none } ∧
       t.pace =
         { accumulator := 0, threshold := none, source := none, pulse := .idle, total := 0, panel := 0, lost := 0 } ∧
       t.engine = none ∧ (∀ i : Fin 8, t.cache.entries[i] = none) ∧ t.cache.nlu = 0 ∧
       StoreIdle t ∧ t.store.staging = [] ∧
       (∀ slot : SlotId, dirEntry t slot =
         { state := .erased, generation := 0, channels := none, name := none, programmed := 0 }) ∧
       t.dose = { zones := [], trim := 0, advice := none, reference := none, ticks := 0 } ∧
       t.tension =
         { paperIn := zone, fabricUnwind := zone, calIn := zone, fabricRewind := zone, diameter := 0
           targets := { paperIn := 0, fabricUnwind := 0, calIn := 0, fabricRewind := 0 }
           setpoints := { paperIn := 0, fabricUnwind := 0, calIn := 0, fabricRewind := 0 }
           governed := false, bias := 0, lostTemperature := false, lostTension := false } ∧
       t.records = { list := [], mode := .blocking, watermark := 0, filter := .all, lost := false, drops := 0 } ∧
       t.pending = s.pending ∧
       ((∀ op, s.store.holder = some op → op.code = 0) → t.store.array = s.store.array)) ∧
  (∀ (s : State) (c : Instr) (source : ResetCause), s.live = false →
     (c = .powerOnReset ∧ source = .powerOn) ∨ (c = .supplyMonitorReset ∧ source = .supply) ∨
       (c = .resetnReset ∧ source = .pin) →
     ∃ t, exec c s = .next t ∧
       (s.resetUnit.beginning = true →
         t =
           { s with
             resetUnit :=
               { s.resetUnit with
                 cause :=
                   if s.resetUnit.cause = .powerOn ∨ source = .powerOn then .powerOn
                   else if s.resetUnit.cause = .supply ∨ source = .supply then .supply else .pin } }) ∧
       (s.resetUnit.beginning = false → t = s))

/-- An erase cut off by a device reset, whichever its source, leaves every other slot as it was, and its own slot as it was (its
commit mark, if it had one, included), at FFh throughout, or without a commit mark (R141). -/
def Obligations.CutOffEraseLeavesSlotOldErasedOrUncommitted : Prop :=
  ∀ (s : State) (p : PortId) (slot : SlotId) (c : Instr), s.live = true → ArrayCanonical s →
    s.store.holder = some (.erase p slot) → c = .powerOnReset ∨ c = .supplyMonitorReset ∨ c = .resetnReset →
    ∃ t, exec c s = .next t ∧
      (∀ other : SlotId, other ≠ slot → ∀ off < 1024,
        slotByte t.store.array other off = slotByte s.store.array other off) ∧
      ((∀ off < 1024, slotByte t.store.array slot off = slotByte s.store.array slot off) ∨
        (∀ off < 1024, slotByte t.store.array slot off = 0xFF) ∨ slotByte t.store.array slot 0 ≠ 0x3C)

/-- Device reset ends: each port's straps give a role, low and low PRINT, low and high CALENDER, high and low DRIVE, high and high
PRODUCTION, and the port takes it unless another port straps the same, which makes both OBSERVER (R184); its mask is that role's
default (R183); the vacant set holds the roles no port took; the scan runs (R185). -/
def Obligations.ResetEndGivesRoles : Prop :=
  ∀ (s : State) (rolea roleb : BitVec 4) (maint : Bool) (strapped : PortId → Role), s.live = false →
    (∀ p : PortId,
      (rolea.getLsbD p = false → roleb.getLsbD p = false → strapped p = .print) ∧
      (rolea.getLsbD p = false → roleb.getLsbD p = true → strapped p = .calender) ∧
      (rolea.getLsbD p = true → roleb.getLsbD p = false → strapped p = .drive) ∧
      (rolea.getLsbD p = true → roleb.getLsbD p = true → strapped p = .production)) →
    ∃ t, exec (.resetEnd rolea roleb maint) s = .next t ∧
      (∀ p : PortId,
        t.ports[p] = { s.ports[p] with role := t.ports[p].role, mask := t.ports[p].mask } ∧
        ((∃ q : PortId, q ≠ p ∧ strapped q = strapped p) → t.ports[p].role = .observer) ∧
        ((∀ q : PortId, q ≠ p → strapped q ≠ strapped p) → t.ports[p].role = strapped p) ∧
        (t.ports[p].role = .print →
          t.ports[p].mask = Attn.lineHalted.bit ||| Attn.lineReleased.bit ||| Attn.holdChanged.bit |||
            Attn.correctionReady.bit ||| Attn.gateFault.bit) ∧
        (t.ports[p].role = .calender →
          t.ports[p].mask = Attn.lineHalted.bit ||| Attn.lineReleased.bit ||| Attn.scorch.bit ||| Attn.measureStale.bit |||
            Attn.heatAdviceChanged.bit) ∧
        (t.ports[p].role = .drive →
          t.ports[p].mask = Attn.lineHalted.bit ||| Attn.lineReleased.bit ||| Attn.measureStale.bit |||
            Attn.setpointChanged.bit ||| Attn.fillWarning.bit) ∧
        (t.ports[p].role = .production →
          t.ports[p].mask = Attn.lineHalted.bit ||| Attn.panelFlagged.bit ||| Attn.markFault.bit |||
            Attn.recordWatermark.bit ||| Attn.recordLost.bit ||| Attn.storeDone.bit ||| Attn.profileDamaged.bit) ∧
        (t.ports[p].role = .observer → t.ports[p].mask = 0)) ∧
      (∀ r : Role, r ≠ .observer → (t.resetUnit.vacant.getLsbD r.code = true ↔ ∀ p : PortId, t.ports[p].role ≠ r)) ∧
      (t.resetUnit.conflict = true ↔ ∃ p : PortId, t.ports[p].role = .observer) ∧
      t.resetUnit.maint = maint ∧ t.resetUnit.phase = .scanning ∧ t.resetUnit.cause = s.resetUnit.cause ∧
      t.resetUnit.beginning = false ∧ t = { s with ports := t.ports, resetUnit := t.resetUnit }

/-- The scan gives each profile slot its state by the first row of R139's table that applies, generation 0, and the channel
count and name of a VALID or LOCKED one (R137, R139). -/
def Obligations.ScanClassifiesProfileSlots : Prop :=
  ∀ (s : State) (slot : SlotId), s.resetUnit.phase = .scanning → ArrayCanonical s → slot ≠ 0 →
    ∃ t, exec .startUpScanEnd s = .next t ∧ t.store.array = s.store.array ∧ t.running = true ∧
      t.line.recordPending = false ∧
      (dirEntry t slot).generation = 0 ∧ (dirEntry t slot).programmed = 0 ∧
      ((dirEntry t slot).state = .erased ↔ ∀ off < 1024, slotByte s.store.array slot off = 0xFF) ∧
      ((dirEntry t slot).state = .locked ↔
        slotByte s.store.array slot 0 = 0x3C ∧ slotByte s.store.array slot 2 = 0x50 ∧
          1 ≤ (slotByte s.store.array slot 3).toNat ∧ (slotByte s.store.array slot 3).toNat ≤ 8 ∧
          slotByte s.store.array slot 1 = 0xC3) ∧
      ((dirEntry t slot).state = .valid ↔
        slotByte s.store.array slot 0 = 0x3C ∧ slotByte s.store.array slot 2 = 0x50 ∧
          1 ≤ (slotByte s.store.array slot 3).toNat ∧ (slotByte s.store.array slot 3).toNat ≤ 8 ∧
          slotByte s.store.array slot 1 ≠ 0xC3) ∧
      (dirEntry t slot).state ≠ .writing ∧
      (slotUsable t slot = true →
        (dirEntry t slot).channels = some (slotByte s.store.array slot 3).toNat ∧
          (dirEntry t slot).name = some (slotBytes s.store.array slot 4 16))

/-- What the scan makes of slot 0. Committed, its format code in place, and LOCKED by its mark or VALID with its CRC: its content
is the active record, its zones are stale, the pace stands at its nominal threshold and the tensions at its defaults. Committed
and VALID with a CRC that fails: the slot is DAMAGED, no record is active, and PROFILE_DAMAGED is raised. Otherwise it is ERASED
where every byte reads FFh, else DAMAGED, no record is active and nothing is raised (R90, R98, R124, R125, R139, R140). That a
LOCKED slot 0 is loaded without its CRC being computed is the model's reading of notes/assumptions/10.md, that the zones are
stale since time 0 its choice of notes/assumptions/27.md, and that the input filters keep their counts its choice of
notes/assumptions/43.md. -/
def Obligations.ScanLoadsSlotZero : Prop :=
  ∀ (s : State) (committed : Prop), s.resetUnit.phase = .scanning → ArrayCanonical s → s.line.active = none →
    UnreadyFollows s → StaleFollows s → (committed ↔ slotByte s.store.array 0 0 = 0x3C ∧ slotByte s.store.array 0 2 = 0x4D) →
    ∃ t, exec .startUpScanEnd s = .next t ∧ t.running = true ∧ t.line.recordPending = false ∧
      t.store = { s.store with dir := t.store.dir } ∧
      (∀ m, committed → m = parseMachineRecord s.store.array 0 →
        slotByte s.store.array 0 1 = 0xC3 ∨ slotCrcHolds s.store.array 0 = true →
        (dirEntry t 0).state = (if slotByte s.store.array 0 1 = 0xC3 then .locked else .valid) ∧
        t.line.active = some m ∧
        t.dose = { s.dose with zones := List.replicate m.zoneCount { value := 0, age := 0, standing := .stale 0 } } ∧
        t.pace = { s.pace with threshold := some m.pitch } ∧
        t.tension =
          { s.tension with
            targets :=
              { paperIn := m.defaultPaperIn
                fabricUnwind := m.defaultFabricUnwind
                calIn := m.defaultCalIn
                fabricRewind := m.defaultFabricRewind }
            setpoints :=
              { paperIn := 100 * m.defaultPaperIn
                fabricUnwind := 100 * m.defaultFabricUnwind
                calIn := 100 * m.defaultCalIn
                fabricRewind := 100 * m.defaultFabricRewind } } ∧
        t.line =
          { s.line with
            active := some m
            recordPending := false
            hold := { s.line.hold with unready := unreadyHolds t, stale := staleHolds t } } ∧
        t =
          { s with
            resetUnit := { s.resetUnit with phase := .running }
            line := t.line, dose := t.dose, pace := t.pace, tension := t.tension, store := t.store, ports := t.ports } ∧
        PortsRaise s t (holdKind s t)) ∧
      (committed → slotByte s.store.array 0 1 ≠ 0xC3 → slotCrcHolds s.store.array 0 = false →
        (dirEntry t 0).state = .damaged ∧
        t =
          { s with
            resetUnit := { s.resetUnit with phase := .running }
            line := { s.line with recordPending := false }
            store := t.store
            ports := t.ports } ∧
        PortsRaise s t Attn.profileDamaged.bit) ∧
      (¬committed →
        ((dirEntry t 0).state = .erased ↔ ∀ off < 1024, slotByte s.store.array 0 off = 0xFF) ∧
        ((dirEntry t 0).state = .damaged ↔ ∃ off < 1024, slotByte s.store.array 0 off ≠ 0xFF) ∧
        t =
          { s with
            resetUnit := { s.resetUnit with phase := .running }
            line := { s.line with recordPending := false }
            store := t.store
            ports := t.ports } ∧
        PortsRaise s t 0)

/-! ## Requests that report -/

/-- READ_STATUS, READ_QUEUE_SUMMARY, READ_STOP_RECORD and READ_MEASUREMENTS are answered DONE from every role with the fields
of the state as it stands; READ_PANEL answers the record an id names, and NO_SUCH_PANEL where no record has it. None changes
anything but the asking port's buffer (R21, R22, R51, R166, R191, R195). Byte for byte: every summary and every stop record; the
status with a record active, a stop record and nothing in flight; the measurements with a blanking end, an unmatched mark and
the temperature table stale; a READY record with its correction and a TRANSFERRING record with its mark seen. How the fields are
laid out in bytes is the model's choice where R194 leaves it open (notes/assumptions/12.md, 13.md, 14.md, 34.md, 37.md). -/
def Obligations.ReportsAnswerEveryRole : Prop :=
  (∀ (s : State) (p : PortId), Serves s p anyRole →
     (∃ t fields, exec (.readStatus p) s = .next t ∧ t = { s with ports := t.ports } ∧
       PortsAnswer s t p (doneFrame 0x10 fields) 0 ∧ fields = statusPayload p s ∧
       (∀ m r th, s.line.active = some m → s.line.stop = some r → s.store.holder = none → s.store.fillWaiting = none →
         s.store.requestWaiting = none → s.engine = none → s.pace.threshold = some th → s.pace.source = none →
         s.dose.advice = none → governing s = none →
         fields = leBytes 2 35 ++
           leBytes 1 p.val ++ s.ports.toList.flatMap (fun q => leBytes 1 q.role.code) ++ indication s.resetUnit.conflict ++
           [s.resetUnit.vacant] ++ indication s.resetUnit.maint ++ leBytes 1 s.resetUnit.cause.code ++
           leBytes 2 s.ports[p].pending.toNat ++ leBytes 2 s.ports[p].mask.toNat ++
           leBytes 1 s.line.state.code ++
           leBytes 1 (s.line.hold.fillHigh.toNat + 2 * s.line.hold.unready.toNat + 4 * s.line.hold.stale.toNat +
             8 * s.line.hold.requested.toNat) ++
           indication (holdAsserted s) ++ indication (stopoutAsserted s) ++ indication (!s.inputs.breakn.level) ++
           indication (!s.inputs.stopinn.level) ++ leBytes 1 r.firstCause.code ++ indication r.released ++
           [1] ++ m.name ++ indication s.line.recordPending ++
           [0, 0, 0, 0] ++
           s.store.dir.toList.flatMap (fun d =>
             leBytes 2 (d.channels.isSome.toNat + 2 * d.name.isSome.toNat) ++ leBytes 1 d.state.code ++
               leBytes 2 d.generation ++ leBytes 1 (d.channels.getD 0) ++ d.name.getD (List.replicate 16 0)) ++
           [0, 0, 0] ++ leBytes 1 (s.cache.entries.toList.filter (·.isSome)).length ++ [0, 0] ++
           indication s.line.hold.unready ++
           indication s.onLine ++ leBytes 4 th ++ [0, 0, 0, 0, 0, 0] ++ leBytes 4 s.pace.accumulator ++
           leBytes 4 s.pace.total ++ leBytes 2 s.pace.panel ++ leBytes 2 s.pace.lost ++
           leSigned 2 s.dose.trim ++ List.replicate 17 0 ++ leSigned 2 s.tension.bias ++ [0, 0] ++
           indication s.line.hold.stale)) ∧
     (∃ t, exec (.readQueueSummary p) s = .next t ∧ t = { s with ports := t.ports } ∧
       PortsAnswer s t p (doneFrame 0x12
         (leBytes 2 ((s.queue.head?.map (·.id)).isSome.toNat + 2 * (s.queue.getLast?.map (·.id)).isSome.toNat +
             4 * (openRecord s).isSome.toNat + 8 * (firstUnprinted s).isSome.toNat) ++
           leBytes 1 s.queue.length ++
           leBytes 1 (s.queue.filter fun r => decide (r.state = .queued)).length ++
           leBytes 1 (s.queue.filter fun r => r.isFetched).length ++
           leBytes 1 (s.queue.filter fun r => r.isReady && !r.isFetched).length ++
           leBytes 1 (s.queue.filter fun r => decide (r.state = .printing)).length ++
           leBytes 1 (s.queue.filter fun r => decide (r.state = .inTransit)).length ++
           leBytes 1 (s.queue.filter fun r => decide (r.state = .transferring)).length ++
           leBytes 2 ((s.queue.head?.map (·.id)).getD 0) ++ leBytes 2 ((s.queue.getLast?.map (·.id)).getD 0) ++
           leBytes 2 (((openRecord s).map (·.id)).getD 0) ++ leBytes 2 (((firstUnprinted s).map (·.id)).getD 0) ++
           leBytes 2 s.idCounter)) 0) ∧
     (∃ t, exec (.readStopRecord p) s = .next t ∧ t = { s with ports := t.ports } ∧
       (∀ r, s.line.stop = some r → PortsAnswer s t p (doneFrame 0x13
         (leBytes 2 (1 + 2 * r.interrupted.isSome.toNat + 4 * r.lastFurther.isSome.toNat) ++ leBytes 1 s.line.state.code ++
           leBytes 1 r.firstCause.code ++ leBytes 4 r.xPrint ++ leBytes 4 r.xNip ++ leBytes 2 (r.interrupted.getD 0) ++
           indication r.interrupted.isSome ++ leBytes 1 r.transferring ++ leBytes 1 r.furtherCount ++
           leBytes 1 ((r.lastFurther.map (·.code)).getD 0) ++ indication r.released)) 0) ∧
       (s.line.stop = none → PortsAnswer s t p (doneFrame 0x13
         (leBytes 2 0 ++ leBytes 1 s.line.state.code ++ List.replicate 16 0)) 0)) ∧
     (∃ t fields, exec (.readMeasurements p) s = .next t ∧ t = { s with ports := t.ports } ∧
       PortsAnswer s t p (doneFrame 0x14 fields) 0 ∧ fields = measurementsPayload s ∧
       (∀ m a u since, s.line.active = some m → s.mark.accepted = some a → a.blankingEnd ≤ 4294967295 →
         s.mark.unmatched = some u → tableStaleSince s.dose.zones = some since → s.now ≤ since + 4294967295 →
         tableStaleSince s.tension.zones = none →
         fields = leBytes 2 127 ++
           leBytes 1 s.line.state.code ++ leBytes 4 s.pos.xPrint ++ leBytes 4 s.pos.xNip ++
           leBytes 4 (s.pos.xPrint - s.pos.xNip) ++
           leBytes 4 s.pos.vPrint.magnitude ++ indication s.pos.vPrint.reverse ++
           leBytes 4 s.pos.vCal.magnitude ++ indication s.pos.vCal.reverse ++
           leBytes 4 s.pos.vFab.magnitude ++ indication s.pos.vFab.reverse ++ leBytes 4 s.pos.slip ++
           leBytes 2 s.pos.errPrint ++ leBytes 2 s.pos.errCal ++ leBytes 2 s.pos.errFab ++
           leBytes 1 s.mark.streak ++ leBytes 4 a.blankingEnd ++ leBytes 2 u.code ++ leBytes 4 u.stamp ++
           leBytes 1 s.dose.zones.length ++
           s.dose.zones.flatMap (fun z => leBytes 2 z.value ++ leBytes 4 z.age ++ indication (!z.isFresh)) ++
           leSigned 2 s.dose.trim ++ leBytes 4 s.dose.ticks ++
           s.tension.zones.flatMap (fun z => leBytes 2 z.value ++ leBytes 4 z.age ++ indication (!z.isFresh)) ++
           leBytes 2 s.tension.diameter ++
           [1] ++ leBytes 4 (s.now - since) ++ indication s.tension.lostTemperature ++
           [0, 0, 0, 0, 0] ++ indication s.tension.lostTension ++ leSigned 2 s.tension.bias))) ∧
  (∀ (s : State) (p : PortId) (id : BitVec 16), Serves s p anyRole →
     ∃ t, exec (.readPanel p id) s = .next t ∧ t = { s with ports := t.ports } ∧
       (∀ r, findPanel s id.toNat = some r → PortsAnswer s t p (doneFrame 0x11 (panelPayload s.now r)) 0 ∧
         (∀ a c fetched time due, r.normal = some a → r.correction = some c → r.state = .ready fetched time due →
           s.now ≤ time + 4294967295 → r.lead = none → r.trail = none → r.mark = none → r.probes = [] →
           panelPayload s.now r = leBytes 2 7 ++
             leBytes 2 r.id ++ [1, 0] ++ leBytes 4 r.flags.toNat ++
             leBytes 4 a.jobId.toNat ++ leBytes 1 a.slot.val ++ leBytes 2 a.generation ++ leBytes 4 a.length ++
             leBytes 2 a.width ++ leBytes 1 a.coverage.length ++ a.coverage.flatMap (leBytes 1) ++
             leBytes 2 c.qPred ++ leBytes 4 c.dwell ++ leBytes 2 c.tPred ++ leBytes 2 c.targetTension ++
             leBytes 4 c.along ++ leBytes 4 c.cross ++ leBytes 2 c.generation ++ leBytes 4 c.copies.dRef ++
             leBytes 2 c.copies.band ++ leBytes 2 c.copies.baseTension ++ leBytes 2 c.copies.paperTension ++
             leBytes 1 c.copies.taper ++ leBytes 1 c.gains.length ++ c.gains.flatMap (leBytes 2) ++
             indication fetched ++ leBytes 4 (s.now - time) ++ List.replicate 14 0) ∧
         (∀ a lead trail e, r.normal = some a → r.correction = none → r.state = .transferring → r.lead = some lead →
           r.trail = some trail → r.mark = some (.seen e) → r.probes ≠ [] →
           panelPayload s.now r = leBytes 2 121 ++
             leBytes 2 r.id ++ [4, 0] ++ leBytes 4 r.flags.toNat ++
             leBytes 4 a.jobId.toNat ++ leBytes 1 a.slot.val ++ leBytes 2 a.generation ++ leBytes 4 a.length ++
             leBytes 2 a.width ++ leBytes 1 a.coverage.length ++ a.coverage.flatMap (leBytes 1) ++
             List.replicate 37 0 ++ leBytes 4 lead ++ leBytes 4 trail ++ [1] ++ leSigned 4 e ++
             leBytes 1 r.probes.length ++
             r.probes.flatMap (fun q => leBytes 4 q.accumulator ++ indication q.inArc))) ∧
       ((∀ r ∈ s.queue, r.id ≠ id.toNat) → PortsAnswer s t p (refusedFrame 0x11 .noSuchPanel) 0))

/-- READ_RECORDS answers the oldest min(n, count) records for n from 1 to 4, every field of R172 with its absent indications, and
BAD_ARG for any other n; READ_SETPOINTS answers every setpoint, rounded to N/m, with its target and whether it is reached, the
governing id, the diameter used and the fill; PROBE_CACHE answers hit or miss, the entry, its generation, the NLU pointer and the
fill in flight, and BAD_ARG for slot 0 or above 31. None changes anything but the asking port's buffer (R77, R126, R177). The
model's choices and readings: the layout of the fields (notes/assumptions/12.md), that the bytes of hit, reached, governed and
lost are 1 for yes and 0 for no (notes/assumptions/14.md), and that the governing id is the one the queue gives at the request
(notes/assumptions/24.md). -/
def Obligations.StationReportsChangeNothing : Prop :=
  ∀ (s : State) (p : PortId),
    (∀ n : Byte, Serves s p anyRole → 1 ≤ n.toNat → n.toNat ≤ 4 →
      ∃ t, exec (.readRecords p n) s = .next t ∧ t = { s with ports := t.ports } ∧
        PortsAnswer s t p (doneFrame 0x15
          (leBytes 1 (min n.toNat s.records.list.length) ++
            (s.records.list.take n.toNat).flatMap (fun k =>
              leBytes 2 (k.jobId.isSome.toNat + 2 * k.syncError.isSome.toNat + 4 * k.qPred.isSome.toNat +
                8 * k.qAct.isSome.toNat) ++
              leBytes 2 k.id ++ leBytes 4 ((k.jobId.getD 0).toNat) ++ leBytes 1 ((k.slot.map (·.val)).getD 0) ++
              leBytes 2 (k.generation.getD 0) ++ leBytes 1 k.outcome.code ++ leBytes 4 k.flags.toNat ++
              leBytes 4 k.lead ++ leBytes 4 k.trail ++ leBytes 4 k.length ++ leSigned 4 (k.syncError.getD 0) ++
              leBytes 2 (k.qPred.getD 0) ++ leBytes 4 k.dAct ++ leBytes 4 k.probeMin ++ leBytes 4 k.probeMax ++
              leBytes 2 (k.qAct.getD 0)) ++
            leBytes 1 s.records.list.length ++ leBytes 1 s.records.mode.code ++ leBytes 1 s.records.watermark ++
            leBytes 1 s.records.filter.code ++ indication s.records.lost ++ leBytes 2 s.records.drops)) 0) ∧
    (∀ n : Byte, Serves s p anyRole → n.toNat = 0 ∨ 4 < n.toNat →
      ∃ t, exec (.readRecords p n) s = .next t ∧ t = { s with ports := t.ports } ∧
        PortsAnswer s t p (refusedFrame 0x15 .badArg) 0) ∧
    (Serves s p onlyDrive →
      ∃ t fields, exec (.readSetpoints p) s = .next t ∧ t = { s with ports := t.ports } ∧
        PortsAnswer s t p (doneFrame 0x61 fields) 0 ∧
        (∀ (ids used : List Byte) (bits : Nat),
          (governing s = none ∧ s.line.active = none ∧ bits = 0 ∧ ids = [0, 0] ∧ used = [0, 0]) ∨
            (∃ m, governing s = none ∧ s.line.active = some m ∧ bits = 2 ∧ ids = [0, 0] ∧
              used = leBytes 2 (usedDiameter m s.tension.diameter)) ∨
            (∃ m r c, governing s = some (r, c) ∧ s.line.active = some m ∧ bits = 3 ∧ ids = leBytes 2 r.id ∧
              used = leBytes 2 (usedDiameter m s.tension.diameter)) →
          fields = leBytes 2 bits ++
            leBytes 2 ((s.tension.setpoints.paperIn + 50) / 100) ++ leBytes 2 s.tension.targets.paperIn ++
            leBytes 2 ((s.tension.setpoints.fabricUnwind + 50) / 100) ++ leBytes 2 s.tension.targets.fabricUnwind ++
            leBytes 2 ((s.tension.setpoints.calIn + 50) / 100) ++ leBytes 2 s.tension.targets.calIn ++
            leBytes 2 ((s.tension.setpoints.fabricRewind + 50) / 100) ++ leBytes 2 s.tension.targets.fabricRewind ++
            indication (decide (s.tension.setpoints.paperIn = 100 * s.tension.targets.paperIn)) ++
            indication (decide (s.tension.setpoints.fabricUnwind = 100 * s.tension.targets.fabricUnwind)) ++
            indication (decide (s.tension.setpoints.calIn = 100 * s.tension.targets.calIn)) ++
            indication (decide (s.tension.setpoints.fabricRewind = 100 * s.tension.targets.fabricRewind)) ++
            ids ++ indication s.tension.governed ++ used ++ leBytes 4 (s.pos.xPrint - s.pos.xNip))) ∧
    (∀ (slot : Byte) (fill : List Byte) (bit : Nat), Serves s p onlyProduction → 1 ≤ slot.toNat → slot.toNat ≤ 31 →
      (s.store.fillWaiting = none ∧ (∀ w, s.store.holder ≠ some (.fill w)) ∧ bit = 0 ∧ fill = [0, 0]) ∨
        (∃ w, s.store.fillWaiting = some w ∧ bit = 2 ∧ fill = leBytes 1 w.val ++ [0]) ∨
        (∃ w, s.store.fillWaiting = none ∧ s.store.holder = some (.fill w) ∧ bit = 2 ∧ fill = leBytes 1 w.val ++ [1]) →
      ∃ t, exec (.probeCache p slot) s = .next t ∧ t = { s with ports := t.ports } ∧
        (∀ (k : Fin 8) (e : CacheEntry), s.cache.entries[k] = some e → e.slot.val = slot.toNat →
          (∀ j : Fin 8, j < k → ∀ f, s.cache.entries[j] = some f → f.slot.val ≠ slot.toNat) →
          PortsAnswer s t p (doneFrame 0x36
            (leBytes 2 (1 + bit) ++ [1] ++ leBytes 1 k.val ++ leBytes 2 e.generation ++ leBytes 1 s.cache.nlu.val ++ fill)) 0) ∧
        ((∀ (k : Fin 8) (e : CacheEntry), s.cache.entries[k] = some e → e.slot.val ≠ slot.toNat) →
          PortsAnswer s t p (doneFrame 0x36
            (leBytes 2 bit ++ [0, 0, 0, 0] ++ leBytes 1 s.cache.nlu.val ++ fill)) 0)) ∧
    (∀ slot : Byte, Serves s p onlyProduction → slot.toNat = 0 ∨ 31 < slot.toNat →
      ∃ t, exec (.probeCache p slot) s = .next t ∧ t = { s with ports := t.ports } ∧
        PortsAnswer s t p (refusedFrame 0x36 .badArg) 0)

/-! ## Attention -/

/-- READ_AND_CLEAR_ATTENTION answers the port's pending set and mask and empties that set alone (R182); SET_ATTENTION_MASK
replaces that port's mask alone (R183). -/
def Obligations.AttentionRequestsActOnTheirPort : Prop :=
  ∀ (s : State) (p : PortId), Serves s p anyRole →
    (∃ t, exec (.readAndClearAttention p) s = .next t ∧ t = { s with ports := t.ports } ∧
      t.ports[p] =
        { s.ports[p] with
          executing := false
          response := some (doneFrame 0x16 (leBytes 2 s.ports[p].pending.toNat ++ leBytes 2 s.ports[p].mask.toNat))
          pending := 0 } ∧
      attnAsserted t p = false ∧ ∀ q : PortId, q ≠ p → t.ports[q] = s.ports[q]) ∧
    (∀ mask : BitVec 16, ∃ t, exec (.setAttentionMask p mask) s = .next t ∧ t = { s with ports := t.ports } ∧
      t.ports[p] = { s.ports[p] with executing := false, response := some (doneFrame 0x17 []), mask := mask } ∧
      (attnAsserted t p = true ↔ s.ports[p].pending &&& mask ≠ 0) ∧ ∀ q : PortId, q ≠ p → t.ports[q] = s.ports[q])

/-! ## Line control -/

/-- STOP: accepted from PRINT, CALENDER, DRIVE and PRODUCTION and refused with NOT_PERMITTED to OBSERVER; WRONG_STATE in
UNSET, a stop latched in TRACKING, a further cause in HALTED; the hold reason set untouched (R163). -/
def Obligations.StopRequest : Prop :=
  ∀ (s : State) (p : PortId), s.running = true → s.ports[p].executing = false →
    ∃ t, exec (.stop p) s = .next t ∧ t = { s with ports := t.ports, line := t.line, queue := t.queue } ∧
      t.line.hold = s.line.hold ∧ t.line.active = s.line.active ∧ t.line.recordPending = s.line.recordPending ∧
      (s.ports[p].role = .observer →
        t.line = s.line ∧ t.queue = s.queue ∧ PortsAnswer s t p (refusedFrame 0x18 .notPermitted) 0) ∧
      (s.ports[p].role ≠ .observer → s.line.state = .unset →
        t.line = s.line ∧ t.queue = s.queue ∧ PortsAnswer s t p (refusedFrame 0x18 .wrongState) 0) ∧
      (s.ports[p].role ≠ .observer → s.line.state = .tracking →
        t.line.state = .halted ∧
        t.line.stop = some
          { firstCause := .requested
            xPrint := s.pos.xPrint
            xNip := s.pos.xNip
            interrupted := (openRecord s).map (·.id)
            transferring := (s.queue.filter (·.isTransferring)).length
            furtherCount := 0
            lastFurther := none
            released := false } ∧
        t.queue = s.queue.map (fun r => if r.openTrail then r.flag .stoppedDuringPrint else r) ∧
        PortsAnswer s t p (doneFrame 0x18 []) (Attn.lineHalted.bit ||| holdKind s t)) ∧
      (s.ports[p].role ≠ .observer → s.line.state = .halted →
        t.line.state = .halted ∧
        t.line.stop = s.line.stop.map (fun r =>
          { r with
            furtherCount := if r.furtherCount < 255 then r.furtherCount + 1 else r.furtherCount
            lastFurther := some .requested }) ∧
        t.queue = s.queue.map (fun r => if r.openTrail then r.flag .stoppedDuringPrint else r) ∧
        PortsAnswer s t p (doneFrame 0x18 []) 0)

/-- HOLD adds REQUESTED and UNHOLD removes it, from PRODUCTION, CALENDER and DRIVE in every line state, each answered DONE;
HOLD_CHANGED is raised exactly when the level of HOLDn changes (R168, R170). -/
def Obligations.HoldAndUnhold : Prop :=
  ∀ (s : State) (p : PortId), Serves s p holdRoles →
    (∃ t, exec (.hold p) s = .next t ∧ t = { s with ports := t.ports, line := t.line } ∧
      t.line = { s.line with hold := { s.line.hold with requested := true } } ∧ holdAsserted t = true ∧
      PortsAnswer s t p (doneFrame 0x70 []) (holdKind s t)) ∧
    (∃ t, exec (.unhold p) s = .next t ∧ t = { s with ports := t.ports, line := t.line } ∧
      t.line = { s.line with hold := { s.line.hold with requested := false } } ∧
      PortsAnswer s t p (doneFrame 0x71 []) (holdKind s t))

/-- RELEASE_STOP: WRONG_STATE when not HALTED, STILL_ACTIVE while BREAKn or STOPINn is asserted, else TRACKING with the stop
record kept and marked released, and LINE_RELEASED (R164). That WRONG_STATE comes before STILL_ACTIVE in UNSET too is the model's
choice of notes/assumptions/39.md. -/
def Obligations.ReleaseStopRequest : Prop :=
  ∀ (s : State) (p : PortId), Serves s p releaseRoles →
    ∃ t, exec (.releaseStop p) s = .next t ∧ t = { s with ports := t.ports, line := t.line } ∧
      (s.line.state ≠ .halted → t.line = s.line ∧ PortsAnswer s t p (refusedFrame 0x72 .wrongState) 0) ∧
      (s.line.state = .halted → s.inputs.breakn.level = false ∨ s.inputs.stopinn.level = false →
        t.line = s.line ∧ PortsAnswer s t p (refusedFrame 0x72 .stillActive) 0) ∧
      (s.line.state = .halted → s.inputs.breakn.level = true → s.inputs.stopinn.level = true →
        t.line = { s.line with state := .tracking, stop := s.line.stop.map fun r => { r with released := true } } ∧
        PortsAnswer s t p (doneFrame 0x72 []) (Attn.lineReleased.bit ||| holdKind s t))

/-! ## The panel queue -/

/-- ANNOUNCE_PANEL that passes R5 appends a QUEUED record with the values R6 stores and the next free id, answers its id, and
brings in UNREADY by R86; the scheduler may start a computation or a fill. A slot outside 1 to 31, a full queue and an
unusable slot are refused in that order, and nothing but the buffer changes (R2, R5, R6, R80, R86). -/
def Obligations.AnnouncePanel : Prop :=
  (∀ (s : State) (p : PortId) (jobId : BitVec 32) (slot : Byte) (length : BitVec 32) (width : BitVec 16)
     (coverage : List Byte) (i : SlotId),
     Serves s p onlyProduction → slot.toNat = i.val → i ≠ 0 → s.queue.length < 64 → slotUsable s i = true →
     1000 ≤ length.toNat → length.toNat ≤ 40000 → 1 ≤ coverage.length → coverage.length ≤ 8 →
     (dirEntry s i).channels = some coverage.length →
     ∃ t frame, exec (.announcePanel p jobId slot length width coverage) s = .next t ∧
       t.queue = s.queue ++
         [{ id := nextId s
            normal := some
              { jobId := jobId
                slot := i
                generation := (dirEntry s i).generation
                length := length.toNat
                width := max 300 (min 3400 width.toNat)
                coverage := coverage.map fun c => min c.toNat 100 }
            state := .queued
            lead := none
            trail := none
            mark := none
            probes := []
            correction := none
            flags := 0 }] ∧
       t.idCounter = idAfter (nextId s) ∧
       frame = responseFrame
         (if (300 ≤ width.toNat ∧ width.toNat ≤ 3400) ∧ ∀ c ∈ coverage, c.toNat ≤ 100 then 0x80 else 0x81)
         (0x20 :: leBytes 2 (nextId s)) ∧
       PortsAnswer s t p frame (holdKind s t) ∧ t.line.hold.unready = unreadyHolds t ∧
       t = withScheduling
         { s with
           ports := t.ports
           queue := t.queue
           idCounter := t.idCounter
           line := { s.line with hold := { s.line.hold with unready := t.line.hold.unready } } } t) ∧
  (∀ (s : State) (p : PortId) (jobId : BitVec 32) (slot : Byte) (length : BitVec 32) (width : BitVec 16)
     (coverage : List Byte), Serves s p onlyProduction → 1 ≤ coverage.length → coverage.length ≤ 8 →
     ∃ t, exec (.announcePanel p jobId slot length width coverage) s = .next t ∧
       (slot.toNat = 0 ∨ 31 < slot.toNat → t = { s with ports := t.ports } ∧
         PortsAnswer s t p (refusedFrame 0x20 .badArg) 0) ∧
       (1 ≤ slot.toNat → slot.toNat ≤ 31 → 64 ≤ s.queue.length → t = { s with ports := t.ports } ∧
         PortsAnswer s t p (refusedFrame 0x20 .queueFull) 0) ∧
       (∀ i : SlotId, slot.toNat = i.val → 1 ≤ i.val → s.queue.length < 64 → slotUsable s i = false →
         t = { s with ports := t.ports } ∧ PortsAnswer s t p (refusedFrame 0x20 .noProfile) 0))

/-- WITHDRAW_PANEL and SCRAP_PANEL of a QUEUED or unfetched READY record remove it, the records behind it closing up; SCRAP of
any other record adds SCRAPPED, WITHDRAW of it is TOO_LATE, and an id that names none is NO_SUCH_PANEL (R7, R8). -/
def Obligations.WithdrawAndScrap : Prop :=
  ∀ (s : State) (p : PortId) (id : BitVec 16), Serves s p onlyProduction →
    ∃ t u, exec (.withdrawPanel p id) s = .next t ∧ exec (.scrapPanel p id) s = .next u ∧
      (∀ r, findPanel s id.toNat = some r → r.unprinted = true → r.isFetched = false →
        t.queue = s.queue.filter (fun q => decide (q.id ≠ id.toNat)) ∧ u.queue = t.queue ∧
        PortsAnswer s t p (doneFrame 0x21 []) (holdKind s t) ∧ PortsAnswer s u p (doneFrame 0x22 []) (holdKind s u) ∧
        t.line.hold.unready = unreadyHolds t ∧
        t = withScheduling
          { s with
            ports := t.ports
            queue := t.queue
            line := { s.line with hold := { s.line.hold with unready := t.line.hold.unready } } } t ∧
        u = { t with ports := u.ports }) ∧
      (∀ r, findPanel s id.toNat = some r → r.unprinted = false ∨ r.isFetched = true →
        t = { s with ports := t.ports } ∧ PortsAnswer s t p (refusedFrame 0x21 .tooLate) 0 ∧
        u.queue = s.queue.map (fun q => if q.id = id.toNat then q.flag .scrapped else q) ∧
        u = { s with ports := u.ports, queue := u.queue } ∧ PortsAnswer s u p (doneFrame 0x22 []) 0) ∧
      (findPanel s id.toNat = none →
        t = { s with ports := t.ports } ∧ PortsAnswer s t p (refusedFrame 0x21 .noSuchPanel) 0 ∧
        u = { s with ports := u.ports } ∧ PortsAnswer s u p (refusedFrame 0x22 .noSuchPanel) 0)

/-- PRINT_ABORT of the record with an open trail, wherever it stands in the queue: the trail closes at x_print with SCRAPPED and
without a length comparison, a PRINTING record is IN_TRANSIT, a TRANSFERRING one stays so and gains its middle and trail probes,
and the pace returns to nominal (R9, R16, R95). Where x_nip already lies a full arc past the new trail, the TRANSFERRING record
completes in the same event (R18; x_nip at most x_print rules it out but for an arc of 0). Any other id is NO_SUCH_PANEL and changes nothing (R9). -/
def Obligations.PrintAbortClosesTheOpenTrail : Prop :=
  ∀ (s : State) (p : PortId) (id : BitVec 16) (m : MachineRecord) (before : List Panel) (r closed : Panel)
    (rest : List Panel), Serves s p onlyPrint → s.line.active = some m → s.queue = before ++ r :: rest →
    r.openTrail = true →
    (∀ q ∈ before ++ rest, q.openTrail = false ∧
      ∀ trail, q.state = .transferring → q.trail = some trail → s.pos.xNip < trail + 10 * m.arcLen) →
    closed = { trailClosed r s.pos.xPrint with flags := addFlag r.flags .scrapped } →
    ∃ t, exec (.printAbort p id) s = .next t ∧
      (r.id = id.toNat →
        t.pace = { s.pace with threshold := some (paceThreshold m 1000000), source := none } ∧
        (r.state ≠ .transferring ∨ s.pos.xNip < s.pos.xPrint + 10 * m.arcLen →
          t = { s with ports := t.ports, queue := before ++ closed :: rest, pace := t.pace } ∧
          PortsAnswer s t p (doneFrame 0x41 []) 0) ∧
        (∀ lead, r.state = .transferring → r.lead = some lead → s.pos.xPrint + 10 * m.arcLen ≤ s.pos.xNip →
          ∃ raised,
            t =
              { s with
                ports := t.ports
                queue := before ++ rest
                pace := t.pace
                dose := { s.dose with trim := t.dose.trim }
                records := t.records } ∧
            Completes s t closed lead s.pos.xPrint raised ∧ PortsAnswer s t p (doneFrame 0x41 []) raised)) ∧
      (r.id ≠ id.toNat → t = { s with ports := t.ports } ∧ PortsAnswer s t p (refusedFrame 0x41 .noSuchPanel) 0)

/-- GET_CORRECTION answers the correction of the record an id names and makes an unfetched READY record fetched; NOT_READY
without a correction, NO_SUCH_PANEL where no record has the id (R84, Table 45). -/
def Obligations.GetCorrectionFetches : Prop :=
  ∀ (s : State) (p : PortId) (id : BitVec 16), Serves s p onlyPrint →
    ∃ t, exec (.getCorrection p id) s = .next t ∧
      (∀ r c, findPanel s id.toNat = some r → r.correction = some c →
        t.queue = s.queue.map (fun q => if q.id = id.toNat then q.fetch else q) ∧
        (∀ f time due, r.state = .ready f time due → r.fetch.state = .ready true time false) ∧
        t = { s with ports := t.ports, queue := t.queue } ∧
        PortsAnswer s t p (doneFrame 0x40
          (leBytes 2 r.id ++ leBytes 2 c.generation ++ leBytes 2 c.qPred ++ leBytes 2 c.targetTension ++ leBytes 4 c.along ++
            leBytes 4 c.cross ++ [informationalByte r.flags] ++ leBytes 1 c.gains.length ++ c.gains.flatMap (leBytes 2))) 0) ∧
      (∀ r, findPanel s id.toNat = some r → r.correction = none →
        t = { s with ports := t.ports } ∧ PortsAnswer s t p (refusedFrame 0x40 .notReady) 0) ∧
      (findPanel s id.toNat = none →
        t = { s with ports := t.ports } ∧ PortsAnswer s t p (refusedFrame 0x40 .noSuchPanel) 0)

/-! ## Transfer records and the dose trim -/

/-- SET_TRIM clamps to −250 to +250 and says so (R112). -/
def Obligations.SetTrimClamps : Prop :=
  ∀ (s : State) (p : PortId) (trim : BitVec 16), Serves s p onlyProduction →
    ∃ t, exec (.setTrim p trim) s = .next t ∧ t.dose.trim = max (-250) (min 250 trim.toInt) ∧
      t = { s with ports := t.ports, dose := { s.dose with trim := t.dose.trim } } ∧
      PortsAnswer s t p (responseFrame (if -250 ≤ trim.toInt ∧ trim.toInt ≤ 250 then 0x80 else 0x81) [0x24]) 0

/-- ACK_RECORDS(n) removes the oldest min(n, count) records, or with n = 0 clears the lost flag and the drop count (R178). -/
def Obligations.AckRecords : Prop :=
  ∀ (s : State) (p : PortId), Serves s p onlyProduction →
    (∀ n : Byte, 1 ≤ n.toNat →
      ∃ t, exec (.ackRecords p n) s = .next t ∧ t.records = { s.records with list := s.records.list.drop n.toNat } ∧
        t = { s with ports := t.ports, records := t.records } ∧
        PortsAnswer s t p (responseFrame (if n.toNat ≤ s.records.list.length then 0x80 else 0x81)
          (0x25 :: (leBytes 1 (min n.toNat s.records.list.length) ++ leBytes 1 (s.records.list.length - n.toNat)))) 0) ∧
    (∃ t, exec (.ackRecords p 0) s = .next t ∧ t.records = { s.records with lost := false, drops := 0 } ∧
      t = { s with ports := t.ports, records := t.records } ∧
      PortsAnswer s t p (doneFrame 0x25 (leBytes 1 0 ++ leBytes 1 s.records.list.length)) 0)

/-- SET_RECORD_QUEUE from a PRODUCTION port in every line state: the three values replace those held, the records, the lost
flag and the drop count kept, answered DONE; a mode, watermark or filter outside its values is BAD_ARG and changes nothing
(R179). -/
def Obligations.SetRecordQueue : Prop :=
  ∀ (s : State) (p : PortId), Serves s p onlyProduction →
    (∀ (mode watermark filter : Byte) (m : QueueMode) (f : QueueFilter),
      mode.toNat = m.code → filter.toNat = f.code → watermark.toNat ≤ 32 →
      ∃ t, exec (.setRecordQueue p mode watermark filter) s = .next t ∧
        t.records = { s.records with mode := m, watermark := watermark.toNat, filter := f } ∧
        t = { s with ports := t.ports, records := t.records } ∧ PortsAnswer s t p (doneFrame 0x26 []) 0) ∧
    (∀ mode watermark filter : Byte, 1 < mode.toNat ∨ 32 < watermark.toNat ∨ 2 < filter.toNat →
      ∃ t, exec (.setRecordQueue p mode watermark filter) s = .next t ∧ t = { s with ports := t.ports } ∧
        PortsAnswer s t p (refusedFrame 0x26 .badArg) 0)

/-! ## The profile store: requests and grants -/

/-- On an idle store, COMMIT_SLOT of a WRITING slot, LOCK_SLOT of a VALID one, READ_SLOT within the slot and LINE_CLEAR over a
committed slot 0 are granted at once. On a held store ERASE_SLOT, COMMIT_SLOT, LOCK_SLOT, READ_SLOT, STORE_CLEAR, LINE_CLEAR and
a WRITE_SLOT that must program (a row it completes, or a row it displaces from four held rows) wait, and nothing else but the
port changes. The port executes until the operation ends (R48, R142, R144, R149, R150, R154, R155, R156, R191). -/
def Obligations.StoreRequestsTakeOrWait : Prop :=
  (∀ (s : State) (p : PortId) (slot : Byte) (i : SlotId), Serves s p onlyProduction → StoreIdle s → slot.toNat = i.val →
     ((dirEntry s i).state = .writing →
       ∃ t, exec (.commitSlot p slot) s = .next t ∧
         t.store =
           { s.store with
             staging := s.store.staging.filter fun r => decide (r.slot ≠ i)
             holder := some (.commit p i (slotRows s.store.staging i)) } ∧
         t = { s with ports := t.ports, store := t.store } ∧ PortsWait s t p 0) ∧
     ((dirEntry s i).state = .valid →
       ∃ t, exec (.lockSlot p slot) s = .next t ∧ t.store = { s.store with holder := some (.lock p i) } ∧
         t = { s with ports := t.ports, store := t.store } ∧ PortsWait s t p 0) ∧
     (∀ (offset : BitVec 16) (n : Byte), 1 ≤ n.toNat → n.toNat ≤ 32 → offset.toNat + n.toNat ≤ 1024 →
       ∃ t, exec (.readSlot p slot offset n) s = .next t ∧
         t.store = { s.store with holder := some (.read p i offset.toNat n.toNat) } ∧
         t = { s with ports := t.ports, store := t.store } ∧ PortsWait s t p 0) ∧
     (∀ span : BitVec 32, slotUsable s 0 = true → s.inputs.breakn.level = true → s.inputs.stopinn.level = true →
       ∃ t, exec (.lineClear p span) s = .next t ∧ t.store = { s.store with holder := some (.lineClear p span.toNat) } ∧
         t = { s with ports := t.ports, store := t.store } ∧ PortsWait s t p 0)) ∧
  (∀ (s : State) (p : PortId) (slot : Byte) (i : SlotId), Serves s p onlyProduction → s.store.holder.isSome = true →
     slot.toNat = i.val →
     ((dirEntry s i).state ≠ .locked → (∀ r ∈ s.queue, r.isFetched = true → r.slot ≠ some i) →
       ∃ t, exec (.eraseSlot p slot) s = .next t ∧ t.store = { s.store with requestWaiting := some (.erase p i) } ∧
         t = { s with ports := t.ports, store := t.store } ∧ PortsWait s t p 0) ∧
     ((dirEntry s i).state = .writing →
       ∃ t, exec (.commitSlot p slot) s = .next t ∧ t.store = { s.store with requestWaiting := some (.commit p i) } ∧
         t = { s with ports := t.ports, store := t.store } ∧ PortsWait s t p 0) ∧
     ((dirEntry s i).state = .valid →
       ∃ t, exec (.lockSlot p slot) s = .next t ∧ t.store = { s.store with requestWaiting := some (.lock p i) } ∧
         t = { s with ports := t.ports, store := t.store } ∧ PortsWait s t p 0) ∧
     (∀ (offset : BitVec 16) (n : Byte), 1 ≤ n.toNat → n.toNat ≤ 32 → offset.toNat + n.toNat ≤ 1024 →
       ∃ t, exec (.readSlot p slot offset n) s = .next t ∧
         t.store = { s.store with requestWaiting := some (.read p i offset.toNat n.toNat) } ∧
         t = { s with ports := t.ports, store := t.store } ∧ PortsWait s t p 0) ∧
     (∀ (offset : BitVec 16) (data : List Byte), (dirEntry s i).state = .writing → (dirEntry s i).programmed = 0 →
       (s.store.staging = [] ∧ data.length = 32 ∧ offset.toNat % 32 = 0 ∧ 32 ≤ offset.toNat ∧ offset.toNat ≤ 992) ∨
         (s.store.staging.length = 4 ∧ (∀ r ∈ s.store.staging, r.slot ≠ i) ∧ 1 ≤ data.length ∧ 2 ≤ offset.toNat ∧
           offset.toNat % 32 + data.length ≤ 32 ∧ offset.toNat ≤ 1023) →
       ∃ t, exec (.writeSlot p slot offset data) s = .next t ∧
         t.store = { s.store with requestWaiting := some (.write p i offset.toNat data) } ∧
         t = { s with ports := t.ports, store := t.store } ∧ PortsWait s t p 0) ∧
     (∀ span : BitVec 32, slotUsable s 0 = true → s.inputs.breakn.level = true → s.inputs.stopinn.level = true →
       ∃ t, exec (.lineClear p span) s = .next t ∧
         t.store = { s.store with requestWaiting := some (.lineClear p span.toNat) } ∧
         t = { s with ports := t.ports, store := t.store } ∧ PortsWait s t p 0) ∧
     (s.resetUnit.maint = true → (∀ r ∈ s.queue, r.unprinted = false) →
       ∃ t, exec (.storeClear p) s = .next t ∧ t.store = { s.store with requestWaiting := some (.clear p) } ∧
         t = { s with ports := t.ports, store := t.store } ∧ PortsWait s t p 0))

/-- ERASE_SLOT on an idle store, of a slot that is not LOCKED and that no fetched record names: granted at once, with what the
grant of an erase leaves (R145): unfetched READY records naming the slot return to QUEUED without their correction, the entry is
invalidated, the slot's staging rows are lost, the slot is WRITING with its generation kept, and slot 0 sets the machine record
pending indication; the array waits for the completion. -/
def Obligations.EraseGrantEffects : Prop :=
  ∀ (s : State) (p : PortId) (slot : Byte) (i : SlotId), Serves s p onlyProduction → StoreIdle s → slot.toNat = i.val →
    (dirEntry s i).state ≠ .locked → (∀ r ∈ s.queue, r.isFetched = true → r.slot ≠ some i) →
    ∃ t, exec (.eraseSlot p slot) s = .next t ∧ EraseGranted s t p i ∧ PortsWait s t p (holdKind s t)

/-- A waiting client on a free store is granted by its row of the table: an erase with all that R145 gives its grant (the records,
the entry, the staging rows, the directory, the pending indication) or, where a fetched record now names the slot, refused with
IN_USE and STORE_DONE (R144); a fill of a usable slot reads; a slot read starts; a store clear leaves every slot ERASED (R156).
That a grant row is the grant of R142 for a client that still waits is the model's reading (notes/assumptions/5.md). -/
def Obligations.GrantRowsServeTheWaitingClient : Prop :=
  ∀ (s : State), s.store.holder = none →
    (∀ (p : PortId) (i : SlotId), s.store.fillWaiting = none → s.store.requestWaiting = some (.erase p i) →
      (∀ r ∈ s.queue, r.isFetched = true → r.slot ≠ some i) →
      ∃ t, exec .eraseSlotGrant s = .next t ∧ EraseGranted s t p i ∧ PortsRaise s t (holdKind s t)) ∧
    (∀ (p : PortId) (i : SlotId), s.store.fillWaiting = none → s.store.requestWaiting = some (.erase p i) →
      (∃ r ∈ s.queue, r.isFetched = true ∧ r.slot = some i) →
      ∃ t, exec .eraseSlotGrant s = .next t ∧ t.store = { s.store with requestWaiting := none } ∧
        t = { s with ports := t.ports, store := t.store } ∧
        PortsAnswer s t p (refusedFrame 0x30 .inUse) Attn.storeDone.bit) ∧
    (∀ i : SlotId, s.store.fillWaiting = some i → slotUsable s i = true →
      ∃ t, exec .cacheFillGrant s = .next t ∧
        t.store = { s.store with fillWaiting := none, holder := some (.fill i) } ∧ t = { s with ports := t.ports, store := t.store } ∧
        PortsRaise s t 0) ∧
    (∀ (p : PortId) (i : SlotId) (offset n : Nat), s.store.fillWaiting = none →
      s.store.requestWaiting = some (.read p i offset n) →
      ∃ t, exec .storeGrant s = .next t ∧
        t.store = { s.store with requestWaiting := none, holder := some (.read p i offset n) } ∧
        t = { s with ports := t.ports, store := t.store } ∧ PortsRaise s t 0) ∧
    (∀ p : PortId, s.store.fillWaiting = none → s.store.requestWaiting = some (.clear p) →
      ∃ t, exec .storeClearGrant s = .next t ∧ t.store.holder = some (.clear p) ∧ t.store.staging = [] ∧
        t.store.array = s.store.array ∧ t.line = { s.line with recordPending := true } ∧
        t.cache.nlu = 0 ∧ (∀ k : Fin 8, t.cache.entries[k] = none) ∧
        (∀ i : SlotId, dirEntry t i =
          { state := .erased, generation := (dirEntry s i).generation, channels := none, name := none, programmed := 0 }) ∧
        t = { s with ports := t.ports, store := t.store, line := t.line, cache := t.cache } ∧ PortsRaise s t 0)

/-- STORE_CLEAR: NOT_PERMITTED when MAINT was low at the last reset, IN_USE while an unprinted record is held, else on an idle
store granted at once: every slot ERASED with its generation kept, LOCKED slots included (R156). -/
def Obligations.StoreClearRequest : Prop :=
  ∀ (s : State) (p : PortId), Serves s p onlyProduction → StoreIdle s →
    ∃ t, exec (.storeClear p) s = .next t ∧ t.store.array = s.store.array ∧
      (s.resetUnit.maint = false →
        t = { s with ports := t.ports } ∧ PortsAnswer s t p (refusedFrame 0x35 .notPermitted) 0) ∧
      (s.resetUnit.maint = true → (∃ r ∈ s.queue, r.unprinted = true) →
        t = { s with ports := t.ports } ∧ PortsAnswer s t p (refusedFrame 0x35 .inUse) 0) ∧
      (s.resetUnit.maint = true → (∀ r ∈ s.queue, r.unprinted = false) →
        t.store.holder = some (.clear p) ∧ t.store.staging = [] ∧ t.line = { s.line with recordPending := true } ∧
        (∀ i : SlotId, (dirEntry t i).state = .erased ∧ (dirEntry t i).generation = (dirEntry s i).generation) ∧
        (∀ k : Fin 8, t.cache.entries[k] = none) ∧ t.cache.nlu = 0 ∧
        t = { s with ports := t.ports, store := t.store, line := t.line, cache := t.cache } ∧ PortsWait s t p 0)

/-- WRITE_SLOT of bytes that complete no row and displace none: staged, answered DONE on its take event, the array untouched.
WRITE_SLOT of a whole row on an idle store with no row staged: the row is to be programmed, and the request is answered when
it has been (R147, R148, R149). -/
def Obligations.WriteSlotStagesOrPrograms : Prop :=
  (∀ (s : State) (p : PortId) (slot : Byte) (i : SlotId) (offset : BitVec 16) (data : List Byte),
     Serves s p onlyProduction → slot.toNat = i.val → (dirEntry s i).state = .writing → s.store.staging = [] →
     (dirEntry s i).programmed = 0 → 2 ≤ offset.toNat → 1 ≤ data.length → offset.toNat % 32 + data.length ≤ 31 →
     offset.toNat / 32 ≤ 31 → (offset.toNat / 32 = 0 → data.length ≤ 29) →
     ∃ t r, exec (.writeSlot p slot offset data) s = .next t ∧ t.store.staging = [r] ∧ r.slot = i ∧
       r.row = offset.toNat / 32 ∧
       (∀ k < 32, r.bytes[k]? = some
         (if offset.toNat % 32 ≤ k then data[k - offset.toNat % 32]? else none)) ∧
       t = { s with ports := t.ports, store := { s.store with staging := t.store.staging } } ∧
       PortsAnswer s t p (doneFrame 0x31 []) 0) ∧
  (∀ (s : State) (p : PortId) (slot : Byte) (i : SlotId) (offset : BitVec 16) (data : List Byte),
     Serves s p onlyProduction → StoreIdle s → slot.toNat = i.val → (dirEntry s i).state = .writing →
     s.store.staging = [] → (dirEntry s i).programmed = 0 → data.length = 32 → offset.toNat % 32 = 0 →
     32 ≤ offset.toNat → offset.toNat ≤ 992 →
     ∃ t, exec (.writeSlot p slot offset data) s = .next t ∧
       t.store =
         { s.store with
           holder := some (.write p [{ slot := i, row := offset.toNat / 32, bytes := data.map some }]) } ∧
       t = { s with ports := t.ports, store := t.store } ∧ PortsWait s t p 0)

/-! ## The profile store: completions -/

/-- The completion of an erase: every byte of the slot reads FFh, every other byte as before, the slot stays WRITING (R146); of a
slot read: the bytes as the array holds them, behind their count (R155; the count is the model's choice of
notes/assumptions/36.md); of a store clear: every byte of the array reads FFh (R156). Each is answered DONE with STORE_DONE
(R143). -/
def Obligations.EraseReadAndClearCompletions : Prop :=
  (∀ (s : State) (p : PortId) (i : SlotId), s.store.holder = some (.erase p i) → s.store.fillWaiting = none →
     s.store.requestWaiting = none →
     ∃ t, exec .eraseSlotCompletion s = .next t ∧ t.store.holder = none ∧
       (∀ off < 1024, slotByte t.store.array i off = 0xFF) ∧
       (∀ j : SlotId, j ≠ i → ∀ off < 1024, slotByte t.store.array j off = slotByte s.store.array j off) ∧
       t = { s with ports := t.ports, store := { s.store with array := t.store.array, holder := none } } ∧
       PortsAnswer s t p (doneFrame 0x30 []) Attn.storeDone.bit) ∧
  (∀ (s : State) (p : PortId) (i : SlotId) (offset n : Nat), s.store.holder = some (.read p i offset n) →
     s.store.fillWaiting = none → s.store.requestWaiting = none →
     ∃ t, exec .readSlotCompletion s = .next t ∧ t = { s with ports := t.ports, store := { s.store with holder := none } } ∧
       PortsAnswer s t p (doneFrame 0x34 (leBytes 1 n ++ (List.range n).map fun k => slotByte s.store.array i (offset + k)))
         Attn.storeDone.bit) ∧
  (∀ (s : State) (p : PortId), s.store.holder = some (.clear p) → s.store.fillWaiting = none →
     s.store.requestWaiting = none → (∀ i : SlotId, (dirEntry s i).state = .erased) →
     ∃ t, exec .storeClearCompletion s = .next t ∧ (∀ a, Memory.read t.store.array a = 0xFF) ∧
       t = { s with ports := t.ports, store := { s.store with array := t.store.array, holder := none } } ∧
       PortsAnswer s t p (doneFrame 0x35 []) Attn.storeDone.bit)

/-- The completion of a write, of however many rows (displaced ones of this or another slot, and completed ones): each row's bytes
only lose bits, by the staged value or FFh where nothing is staged; every byte outside the rows is as before; each row joins its
slot's programmed rows, and nothing else of the directory changes; DONE with STORE_DONE (R135, R143, R148, R149). -/
def Obligations.WriteCompletionProgramsItsRows : Prop :=
  ∀ (s : State) (p : PortId) (rows : List StagingRow), s.store.holder = some (.write p rows) → ArrayCanonical s →
    s.store.fillWaiting = none → s.store.requestWaiting = none → (∀ r ∈ rows, r.bytes.length = 32 ∧ r.row < 32) →
    ∃ t, exec .writeSlotCompletion s = .next t ∧ t.store.holder = none ∧
      RowsProgrammed s.store.array t.store.array rows ∧
      (∀ a, (∀ r ∈ rows, a < slotBase r.slot + 32 * r.row ∨ slotBase r.slot + 32 * r.row + 32 ≤ a) →
        Memory.read t.store.array a = Memory.read s.store.array a) ∧
      (∀ slot : SlotId,
        dirEntry t slot = { dirEntry s slot with programmed := (dirEntry t slot).programmed } ∧
        ∀ row < 32, ((dirEntry t slot).programmed.getLsbD row = true ↔
          (dirEntry s slot).programmed.getLsbD row = true ∨ ∃ r ∈ rows, r.slot = slot ∧ r.row = row)) ∧
      t = { s with ports := t.ports, store := { s.store with array := t.store.array, dir := t.store.dir, holder := none } } ∧
      PortsAnswer s t p (doneFrame 0x31 []) Attn.storeDone.bit

/-- The completion of a commit: the slot's staged rows are programmed, and the slot as they leave it is checked (R150). Where both
checks pass: the commit mark over byte 0, the slot VALID with its generation risen by one modulo 65,536, its channel count and
name as read, its set of programmed rows dropped, its entry invalidated, DONE with STORE_DONE, and the scheduler may start a
computation or a fill (R138, R143, R152). A failed CRC is BAD_CHECK and a failed content check BAD_CONTENT with the field's
offset: the slot stays as it was but for the rows programmed, which have joined its programmed rows (R150). -/
def Obligations.CommitCompletion : Prop :=
  ∀ (s : State) (p : PortId) (i : SlotId) (rows : List StagingRow), s.store.holder = some (.commit p i rows) →
    ArrayCanonical s → s.store.fillWaiting = none → s.store.requestWaiting = none →
    (∀ r ∈ rows, r.slot = i ∧ r.bytes.length = 32 ∧ r.row < 32) →
    ∃ t written, exec .commitSlotCompletion s = .next t ∧ RowsProgrammed s.store.array written rows ∧
      (∀ j : SlotId, j ≠ i → dirEntry t j = dirEntry s j) ∧
      (slotCrcHolds written i = true → contentFault written i = none →
        slotByte t.store.array i 0 = slotByte written i 0 &&& 0x3C ∧
        (∀ a, a ≠ slotBase i → Memory.read t.store.array a = Memory.read written a) ∧
        dirEntry t i =
          { state := .valid
            generation := ((dirEntry s i).generation + 1) % 65536
            channels := if i = 0 then none else some (slotByte written i 3).toNat
            name := some (slotBytes written i 4 16)
            programmed := 0 } ∧
        (∀ k : Fin 8, t.cache.entries[k] =
          if (s.cache.entries[k]).map (·.slot) = some i then none else s.cache.entries[k]) ∧
        t = withScheduling
          { s with
            ports := t.ports
            line := { s.line with recordPending := s.line.recordPending || decide (i = 0) }
            cache := { s.cache with entries := t.cache.entries }
            store := { s.store with array := t.store.array, dir := t.store.dir } } t ∧
        PortsAnswer s t p (doneFrame 0x32 []) Attn.storeDone.bit) ∧
      (slotCrcHolds written i = false ∨ contentFault written i ≠ none →
        dirEntry t i = { dirEntry s i with programmed := (dirEntry t i).programmed } ∧
        (∀ row < 32, ((dirEntry t i).programmed.getLsbD row = true ↔
          (dirEntry s i).programmed.getLsbD row = true ∨ ∃ r ∈ rows, r.row = row)) ∧
        t = { s with ports := t.ports, store := { s.store with array := written, dir := t.store.dir, holder := none } }) ∧
      (slotCrcHolds written i = false → PortsAnswer s t p (refusedFrame 0x32 .badCheck) Attn.storeDone.bit) ∧
      (∀ offset, slotCrcHolds written i = true → contentFault written i = some offset →
        PortsAnswer s t p (responseFrame 0x82 (0x32 :: 0x0B :: leBytes 2 offset)) Attn.storeDone.bit)

/-- The completion of a lock of a VALID slot: the lock mark programmed and the slot LOCKED, or, on a failed CRC, the slot
DAMAGED, its entry invalidated, PROFILE_DAMAGED and BAD_CHECK (R154). -/
def Obligations.LockCompletion : Prop :=
  ∀ (s : State) (p : PortId) (i : SlotId), s.store.holder = some (.lock p i) → ArrayCanonical s →
    (dirEntry s i).state = .valid → s.store.fillWaiting = none → s.store.requestWaiting = none →
    ∃ t, exec .lockSlotCompletion s = .next t ∧ (∀ j : SlotId, j ≠ i → dirEntry t j = dirEntry s j) ∧
      (slotCrcHolds s.store.array i = true →
        slotByte t.store.array i 1 = slotByte s.store.array i 1 &&& 0xC3 ∧
        (∀ a, a ≠ slotBase i + 1 → Memory.read t.store.array a = Memory.read s.store.array a) ∧
        dirEntry t i = { dirEntry s i with state := .locked } ∧
        t = { s with ports := t.ports, store := { s.store with array := t.store.array, dir := t.store.dir, holder := none } } ∧
        PortsAnswer s t p (doneFrame 0x33 []) Attn.storeDone.bit) ∧
      (slotCrcHolds s.store.array i = false →
        (dirEntry t i).state = .damaged ∧ (dirEntry t i).generation = (dirEntry s i).generation ∧
        (∀ k : Fin 8, ∀ e, t.cache.entries[k] = some e → e.slot ≠ i) ∧
        t = { s with ports := t.ports, cache := t.cache, store := { s.store with dir := t.store.dir, holder := none } } ∧
        PortsAnswer s t p (refusedFrame 0x33 .badCheck) (Attn.profileDamaged.bit ||| Attn.storeDone.bit))

/-- The completion of a fill: where the CRC holds, the lowest invalid entry, or the NLU entry when all are valid, takes the slot
with its directory generation and its expanded profile, and the NLU pointer the next number; on a failed CRC of a VALID slot the
slot is DAMAGED with PROFILE_DAMAGED and the cache is unchanged. Queue empty, so the scheduler finds nothing to do (R75). -/
def Obligations.FillCompletion : Prop :=
  ∀ (s : State) (i : SlotId), s.store.holder = some (.fill i) → s.store.fillWaiting = none → s.store.requestWaiting = none →
    s.queue = [] → (dirEntry s i).state = .valid →
    ∃ t, exec .cacheFillCompletion s = .next t ∧
      (slotCrcHolds s.store.array i = true →
        ∃ v : Fin 8,
          ((s.cache.entries[v] = none ∧ ∀ k : Fin 8, k < v → (s.cache.entries[k]).isSome = true) ∨
            ((∀ k : Fin 8, (s.cache.entries[k]).isSome = true) ∧ v = s.cache.nlu)) ∧
          t.cache.entries[v] = some
            { slot := i, generation := (dirEntry s i).generation, profile := parseProfile s.store.array i } ∧
          (∀ k : Fin 8, k ≠ v → t.cache.entries[k] = s.cache.entries[k]) ∧ t.cache.nlu.val = (v.val + 1) % 8 ∧
          t = { s with ports := t.ports, cache := t.cache, store := { s.store with holder := none } } ∧ PortsRaise s t 0) ∧
      (slotCrcHolds s.store.array i = false →
        (dirEntry t i).state = .damaged ∧ (∀ j : SlotId, j ≠ i → dirEntry t j = dirEntry s j) ∧
        t = { s with ports := t.ports, store := { s.store with dir := t.store.dir, holder := none } } ∧
        PortsRaise s t Attn.profileDamaged.bit)

/-- INVALIDATE_CACHE: every entry invalid and the NLU pointer 0, answered DONE; with no unprinted record the scheduler then
finds nothing to do (R76, R77). -/
def Obligations.InvalidateCacheEmptiesIt : Prop :=
  ∀ (s : State) (p : PortId), Serves s p onlyProduction → (∀ r ∈ s.queue, r.unprinted = false) →
    ∃ t, exec (.invalidateCache p) s = .next t ∧ (∀ k : Fin 8, t.cache.entries[k] = none) ∧ t.cache.nlu = 0 ∧
      t = { s with ports := t.ports, cache := t.cache } ∧ PortsAnswer s t p (doneFrame 0x37 []) 0

/-! ## Clearing the line -/

/-- A line clear that passes R49, over a slot 0 that is LOCKED or VALID with its CRC: the record read is active, x_nip 0 and
x_print the span, printed records discarded and unprinted ones kept in their order with their corrections, the unfetched READY
ones due for refresh, line control, mark unit, pace with its pulse state, input filters, both tables under the new limits and
zone count, bias and governed indication as R50 and its owners give; everything else is kept but what the re-evaluation starts,
which starts nothing without unprinted records, and the refresh of one READY record alone in the queue whose slot hits; the
request is answered DONE without STORE_DONE, with LINE_RELEASED from HALTED and MEASURE_STALE where a zone falls stale (R23, R34,
R50, R79, R80, R96, R101, R121, R127, R132, R157, R159). -/
def Obligations.LineClearCompletes : Prop :=
  ∀ (s : State) (p : PortId) (span : Nat) (m : MachineRecord) (expired : Nat → Zone → Zone) (kept : Panel → Panel),
    s.store.holder = some (.lineClear p span) → s.store.fillWaiting = none → s.store.requestWaiting = none →
    (dirEntry s 0).state = .locked ∨ (dirEntry s 0).state = .valid ∧ slotCrcHolds s.store.array 0 = true →
    m = parseMachineRecord s.store.array 0 → s.inputs.breakn.level = true → s.inputs.stopinn.level = true →
    s.pos.keptCal.natAbs * m.cencRes / 100000 < m.vMin → s.pos.keptPrint.natAbs * m.pencRes / 100000 < m.vMin →
    m.stopLow < span → span < m.stopHigh →
    (∀ limit z, expired limit z = if z.isFresh = true ∧ limit < z.age then { z with standing := .stale s.now } else z) →
    (∀ r time due, r.state = .ready false time due → kept r = { r with state := .ready false time true }) →
    (∀ r, (∀ time due, r.state ≠ .ready false time due) → kept r = r) →
    ∃ t, exec .lineClearReadCompletion s = .next t ∧
      t.line =
        { state := .tracking
          hold :=
            { fillHigh := decide (m.holdHigh ≤ span)
              unready := unreadyHolds t
              stale := staleHolds t
              requested := s.line.hold.requested }
          stop := none
          active := some m
          recordPending := false } ∧
      t.pos = { s.pos with xPrint := span, remPrint := 0, xNip := 0, remNip := 0, lastFill := span, slip := 0 } ∧
      t.queue = (s.queue.filter (·.unprinted)).map kept ∧
      ((∀ r ∈ s.queue, r.unprinted = false) →
        t.engine = s.engine ∧ t.cache = s.cache ∧ t.store = { s.store with holder := none }) ∧
      (∀ r a time due k e, s.queue.filter (·.unprinted) = [r] → r.state = .ready false time due → r.normal = some a →
        s.engine = none → slotUsable s a.slot = true → (dirEntry s a.slot).channels = some a.coverage.length →
        lookup s.cache a.slot = some (k, e) → e.profile.channels.length = a.coverage.length →
        t.engine = some
          { panel := r.id
            snapshot :=
              { width := a.width, coverage := a.coverage, profile := e.profile, generation := e.generation, machine := m
                vCal := s.pos.vCal, zones := t.dose.zones.map fun z => (z.value, z.isFresh), trim := s.dose.trim
                bias := 0 } } ∧
        t.cache.nlu.val = (k.val + 1) % 8 ∧ t.store = { s.store with holder := none }) ∧
      t.mark = { partialWord := none, accepted := none, streak := 0, unmatched := none } ∧
      t.pace =
        { accumulator := 0
          threshold := some (paceThreshold m 1000000)
          source := none
          pulse :=
            match s.pace.pulse with
            | .idle => .idle
            | .high => .high
            | .highPending => .high
            | .gap => .gap
            | .gapPending => .gap
          total := 0
          panel := 0
          lost := 0 } ∧
      t.inputs =
        (if (s.line.active.map (·.filterInterval)).getD 1 = m.filterInterval then s.inputs
         else
          { pgate := { s.inputs.pgate with agree := 0 }
            breakn := { s.inputs.breakn with agree := 0 }
            stopinn := { s.inputs.stopinn with agree := 0 }
            mkclk := { s.inputs.mkclk with agree := 0 } }) ∧
      t.dose = { s.dose with zones := t.dose.zones } ∧
      (m.zoneCount = s.dose.zones.length →
        t.dose.zones = s.dose.zones.map (expired m.tempStaleMs) ∧ t.tension.lostTemperature = s.tension.lostTemperature) ∧
      (m.zoneCount ≠ s.dose.zones.length →
        t.dose.zones = List.replicate m.zoneCount { value := 0, age := 0, standing := .stale s.now } ∧
        t.tension.lostTemperature = false) ∧
      t.tension =
        { s.tension with
          paperIn := expired m.tensionStaleMs s.tension.paperIn
          fabricUnwind := expired m.tensionStaleMs s.tension.fabricUnwind
          calIn := expired m.tensionStaleMs s.tension.calIn
          fabricRewind := expired m.tensionStaleMs s.tension.fabricRewind
          governed := false
          bias := 0
          lostTemperature := t.tension.lostTemperature } ∧
      t = withScheduling
        { s with
          line := t.line, pos := t.pos, queue := t.queue, mark := t.mark, pace := t.pace, inputs := t.inputs, dose := t.dose
          tension := t.tension, ports := t.ports } t ∧
      PortsAnswer s t p (doneFrame 0x23 [])
        ((if s.line.state = .halted then Attn.lineReleased.bit else 0) |||
          (if (m.zoneCount ≠ s.dose.zones.length ∧ ∃ z ∈ s.dose.zones, z.isFresh = true) ∨
              (m.zoneCount = s.dose.zones.length ∧ ∃ z ∈ s.dose.zones, z.isFresh = true ∧ m.tempStaleMs < z.age) ∨
              (∃ z ∈ s.tension.zones, z.isFresh = true ∧ m.tensionStaleMs < z.age)
            then Attn.measureStale.bit else 0) ||| holdKind s t)

/-- A line clear judged at its read. Over a slot 0 that is LOCKED or VALID with its CRC: STILL_ACTIVE, WRONG_STATE for a moving web
and BAD_ARG for a span not strictly between the record's limits, in that order, leave line, web, queue and record as they were
(R49). Over a VALID slot 0 whose CRC fails: NO_MACHINE_RECORD with PROFILE_DAMAGED, the slot DAMAGED, the active copy and the
pending indication as they were (R49, R157). -/
def Obligations.LineClearRefusals : Prop :=
  ∀ (s : State) (p : PortId) (span : Nat) (m : MachineRecord), s.store.holder = some (.lineClear p span) →
    s.store.fillWaiting = none → s.store.requestWaiting = none → m = parseMachineRecord s.store.array 0 →
    ∃ t, exec .lineClearReadCompletion s = .next t ∧
      ((dirEntry s 0).state = .locked ∨ (dirEntry s 0).state = .valid ∧ slotCrcHolds s.store.array 0 = true →
        (s.inputs.breakn.level = false ∨ s.inputs.stopinn.level = false →
          t = { s with ports := t.ports, store := { s.store with holder := none } } ∧
          PortsAnswer s t p (refusedFrame 0x23 .stillActive) 0) ∧
        (s.inputs.breakn.level = true → s.inputs.stopinn.level = true →
          m.vMin ≤ s.pos.keptCal.natAbs * m.cencRes / 100000 ∨ m.vMin ≤ s.pos.keptPrint.natAbs * m.pencRes / 100000 →
          t = { s with ports := t.ports, store := { s.store with holder := none } } ∧
          PortsAnswer s t p (refusedFrame 0x23 .wrongState) 0) ∧
        (s.inputs.breakn.level = true → s.inputs.stopinn.level = true →
          s.pos.keptCal.natAbs * m.cencRes / 100000 < m.vMin → s.pos.keptPrint.natAbs * m.pencRes / 100000 < m.vMin →
          span ≤ m.stopLow ∨ m.stopHigh ≤ span →
          t = { s with ports := t.ports, store := { s.store with holder := none } } ∧
          PortsAnswer s t p (refusedFrame 0x23 .badArg) 0)) ∧
      ((dirEntry s 0).state = .valid → slotCrcHolds s.store.array 0 = false →
        dirEntry t 0 =
          { state := .damaged, generation := (dirEntry s 0).generation, channels := none, name := none, programmed := 0 } ∧
        (∀ j : SlotId, j ≠ 0 → dirEntry t j = dirEntry s j) ∧
        t = { s with ports := t.ports, store := { s.store with dir := t.store.dir, holder := none } } ∧
        PortsAnswer s t p (refusedFrame 0x23 .noMachineRecord) Attn.profileDamaged.bit)

/-! ## Requests of the calender and the drive -/

/-- REPORT_TEMPERATURES: each value read is stored, limited to 3,000, at age 0 and fresh, 65,535 leaves its zone; STALE and the
lost indication follow the new table; a list of another length is BAD_ARG, and without a machine record it is
NO_MACHINE_RECORD (R99, R131, R132). -/
def Obligations.TemperatureReports : Prop :=
  ∀ (s : State) (p : PortId) (values : List (BitVec 16)), Serves s p onlyCalender →
    ∃ t, exec (.reportTemperatures p values) s = .next t ∧
      (∀ m, s.line.active = some m → values.length = m.zoneCount → s.dose.zones.length = m.zoneCount →
        t.dose.zones.length = m.zoneCount ∧
        (∀ (i : Nat) (z : Zone) (v : BitVec 16), s.dose.zones[i]? = some z → values[i]? = some v →
          t.dose.zones[i]? = some
            (if v.toNat = 65535 then z else { value := min v.toNat 3000, age := 0, standing := .fresh })) ∧
        t.line = { s.line with hold := { s.line.hold with stale := staleHolds t } } ∧
        t.tension =
          { s.tension with lostTemperature := s.tension.lostTemperature && t.dose.zones.any fun z => !z.isFresh } ∧
        t = { s with ports := t.ports, dose := { s.dose with zones := t.dose.zones }, line := t.line, tension := t.tension } ∧
        PortsAnswer s t p
          (responseFrame (if ∃ v ∈ values, 3000 < v.toNat ∧ v.toNat ≠ 65535 then 0x81 else 0x80) [0x50]) (holdKind s t)) ∧
      (∀ m, s.line.active = some m → values.length ≠ m.zoneCount →
        t = { s with ports := t.ports } ∧ PortsAnswer s t p (refusedFrame 0x50 .badArg) 0) ∧
      (s.line.active = none → t = { s with ports := t.ports } ∧ PortsAnswer s t p (refusedFrame 0x50 .noMachineRecord) 0)

/-- READ_HEAT_ADVICE recomputes the advice and answers it: absent without a governing record; else, for the newest TRANSFERRING
record with a correction, or without one the oldest IN_TRANSIT record, D_target is its D_ref taken by (1,000 − trim) / 1,000,
rounded, and the required rate D_target × 1,000 over the dwell, rounded; at or below the lowest rate it advises T0 as LOW, at or
above the highest the table's top as HIGH, and between them the rate table run backwards as WITHIN. HEAT_ADVICE_CHANGED is raised,
with the new advice as the reference, at a first advice, a vanished one, a temperature 1.0 °C or more from the reference and a
changed indication, and in no other case (R113 to R116). That the advice shares one presence bit is the model's choice of
notes/assumptions/12.md. -/
def Obligations.HeatAdviceRead : Prop :=
  ∀ (s : State) (p : PortId), Serves s p onlyCalender →
    ∃ t raised, exec (.readHeatAdvice p) s = .next t ∧ t = { s with ports := t.ports, dose := t.dose } ∧
      PortsAnswer s t p (doneFrame 0x51 (presence 2 [t.dose.advice.isSome] ++ advicePayload t.dose.advice)) raised ∧
      AdviceRecomputed s s.pos.vCal t.dose raised

/-- REPORT_TENSIONS: the five values taken (65,535 is no reading), the tension excursion of a CAL_IN reading flagged on the
TRANSFERRING records, the bias moved by a sixteenth of the difference while CAL_IN is fresh, and STALE and the lost
indication after the new table (R120, R128, R129, R131, R132). -/
def Obligations.TensionReports : Prop :=
  ∀ (s : State) (p : PortId) (paperIn fabricUnwind calIn fabricRewind diameter : BitVec 16) (m : MachineRecord)
    (taken : Zone → BitVec 16 → Zone), Serves s p onlyDrive → s.line.active = some m → m.coreDiameter ≤ m.maxDiameter →
    (∀ z v, taken z v = if v.toNat = 65535 then z else { value := min v.toNat 5000, age := 0, standing := .fresh }) →
    ∃ t, exec (.reportTensions p paperIn fabricUnwind calIn fabricRewind diameter) s = .next t ∧
      t.tension.paperIn = taken s.tension.paperIn paperIn ∧
      t.tension.fabricUnwind = taken s.tension.fabricUnwind fabricUnwind ∧
      t.tension.calIn = taken s.tension.calIn calIn ∧
      t.tension.fabricRewind = taken s.tension.fabricRewind fabricRewind ∧
      t.tension.diameter = (if diameter.toNat = 65535 then s.tension.diameter
        else max m.coreDiameter (min m.maxDiameter diameter.toNat)) ∧
      t.tension.bias = (if t.tension.calIn.standing = .fresh then
          max (-200) (min 200 (s.tension.bias +
            roundInt (100 * (t.tension.calIn.value : Int) - s.tension.setpoints.calIn - 100 * s.tension.bias) 1600))
        else s.tension.bias) ∧
      t.queue = s.queue.map (fun r =>
        if r.isTransferring = true ∧ calIn.toNat ≠ 65535 ∧
            100 * m.excursionBand < (100 * (t.tension.calIn.value : Int) - s.tension.setpoints.calIn).natAbs
        then r.flag .tensionExcursion else r) ∧
      t.tension.lostTension = (s.tension.lostTension && t.tension.zones.any fun z => !z.isFresh) ∧
      t.tension =
        { s.tension with
          paperIn := t.tension.paperIn
          fabricUnwind := t.tension.fabricUnwind
          calIn := t.tension.calIn
          fabricRewind := t.tension.fabricRewind
          diameter := t.tension.diameter
          bias := t.tension.bias
          lostTension := t.tension.lostTension } ∧
      t.line = { s.line with hold := { s.line.hold with stale := staleHolds t } } ∧
      t = { s with ports := t.ports, tension := t.tension, queue := t.queue, line := t.line } ∧
      PortsAnswer s t p
        (responseFrame
          (if (∃ v ∈ [paperIn, fabricUnwind, calIn, fabricRewind], 5000 < v.toNat ∧ v.toNat ≠ 65535) ∨
              diameter.toNat ≠ 65535 ∧ (diameter.toNat < m.coreDiameter ∨ m.maxDiameter < diameter.toNat)
            then 0x81 else 0x80) [0x60]) (holdKind s t)

/-! ## Transactions on a port -/

/-- A transaction of idle bytes, or one on a port that shows BUSY, shifts out the status byte, the held frame and zeros and
changes nothing else; a malformed frame (too long, cut short, or with a bad CRC-8) is LINK_ERROR (R187 to R190, Table 41). A whole
frame that R192 turns away is REFUSED, and nothing but the response buffer changes: BAD_REQUEST for a code that is none of Table
43, whatever the role; NOT_PERMITTED for a role that is not among the code's, whatever the payload; BAD_ARG for a payload without
the code's form. The bits shifted out are the model's record of the pin (notes/assumptions/3.md). -/
def Obligations.TransactionsWithoutARequest : Prop :=
  ∀ (s : State) (p : PortId) (mosi : List Bool), s.live = true →
    ∃ t, exec (.spiTransaction p mosi) s = .next t ∧
      ((∀ b ∈ mosi, b = false) ∨ s.ports[p].executing = true ∨ s.resetUnit.phase = .scanning →
        ShiftedOut s t p mosi.length ∧ t = { s with ports := t.ports } ∧
        ∀ q : PortId, t.ports[q] = { s.ports[q] with miso := if q = p then t.ports[p].miso else s.ports[q].miso }) ∧
      (∀ (len : Byte) (rest : List Byte), mosi = (len :: rest).flatMap byteBits → len ≠ 0 →
        s.running = true → s.ports[p].executing = false →
        62 < len.toNat ∨ rest.length ≤ len.toNat ∨
          rest[len.toNat]? ≠ some (crc8 (len :: rest.take len.toNat)) →
        ShiftedOut s t p mosi.length ∧ t = { s with ports := t.ports } ∧
        ∀ q : PortId, t.ports[q] =
          { s.ports[q] with
            miso := if q = p then t.ports[p].miso else s.ports[q].miso
            response := if q = p then some (responseFrame 0x83 []) else s.ports[q].response }) ∧
      (∀ (code : Byte) (payload : List Byte) (reason : Reason), mosi = requestBits code payload → payload.length ≤ 61 →
        s.running = true → s.ports[p].executing = false →
        (reason = .badRequest ∧ ∀ row ∈ requestRows, row.1 ≠ code) ∨
          (reason = .notPermitted ∧ ∃ row ∈ requestRows, row.1 = code ∧ s.ports[p].role ∉ row.2.1) ∨
          (reason = .badArg ∧
            ∃ row ∈ requestRows, row.1 = code ∧ s.ports[p].role ∈ row.2.1 ∧ ¬FitsRow code row.2.2 payload) →
        ShiftedOut s t p mosi.length ∧ t = { s with ports := t.ports } ∧
        ∀ q : PortId, t.ports[q] =
          { s.ports[q] with
            miso := if q = p then t.ports[p].miso else s.ports[q].miso
            response := if q = p then some (refusedFrame code reason) else s.ports[q].response })

/-- The frame of a request, laid out by Table 43, on an idle port of a running part is that request's row of the table: no
byte of any request's encoding is dropped or read twice (R187, R189, R190, R192, R194, Tables 42 and 43). -/
def Obligations.RequestFramesReachTheirCommands : Prop :=
  ∀ (s : State) (c : Instr) (p : PortId) (code : Byte) (payload : List Byte), c.wellFormed = true →
    requestBytes c = some (p, code, payload) → s.running = true → s.ports[p].executing = false →
    ∃ t u, exec (.spiTransaction p (requestBits code payload)) s = .next t ∧
      ShiftedOut s u p (requestBits code payload).length ∧ u = { s with ports := u.ports } ∧
      (∀ q : PortId, u.ports[q] = { s.ports[q] with miso := if q = p then u.ports[p].miso else s.ports[q].miso }) ∧
      exec c u = .next t

/-! ## The web: counts, edges and marks -/

/-- A PENC count on a line that is not UNSET: the resolution joins the remainder and carries whole WU into x_print, up to the
coordinate limit, where COORD_LIMIT is raised, or is borrowed back, down to the print floor; a count beyond either is discarded
but for the speed window; the pace generator takes every accepted count; crossings up to hold_high and stop_high act at once
(R26, R27, R32, R33, R91, R92). -/
def Obligations.PrintCounts : Prop :=
  ∀ (s : State) (m : MachineRecord) (th : Nat), s.running = true → s.line.active = some m → s.line.state ≠ .unset →
    s.pace.threshold = some th →
    ∃ t u, exec (.pencCount .forward) s = .next t ∧ exec (.pencCount .reverse) s = .next u ∧
      (s.pos.remPrint + m.pencRes < 100000 → s.pos.xPrint ≤ 4294967295 →
        t =
          { s with
            pos := { s.pos with remPrint := s.pos.remPrint + m.pencRes, netPrint := s.pos.netPrint + 1 }
            pace := paceForward s.pace th m.pencRes }) ∧
      (∀ carry rem, s.pos.remPrint + m.pencRes = carry * 100000 + rem → rem < 100000 → 1 ≤ carry →
        (4294967295 < s.pos.xPrint + carry → t = { s with pos := { s.pos with netPrint := s.pos.netPrint + 1 } }) ∧
        (s.pos.xPrint + carry < 4294967295 → NoCrossing m s.pos.lastFill (s.pos.xPrint + carry - s.pos.xNip) →
          t =
            { s with
              pos :=
                { s.pos with
                  xPrint := s.pos.xPrint + carry
                  remPrint := rem
                  lastFill := s.pos.xPrint + carry - s.pos.xNip
                  netPrint := s.pos.netPrint + 1 }
              pace := paceForward s.pace th m.pencRes }) ∧
        (s.pos.xPrint + carry = 4294967295 → NoCrossing m s.pos.lastFill (4294967295 - s.pos.xNip) →
          t.pos =
            { s.pos with
              xPrint := 4294967295
              remPrint := rem
              lastFill := 4294967295 - s.pos.xNip
              netPrint := s.pos.netPrint + 1 } ∧
          t.pace = paceForward s.pace th m.pencRes ∧ CauseTaken { s with pos := t.pos } t .coordLimit ∧
          t = { s with pos := t.pos, pace := t.pace, line := t.line, queue := t.queue, ports := t.ports } ∧
          PortsRaise s t (causeKinds s t)) ∧
        (s.pos.xPrint + carry < 4294967295 → s.pos.lastFill < m.holdHigh →
          m.holdHigh ≤ s.pos.xPrint + carry - s.pos.xNip → t.line.hold.fillHigh = true) ∧
        (s.pos.xPrint + carry < 4294967295 → s.line.state = .tracking → s.pos.lastFill < m.stopHigh →
          m.stopHigh ≤ s.pos.xPrint + carry - s.pos.xNip →
          t.line.state = .halted ∧ t.line.stop.map (·.firstCause) = some .fillHighLimit)) ∧
      (m.pencRes ≤ s.pos.remPrint →
        u =
          { s with
            pos := { s.pos with remPrint := s.pos.remPrint - m.pencRes, netPrint := s.pos.netPrint - 1 }
            pace := { s.pace with accumulator := s.pace.accumulator - m.pencRes } }) ∧
      (∀ borrow rem, m.pencRes + rem = borrow * 100000 + s.pos.remPrint → rem < 100000 → 1 ≤ borrow →
        (s.pos.xPrint < printFloor s + borrow → u = { s with pos := { s.pos with netPrint := s.pos.netPrint - 1 } }) ∧
        (printFloor s + borrow ≤ s.pos.xPrint → NoCrossing m s.pos.lastFill (s.pos.xPrint - borrow - s.pos.xNip) →
          u =
            { s with
              pos :=
                { s.pos with
                  xPrint := s.pos.xPrint - borrow
                  remPrint := rem
                  lastFill := s.pos.xPrint - borrow - s.pos.xNip
                  netPrint := s.pos.netPrint - 1 }
              pace := { s.pace with accumulator := s.pace.accumulator - m.pencRes } }))

/-- A CENC count. Forward, on a line without records, it carries into x_nip, and a carry beyond x_print sets x_nip to x_print with
remainder 0; the crossings down to stop_low, warn_low and resume act at once, with FILL_LOW_LIMIT, FILL_WARNING and the end of
FILL_HIGH. In reverse, whatever the queue holds, it borrows down to the nip floor, the lead of the newest TRANSFERRING record or 0
without one, and a borrow below it is discarded but for the speed window; a mark whose window x_nip has passed is missed (R46). In
UNSET neither coordinate moves (R28, R29, R32, R33). -/
def Obligations.NipCounts : Prop :=
  (∀ (s : State) (m : MachineRecord), s.running = true → s.line.active = some m → s.queue = [] →
    ∃ t, exec (.cencCount .forward) s = .next t ∧
      (s.line.state ≠ .unset → s.pos.remNip + m.cencRes < 100000 →
        t = { s with pos := { s.pos with remNip := s.pos.remNip + m.cencRes, netCal := s.pos.netCal + 1 } }) ∧
      (s.line.state ≠ .unset → 100000 ≤ s.pos.remNip + m.cencRes → s.pos.xNip = s.pos.xPrint →
        t = { s with pos := { s.pos with remNip := 0, netCal := s.pos.netCal + 1 } }) ∧
      (∀ carry rem, s.line.state ≠ .unset → s.pos.remNip + m.cencRes = carry * 100000 + rem → rem < 100000 → 1 ≤ carry →
        s.pos.xNip + carry ≤ s.pos.xPrint → NoCrossing m s.pos.lastFill (s.pos.xPrint - (s.pos.xNip + carry)) →
        t =
          { s with
            pos :=
              { s.pos with
                xNip := s.pos.xNip + carry
                remNip := rem
                lastFill := s.pos.xPrint - (s.pos.xNip + carry)
                netCal := s.pos.netCal + 1 } }) ∧
      (∀ carry rem x rest new, s.line.state ≠ .unset → s.pos.remNip + m.cencRes = carry * 100000 + rem → rem < 100000 →
        1 ≤ carry → s.pos.xNip < s.pos.xPrint →
        (s.pos.xNip + carry ≤ s.pos.xPrint ∧ x = s.pos.xNip + carry ∧ rest = rem) ∨
          (s.pos.xPrint < s.pos.xNip + carry ∧ x = s.pos.xPrint ∧ rest = 0) →
        new = s.pos.xPrint - x → new ≤ s.pos.lastFill →
        t.pos = { s.pos with xNip := x, remNip := rest, lastFill := new, netCal := s.pos.netCal + 1 } ∧
        t.line.hold =
          { s.line.hold with
            fillHigh := s.line.hold.fillHigh && !decide (m.resume < s.pos.lastFill ∧ new ≤ m.resume) } ∧
        (m.stopLow < s.pos.lastFill → new ≤ m.stopLow →
          CauseTaken { s with pos := t.pos, line := { s.line with hold := t.line.hold } } t .fillLowLimit) ∧
        (s.pos.lastFill ≤ m.stopLow ∨ m.stopLow < new → t.line = { s.line with hold := t.line.hold }) ∧
        t = { s with pos := t.pos, line := t.line, ports := t.ports } ∧
        PortsRaise s t
          ((if m.warnLow < s.pos.lastFill ∧ new ≤ m.warnLow then Attn.fillWarning.bit else 0) |||
            (if m.stopLow < s.pos.lastFill ∧ new ≤ m.stopLow ∧ s.line.state = .tracking then Attn.lineHalted.bit else 0) |||
            holdKind s t))) ∧
  (∀ (s : State) (m : MachineRecord) (floor : Nat), s.running = true → s.line.active = some m →
    ((∀ r ∈ s.queue, r.state ≠ .transferring) ∧ floor = 0) ∨
      (∃ before r after, s.queue = before ++ r :: after ∧ r.state = .transferring ∧ r.lead = some floor ∧
        ∀ q ∈ after, q.state ≠ .transferring) →
    ∃ t u, exec (.cencCount .forward) s = .next t ∧ exec (.cencCount .reverse) s = .next u ∧
      (s.line.state = .unset →
        t = { s with pos := { s.pos with netCal := s.pos.netCal + 1 } } ∧
        u = { s with pos := { s.pos with netCal := s.pos.netCal - 1 } }) ∧
      (s.line.state ≠ .unset → m.cencRes ≤ s.pos.remNip →
        u = { s with pos := { s.pos with remNip := s.pos.remNip - m.cencRes, netCal := s.pos.netCal - 1 } }) ∧
      (∀ borrow rem, s.line.state ≠ .unset → m.cencRes + rem = borrow * 100000 + s.pos.remNip → rem < 100000 → 1 ≤ borrow →
        (s.pos.xNip < floor + borrow → u = { s with pos := { s.pos with netCal := s.pos.netCal - 1 } }) ∧
        (∀ x, x + borrow = s.pos.xNip → floor ≤ x → NoCrossing m s.pos.lastFill (s.pos.xPrint - x) →
          (∀ q ∈ s.queue, q.state = .inTransit ∨ q.state = .printing → ∃ l, q.lead = some l ∧ x < l) →
          (∀ q ∈ s.queue, q.state = .transferring → ∀ trail, q.trail = some trail → x < trail + 10 * m.arcLen) →
          u =
            { s with
              pos := { s.pos with xNip := x, remNip := rem, lastFill := s.pos.xPrint - x, netCal := s.pos.netCal - 1 }
              queue := s.queue.map fun q =>
                if q.mark = some .noneYet ∧ ∃ l, q.lead = some l ∧ (l : Int) - m.markLead + m.syncLimit ≤ x then
                  { q with mark := some .missed, flags := addFlag q.flags .markMissed }
                else q })))

/-- A calender count with one printed record, no threshold crossed. Past its mark window a mark still "none yet" is missed (R46).
At its lead the record becomes TRANSFERRING with its three probes (R15); with its trail still open, with its lead probe and
OVERRUN, and NIP_OVERRUN is raised (R16). A full arc past the trail it completes (R18): OFF_DOSE and the trim update by its actual
dose ratio (R110, R111), its outcome (R20) and its transfer record (R19, R109), which the filter passes or drops (R174), and which
is appended with RECORD_WATERMARK at the watermark, dropped with RECORD_LOST on a full queue in BLOCKING, or replaces the oldest
in OVERWRITE (R175, R176). -/
def Obligations.ArrivalAndCompletion : Prop :=
  ∀ (s : State) (m : MachineRecord) (r : Panel) (lead carry rem x : Nat) (passed : Panel → Panel), s.running = true →
    s.line.active = some m → s.line.state ≠ .unset → s.queue = [r] → r.lead = some lead →
    s.pos.remNip + m.cencRes = carry * 100000 + rem → rem < 100000 → 1 ≤ carry → x = s.pos.xNip + carry →
    x ≤ s.pos.xPrint → NoCrossing m s.pos.lastFill (s.pos.xPrint - x) →
    (∀ q, passed q =
      if q.mark = some .noneYet ∧ (lead : Int) - m.markLead + m.syncLimit ≤ x then
        { q with mark := some .missed, flags := addFlag q.flags .markMissed }
      else q) →
    ∃ t, exec (.cencCount .forward) s = .next t ∧
      t.pos =
        { s.pos with
          xNip := x
          remNip := rem
          lastFill := s.pos.xPrint - x
          netCal := s.pos.netCal + 1 } ∧
      (r.state = .inTransit ∨ r.state = .printing → x < lead → t = { s with pos := t.pos, queue := [passed r] }) ∧
      (r.state = .printing → r.trail = none → lead ≤ x →
        CauseTaken
          { s with
            pos := t.pos
            queue :=
              [passed { r with
                state := .transferring
                probes := [{ position := lead, accumulator := 0, inArc := false }]
                flags := addFlag r.flags .overrun }] } t .nipOverrun ∧
        t = { s with pos := t.pos, line := t.line, queue := t.queue, ports := t.ports } ∧ PortsRaise s t (causeKinds s t)) ∧
      (∀ trail, r.state = .inTransit → r.trail = some trail → lead ≤ x → x < trail + 10 * m.arcLen →
        t =
          { s with
            pos := t.pos
            queue :=
              [passed { r with
                state := .transferring
                probes :=
                  [{ position := lead, accumulator := 0, inArc := false },
                    { position := lead + (trail - lead) / 2, accumulator := 0, inArc := false },
                    { position := trail, accumulator := 0, inArc := false }] }] }) ∧
      (r.state = .transferring → (∀ trail, r.trail = some trail → x < trail + 10 * m.arcLen) →
        t = { s with pos := t.pos, queue := [passed r] }) ∧
      (∀ trail, r.state = .transferring → r.trail = some trail → trail + 10 * m.arcLen ≤ x →
        ∃ raised,
          t =
            { s with
              pos := t.pos
              queue := []
              dose := { s.dose with trim := t.dose.trim }
              records := t.records
              ports := t.ports } ∧
          Completes s t r lead trail raised ∧ PortsRaise s t raised)

/-- The events of one unit: a fabric count enters its speed window alone (R25, R30); a transition error is counted up to
65,535 (R25); a microsecond of the PACE output moves its pulse state (R93); a released stop input raises nothing (R36); a
mark bit short of the sixteenth is kept, with the stamp of the first (R41); a partial word times out with MARK_FAULT
(R41). -/
def Obligations.PlainInputs : Prop :=
  ∀ s : State,
    (s.running = true →
      exec (.fencCount .forward) s = .next { s with pos := { s.pos with netFab := s.pos.netFab + 1 } } ∧
      exec (.fencCount .reverse) s = .next { s with pos := { s.pos with netFab := s.pos.netFab - 1 } }) ∧
    (s.live = true →
      (∃ t, exec (.quadratureTransitionError .penc) s = .next t ∧ t = { s with pos := { s.pos with errPrint := t.pos.errPrint } } ∧
        (s.pos.errPrint ≤ 65535 → t.pos.errPrint = min 65535 (s.pos.errPrint + 1))) ∧
      (∃ t, exec (.quadratureTransitionError .cenc) s = .next t ∧ t = { s with pos := { s.pos with errCal := t.pos.errCal } } ∧
        (s.pos.errCal ≤ 65535 → t.pos.errCal = min 65535 (s.pos.errCal + 1))) ∧
      (∃ t, exec (.quadratureTransitionError .fenc) s = .next t ∧ t = { s with pos := { s.pos with errFab := t.pos.errFab } } ∧
        (s.pos.errFab ≤ 65535 → t.pos.errFab = min 65535 (s.pos.errFab + 1)))) ∧
    (∃ t, exec .pacePulseTimer s = .next t ∧ t = { s with pace := { s.pace with pulse := t.pace.pulse } } ∧
      (s.pace.pulse = .idle → t.pace.pulse = .idle) ∧ (s.pace.pulse = .high → t.pace.pulse = .gap) ∧
      (s.pace.pulse = .highPending → t.pace.pulse = .gapPending) ∧ (s.pace.pulse = .gap → t.pace.pulse = .idle) ∧
      (s.pace.pulse = .gapPending → t.pace.pulse = .high)) ∧
    (s.live = true →
      exec .breaknRelease s = .next { s with inputs := { s.inputs with breakn := { level := true, agree := 0 } } } ∧
      exec .stopinnRelease s = .next { s with inputs := { s.inputs with stopinn := { level := true, agree := 0 } } }) ∧
    (∀ bit, s.live = true → s.mark.partialWord = none →
      exec (.mkclkRisingEdge bit) s = .next
        { s with
          inputs := { s.inputs with mkclk := { level := true, agree := 0 } }
          mark := { s.mark with partialWord := some { stamp := s.pos.xNip, bits := [bit] } } }) ∧
    (∀ bit w, s.live = true → s.mark.partialWord = some w → w.bits.length < 15 →
      exec (.mkclkRisingEdge bit) s = .next
        { s with
          inputs := { s.inputs with mkclk := { level := true, agree := 0 } }
          mark := { s.mark with partialWord := some { stamp := w.stamp, bits := w.bits ++ [bit] } } }) ∧
    (∀ w, s.mark.partialWord = some w →
      ∃ t, exec .markWordTimeout s = .next t ∧ t = { s with ports := t.ports, mark := { s.mark with partialWord := none } } ∧
        PortsRaise s t Attn.markFault.bit)

/-- A gate rising edge: ignored with GATE_FAULT in UNSET, in reverse print motion, or with x_print not past the newest lead
(R14, R37, R38). Else, behind whatever printed records the queue holds, an open trail closes at x_print with GATE_FAULT and
without a length comparison: a PRINTING record is IN_TRANSIT, a TRANSFERRING one gains its middle and trail probes (R10, R16).
Then the first unprinted record is started at x_print with HELD_START and UNCORRECTED where they apply (R11), or, without one, an
anonymous record with GATE_FAULT attention (R12), the pace at its scale (R94); at a lead equal to x_nip it is TRANSFERRING at once
with OVERRUN and NIP_OVERRUN (R16). With 64 records, none unprinted, no record starts, the pace is nominal and TRACKING_LOST is
raised (R12, R94). The accepted pin level is the active one (R35). The records kept on the web are in R14's order, each
TRANSFERRING exactly when x_nip is at its lead or past it (R15), and none is left to complete (R18). -/
def Obligations.GateRisingEdge : Prop :=
  ∀ s : State, s.live = true →
    ∃ t, exec .pgateRisingEdge s = .next t ∧ t.inputs = { s.inputs with pgate := { level := gateActiveLevel s, agree := 0 } } ∧
      (s.line.state = .unset ∨ s.pos.vPrint.reverse = true ∨
          (∃ r, newestPrinted s = some r ∧ s.pos.xPrint ≤ r.lead.getD 0) →
        t = { s with inputs := t.inputs, ports := t.ports } ∧ PortsRaise s t Attn.gateFault.bit) ∧
      (∀ (m : MachineRecord) (before opened kept rest : List Panel), s.line.active = some m → s.line.state ≠ .unset →
        s.pos.vPrint.reverse = false → s.pos.xNip ≤ s.pos.xPrint → 1 ≤ m.arcLen → s.queue = before ++ opened ++ rest →
        (∀ q ∈ before, q.printed = true ∧ q.openTrail = false ∧
          ∀ trail, q.state = .transferring → q.trail = some trail → s.pos.xNip < trail + 10 * m.arcLen) →
        opened.length ≤ 1 → (∀ q ∈ opened, q.openTrail = true) →
        (∀ q ∈ before ++ opened, ∃ lead, q.lead = some lead ∧ lead < s.pos.xPrint ∧
          (q.state = .transferring ∨ s.pos.xNip < lead)) →
        (∀ q ∈ rest, q.unprinted = true) →
        kept = before ++ opened.map (fun q => { trailClosed q s.pos.xPrint with flags := addFlag q.flags .gateFault }) →
        (∀ r unprinted, rest = r :: unprinted →
          StartsRecord s t m kept
            { r with
              state := .printing
              lead := some s.pos.xPrint
              trail := none
              mark := if r.normal = none then none else some .noneYet
              flags :=
                r.flags ||| (if holdAsserted s = true then Flag.heldStart.bit else 0) |||
                  (if r.isReady = true then 0 else Flag.uncorrected.bit) } unprinted 0 ∧
          t = withScheduling
            { s with inputs := t.inputs, queue := t.queue, pace := t.pace, line := t.line, ports := t.ports } t) ∧
        (rest = [] → s.queue.length < 64 →
          StartsRecord s t m kept
            { id := nextId s
              normal := none
              state := .printing
              lead := some s.pos.xPrint
              trail := none
              mark := none
              probes := []
              correction := none
              flags := 0 } [] Attn.gateFault.bit ∧
          t =
            { s with
              inputs := t.inputs, queue := t.queue, idCounter := idAfter (nextId s), pace := t.pace, line := t.line
              ports := t.ports }) ∧
        (rest = [] → 64 ≤ s.queue.length →
          t.pace = { s.pace with panel := 0, threshold := some (paceThreshold m 1000000), source := none } ∧
          t.line.hold = { s.line.hold with unready := false } ∧
          CauseTaken { s with line := { s.line with hold := t.line.hold }, queue := kept } t .trackingLost ∧
          t = { s with inputs := t.inputs, queue := t.queue, pace := t.pace, line := t.line, ports := t.ports } ∧
          PortsRaise s t (causeKinds s t)))

/-- A gate falling edge: with no open trail, GATE_FAULT and nothing else (R37, R39). With one, wherever its record stands in the
queue, the trail closes at x_print: a PRINTING record is IN_TRANSIT, a TRANSFERRING one stays so and gains its middle and trail
probes (R13, R16), with LENGTH_MISMATCH exactly when the measured length of a NORMAL record differs from the announced one by more
than the tolerance, and the pace returns to nominal (R13, R95). Where x_nip already lies a full arc past the new trail, the
TRANSFERRING record completes in the same event (R18; x_nip at most x_print rules it out but for an arc of 0). The accepted pin level is the inactive one (R35). -/
def Obligations.GateFallingEdge : Prop :=
  ∀ s : State, s.live = true →
    ∃ t, exec .pgateFallingEdge s = .next t ∧
      t.inputs = { s.inputs with pgate := { level := !gateActiveLevel s, agree := 0 } } ∧
      ((∀ r ∈ s.queue, r.openTrail = false) →
        t = { s with inputs := t.inputs, ports := t.ports } ∧ PortsRaise s t Attn.gateFault.bit) ∧
      (∀ (m : MachineRecord) (before : List Panel) (r closed : Panel) (rest : List Panel) (lead : Nat),
        s.line.active = some m → s.line.state ≠ .unset → s.queue = before ++ r :: rest → r.openTrail = true →
        r.lead = some lead →
        (∀ q ∈ before ++ rest, q.openTrail = false ∧
          ∀ trail, q.state = .transferring → q.trail = some trail → s.pos.xNip < trail + 10 * m.arcLen) →
        closed =
          { trailClosed r s.pos.xPrint with
            flags :=
              match r.normal with
              | some a =>
                if m.lengthTolerance < ((s.pos.xPrint : Int) - lead - a.length).natAbs
                then addFlag r.flags .lengthMismatch else r.flags
              | none => r.flags } →
        t.pace = { s.pace with threshold := some (paceThreshold m 1000000), source := none } ∧
        (r.state ≠ .transferring ∨ s.pos.xNip < s.pos.xPrint + 10 * m.arcLen →
          t = { s with inputs := t.inputs, queue := before ++ closed :: rest, pace := t.pace }) ∧
        (r.state = .transferring → s.pos.xPrint + 10 * m.arcLen ≤ s.pos.xNip →
          ∃ raised,
            t =
              { s with
                inputs := t.inputs
                queue := before ++ rest
                pace := t.pace
                dose := { s.dose with trim := t.dose.trim }
                records := t.records
                ports := t.ports } ∧
            Completes s t closed lead s.pos.xPrint raised ∧ PortsRaise s t raised))

/-- The assertion of BREAKn or STOPINn raises BREAK or EXTERNAL: a latch in TRACKING, a further cause in HALTED, nothing in
UNSET; the accepted level is low (R36, R160 to R162, R170). -/
def Obligations.StopInputs : Prop :=
  ∀ s : State, s.live = true →
    (∃ t, exec .breaknAssertion s = .next t ∧ t.inputs = { s.inputs with breakn := { level := false, agree := 0 } } ∧
      CauseTaken s t .break ∧ t = { s with inputs := t.inputs, line := t.line, queue := t.queue, ports := t.ports } ∧
      PortsRaise s t (causeKinds s t)) ∧
    (∃ t, exec .stopinnAssertion s = .next t ∧ t.inputs = { s.inputs with stopinn := { level := false, agree := 0 } } ∧
      CauseTaken s t .external ∧ t = { s with inputs := t.inputs, line := t.line, queue := t.queue, ports := t.ports } ∧
      PortsRaise s t (causeKinds s t))

/-- The sixteenth bit of a mark word. In UNSET and below the blanking end the word is discarded, and a bad check raises
MARK_FAULT (R42). A match within the sync limit is seen: the streak is 0, the stamp accepted with its blanking end, x_nip
corrected by the error, held between the newest TRANSFERRING lead and x_print, and the applied value stored (R44); a match beyond
it is rejected, and a third in a row raises REGISTRATION_LOST (R45). The candidates are the first four printed NORMAL records whose
mark is "none yet"; the first of them that the code names is matched and those before it are missed, while ANONYMOUS records and
records whose mark is seen, missed or rejected are passed over, uncounted and unchanged (R43); the correction makes a record whose
lead it passes TRANSFERRING and a mark whose window it passes missed (R40, R46). Where the code names no candidate the word is
kept, MARK_FAULT raised, and REGISTRATION_LOST under policy HALT (R43). MARK_WORD is the MKCLK edge that completes the word
(notes/assumptions/17.md); a correction that applies 0 is a coordinate change by the model's choice of notes/assumptions/38.md. -/
def Obligations.MarkWords : Prop :=
  ∀ (s : State) (bit : Bool) (w : PartialMark) (code : Nat) (good : Prop) (miss : Panel → Panel) (candidate : Panel → Bool),
    s.live = true →
    s.mark.partialWord = some w → w.bits.length = 15 → code = bitsValue (w.bits.take 12) →
    (good ↔ bitsValue ((w.bits ++ [bit]).drop 12) = expectedCheck code) →
    (∀ q, miss q = { q with mark := some .missed, flags := addFlag q.flags .markMissed }) →
    (∀ q, candidate q = true ↔ q.printed = true ∧ q.normal.isSome = true ∧ q.mark = some .noneYet) →
    ∃ t, exec (.markWord bit) s = .next t ∧ exec (.mkclkRisingEdge bit) s = .next t ∧ t.mark.partialWord = none ∧
      t.inputs = { s.inputs with mkclk := { level := true, agree := 0 } } ∧
      (s.line.state = .unset →
        t = { s with inputs := t.inputs, mark := { s.mark with partialWord := none } }) ∧
      (∀ m, s.line.active = some m → s.line.state ≠ .unset → ¬good →
        t = { s with inputs := t.inputs, mark := { s.mark with partialWord := none }, ports := t.ports } ∧
        PortsRaise s t Attn.markFault.bit) ∧
      (∀ m, s.line.active = some m → s.line.state ≠ .unset → good →
        (∀ a, s.mark.accepted = some a → w.stamp < a.blankingEnd →
          t = { s with inputs := t.inputs, mark := { s.mark with partialWord := none } }) ∧
        ((∀ a, s.mark.accepted = some a → a.blankingEnd ≤ w.stamp) →
          ((∀ q ∈ (s.queue.filter candidate).take 4, q.id % 4096 ≠ code) →
            t.mark = { s.mark with partialWord := none, unmatched := some { code := code, stamp := w.stamp } } ∧
            t.pos = s.pos ∧
            (m.haltOnNonMatch = false →
              t = { s with inputs := t.inputs, mark := t.mark, ports := t.ports } ∧ PortsRaise s t Attn.markFault.bit) ∧
            (m.haltOnNonMatch = true → s.line.state = .tracking →
              t.line.state = .halted ∧ t.line.stop.map (·.firstCause) = some .registrationLost)) ∧
          (∀ (before : List Panel) (r : Panel) (rest : List Panel) (lead : Nat) (e : Int) (x : Nat),
            s.queue = before ++ r :: rest → (before.filter candidate).length ≤ 3 → (s.queue.map (·.id)).Nodup →
            (∀ q ∈ before, candidate q = true → q.id % 4096 ≠ code) →
            candidate r = true → r.lead = some lead → r.id % 4096 = code →
            e = (lead : Int) - m.markLead - w.stamp →
            (x : Int) = min (s.pos.xPrint : Int) (max (nipFloor s) (max 0 ((s.pos.xNip : Int) + e))) →
            (e.natAbs ≤ m.syncLimit →
              t.mark =
                { partialWord := none
                  accepted := some { stamp := w.stamp, blankingEnd := w.stamp + m.blankLen }
                  streak := 0
                  unmatched := s.mark.unmatched } ∧
              t.pos =
                { s.pos with
                  xNip := x
                  remNip := if x = s.pos.xPrint then 0 else s.pos.remNip
                  lastFill := s.pos.xPrint - x } ∧
              (NoCrossing m s.pos.lastFill (s.pos.xPrint - x) →
                (∀ q ∈ s.queue, q.state = .transferring → ∀ trail, q.trail = some trail → x < trail + 10 * m.arcLen) →
                ((∀ q ∈ s.queue, q.state = .inTransit ∨ q.state = .printing → ∃ l, q.lead = some l ∧ x < l) →
                  t =
                    { s with
                      inputs := t.inputs
                      mark := t.mark
                      pos := t.pos
                      queue :=
                        (before.map (fun q => if candidate q = true then miss q else q) ++
                          { r with mark := some (.seen ((x : Int) - s.pos.xNip)) } :: rest).map fun q =>
                            if q.mark = some .noneYet ∧ ∃ l, q.lead = some l ∧ (l : Int) - m.markLead + m.syncLimit ≤ x then
                              miss q
                            else q }) ∧
                (∀ trail, before = [] → rest = [] → r.state = .inTransit → r.trail = some trail → lead ≤ x →
                  x < trail + 10 * m.arcLen →
                  t =
                    { s with
                      inputs := t.inputs
                      mark := t.mark
                      pos := t.pos
                      queue :=
                        [{ r with
                          mark := some (.seen ((x : Int) - s.pos.xNip))
                          state := .transferring
                          probes :=
                            [{ position := lead, accumulator := 0, inArc := false },
                              { position := lead + (trail - lead) / 2, accumulator := 0, inArc := false },
                              { position := trail, accumulator := 0, inArc := false }] }] }))) ∧
            (m.syncLimit < e.natAbs →
              t.mark =
                { s.mark with
                  partialWord := none
                  streak := if s.mark.streak < 255 then s.mark.streak + 1 else s.mark.streak } ∧
              t.pos = s.pos ∧
              (s.mark.streak ≠ 2 →
                t =
                  { s with
                    inputs := t.inputs
                    mark := t.mark
                    queue := before.map (fun q => if candidate q = true then miss q else q) ++
                      { r with mark := some .rejected, flags := addFlag r.flags .markRejected } :: rest }) ∧
              (s.mark.streak = 2 → s.line.state = .tracking →
                t.queue.map (·.mark) =
                  before.map (fun q => if candidate q = true then some .missed else q.mark) ++
                    some .rejected :: rest.map (·.mark) ∧
                t.line.state = .halted ∧ t.line.stop.map (·.firstCause) = some .registrationLost)))))

/-! ## Timed events -/

/-- The expiry of a speed window: each speed is the net count's magnitude times the resolution over 100,000, truncated, with
the net count's sign as its direction, and the net counts are kept and begun anew; slip by the floor of the difference in ppm,
capped when stored, with SLIP on the TRANSFERRING records above the limit, and 0 where the calender did not run forward; the heat
advice is recomputed at the new speed (R115); STALE follows v_cal (R131); each table is judged for MEASURE_LOST, which halts a
TRACKING line (R132); no coordinate moves (R30, R31). -/
def Obligations.SpeedWindow : Prop :=
  ∀ (s : State) (m : MachineRecord), s.running = true → s.line.active = some m →
    ∃ t, exec .speedWindowExpiry s = .next t ∧
      t.pos.vPrint = { magnitude := s.pos.netPrint.natAbs * m.pencRes / 100000, reverse := decide (s.pos.netPrint < 0) } ∧
      t.pos.vCal = { magnitude := s.pos.netCal.natAbs * m.cencRes / 100000, reverse := decide (s.pos.netCal < 0) } ∧
      t.pos.vFab = { magnitude := s.pos.netFab.natAbs * m.fencRes / 100000, reverse := decide (s.pos.netFab < 0) } ∧
      t.pos.keptPrint = s.pos.netPrint ∧ t.pos.keptCal = s.pos.netCal ∧ t.pos.keptFab = s.pos.netFab ∧
      t.pos.netPrint = 0 ∧ t.pos.netCal = 0 ∧ t.pos.netFab = 0 ∧
      t.pos =
        { s.pos with
          vPrint := t.pos.vPrint, vCal := t.pos.vCal, vFab := t.pos.vFab
          keptPrint := t.pos.keptPrint, keptCal := t.pos.keptCal, keptFab := t.pos.keptFab
          netPrint := t.pos.netPrint, netCal := t.pos.netCal, netFab := t.pos.netFab, slip := t.pos.slip } ∧
      (s.pos.netCal ≤ 0 → t.pos.slip = 0) ∧
      (∀ ppm, 0 < s.pos.netCal → 1 ≤ m.cencRes →
        ppm * (s.pos.netCal.toNat * m.cencRes) ≤ (s.pos.netCal * m.cencRes - s.pos.netFab * m.fencRes).natAbs * 1000000 →
        (s.pos.netCal * m.cencRes - s.pos.netFab * m.fencRes).natAbs * 1000000 < (ppm + 1) * (s.pos.netCal.toNat * m.cencRes) →
        t.pos.slip = min ppm 1000000 ∧
        ∀ (k : Nat) (r : Panel), s.queue[k]? = some r → ∃ r' : Panel, t.queue[k]? = some r' ∧ r'.id = r.id ∧ r'.state = r.state ∧
          (hasFlag r'.flags .slip = true ↔
            hasFlag r.flags .slip = true ∨ m.slipLimit < ppm ∧ r.state = .transferring)) ∧
      t.line.hold = { s.line.hold with stale := staleHolds t } ∧
      (staleHolds t = true ↔
        m.vMin ≤ t.pos.vCal.magnitude ∧ ((∃ z ∈ s.dose.zones, z.isFresh = false) ∨ ∃ z ∈ s.tension.zones, z.isFresh = false)) ∧
      (∀ hot tight : Bool,
        (hot = true ↔ RaisesMeasureLost m t.pos.vCal s.now s.dose.zones s.tension.lostTemperature) →
        (tight = true ↔ RaisesMeasureLost m t.pos.vCal s.now s.tension.zones s.tension.lostTension) →
        t.tension =
          { s.tension with
            lostTemperature := s.tension.lostTemperature || hot
            lostTension := s.tension.lostTension || tight } ∧
        (hot = false → tight = false → t.line = { s.line with hold := t.line.hold }) ∧
        (hot = true ∨ tight = true → s.line.state = .tracking →
          t.line.state = .halted ∧ t.line.stop.map (·.firstCause) = some .measureLost) ∧
        (∃ raised, AdviceRecomputed s t.pos.vCal t.dose raised ∧
          PortsRaise s t
            (raised ||| (if (hot = true ∨ tight = true) ∧ s.line.state = .tracking then Attn.lineHalted.bit else 0) |||
              holdKind s t))) ∧
      t =
        { s with
          pos := t.pos, queue := t.queue, line := t.line, dose := t.dose, tension := t.tension, ports := t.ports }

/-- A dose tick: counted modulo 4,294,967,296 in every line state (R102); in UNSET nothing else. In TRACKING and HALTED each
probe of a TRANSFERRING record is in the arc exactly while x_nip lies within an arc past it, and then gains the rate of the
record's covered zones, up to 2,147,483,647 (R103 to R105). A record with a probe in the arc gains UNVERIFIED where no zone it
covers is fresh (R104), SPREAD where two of the values used differ by more than the spread limit (R106), and under a standing
calender STANDSTILL, and STOPPED_IN_ARC while HALTED (R107); a record with an accumulator beyond its scorch dose gains SCORCH,
and SCORCH attention is raised where one gains it first (R108). Every other flag and every other record is as it was. -/
def Obligations.DoseTicks : Prop :=
  ∀ s : State, s.running = true →
    ∃ t, exec .doseTick s = .next t ∧
      t.dose.ticks = (if s.dose.ticks % 4294967296 = 4294967295 then 0 else s.dose.ticks % 4294967296 + 1) ∧
      t = { s with dose := { s.dose with ticks := t.dose.ticks }, queue := t.queue, ports := t.ports } ∧
      (s.line.state = .unset → t.queue = s.queue ∧ t.ports = s.ports) ∧
      (∀ m, s.line.active = some m → s.line.state ≠ .unset →
        t.queue.length = s.queue.length ∧
        (∀ (k : Nat) (r : Panel), s.queue[k]? = some r → ∃ r' : Panel, t.queue[k]? = some r' ∧
          (r.state ≠ .transferring → r' = r) ∧
          (r.state = .transferring →
            r' = { r with probes := r'.probes, flags := r'.flags } ∧
            r'.probes = r.probes.map (fun q =>
              if q.position ≤ s.pos.xNip ∧ s.pos.xNip < q.position + 10 * m.arcLen then
                { q with
                  accumulator := min (q.accumulator + stageRate m (meanOf (valuesUsed m (zoneReadings s) r))) 2147483647
                  inArc := true }
              else { q with inArc := false }) ∧
            (hasFlag r'.flags .unverified = true ↔
              hasFlag r.flags .unverified = true ∨
                (∃ q ∈ r'.probes, q.inArc = true) ∧
                  ∀ i ∈ panelZones m r, ∀ z, s.dose.zones[i]? = some z → z.isFresh = false) ∧
            (hasFlag r'.flags .spread = true ↔
              hasFlag r.flags .spread = true ∨
                (∃ q ∈ r'.probes, q.inArc = true) ∧
                  ∃ low ∈ valuesUsed m (zoneReadings s) r, ∃ high ∈ valuesUsed m (zoneReadings s) r,
                    low + m.spreadLimit < high) ∧
            (hasFlag r'.flags .standstill = true ↔
              hasFlag r.flags .standstill = true ∨
                (∃ q ∈ r'.probes, q.inArc = true) ∧ (s.pos.vCal.magnitude < m.vMin ∨ s.pos.vCal.reverse = true)) ∧
            (hasFlag r'.flags .stoppedInArc = true ↔
              hasFlag r.flags .stoppedInArc = true ∨
                (∃ q ∈ r'.probes, q.inArc = true) ∧ (s.pos.vCal.magnitude < m.vMin ∨ s.pos.vCal.reverse = true) ∧
                  s.line.state = .halted) ∧
            (hasFlag r'.flags .scorch = true ↔
              hasFlag r.flags .scorch = true ∨ ∃ q ∈ r'.probes, 100 * scorchDose m r < q.accumulator) ∧
            (∀ f : Flag, f ≠ .unverified → f ≠ .spread → f ≠ .standstill → f ≠ .stoppedInArc → f ≠ .scorch →
              hasFlag r'.flags f = hasFlag r.flags f))) ∧
        ((∃ (k : Nat) (r r' : Panel), s.queue[k]? = some r ∧ t.queue[k]? = some r' ∧
            hasFlag r.flags .scorch = false ∧ hasFlag r'.flags .scorch = true) →
          PortsRaise s t Attn.scorch.bit) ∧
        ((∀ (k : Nat) (r r' : Panel), s.queue[k]? = some r → t.queue[k]? = some r' →
            hasFlag r'.flags .scorch = true → hasFlag r.flags .scorch = true) →
          t.ports = s.ports))

/-- A tension tick under a machine record: the targets are those of the governing record's copies, FABRIC_REWIND falling from the
base tension on the core, by the taper, to its part on a full roll, rounded; else, until a record has governed, the machine
record's defaults, else as they were; every setpoint moves toward 100 × its target by at most the ramp rate; SETPOINT_CHANGED
when a target changed (R122 to R125). -/
def Obligations.TensionTicks : Prop :=
  ∀ (s : State) (m : MachineRecord) (moved : Nat → Nat → Nat → Prop), s.line.active = some m →
    (∀ before goal after, moved before goal after ↔
      (goal ≤ before + m.rampRate ∧ before ≤ goal + m.rampRate → after = goal) ∧
      (before + m.rampRate < goal → after = before + m.rampRate) ∧
      (goal + m.rampRate < before → after + m.rampRate = before)) →
    ∃ t, exec .tensionTick s = .next t ∧
      (∀ r c, Governs s.queue r c →
        t.tension.governed = true ∧ t.tension.targets.paperIn = c.copies.paperTension ∧
        t.tension.targets.fabricUnwind = c.copies.baseTension ∧ t.tension.targets.calIn = c.copies.baseTension ∧
        t.tension.targets.fabricRewind = rewindTarget m c.copies s.tension.diameter ∧
        (∀ d, m.coreDiameter < m.maxDiameter → c.copies.taper ≤ 100 →
          d = max m.coreDiameter (min m.maxDiameter s.tension.diameter) →
          IsRounded
            (c.copies.baseTension *
              (100 * (m.maxDiameter - m.coreDiameter) - c.copies.taper * (d - m.coreDiameter)))
            (100 * (m.maxDiameter - m.coreDiameter)) t.tension.targets.fabricRewind)) ∧
      (NoneGoverns s.queue → s.tension.governed = false →
        t.tension.governed = false ∧
        t.tension.targets =
          { paperIn := m.defaultPaperIn
            fabricUnwind := m.defaultFabricUnwind
            calIn := m.defaultCalIn
            fabricRewind := m.defaultFabricRewind }) ∧
      (NoneGoverns s.queue → s.tension.governed = true →
        t.tension.governed = true ∧ t.tension.targets = s.tension.targets) ∧
      moved s.tension.setpoints.paperIn (100 * t.tension.targets.paperIn) t.tension.setpoints.paperIn ∧
      moved s.tension.setpoints.fabricUnwind (100 * t.tension.targets.fabricUnwind) t.tension.setpoints.fabricUnwind ∧
      moved s.tension.setpoints.calIn (100 * t.tension.targets.calIn) t.tension.setpoints.calIn ∧
      moved s.tension.setpoints.fabricRewind (100 * t.tension.targets.fabricRewind) t.tension.setpoints.fabricRewind ∧
      t =
        { s with
          ports := t.ports
          tension :=
            { s.tension with
              targets := t.tension.targets, governed := t.tension.governed, setpoints := t.tension.setpoints } } ∧
      PortsRaise s t (if t.tension.targets = s.tension.targets then 0 else Attn.setpointChanged.bit)

/-- A stale expiry that falls due: every fresh zone older than its limit is stale from now on, with MEASURE_STALE, and STALE
follows (R100, R121, R131). A hard stale expiry judges both tables: each that has been stale for longer than hard_stale_ms under
a moving calender, with its lost indication "no", takes the indication "yes" and raises MEASURE_LOST, once for each of the two: a
latch in TRACKING, a further cause in HALTED, no stop record in UNSET; where neither does, nothing changes (R132, R160 to R162). -/
def Obligations.StaleExpiries : Prop :=
  ∀ (s : State) (m : MachineRecord), s.line.active = some m →
    ((∃ z ∈ s.dose.zones, z.isFresh = true ∧ m.tempStaleMs < z.age) →
      ∃ t, exec .temperatureStaleExpiry s = .next t ∧
        t.dose = { s.dose with zones := s.dose.zones.map fun z =>
          if z.isFresh = true ∧ m.tempStaleMs < z.age then { z with standing := .stale s.now } else z } ∧
        t.line = { s.line with hold := { s.line.hold with stale := decide (m.vMin ≤ s.pos.vCal.magnitude) } } ∧
        t = { s with dose := t.dose, line := t.line, ports := t.ports } ∧
        PortsRaise s t (Attn.measureStale.bit ||| holdKind s t)) ∧
    ((∃ z ∈ s.tension.zones, z.isFresh = true ∧ m.tensionStaleMs < z.age) →
      ∃ t, exec .tensionStaleExpiry s = .next t ∧
        t.tension.zones = (s.tension.zones.map fun z =>
          if z.isFresh = true ∧ m.tensionStaleMs < z.age then { z with standing := .stale s.now } else z) ∧
        t.line = { s.line with hold := { s.line.hold with stale := decide (m.vMin ≤ s.pos.vCal.magnitude) } } ∧
        t =
          { s with
            tension :=
              { s.tension with
                paperIn := t.tension.paperIn, fabricUnwind := t.tension.fabricUnwind, calIn := t.tension.calIn
                fabricRewind := t.tension.fabricRewind }
            line := t.line
            ports := t.ports } ∧
        PortsRaise s t (Attn.measureStale.bit ||| holdKind s t)) ∧
    ∃ t, exec .hardStaleExpiry s = .next t ∧
      ∀ hot tight : Bool,
        (hot = true ↔ RaisesMeasureLost m s.pos.vCal s.now s.dose.zones s.tension.lostTemperature) →
        (tight = true ↔ RaisesMeasureLost m s.pos.vCal s.now s.tension.zones s.tension.lostTension) →
        t.tension =
          { s.tension with
            lostTemperature := s.tension.lostTemperature || hot
            lostTension := s.tension.lostTension || tight } ∧
        (hot = false → tight = false → t = s) ∧
        (hot ≠ tight → CauseTaken s t .measureLost ∧ PortsRaise s t (causeKinds s t)) ∧
        (hot = true → tight = true →
          (∃ u, CauseTaken s u .measureLost ∧ CauseTaken u t .measureLost) ∧ PortsRaise s t (causeKinds s t)) ∧
        t = { s with tension := t.tension, line := t.line, queue := t.queue, ports := t.ports }

/-! ## The engine -/

/-- The completion of a computation for a single QUEUED record of unchanged slot and generation: the record is READY, unfetched,
with the correction of the snapshot, its flags and its generation, and CORRECTION_READY is raised; where the slot's generation
has changed the result is discarded (R69, R81, R82). The refresh expiry of a READY record whose slot hits starts a computation
from the state as it stands (R53, R79, R80). The refresh expiry of a fetched READY record re-evaluates too: while the engine
computes, the fill that a QUEUED record behind it misses is requested and, on a free store, reads (R74, R79, R80). -/
def Obligations.CorrectionsAndRefreshes : Prop :=
  (∀ (s : State) (m : MachineRecord) (r : Panel) (a : Announced), s.line.active = some m → s.queue = [r] →
    r.normal = some a → slotUsable s a.slot = true →
    (∀ k, s.engine = some k → k.panel = r.id → r.state = .queued →
      ∃ t, exec .correctionCompletion s = .next t ∧
        (k.snapshot.generation = (dirEntry s a.slot).generation →
          t.queue =
            [{ r with
              normal := some { a with generation := k.snapshot.generation }
              state := .ready false s.now false
              correction := some (computeCorrection k.snapshot)
              flags := withoutCorrectionFlags r.flags ||| computeFlags k.snapshot }] ∧
          t.line = { s.line with hold := { s.line.hold with unready := false } } ∧
          t = { s with engine := none, queue := t.queue, line := t.line, ports := t.ports } ∧
          PortsRaise s t (Attn.correctionReady.bit ||| holdKind s t)) ∧
        (k.snapshot.generation ≠ (dirEntry s a.slot).generation →
          t.queue = s.queue ∧ t.ports = s.ports ∧ t.line = s.line ∧ t = withScheduling s t)) ∧
    (∀ (i : Fin 8) (e : CacheEntry) time due, r.state = .ready false time due → time + m.refreshInterval < s.now →
      s.engine = none → (dirEntry s a.slot).channels = some a.coverage.length → s.cache.entries[i] = some e → e.slot = a.slot →
      (∀ j : Fin 8, j ≠ i → ∀ f, s.cache.entries[j] = some f → f.slot ≠ a.slot) →
      e.profile.channels.length = a.coverage.length →
      ∃ t, exec .refreshExpiry s = .next t ∧
        t.engine = some
          { panel := r.id
            snapshot :=
              { width := a.width
                coverage := a.coverage
                profile := e.profile
                generation := e.generation
                machine := m
                vCal := s.pos.vCal
                zones := s.dose.zones.map fun z => (z.value, z.isFresh)
                trim := s.dose.trim
                bias := s.tension.bias } } ∧
        t.cache.nlu.val = (i.val + 1) % 8 ∧
        t = { s with engine := t.engine, cache := { s.cache with nlu := t.cache.nlu } })) ∧
  (∀ (s : State) (m : MachineRecord) (r q : Panel) (a : Announced) (k : Computation) (time : Nat) (due : Bool),
    s.line.active = some m → s.queue = [r, q] → r.state = .ready true time due → time + m.refreshInterval < s.now →
    q.state = .queued → q.normal = some a → slotUsable s a.slot = true →
    (dirEntry s a.slot).channels = some a.coverage.length → s.engine = some k → k.panel ≠ q.id → StoreIdle s →
    (∀ (j : Fin 8) (f : CacheEntry), s.cache.entries[j] = some f → f.slot ≠ a.slot) →
    exec .refreshExpiry s = .next { s with store := { s.store with holder := some (.fill a.slot) } })

/-- Stages A to F on a snapshot, with the flags they add. A: the dwell is the arc over v_cal where that is forward and at or above
v_min, else over the nominal speed, rounded, and clamped to 1,000 to 600,000 ms (R55). B: T_pred is the rounded mean of the
fresh zones that a panel of the snapshot's width, centred on the drum, lies across, else the fallback temperature with UNVERIFIED
(R56, R57). C: the rate is r0 below T0, r15 from the table's top on, else interpolated and rounded (R58). D and E: the dose is dwell ×
rate / 1,000, rounded, and q_pred its rounded ratio to D_ref plus the trim, clamped to 500 to 1,500 (R59, R60); DOSE_CLAMPED
exactly where A, C or E clamps. F: each curve is read at q_pred, multiplied by its base gain, rounded, and bounded by the channel
limit, with INK_LIMITED where a limit acts (R61, R62); where the coverage-weighted sum exceeds the total ink limit × 4096, every
gain is scaled down to it by a floor, with INK_SCALED (R63). T_t is the base fabric tension plus the bias, clamped to 0 to 2,000
(R64). Every correction's gains stay within their channels' limits and their coverage-weighted sum within the total ink limit
× 4096 (R67), and it carries the snapshot's generation and profile copies (R67, R68). A dose tick takes the fresh zones that the
record lies across by Stage B, all of them where none is fresh, and every zone for an ANONYMOUS record (R104), and judges SCORCH by
the rounded scorch limit of the record's D_ref copy, else of the fallback D_ref (R108). -/
def Obligations.StagesAToFGiveTheCorrection : Prop :=
  (∀ (m : MachineRecord) (v : Speed) (speed dwell : Nat),
    speed = (if v.reverse = false ∧ m.vMin ≤ v.magnitude then v.magnitude else m.nominalSpeed) → 1 ≤ speed →
    IsRounded (m.arcLen * 1000) speed dwell →
    stageDwell m v = max 1000 (min 600000 dwell)) ∧
  (∀ values : List Nat, values ≠ [] → IsRounded values.sum values.length (meanOf values)) ∧
  (∀ (m : MachineRecord) (t : Nat),
    (t < m.t0 → stageRate m t = m.rates.getD 0 0) ∧
    (m.t0 + 15 * m.tempStep ≤ t → stageRate m t = m.rates.getD 15 0) ∧
    (∀ k rest lo hi part, k < 15 → t = m.t0 + k * m.tempStep + rest → rest < m.tempStep → m.rates[k]? = some lo →
      m.rates[k + 1]? = some hi → lo ≤ hi → IsRounded ((hi - lo) * rest) m.tempStep part → stageRate m t = lo + part)) ∧
  (∀ (q y0 y1 y2 y3 y4 : Nat),
    (q ≤ 600 → curveAt [y0, y1, y2, y3, y4] q = y0) ∧ (1400 ≤ q → curveAt [y0, y1, y2, y3, y4] q = y4) ∧
    (∀ x left right part, (x, left, right) ∈ [(600, y0, y1), (800, y1, y2), (1000, y2, y3), (1200, y3, y4)] → x ≤ q → q < x + 200 →
      (left ≤ right → IsRounded ((right - left) * (q - x)) 200 part → curveAt [y0, y1, y2, y3, y4] q = left + part) ∧
      (right ≤ left → IsRounded ((left - right) * (q - x)) 200 part → curveAt [y0, y1, y2, y3, y4] q + part = left))) ∧
  (∀ (k : Snapshot) (used left : Nat) (fresh : List Nat), used = min k.width k.machine.drumWidth →
    left = (k.machine.drumWidth - used) / 2 →
    fresh = (List.range k.machine.zoneCount).filterMap (fun i =>
      if i * (k.machine.drumWidth / k.machine.zoneCount) < left + used ∧
          left < (i + 1) * (k.machine.drumWidth / k.machine.zoneCount) then
        match k.zones[i]? with
        | some (value, true) => some value
        | _ => none
      else none) →
    (computeCorrection k).dwell = stageDwell k.machine k.vCal ∧
    (fresh ≠ [] → (computeCorrection k).tPred = meanOf fresh) ∧
    (fresh = [] → (computeCorrection k).tPred = k.machine.fallbackTemp) ∧
    (hasFlag (computeFlags k) .unverified = true ↔ fresh = [])) ∧
  (∀ (k : Snapshot) (speed dwell dose ratio : Nat),
    speed = (if k.vCal.reverse = false ∧ k.machine.vMin ≤ k.vCal.magnitude then k.vCal.magnitude else k.machine.nominalSpeed) →
    1 ≤ speed → IsRounded (k.machine.arcLen * 1000) speed dwell →
    IsRounded ((computeCorrection k).dwell * stageRate k.machine (computeCorrection k).tPred) 1000 dose →
    1 ≤ k.profile.copies.dRef → IsRounded (dose * 1000) k.profile.copies.dRef ratio →
    ((computeCorrection k).qPred : Int) = max 500 (min 1500 ((ratio : Int) + k.trim)) ∧
    (hasFlag (computeFlags k) .doseClamped = true ↔
      (dwell < 1000 ∨ 600000 < dwell) ∨
        ((computeCorrection k).tPred < k.machine.t0 ∨
          k.machine.t0 + 15 * k.machine.tempStep < (computeCorrection k).tPred) ∨
        ((ratio : Int) + k.trim < 500 ∨ 1500 < (ratio : Int) + k.trim))) ∧
  (∀ (k : Snapshot) (raw limited : List Nat) (sum : Nat), raw.length = k.profile.channels.length →
    (∀ (i : Nat) (c : Channel) (g : Nat), k.profile.channels[i]? = some c → raw[i]? = some g →
      IsRounded (curveAt c.curve (computeCorrection k).qPred * c.base) 4096 g) →
    limited = List.zipWith (fun g c => min g c.limit) raw k.profile.channels →
    sum = (List.zipWith (· * ·) k.coverage limited).sum →
    (hasFlag (computeFlags k) .inkLimited = true ↔
      ∃ (i : Nat) (c : Channel) (g : Nat), k.profile.channels[i]? = some c ∧ raw[i]? = some g ∧ c.limit < g) ∧
    (hasFlag (computeFlags k) .inkScaled = true ↔ k.profile.inkLimit * 4096 < sum) ∧
    (sum ≤ k.profile.inkLimit * 4096 → (computeCorrection k).gains = limited) ∧
    (k.profile.inkLimit * 4096 < sum →
      (computeCorrection k).gains = limited.map fun g => g * k.profile.inkLimit * 4096 / sum)) ∧
  (∀ k : Snapshot,
    ((computeCorrection k).targetTension : Int) = max 0 (min 2000 ((k.profile.copies.baseTension : Int) + k.bias)) ∧
    (computeCorrection k).generation = k.generation ∧ (computeCorrection k).copies = k.profile.copies ∧
    CorrectionAsComputed (computeCorrection k) ∧
    (List.zipWith (· * ·) k.coverage (computeCorrection k).gains).sum ≤ k.profile.inkLimit * 4096) ∧
  (∀ (m : MachineRecord) (zones : List (Nat × Bool)) (r : Panel) (lies : Nat → Bool) (across : List (Nat × Bool)),
    (∀ i, lies i = true ↔ ∀ a used left, r.normal = some a → used = min a.width m.drumWidth → left = (m.drumWidth - used) / 2 →
      i * (m.drumWidth / m.zoneCount) < left + used ∧ left < (i + 1) * (m.drumWidth / m.zoneCount)) →
    across = ((List.range m.zoneCount).filter lies).filterMap (fun i => zones[i]?) →
    valuesUsed m zones r =
      (if ∃ z ∈ across, z.2 = true then (across.filter (·.2)).map (·.1) else across.map (·.1)) ∧
    IsRounded (((r.correction.map (·.copies.dRef)).getD m.fallbackDRef) * m.scorchLimit) 1000 (scorchDose m r))

/-- Stage G: along is 1,000,000 + k × T_t and cross 1,000,000 − n × T_t, each clamped to 950,000 to 1,050,000, and
SCALE_CLAMPED is a flag of the result exactly when either is clamped; the manual's figures (R65). -/
def Obligations.StageGGivesTheScales : Prop :=
  ∀ (s : Snapshot) (k n tt : Nat), k = s.profile.stretch → n = s.profile.neck → tt = (computeCorrection s).targetTension →
    ((computeCorrection s).along : Int) = max 950000 (min 1050000 (1000000 + (k : Int) * tt)) ∧
    ((computeCorrection s).cross : Int) = max 950000 (min 1050000 (1000000 - (n : Int) * tt)) ∧
    (hasFlag (computeFlags s) .scaleClamped = true ↔ 1050000 < 1000000 + k * tt ∨ 1000000 - (n : Int) * tt < 950000) ∧
    (k = 45 → n = 12 → tt = 180 →
      (computeCorrection s).along = 1008100 ∧ (computeCorrection s).cross = 997840 ∧
      hasFlag (computeFlags s) .scaleClamped = false) ∧
    (k = 400 → tt = 1700 → (computeCorrection s).along = 1050000 ∧ hasFlag (computeFlags s) .scaleClamped = true)

/-! ## What every step keeps -/

/-- The array keeps its canonical form whatever is commanded (notes/assumptions/7.md: a form of the model's). -/
def Obligations.EveryStepKeepsTheArrayCanonical : Prop :=
  KeptByEveryStep ArrayCanonical

/-- x_nip stays at most x_print, which stays at most 4,294,967,295 (R26, R28, R44, R50), and the web's order is kept: leads strictly
increase from head to tail, no closed trail passes the next lead, no coordinate passes x_print, and nothing is printed in UNSET
(R14, R24, R29). The record states follow it: a printed record is TRANSFERRING exactly when x_nip is at or beyond its lead (R15,
R28), from head to tail all TRANSFERRING records stand before all IN_TRANSIT ones, these before a PRINTING one, and all printed
records before all unprinted ones (Table 6), and only the newest printed record may have an open trail (R10). -/
def Obligations.EveryStepKeepsTheWebInRangeAndOrdered : Prop :=
  KeptByEveryStep WebInRange ∧ KeptByEveryStep WebOrdered ∧ KeptByEveryStep UnsetHoldsNoWeb ∧
    KeptByEveryStep StatesFollowWeb

/-- No panel id is ever twice in use, in either queue, and both queues stay within their limits (R1, R2, R173). -/
def Obligations.EveryStepKeepsIdsDistinct : Prop :=
  KeptByEveryStep IdsDistinct

/-- UNREADY and STALE are present after every step exactly under their conditions (R86, R131). -/
def Obligations.EveryStepKeepsTheHoldReasons : Prop :=
  KeptByEveryStep UnreadyFollows ∧ KeptByEveryStep StaleFollows

/-- The stop record is absent in UNSET and present in HALTED, and the learned trim and bias stay within ±250 per-mille and
±200 N/m (R111, R112, R128, R161, R166). -/
def Obligations.EveryStepKeepsStopRecordAndLearnedValues : Prop :=
  KeptByEveryStep StopRecordFitsLine ∧ KeptByEveryStep TrimInRange ∧ KeptByEveryStep BiasInRange

/-- Every valid cache entry names a VALID or LOCKED slot with the directory's generation, and no two hold the same slot, whatever is
erased, committed, locked, found damaged or filled (R72, R73, R74, R76). Every correction in the queue is as a computation left it:
its gains within their limits, their weighted sum within the total ink limit, its scales within range (R67). Every READY record names a
slot that is VALID, LOCKED or DAMAGED and whose directory generation is the record's and its correction's (R81). -/
def Obligations.EveryStepKeepsTheCacheAndTheCorrections : Prop :=
  KeptByEveryStep CacheCoherent ∧ KeptByEveryStep CorrectionsAsComputed ∧ KeptByEveryStep ReadyRecordsCoherent

/-- The state after reset has everything that every step keeps. -/
def Obligations.ResetHasWhatEveryStepKeeps : Prop :=
  ArrayCanonical State.reset ∧ WebInRange State.reset ∧ WebOrdered State.reset ∧ UnsetHoldsNoWeb State.reset ∧
    StatesFollowWeb State.reset ∧ IdsDistinct State.reset ∧ UnreadyFollows State.reset ∧ StaleFollows State.reset ∧ StopRecordFitsLine State.reset ∧
    TrimInRange State.reset ∧ BiasInRange State.reset ∧ CacheCoherent State.reset ∧ CorrectionsAsComputed State.reset ∧
    ReadyRecordsCoherent State.reset
end

