-- ==== Sys2Proof/Laws/State.lean ====
section
/-!
SUPPORT. What each named update of the state changes and leaves: one lemma per field per update, true by rfl.
-/
namespace Sys2Proof.Machine

/-! ### State.updatePort -/

@[simp] theorem State.updatePort_now (s : State) (p : PortId) (f : Port → Port) : (s.updatePort p f).now = s.now := rfl
@[simp] theorem State.updatePort_resetUnit (s : State) (p : PortId) (f : Port → Port) :
    (s.updatePort p f).resetUnit = s.resetUnit := rfl
@[simp] theorem State.updatePort_ports (s : State) (p : PortId) (f : Port → Port) :
    (s.updatePort p f).ports = s.ports.set p (f s.ports[p]) := rfl
@[simp] theorem State.updatePort_line (s : State) (p : PortId) (f : Port → Port) : (s.updatePort p f).line = s.line := rfl
@[simp] theorem State.updatePort_queue (s : State) (p : PortId) (f : Port → Port) : (s.updatePort p f).queue = s.queue := rfl
@[simp] theorem State.updatePort_idCounter (s : State) (p : PortId) (f : Port → Port) :
    (s.updatePort p f).idCounter = s.idCounter := rfl
@[simp] theorem State.updatePort_pos (s : State) (p : PortId) (f : Port → Port) : (s.updatePort p f).pos = s.pos := rfl
@[simp] theorem State.updatePort_inputs (s : State) (p : PortId) (f : Port → Port) :
    (s.updatePort p f).inputs = s.inputs := rfl
@[simp] theorem State.updatePort_mark (s : State) (p : PortId) (f : Port → Port) : (s.updatePort p f).mark = s.mark := rfl
@[simp] theorem State.updatePort_pace (s : State) (p : PortId) (f : Port → Port) : (s.updatePort p f).pace = s.pace := rfl
@[simp] theorem State.updatePort_engine (s : State) (p : PortId) (f : Port → Port) :
    (s.updatePort p f).engine = s.engine := rfl
@[simp] theorem State.updatePort_cache (s : State) (p : PortId) (f : Port → Port) : (s.updatePort p f).cache = s.cache := rfl
@[simp] theorem State.updatePort_store (s : State) (p : PortId) (f : Port → Port) : (s.updatePort p f).store = s.store := rfl
@[simp] theorem State.updatePort_dose (s : State) (p : PortId) (f : Port → Port) : (s.updatePort p f).dose = s.dose := rfl
@[simp] theorem State.updatePort_tension (s : State) (p : PortId) (f : Port → Port) :
    (s.updatePort p f).tension = s.tension := rfl
@[simp] theorem State.updatePort_records (s : State) (p : PortId) (f : Port → Port) :
    (s.updatePort p f).records = s.records := rfl
@[simp] theorem State.updatePort_freeSeq (s : State) (p : PortId) (f : Port → Port) :
    (s.updatePort p f).freeSeq = s.freeSeq := rfl
@[simp] theorem State.updatePort_pending (s : State) (p : PortId) (f : Port → Port) :
    (s.updatePort p f).pending = s.pending := rfl

/-! ### State.updateDir -/

@[simp] theorem State.updateDir_now (s : State) (slot : SlotId) (f : DirEntry → DirEntry) :
    (s.updateDir slot f).now = s.now := rfl
@[simp] theorem State.updateDir_resetUnit (s : State) (slot : SlotId) (f : DirEntry → DirEntry) :
    (s.updateDir slot f).resetUnit = s.resetUnit := rfl
@[simp] theorem State.updateDir_ports (s : State) (slot : SlotId) (f : DirEntry → DirEntry) :
    (s.updateDir slot f).ports = s.ports := rfl
@[simp] theorem State.updateDir_line (s : State) (slot : SlotId) (f : DirEntry → DirEntry) :
    (s.updateDir slot f).line = s.line := rfl
@[simp] theorem State.updateDir_queue (s : State) (slot : SlotId) (f : DirEntry → DirEntry) :
    (s.updateDir slot f).queue = s.queue := rfl
@[simp] theorem State.updateDir_idCounter (s : State) (slot : SlotId) (f : DirEntry → DirEntry) :
    (s.updateDir slot f).idCounter = s.idCounter := rfl
@[simp] theorem State.updateDir_pos (s : State) (slot : SlotId) (f : DirEntry → DirEntry) :
    (s.updateDir slot f).pos = s.pos := rfl
@[simp] theorem State.updateDir_inputs (s : State) (slot : SlotId) (f : DirEntry → DirEntry) :
    (s.updateDir slot f).inputs = s.inputs := rfl
@[simp] theorem State.updateDir_mark (s : State) (slot : SlotId) (f : DirEntry → DirEntry) :
    (s.updateDir slot f).mark = s.mark := rfl
@[simp] theorem State.updateDir_pace (s : State) (slot : SlotId) (f : DirEntry → DirEntry) :
    (s.updateDir slot f).pace = s.pace := rfl
@[simp] theorem State.updateDir_engine (s : State) (slot : SlotId) (f : DirEntry → DirEntry) :
    (s.updateDir slot f).engine = s.engine := rfl
@[simp] theorem State.updateDir_cache (s : State) (slot : SlotId) (f : DirEntry → DirEntry) :
    (s.updateDir slot f).cache = s.cache := rfl
@[simp] theorem State.updateDir_store (s : State) (slot : SlotId) (f : DirEntry → DirEntry) :
    (s.updateDir slot f).store = { s.store with dir := s.store.dir.set slot (f (dirEntry s slot)) } := rfl
@[simp] theorem State.updateDir_dose (s : State) (slot : SlotId) (f : DirEntry → DirEntry) :
    (s.updateDir slot f).dose = s.dose := rfl
@[simp] theorem State.updateDir_tension (s : State) (slot : SlotId) (f : DirEntry → DirEntry) :
    (s.updateDir slot f).tension = s.tension := rfl
@[simp] theorem State.updateDir_records (s : State) (slot : SlotId) (f : DirEntry → DirEntry) :
    (s.updateDir slot f).records = s.records := rfl
@[simp] theorem State.updateDir_freeSeq (s : State) (slot : SlotId) (f : DirEntry → DirEntry) :
    (s.updateDir slot f).freeSeq = s.freeSeq := rfl
@[simp] theorem State.updateDir_pending (s : State) (slot : SlotId) (f : DirEntry → DirEntry) :
    (s.updateDir slot f).pending = s.pending := rfl

/-! ### State.updateHold -/

@[simp] theorem State.updateHold_now (s : State) (f : HoldSet → HoldSet) : (s.updateHold f).now = s.now := rfl
@[simp] theorem State.updateHold_resetUnit (s : State) (f : HoldSet → HoldSet) :
    (s.updateHold f).resetUnit = s.resetUnit := rfl
@[simp] theorem State.updateHold_ports (s : State) (f : HoldSet → HoldSet) : (s.updateHold f).ports = s.ports := rfl
@[simp] theorem State.updateHold_line (s : State) (f : HoldSet → HoldSet) :
    (s.updateHold f).line = { s.line with hold := f s.line.hold } := rfl
@[simp] theorem State.updateHold_queue (s : State) (f : HoldSet → HoldSet) : (s.updateHold f).queue = s.queue := rfl
@[simp] theorem State.updateHold_idCounter (s : State) (f : HoldSet → HoldSet) :
    (s.updateHold f).idCounter = s.idCounter := rfl
@[simp] theorem State.updateHold_pos (s : State) (f : HoldSet → HoldSet) : (s.updateHold f).pos = s.pos := rfl
@[simp] theorem State.updateHold_inputs (s : State) (f : HoldSet → HoldSet) : (s.updateHold f).inputs = s.inputs := rfl
@[simp] theorem State.updateHold_mark (s : State) (f : HoldSet → HoldSet) : (s.updateHold f).mark = s.mark := rfl
@[simp] theorem State.updateHold_pace (s : State) (f : HoldSet → HoldSet) : (s.updateHold f).pace = s.pace := rfl
@[simp] theorem State.updateHold_engine (s : State) (f : HoldSet → HoldSet) : (s.updateHold f).engine = s.engine := rfl
@[simp] theorem State.updateHold_cache (s : State) (f : HoldSet → HoldSet) : (s.updateHold f).cache = s.cache := rfl
@[simp] theorem State.updateHold_store (s : State) (f : HoldSet → HoldSet) : (s.updateHold f).store = s.store := rfl
@[simp] theorem State.updateHold_dose (s : State) (f : HoldSet → HoldSet) : (s.updateHold f).dose = s.dose := rfl
@[simp] theorem State.updateHold_tension (s : State) (f : HoldSet → HoldSet) : (s.updateHold f).tension = s.tension := rfl
@[simp] theorem State.updateHold_records (s : State) (f : HoldSet → HoldSet) : (s.updateHold f).records = s.records := rfl
@[simp] theorem State.updateHold_freeSeq (s : State) (f : HoldSet → HoldSet) : (s.updateHold f).freeSeq = s.freeSeq := rfl
@[simp] theorem State.updateHold_pending (s : State) (f : HoldSet → HoldSet) : (s.updateHold f).pending = s.pending := rfl

/-! ### State.updatePos -/

@[simp] theorem State.updatePos_now (s : State) (f : Position → Position) : (s.updatePos f).now = s.now := rfl
@[simp] theorem State.updatePos_resetUnit (s : State) (f : Position → Position) :
    (s.updatePos f).resetUnit = s.resetUnit := rfl
@[simp] theorem State.updatePos_ports (s : State) (f : Position → Position) : (s.updatePos f).ports = s.ports := rfl
@[simp] theorem State.updatePos_line (s : State) (f : Position → Position) : (s.updatePos f).line = s.line := rfl
@[simp] theorem State.updatePos_queue (s : State) (f : Position → Position) : (s.updatePos f).queue = s.queue := rfl
@[simp] theorem State.updatePos_idCounter (s : State) (f : Position → Position) :
    (s.updatePos f).idCounter = s.idCounter := rfl
@[simp] theorem State.updatePos_pos (s : State) (f : Position → Position) : (s.updatePos f).pos = f s.pos := rfl
@[simp] theorem State.updatePos_inputs (s : State) (f : Position → Position) : (s.updatePos f).inputs = s.inputs := rfl
@[simp] theorem State.updatePos_mark (s : State) (f : Position → Position) : (s.updatePos f).mark = s.mark := rfl
@[simp] theorem State.updatePos_pace (s : State) (f : Position → Position) : (s.updatePos f).pace = s.pace := rfl
@[simp] theorem State.updatePos_engine (s : State) (f : Position → Position) : (s.updatePos f).engine = s.engine := rfl
@[simp] theorem State.updatePos_cache (s : State) (f : Position → Position) : (s.updatePos f).cache = s.cache := rfl
@[simp] theorem State.updatePos_store (s : State) (f : Position → Position) : (s.updatePos f).store = s.store := rfl
@[simp] theorem State.updatePos_dose (s : State) (f : Position → Position) : (s.updatePos f).dose = s.dose := rfl
@[simp] theorem State.updatePos_tension (s : State) (f : Position → Position) : (s.updatePos f).tension = s.tension := rfl
@[simp] theorem State.updatePos_records (s : State) (f : Position → Position) : (s.updatePos f).records = s.records := rfl
@[simp] theorem State.updatePos_freeSeq (s : State) (f : Position → Position) : (s.updatePos f).freeSeq = s.freeSeq := rfl
@[simp] theorem State.updatePos_pending (s : State) (f : Position → Position) : (s.updatePos f).pending = s.pending := rfl

/-! ### State.updateInputs -/

@[simp] theorem State.updateInputs_now (s : State) (f : Inputs → Inputs) : (s.updateInputs f).now = s.now := rfl
@[simp] theorem State.updateInputs_resetUnit (s : State) (f : Inputs → Inputs) :
    (s.updateInputs f).resetUnit = s.resetUnit := rfl
@[simp] theorem State.updateInputs_ports (s : State) (f : Inputs → Inputs) : (s.updateInputs f).ports = s.ports := rfl
@[simp] theorem State.updateInputs_line (s : State) (f : Inputs → Inputs) : (s.updateInputs f).line = s.line := rfl
@[simp] theorem State.updateInputs_queue (s : State) (f : Inputs → Inputs) : (s.updateInputs f).queue = s.queue := rfl
@[simp] theorem State.updateInputs_idCounter (s : State) (f : Inputs → Inputs) :
    (s.updateInputs f).idCounter = s.idCounter := rfl
@[simp] theorem State.updateInputs_pos (s : State) (f : Inputs → Inputs) : (s.updateInputs f).pos = s.pos := rfl
@[simp] theorem State.updateInputs_inputs (s : State) (f : Inputs → Inputs) : (s.updateInputs f).inputs = f s.inputs := rfl
@[simp] theorem State.updateInputs_mark (s : State) (f : Inputs → Inputs) : (s.updateInputs f).mark = s.mark := rfl
@[simp] theorem State.updateInputs_pace (s : State) (f : Inputs → Inputs) : (s.updateInputs f).pace = s.pace := rfl
@[simp] theorem State.updateInputs_engine (s : State) (f : Inputs → Inputs) : (s.updateInputs f).engine = s.engine := rfl
@[simp] theorem State.updateInputs_cache (s : State) (f : Inputs → Inputs) : (s.updateInputs f).cache = s.cache := rfl
@[simp] theorem State.updateInputs_store (s : State) (f : Inputs → Inputs) : (s.updateInputs f).store = s.store := rfl
@[simp] theorem State.updateInputs_dose (s : State) (f : Inputs → Inputs) : (s.updateInputs f).dose = s.dose := rfl
@[simp] theorem State.updateInputs_tension (s : State) (f : Inputs → Inputs) : (s.updateInputs f).tension = s.tension := rfl
@[simp] theorem State.updateInputs_records (s : State) (f : Inputs → Inputs) : (s.updateInputs f).records = s.records := rfl
@[simp] theorem State.updateInputs_freeSeq (s : State) (f : Inputs → Inputs) : (s.updateInputs f).freeSeq = s.freeSeq := rfl
@[simp] theorem State.updateInputs_pending (s : State) (f : Inputs → Inputs) : (s.updateInputs f).pending = s.pending := rfl

/-! ### State.updateMark -/

@[simp] theorem State.updateMark_now (s : State) (f : MarkUnit → MarkUnit) : (s.updateMark f).now = s.now := rfl
@[simp] theorem State.updateMark_resetUnit (s : State) (f : MarkUnit → MarkUnit) :
    (s.updateMark f).resetUnit = s.resetUnit := rfl
@[simp] theorem State.updateMark_ports (s : State) (f : MarkUnit → MarkUnit) : (s.updateMark f).ports = s.ports := rfl
@[simp] theorem State.updateMark_line (s : State) (f : MarkUnit → MarkUnit) : (s.updateMark f).line = s.line := rfl
@[simp] theorem State.updateMark_queue (s : State) (f : MarkUnit → MarkUnit) : (s.updateMark f).queue = s.queue := rfl
@[simp] theorem State.updateMark_idCounter (s : State) (f : MarkUnit → MarkUnit) :
    (s.updateMark f).idCounter = s.idCounter := rfl
@[simp] theorem State.updateMark_pos (s : State) (f : MarkUnit → MarkUnit) : (s.updateMark f).pos = s.pos := rfl
@[simp] theorem State.updateMark_inputs (s : State) (f : MarkUnit → MarkUnit) : (s.updateMark f).inputs = s.inputs := rfl
@[simp] theorem State.updateMark_mark (s : State) (f : MarkUnit → MarkUnit) : (s.updateMark f).mark = f s.mark := rfl
@[simp] theorem State.updateMark_pace (s : State) (f : MarkUnit → MarkUnit) : (s.updateMark f).pace = s.pace := rfl
@[simp] theorem State.updateMark_engine (s : State) (f : MarkUnit → MarkUnit) : (s.updateMark f).engine = s.engine := rfl
@[simp] theorem State.updateMark_cache (s : State) (f : MarkUnit → MarkUnit) : (s.updateMark f).cache = s.cache := rfl
@[simp] theorem State.updateMark_store (s : State) (f : MarkUnit → MarkUnit) : (s.updateMark f).store = s.store := rfl
@[simp] theorem State.updateMark_dose (s : State) (f : MarkUnit → MarkUnit) : (s.updateMark f).dose = s.dose := rfl
@[simp] theorem State.updateMark_tension (s : State) (f : MarkUnit → MarkUnit) : (s.updateMark f).tension = s.tension := rfl
@[simp] theorem State.updateMark_records (s : State) (f : MarkUnit → MarkUnit) : (s.updateMark f).records = s.records := rfl
@[simp] theorem State.updateMark_freeSeq (s : State) (f : MarkUnit → MarkUnit) : (s.updateMark f).freeSeq = s.freeSeq := rfl
@[simp] theorem State.updateMark_pending (s : State) (f : MarkUnit → MarkUnit) : (s.updateMark f).pending = s.pending := rfl

/-! ### State.updatePace -/

@[simp] theorem State.updatePace_now (s : State) (f : Pace → Pace) : (s.updatePace f).now = s.now := rfl
@[simp] theorem State.updatePace_resetUnit (s : State) (f : Pace → Pace) : (s.updatePace f).resetUnit = s.resetUnit := rfl
@[simp] theorem State.updatePace_ports (s : State) (f : Pace → Pace) : (s.updatePace f).ports = s.ports := rfl
@[simp] theorem State.updatePace_line (s : State) (f : Pace → Pace) : (s.updatePace f).line = s.line := rfl
@[simp] theorem State.updatePace_queue (s : State) (f : Pace → Pace) : (s.updatePace f).queue = s.queue := rfl
@[simp] theorem State.updatePace_idCounter (s : State) (f : Pace → Pace) : (s.updatePace f).idCounter = s.idCounter := rfl
@[simp] theorem State.updatePace_pos (s : State) (f : Pace → Pace) : (s.updatePace f).pos = s.pos := rfl
@[simp] theorem State.updatePace_inputs (s : State) (f : Pace → Pace) : (s.updatePace f).inputs = s.inputs := rfl
@[simp] theorem State.updatePace_mark (s : State) (f : Pace → Pace) : (s.updatePace f).mark = s.mark := rfl
@[simp] theorem State.updatePace_pace (s : State) (f : Pace → Pace) : (s.updatePace f).pace = f s.pace := rfl
@[simp] theorem State.updatePace_engine (s : State) (f : Pace → Pace) : (s.updatePace f).engine = s.engine := rfl
@[simp] theorem State.updatePace_cache (s : State) (f : Pace → Pace) : (s.updatePace f).cache = s.cache := rfl
@[simp] theorem State.updatePace_store (s : State) (f : Pace → Pace) : (s.updatePace f).store = s.store := rfl
@[simp] theorem State.updatePace_dose (s : State) (f : Pace → Pace) : (s.updatePace f).dose = s.dose := rfl
@[simp] theorem State.updatePace_tension (s : State) (f : Pace → Pace) : (s.updatePace f).tension = s.tension := rfl
@[simp] theorem State.updatePace_records (s : State) (f : Pace → Pace) : (s.updatePace f).records = s.records := rfl
@[simp] theorem State.updatePace_freeSeq (s : State) (f : Pace → Pace) : (s.updatePace f).freeSeq = s.freeSeq := rfl
@[simp] theorem State.updatePace_pending (s : State) (f : Pace → Pace) : (s.updatePace f).pending = s.pending := rfl

/-! ### State.updateCache -/

@[simp] theorem State.updateCache_now (s : State) (f : Cache → Cache) : (s.updateCache f).now = s.now := rfl
@[simp] theorem State.updateCache_resetUnit (s : State) (f : Cache → Cache) :
    (s.updateCache f).resetUnit = s.resetUnit := rfl
@[simp] theorem State.updateCache_ports (s : State) (f : Cache → Cache) : (s.updateCache f).ports = s.ports := rfl
@[simp] theorem State.updateCache_line (s : State) (f : Cache → Cache) : (s.updateCache f).line = s.line := rfl
@[simp] theorem State.updateCache_queue (s : State) (f : Cache → Cache) : (s.updateCache f).queue = s.queue := rfl
@[simp] theorem State.updateCache_idCounter (s : State) (f : Cache → Cache) :
    (s.updateCache f).idCounter = s.idCounter := rfl
@[simp] theorem State.updateCache_pos (s : State) (f : Cache → Cache) : (s.updateCache f).pos = s.pos := rfl
@[simp] theorem State.updateCache_inputs (s : State) (f : Cache → Cache) : (s.updateCache f).inputs = s.inputs := rfl
@[simp] theorem State.updateCache_mark (s : State) (f : Cache → Cache) : (s.updateCache f).mark = s.mark := rfl
@[simp] theorem State.updateCache_pace (s : State) (f : Cache → Cache) : (s.updateCache f).pace = s.pace := rfl
@[simp] theorem State.updateCache_engine (s : State) (f : Cache → Cache) : (s.updateCache f).engine = s.engine := rfl
@[simp] theorem State.updateCache_cache (s : State) (f : Cache → Cache) : (s.updateCache f).cache = f s.cache := rfl
@[simp] theorem State.updateCache_store (s : State) (f : Cache → Cache) : (s.updateCache f).store = s.store := rfl
@[simp] theorem State.updateCache_dose (s : State) (f : Cache → Cache) : (s.updateCache f).dose = s.dose := rfl
@[simp] theorem State.updateCache_tension (s : State) (f : Cache → Cache) : (s.updateCache f).tension = s.tension := rfl
@[simp] theorem State.updateCache_records (s : State) (f : Cache → Cache) : (s.updateCache f).records = s.records := rfl
@[simp] theorem State.updateCache_freeSeq (s : State) (f : Cache → Cache) : (s.updateCache f).freeSeq = s.freeSeq := rfl
@[simp] theorem State.updateCache_pending (s : State) (f : Cache → Cache) : (s.updateCache f).pending = s.pending := rfl

/-! ### State.updateStore -/

@[simp] theorem State.updateStore_now (s : State) (f : Store → Store) : (s.updateStore f).now = s.now := rfl
@[simp] theorem State.updateStore_resetUnit (s : State) (f : Store → Store) :
    (s.updateStore f).resetUnit = s.resetUnit := rfl
@[simp] theorem State.updateStore_ports (s : State) (f : Store → Store) : (s.updateStore f).ports = s.ports := rfl
@[simp] theorem State.updateStore_line (s : State) (f : Store → Store) : (s.updateStore f).line = s.line := rfl
@[simp] theorem State.updateStore_queue (s : State) (f : Store → Store) : (s.updateStore f).queue = s.queue := rfl
@[simp] theorem State.updateStore_idCounter (s : State) (f : Store → Store) :
    (s.updateStore f).idCounter = s.idCounter := rfl
@[simp] theorem State.updateStore_pos (s : State) (f : Store → Store) : (s.updateStore f).pos = s.pos := rfl
@[simp] theorem State.updateStore_inputs (s : State) (f : Store → Store) : (s.updateStore f).inputs = s.inputs := rfl
@[simp] theorem State.updateStore_mark (s : State) (f : Store → Store) : (s.updateStore f).mark = s.mark := rfl
@[simp] theorem State.updateStore_pace (s : State) (f : Store → Store) : (s.updateStore f).pace = s.pace := rfl
@[simp] theorem State.updateStore_engine (s : State) (f : Store → Store) : (s.updateStore f).engine = s.engine := rfl
@[simp] theorem State.updateStore_cache (s : State) (f : Store → Store) : (s.updateStore f).cache = s.cache := rfl
@[simp] theorem State.updateStore_store (s : State) (f : Store → Store) : (s.updateStore f).store = f s.store := rfl
@[simp] theorem State.updateStore_dose (s : State) (f : Store → Store) : (s.updateStore f).dose = s.dose := rfl
@[simp] theorem State.updateStore_tension (s : State) (f : Store → Store) : (s.updateStore f).tension = s.tension := rfl
@[simp] theorem State.updateStore_records (s : State) (f : Store → Store) : (s.updateStore f).records = s.records := rfl
@[simp] theorem State.updateStore_freeSeq (s : State) (f : Store → Store) : (s.updateStore f).freeSeq = s.freeSeq := rfl
@[simp] theorem State.updateStore_pending (s : State) (f : Store → Store) : (s.updateStore f).pending = s.pending := rfl

/-! ### State.updateDose -/

@[simp] theorem State.updateDose_now (s : State) (f : Dose → Dose) : (s.updateDose f).now = s.now := rfl
@[simp] theorem State.updateDose_resetUnit (s : State) (f : Dose → Dose) : (s.updateDose f).resetUnit = s.resetUnit := rfl
@[simp] theorem State.updateDose_ports (s : State) (f : Dose → Dose) : (s.updateDose f).ports = s.ports := rfl
@[simp] theorem State.updateDose_line (s : State) (f : Dose → Dose) : (s.updateDose f).line = s.line := rfl
@[simp] theorem State.updateDose_queue (s : State) (f : Dose → Dose) : (s.updateDose f).queue = s.queue := rfl
@[simp] theorem State.updateDose_idCounter (s : State) (f : Dose → Dose) : (s.updateDose f).idCounter = s.idCounter := rfl
@[simp] theorem State.updateDose_pos (s : State) (f : Dose → Dose) : (s.updateDose f).pos = s.pos := rfl
@[simp] theorem State.updateDose_inputs (s : State) (f : Dose → Dose) : (s.updateDose f).inputs = s.inputs := rfl
@[simp] theorem State.updateDose_mark (s : State) (f : Dose → Dose) : (s.updateDose f).mark = s.mark := rfl
@[simp] theorem State.updateDose_pace (s : State) (f : Dose → Dose) : (s.updateDose f).pace = s.pace := rfl
@[simp] theorem State.updateDose_engine (s : State) (f : Dose → Dose) : (s.updateDose f).engine = s.engine := rfl
@[simp] theorem State.updateDose_cache (s : State) (f : Dose → Dose) : (s.updateDose f).cache = s.cache := rfl
@[simp] theorem State.updateDose_store (s : State) (f : Dose → Dose) : (s.updateDose f).store = s.store := rfl
@[simp] theorem State.updateDose_dose (s : State) (f : Dose → Dose) : (s.updateDose f).dose = f s.dose := rfl
@[simp] theorem State.updateDose_tension (s : State) (f : Dose → Dose) : (s.updateDose f).tension = s.tension := rfl
@[simp] theorem State.updateDose_records (s : State) (f : Dose → Dose) : (s.updateDose f).records = s.records := rfl
@[simp] theorem State.updateDose_freeSeq (s : State) (f : Dose → Dose) : (s.updateDose f).freeSeq = s.freeSeq := rfl
@[simp] theorem State.updateDose_pending (s : State) (f : Dose → Dose) : (s.updateDose f).pending = s.pending := rfl

/-! ### State.updateTension -/

@[simp] theorem State.updateTension_now (s : State) (f : Tension → Tension) : (s.updateTension f).now = s.now := rfl
@[simp] theorem State.updateTension_resetUnit (s : State) (f : Tension → Tension) :
    (s.updateTension f).resetUnit = s.resetUnit := rfl
@[simp] theorem State.updateTension_ports (s : State) (f : Tension → Tension) : (s.updateTension f).ports = s.ports := rfl
@[simp] theorem State.updateTension_line (s : State) (f : Tension → Tension) : (s.updateTension f).line = s.line := rfl
@[simp] theorem State.updateTension_queue (s : State) (f : Tension → Tension) : (s.updateTension f).queue = s.queue := rfl
@[simp] theorem State.updateTension_idCounter (s : State) (f : Tension → Tension) :
    (s.updateTension f).idCounter = s.idCounter := rfl
@[simp] theorem State.updateTension_pos (s : State) (f : Tension → Tension) : (s.updateTension f).pos = s.pos := rfl
@[simp] theorem State.updateTension_inputs (s : State) (f : Tension → Tension) : (s.updateTension f).inputs = s.inputs := rfl
@[simp] theorem State.updateTension_mark (s : State) (f : Tension → Tension) : (s.updateTension f).mark = s.mark := rfl
@[simp] theorem State.updateTension_pace (s : State) (f : Tension → Tension) : (s.updateTension f).pace = s.pace := rfl
@[simp] theorem State.updateTension_engine (s : State) (f : Tension → Tension) : (s.updateTension f).engine = s.engine := rfl
@[simp] theorem State.updateTension_cache (s : State) (f : Tension → Tension) : (s.updateTension f).cache = s.cache := rfl
@[simp] theorem State.updateTension_store (s : State) (f : Tension → Tension) : (s.updateTension f).store = s.store := rfl
@[simp] theorem State.updateTension_dose (s : State) (f : Tension → Tension) : (s.updateTension f).dose = s.dose := rfl
@[simp] theorem State.updateTension_tension (s : State) (f : Tension → Tension) :
    (s.updateTension f).tension = f s.tension := rfl
@[simp] theorem State.updateTension_records (s : State) (f : Tension → Tension) :
    (s.updateTension f).records = s.records := rfl
@[simp] theorem State.updateTension_freeSeq (s : State) (f : Tension → Tension) :
    (s.updateTension f).freeSeq = s.freeSeq := rfl
@[simp] theorem State.updateTension_pending (s : State) (f : Tension → Tension) :
    (s.updateTension f).pending = s.pending := rfl

/-! ### State.updateRecords -/

@[simp] theorem State.updateRecords_now (s : State) (f : RecordQueue → RecordQueue) : (s.updateRecords f).now = s.now := rfl
@[simp] theorem State.updateRecords_resetUnit (s : State) (f : RecordQueue → RecordQueue) :
    (s.updateRecords f).resetUnit = s.resetUnit := rfl
@[simp] theorem State.updateRecords_ports (s : State) (f : RecordQueue → RecordQueue) :
    (s.updateRecords f).ports = s.ports := rfl
@[simp] theorem State.updateRecords_line (s : State) (f : RecordQueue → RecordQueue) :
    (s.updateRecords f).line = s.line := rfl
@[simp] theorem State.updateRecords_queue (s : State) (f : RecordQueue → RecordQueue) :
    (s.updateRecords f).queue = s.queue := rfl
@[simp] theorem State.updateRecords_idCounter (s : State) (f : RecordQueue → RecordQueue) :
    (s.updateRecords f).idCounter = s.idCounter := rfl
@[simp] theorem State.updateRecords_pos (s : State) (f : RecordQueue → RecordQueue) : (s.updateRecords f).pos = s.pos := rfl
@[simp] theorem State.updateRecords_inputs (s : State) (f : RecordQueue → RecordQueue) :
    (s.updateRecords f).inputs = s.inputs := rfl
@[simp] theorem State.updateRecords_mark (s : State) (f : RecordQueue → RecordQueue) :
    (s.updateRecords f).mark = s.mark := rfl
@[simp] theorem State.updateRecords_pace (s : State) (f : RecordQueue → RecordQueue) :
    (s.updateRecords f).pace = s.pace := rfl
@[simp] theorem State.updateRecords_engine (s : State) (f : RecordQueue → RecordQueue) :
    (s.updateRecords f).engine = s.engine := rfl
@[simp] theorem State.updateRecords_cache (s : State) (f : RecordQueue → RecordQueue) :
    (s.updateRecords f).cache = s.cache := rfl
@[simp] theorem State.updateRecords_store (s : State) (f : RecordQueue → RecordQueue) :
    (s.updateRecords f).store = s.store := rfl
@[simp] theorem State.updateRecords_dose (s : State) (f : RecordQueue → RecordQueue) :
    (s.updateRecords f).dose = s.dose := rfl
@[simp] theorem State.updateRecords_tension (s : State) (f : RecordQueue → RecordQueue) :
    (s.updateRecords f).tension = s.tension := rfl
@[simp] theorem State.updateRecords_records (s : State) (f : RecordQueue → RecordQueue) :
    (s.updateRecords f).records = f s.records := rfl
@[simp] theorem State.updateRecords_freeSeq (s : State) (f : RecordQueue → RecordQueue) :
    (s.updateRecords f).freeSeq = s.freeSeq := rfl
@[simp] theorem State.updateRecords_pending (s : State) (f : RecordQueue → RecordQueue) :
    (s.updateRecords f).pending = s.pending := rfl

/-! ### State.mapPanels -/

@[simp] theorem State.mapPanels_now (s : State) (c : Panel → Bool) (f : Panel → Panel) : (s.mapPanels c f).now = s.now := rfl
@[simp] theorem State.mapPanels_resetUnit (s : State) (c : Panel → Bool) (f : Panel → Panel) :
    (s.mapPanels c f).resetUnit = s.resetUnit := rfl
@[simp] theorem State.mapPanels_ports (s : State) (c : Panel → Bool) (f : Panel → Panel) :
    (s.mapPanels c f).ports = s.ports := rfl
@[simp] theorem State.mapPanels_line (s : State) (c : Panel → Bool) (f : Panel → Panel) :
    (s.mapPanels c f).line = s.line := rfl
@[simp] theorem State.mapPanels_queue (s : State) (c : Panel → Bool) (f : Panel → Panel) :
    (s.mapPanels c f).queue = s.queue.map fun r => if c r then f r else r := rfl
@[simp] theorem State.mapPanels_idCounter (s : State) (c : Panel → Bool) (f : Panel → Panel) :
    (s.mapPanels c f).idCounter = s.idCounter := rfl
@[simp] theorem State.mapPanels_pos (s : State) (c : Panel → Bool) (f : Panel → Panel) : (s.mapPanels c f).pos = s.pos := rfl
@[simp] theorem State.mapPanels_inputs (s : State) (c : Panel → Bool) (f : Panel → Panel) :
    (s.mapPanels c f).inputs = s.inputs := rfl
@[simp] theorem State.mapPanels_mark (s : State) (c : Panel → Bool) (f : Panel → Panel) :
    (s.mapPanels c f).mark = s.mark := rfl
@[simp] theorem State.mapPanels_pace (s : State) (c : Panel → Bool) (f : Panel → Panel) :
    (s.mapPanels c f).pace = s.pace := rfl
@[simp] theorem State.mapPanels_engine (s : State) (c : Panel → Bool) (f : Panel → Panel) :
    (s.mapPanels c f).engine = s.engine := rfl
@[simp] theorem State.mapPanels_cache (s : State) (c : Panel → Bool) (f : Panel → Panel) :
    (s.mapPanels c f).cache = s.cache := rfl
@[simp] theorem State.mapPanels_store (s : State) (c : Panel → Bool) (f : Panel → Panel) :
    (s.mapPanels c f).store = s.store := rfl
@[simp] theorem State.mapPanels_dose (s : State) (c : Panel → Bool) (f : Panel → Panel) :
    (s.mapPanels c f).dose = s.dose := rfl
@[simp] theorem State.mapPanels_tension (s : State) (c : Panel → Bool) (f : Panel → Panel) :
    (s.mapPanels c f).tension = s.tension := rfl
@[simp] theorem State.mapPanels_records (s : State) (c : Panel → Bool) (f : Panel → Panel) :
    (s.mapPanels c f).records = s.records := rfl
@[simp] theorem State.mapPanels_freeSeq (s : State) (c : Panel → Bool) (f : Panel → Panel) :
    (s.mapPanels c f).freeSeq = s.freeSeq := rfl
@[simp] theorem State.mapPanels_pending (s : State) (c : Panel → Bool) (f : Panel → Panel) :
    (s.mapPanels c f).pending = s.pending := rfl

/-! ### State.raise -/

@[simp] theorem State.raise_now (s : State) (k : Attn) : (s.raise k).now = s.now := rfl
@[simp] theorem State.raise_resetUnit (s : State) (k : Attn) : (s.raise k).resetUnit = s.resetUnit := rfl
@[simp] theorem State.raise_ports (s : State) (k : Attn) :
    (s.raise k).ports = s.ports.map fun q => { q with pending := q.pending ||| k.bit } := rfl
@[simp] theorem State.raise_line (s : State) (k : Attn) : (s.raise k).line = s.line := rfl
@[simp] theorem State.raise_queue (s : State) (k : Attn) : (s.raise k).queue = s.queue := rfl
@[simp] theorem State.raise_idCounter (s : State) (k : Attn) : (s.raise k).idCounter = s.idCounter := rfl
@[simp] theorem State.raise_pos (s : State) (k : Attn) : (s.raise k).pos = s.pos := rfl
@[simp] theorem State.raise_inputs (s : State) (k : Attn) : (s.raise k).inputs = s.inputs := rfl
@[simp] theorem State.raise_mark (s : State) (k : Attn) : (s.raise k).mark = s.mark := rfl
@[simp] theorem State.raise_pace (s : State) (k : Attn) : (s.raise k).pace = s.pace := rfl
@[simp] theorem State.raise_engine (s : State) (k : Attn) : (s.raise k).engine = s.engine := rfl
@[simp] theorem State.raise_cache (s : State) (k : Attn) : (s.raise k).cache = s.cache := rfl
@[simp] theorem State.raise_store (s : State) (k : Attn) : (s.raise k).store = s.store := rfl
@[simp] theorem State.raise_dose (s : State) (k : Attn) : (s.raise k).dose = s.dose := rfl
@[simp] theorem State.raise_tension (s : State) (k : Attn) : (s.raise k).tension = s.tension := rfl
@[simp] theorem State.raise_records (s : State) (k : Attn) : (s.raise k).records = s.records := rfl
@[simp] theorem State.raise_freeSeq (s : State) (k : Attn) : (s.raise k).freeSeq = s.freeSeq := rfl
@[simp] theorem State.raise_pending (s : State) (k : Attn) : (s.raise k).pending = s.pending := rfl

/-! ### State.raiseIf -/

@[simp] theorem State.raiseIf_now (s : State) (c : Bool) (k : Attn) : (s.raiseIf c k).now = s.now := by cases c <;> rfl
@[simp] theorem State.raiseIf_resetUnit (s : State) (c : Bool) (k : Attn) :
    (s.raiseIf c k).resetUnit = s.resetUnit := by cases c <;> rfl
@[simp] theorem State.raiseIf_ports (s : State) (c : Bool) (k : Attn) :
    (s.raiseIf c k).ports = if c then (s.raise k).ports else s.ports := by
  cases c <;> rfl
@[simp] theorem State.raiseIf_line (s : State) (c : Bool) (k : Attn) : (s.raiseIf c k).line = s.line := by cases c <;> rfl
@[simp] theorem State.raiseIf_queue (s : State) (c : Bool) (k : Attn) : (s.raiseIf c k).queue = s.queue := by cases c <;> rfl
@[simp] theorem State.raiseIf_idCounter (s : State) (c : Bool) (k : Attn) :
    (s.raiseIf c k).idCounter = s.idCounter := by cases c <;> rfl
@[simp] theorem State.raiseIf_pos (s : State) (c : Bool) (k : Attn) : (s.raiseIf c k).pos = s.pos := by cases c <;> rfl
@[simp] theorem State.raiseIf_inputs (s : State) (c : Bool) (k : Attn) :
    (s.raiseIf c k).inputs = s.inputs := by cases c <;> rfl
@[simp] theorem State.raiseIf_mark (s : State) (c : Bool) (k : Attn) : (s.raiseIf c k).mark = s.mark := by cases c <;> rfl
@[simp] theorem State.raiseIf_pace (s : State) (c : Bool) (k : Attn) : (s.raiseIf c k).pace = s.pace := by cases c <;> rfl
@[simp] theorem State.raiseIf_engine (s : State) (c : Bool) (k : Attn) :
    (s.raiseIf c k).engine = s.engine := by cases c <;> rfl
@[simp] theorem State.raiseIf_cache (s : State) (c : Bool) (k : Attn) : (s.raiseIf c k).cache = s.cache := by cases c <;> rfl
@[simp] theorem State.raiseIf_store (s : State) (c : Bool) (k : Attn) : (s.raiseIf c k).store = s.store := by cases c <;> rfl
@[simp] theorem State.raiseIf_dose (s : State) (c : Bool) (k : Attn) : (s.raiseIf c k).dose = s.dose := by cases c <;> rfl
@[simp] theorem State.raiseIf_tension (s : State) (c : Bool) (k : Attn) :
    (s.raiseIf c k).tension = s.tension := by cases c <;> rfl
@[simp] theorem State.raiseIf_records (s : State) (c : Bool) (k : Attn) :
    (s.raiseIf c k).records = s.records := by cases c <;> rfl
@[simp] theorem State.raiseIf_freeSeq (s : State) (c : Bool) (k : Attn) :
    (s.raiseIf c k).freeSeq = s.freeSeq := by cases c <;> rfl
@[simp] theorem State.raiseIf_pending (s : State) (c : Bool) (k : Attn) :
    (s.raiseIf c k).pending = s.pending := by cases c <;> rfl

/-! ### State.answer -/

@[simp] theorem State.answer_now (s : State) (p : PortId) (request : Byte) (r : Reply) :
    (s.answer p request r).now = s.now := rfl
@[simp] theorem State.answer_resetUnit (s : State) (p : PortId) (request : Byte) (r : Reply) :
    (s.answer p request r).resetUnit = s.resetUnit := rfl
@[simp] theorem State.answer_ports (s : State) (p : PortId) (request : Byte) (r : Reply) :
    (s.answer p request r).ports = s.ports.set p (s.ports[p].place request r) := rfl
@[simp] theorem State.answer_line (s : State) (p : PortId) (request : Byte) (r : Reply) :
    (s.answer p request r).line = s.line := rfl
@[simp] theorem State.answer_queue (s : State) (p : PortId) (request : Byte) (r : Reply) :
    (s.answer p request r).queue = s.queue := rfl
@[simp] theorem State.answer_idCounter (s : State) (p : PortId) (request : Byte) (r : Reply) :
    (s.answer p request r).idCounter = s.idCounter := rfl
@[simp] theorem State.answer_pos (s : State) (p : PortId) (request : Byte) (r : Reply) :
    (s.answer p request r).pos = s.pos := rfl
@[simp] theorem State.answer_inputs (s : State) (p : PortId) (request : Byte) (r : Reply) :
    (s.answer p request r).inputs = s.inputs := rfl
@[simp] theorem State.answer_mark (s : State) (p : PortId) (request : Byte) (r : Reply) :
    (s.answer p request r).mark = s.mark := rfl
@[simp] theorem State.answer_pace (s : State) (p : PortId) (request : Byte) (r : Reply) :
    (s.answer p request r).pace = s.pace := rfl
@[simp] theorem State.answer_engine (s : State) (p : PortId) (request : Byte) (r : Reply) :
    (s.answer p request r).engine = s.engine := rfl
@[simp] theorem State.answer_cache (s : State) (p : PortId) (request : Byte) (r : Reply) :
    (s.answer p request r).cache = s.cache := rfl
@[simp] theorem State.answer_store (s : State) (p : PortId) (request : Byte) (r : Reply) :
    (s.answer p request r).store = s.store := rfl
@[simp] theorem State.answer_dose (s : State) (p : PortId) (request : Byte) (r : Reply) :
    (s.answer p request r).dose = s.dose := rfl
@[simp] theorem State.answer_tension (s : State) (p : PortId) (request : Byte) (r : Reply) :
    (s.answer p request r).tension = s.tension := rfl
@[simp] theorem State.answer_records (s : State) (p : PortId) (request : Byte) (r : Reply) :
    (s.answer p request r).records = s.records := rfl
@[simp] theorem State.answer_freeSeq (s : State) (p : PortId) (request : Byte) (r : Reply) :
    (s.answer p request r).freeSeq = s.freeSeq := rfl
@[simp] theorem State.answer_pending (s : State) (p : PortId) (request : Byte) (r : Reply) :
    (s.answer p request r).pending = s.pending := rfl

end Sys2Proof.Machine
end

