-- ==== Sys2Proof/Laws/Events.lean ====
section
/-!
SUPPORT. What the shared operations can do, said once: raising a cause, closing an event, re-evaluating, serving a request.
-/
namespace Sys2Proof.Machine

/-! ## Causes and events (R160 to R162, R170) -/

/-- In UNSET a cause changes nothing (R160). -/
theorem raiseCause_unset {s : State} (c : StopCause) (h : s.line.state = .unset) : raiseCause s c = s := by
  simp [raiseCause, h]

/-- In TRACKING a cause latches a stop record and halts the line (R161). -/
theorem raiseCause_tracking {s : State} (c : StopCause) (h : s.line.state = .tracking) :
    (raiseCause s c).line = { s.line with state := .halted, stop := some (latchRecord s c) } := by
  simp [raiseCause, h]

/-- In HALTED a cause is a further cause (R162). -/
theorem raiseCause_halted {s : State} (c : StopCause) (h : s.line.state = .halted) :
    (raiseCause s c).line = { s.line with stop := s.line.stop.map (·.further c) } := by
  simp [raiseCause, h]

/-- A part of the state that no cause changes, no list of causes changes. -/
theorem foldl_raiseCause_keeps {α : Sort _} (f : State → α) (h : ∀ s c, f (raiseCause s c) = f s) (cs : List StopCause)
    (s : State) : f (cs.foldl raiseCause s) = f s := by
  induction cs generalizing s with
  | nil => rfl
  | cons c rest ih => rw [List.foldl_cons, ih, h]

@[simp] theorem raiseCause_now (s : State) (c : StopCause) : (raiseCause s c).now = s.now := by
  unfold raiseCause; split <;> rfl

@[simp] theorem raiseCause_resetUnit (s : State) (c : StopCause) : (raiseCause s c).resetUnit = s.resetUnit := by
  unfold raiseCause; split <;> rfl

@[simp] theorem raiseCause_idCounter (s : State) (c : StopCause) : (raiseCause s c).idCounter = s.idCounter := by
  unfold raiseCause; split <;> rfl

@[simp] theorem raiseCause_pos (s : State) (c : StopCause) : (raiseCause s c).pos = s.pos := by
  unfold raiseCause; split <;> rfl

@[simp] theorem raiseCause_inputs (s : State) (c : StopCause) : (raiseCause s c).inputs = s.inputs := by
  unfold raiseCause; split <;> rfl

@[simp] theorem raiseCause_mark (s : State) (c : StopCause) : (raiseCause s c).mark = s.mark := by
  unfold raiseCause; split <;> rfl

@[simp] theorem raiseCause_pace (s : State) (c : StopCause) : (raiseCause s c).pace = s.pace := by
  unfold raiseCause; split <;> rfl

@[simp] theorem raiseCause_engine (s : State) (c : StopCause) : (raiseCause s c).engine = s.engine := by
  unfold raiseCause; split <;> rfl

@[simp] theorem raiseCause_cache (s : State) (c : StopCause) : (raiseCause s c).cache = s.cache := by
  unfold raiseCause; split <;> rfl

@[simp] theorem raiseCause_store (s : State) (c : StopCause) : (raiseCause s c).store = s.store := by
  unfold raiseCause; split <;> rfl

@[simp] theorem raiseCause_dose (s : State) (c : StopCause) : (raiseCause s c).dose = s.dose := by
  unfold raiseCause; split <;> rfl

@[simp] theorem raiseCause_tension (s : State) (c : StopCause) : (raiseCause s c).tension = s.tension := by
  unfold raiseCause; split <;> rfl

@[simp] theorem raiseCause_records (s : State) (c : StopCause) : (raiseCause s c).records = s.records := by
  unfold raiseCause; split <;> rfl

@[simp] theorem raiseCause_freeSeq (s : State) (c : StopCause) : (raiseCause s c).freeSeq = s.freeSeq := by
  unfold raiseCause; split <;> rfl

@[simp] theorem raiseCause_pending (s : State) (c : StopCause) : (raiseCause s c).pending = s.pending := by
  unfold raiseCause; split <;> rfl

@[simp] theorem raiseCause_line_active (s : State) (c : StopCause) : (raiseCause s c).line.active = s.line.active := by
  unfold raiseCause; split <;> rfl

@[simp] theorem raiseCause_line_hold (s : State) (c : StopCause) : (raiseCause s c).line.hold = s.line.hold := by
  unfold raiseCause; split <;> rfl

@[simp] theorem raiseCause_line_recordPending (s : State) (c : StopCause) : (raiseCause s c).line.recordPending = s.line.recordPending := by
  unfold raiseCause; split <;> rfl

@[simp] theorem closeEvent_now (b s : State) (cs : List StopCause) : (closeEvent b s cs).now = s.now := by
  simp only [closeEvent, State.raiseIf_now]
  exact foldl_raiseCause_keeps (·.now) raiseCause_now _ s

@[simp] theorem closeEvent_resetUnit (b s : State) (cs : List StopCause) : (closeEvent b s cs).resetUnit = s.resetUnit := by
  simp only [closeEvent, State.raiseIf_resetUnit]
  exact foldl_raiseCause_keeps (·.resetUnit) raiseCause_resetUnit _ s

@[simp] theorem closeEvent_idCounter (b s : State) (cs : List StopCause) : (closeEvent b s cs).idCounter = s.idCounter := by
  simp only [closeEvent, State.raiseIf_idCounter]
  exact foldl_raiseCause_keeps (·.idCounter) raiseCause_idCounter _ s

@[simp] theorem closeEvent_pos (b s : State) (cs : List StopCause) : (closeEvent b s cs).pos = s.pos := by
  simp only [closeEvent, State.raiseIf_pos]
  exact foldl_raiseCause_keeps (·.pos) raiseCause_pos _ s

@[simp] theorem closeEvent_inputs (b s : State) (cs : List StopCause) : (closeEvent b s cs).inputs = s.inputs := by
  simp only [closeEvent, State.raiseIf_inputs]
  exact foldl_raiseCause_keeps (·.inputs) raiseCause_inputs _ s

@[simp] theorem closeEvent_mark (b s : State) (cs : List StopCause) : (closeEvent b s cs).mark = s.mark := by
  simp only [closeEvent, State.raiseIf_mark]
  exact foldl_raiseCause_keeps (·.mark) raiseCause_mark _ s

@[simp] theorem closeEvent_pace (b s : State) (cs : List StopCause) : (closeEvent b s cs).pace = s.pace := by
  simp only [closeEvent, State.raiseIf_pace]
  exact foldl_raiseCause_keeps (·.pace) raiseCause_pace _ s

@[simp] theorem closeEvent_engine (b s : State) (cs : List StopCause) : (closeEvent b s cs).engine = s.engine := by
  simp only [closeEvent, State.raiseIf_engine]
  exact foldl_raiseCause_keeps (·.engine) raiseCause_engine _ s

@[simp] theorem closeEvent_cache (b s : State) (cs : List StopCause) : (closeEvent b s cs).cache = s.cache := by
  simp only [closeEvent, State.raiseIf_cache]
  exact foldl_raiseCause_keeps (·.cache) raiseCause_cache _ s

@[simp] theorem closeEvent_store (b s : State) (cs : List StopCause) : (closeEvent b s cs).store = s.store := by
  simp only [closeEvent, State.raiseIf_store]
  exact foldl_raiseCause_keeps (·.store) raiseCause_store _ s

@[simp] theorem closeEvent_dose (b s : State) (cs : List StopCause) : (closeEvent b s cs).dose = s.dose := by
  simp only [closeEvent, State.raiseIf_dose]
  exact foldl_raiseCause_keeps (·.dose) raiseCause_dose _ s

@[simp] theorem closeEvent_tension (b s : State) (cs : List StopCause) : (closeEvent b s cs).tension = s.tension := by
  simp only [closeEvent, State.raiseIf_tension]
  exact foldl_raiseCause_keeps (·.tension) raiseCause_tension _ s

@[simp] theorem closeEvent_records (b s : State) (cs : List StopCause) : (closeEvent b s cs).records = s.records := by
  simp only [closeEvent, State.raiseIf_records]
  exact foldl_raiseCause_keeps (·.records) raiseCause_records _ s

@[simp] theorem closeEvent_freeSeq (b s : State) (cs : List StopCause) : (closeEvent b s cs).freeSeq = s.freeSeq := by
  simp only [closeEvent, State.raiseIf_freeSeq]
  exact foldl_raiseCause_keeps (·.freeSeq) raiseCause_freeSeq _ s

@[simp] theorem closeEvent_pending (b s : State) (cs : List StopCause) : (closeEvent b s cs).pending = s.pending := by
  simp only [closeEvent, State.raiseIf_pending]
  exact foldl_raiseCause_keeps (·.pending) raiseCause_pending _ s

@[simp] theorem closeEvent_line_active (b s : State) (cs : List StopCause) : (closeEvent b s cs).line.active = s.line.active := by
  simp only [closeEvent, State.raiseIf_line]
  exact foldl_raiseCause_keeps (·.line.active) raiseCause_line_active _ s

@[simp] theorem closeEvent_line_hold (b s : State) (cs : List StopCause) : (closeEvent b s cs).line.hold = s.line.hold := by
  simp only [closeEvent, State.raiseIf_line]
  exact foldl_raiseCause_keeps (·.line.hold) raiseCause_line_hold _ s

@[simp] theorem closeEvent_line_recordPending (b s : State) (cs : List StopCause) : (closeEvent b s cs).line.recordPending = s.line.recordPending := by
  simp only [closeEvent, State.raiseIf_line]
  exact foldl_raiseCause_keeps (·.line.recordPending) raiseCause_line_recordPending _ s

/-- An event without causes leaves line control as it made it. -/
@[simp] theorem closeEvent_line_nil (b s : State) : (closeEvent b s []).line = s.line := by
  simp [closeEvent, orderCauses, allCauses]

/-- An event without causes leaves the queue as it made it. -/
@[simp] theorem closeEvent_queue_nil (b s : State) : (closeEvent b s []).queue = s.queue := by
  simp [closeEvent, orderCauses, allCauses]

/-! ## Re-evaluation (R80) -/

/-- What a re-evaluation can change: the engine, the NLU pointer and the store's fill; the cache's entries stay. -/
theorem reevaluate_changes (s : State) :
    ∃ (e : Option Computation) (n : Fin 8) (h : Option StoreOp) (w : Option SlotId),
      reevaluate s =
        { s with
          engine := e
          cache := { s.cache with nlu := n }
          store := { s.store with holder := h, fillWaiting := w } } := by
  unfold reevaluate
  split
  · rename_i m _
    have start : ∀ es, ∃ (e : Option Computation) (n : Fin 8),
        startComputation m es s = { s with engine := e, cache := { s.cache with nlu := n } } := by
      intro es
      unfold startComputation
      split
      · exact ⟨_, _, rfl⟩
      · exact ⟨_, _, rfl⟩
    obtain ⟨e, n, hs⟩ := start (eligibleRecords m s)
    rw [hs]
    unfold requestMissing requestFill
    split
    · split
      · split
        · exact ⟨e, n, _, _, rfl⟩
        · exact ⟨e, n, _, _, rfl⟩
      · exact ⟨e, n, _, _, rfl⟩
    · exact ⟨e, n, _, _, rfl⟩
  · exact ⟨_, _, _, _, rfl⟩

@[simp] theorem reevaluate_now (s : State) : (reevaluate s).now = s.now := by
  obtain ⟨_, _, _, _, h⟩ := reevaluate_changes s; rw [h]

@[simp] theorem reevaluate_resetUnit (s : State) : (reevaluate s).resetUnit = s.resetUnit := by
  obtain ⟨_, _, _, _, h⟩ := reevaluate_changes s; rw [h]

@[simp] theorem reevaluate_ports (s : State) : (reevaluate s).ports = s.ports := by
  obtain ⟨_, _, _, _, h⟩ := reevaluate_changes s; rw [h]

@[simp] theorem reevaluate_line (s : State) : (reevaluate s).line = s.line := by
  obtain ⟨_, _, _, _, h⟩ := reevaluate_changes s; rw [h]

@[simp] theorem reevaluate_queue (s : State) : (reevaluate s).queue = s.queue := by
  obtain ⟨_, _, _, _, h⟩ := reevaluate_changes s; rw [h]

@[simp] theorem reevaluate_idCounter (s : State) : (reevaluate s).idCounter = s.idCounter := by
  obtain ⟨_, _, _, _, h⟩ := reevaluate_changes s; rw [h]

@[simp] theorem reevaluate_pos (s : State) : (reevaluate s).pos = s.pos := by
  obtain ⟨_, _, _, _, h⟩ := reevaluate_changes s; rw [h]

@[simp] theorem reevaluate_inputs (s : State) : (reevaluate s).inputs = s.inputs := by
  obtain ⟨_, _, _, _, h⟩ := reevaluate_changes s; rw [h]

@[simp] theorem reevaluate_mark (s : State) : (reevaluate s).mark = s.mark := by
  obtain ⟨_, _, _, _, h⟩ := reevaluate_changes s; rw [h]

@[simp] theorem reevaluate_pace (s : State) : (reevaluate s).pace = s.pace := by
  obtain ⟨_, _, _, _, h⟩ := reevaluate_changes s; rw [h]

@[simp] theorem reevaluate_dose (s : State) : (reevaluate s).dose = s.dose := by
  obtain ⟨_, _, _, _, h⟩ := reevaluate_changes s; rw [h]

@[simp] theorem reevaluate_tension (s : State) : (reevaluate s).tension = s.tension := by
  obtain ⟨_, _, _, _, h⟩ := reevaluate_changes s; rw [h]

@[simp] theorem reevaluate_records (s : State) : (reevaluate s).records = s.records := by
  obtain ⟨_, _, _, _, h⟩ := reevaluate_changes s; rw [h]

@[simp] theorem reevaluate_freeSeq (s : State) : (reevaluate s).freeSeq = s.freeSeq := by
  obtain ⟨_, _, _, _, h⟩ := reevaluate_changes s; rw [h]

@[simp] theorem reevaluate_pending (s : State) : (reevaluate s).pending = s.pending := by
  obtain ⟨_, _, _, _, h⟩ := reevaluate_changes s; rw [h]

@[simp] theorem reevaluate_entries (s : State) : (reevaluate s).cache.entries = s.cache.entries := by
  obtain ⟨_, _, _, _, h⟩ := reevaluate_changes s; rw [h]

@[simp] theorem reevaluate_array (s : State) : (reevaluate s).store.array = s.store.array := by
  obtain ⟨_, _, _, _, h⟩ := reevaluate_changes s; rw [h]

@[simp] theorem reevaluate_dir (s : State) : (reevaluate s).store.dir = s.store.dir := by
  obtain ⟨_, _, _, _, h⟩ := reevaluate_changes s; rw [h]

@[simp] theorem reevaluate_staging (s : State) : (reevaluate s).store.staging = s.store.staging := by
  obtain ⟨_, _, _, _, h⟩ := reevaluate_changes s; rw [h]

@[simp] theorem reevaluate_requestWaiting (s : State) : (reevaluate s).store.requestWaiting = s.store.requestWaiting := by
  obtain ⟨_, _, _, _, h⟩ := reevaluate_changes s; rw [h]

/-! ## Requests (R190 to R192) -/

/-- A request on a port that shows BUSY is discarded (R190). -/
theorem takeRequest_busy {p : PortId} (request : Byte) (allowed : Role → Bool) (owner : State → Served) {s : State}
    (h : portFree s p = false) : takeRequest p request allowed owner s = s := by
  simp [takeRequest, h]

/-- A request of a role that may not make it is refused with NOT_PERMITTED (R192). -/
theorem takeRequest_notPermitted {p : PortId} (request : Byte) {allowed : Role → Bool} (owner : State → Served) {s : State}
    (h : portFree s p = true) (hr : allowed s.ports[p].role = false) :
    takeRequest p request allowed owner s = (s.updatePort p Port.accept).answer p request (.refused .notPermitted) := by
  rw [takeRequest, if_pos h, serve, if_neg (by rw [hr]; exact Bool.false_ne_true)]

/-- A request that is taken: its owner's effect, the reply placed, the event closed (R191, R192). -/
theorem takeRequest_served {p : PortId} (request : Byte) {allowed : Role → Bool} (owner : State → Served) {s : State}
    (h : portFree s p = true) (hr : allowed s.ports[p].role = true) :
    takeRequest p request allowed owner s =
      closeEvent s ((owner (s.updatePort p Port.accept)).st.answer p request (owner (s.updatePort p Port.accept)).reply)
        (owner (s.updatePort p Port.accept)).causes := by
  rw [takeRequest, if_pos h, serve, if_pos hr]

end Sys2Proof.Machine
end

