-- ==== Sys2Proof/Laws/Inputs.lean ====
section
/-!
SUPPORT. What the input filters can do (R34): a qualified change, a rise of MKCLK, and the samples of a millisecond without a
command. And what a source of device reset can do (R185).
-/
namespace Sys2Proof.Machine

/-- After three samples on a level it is accepted, with nothing counted against it, whatever stood before (R34). -/
@[simp] theorem InputFilter.settle_eq (f : InputFilter) (level : Bool) :
    f.settle level = { level := level, agree := 0 } := by
  obtain ⟨l, n⟩ := f
  rcases n with _ | _ | n <;> cases l <;> cases level <;> simp [InputFilter.settle, InputFilter.sample]

/-- After a qualified rising edge MKCLK is high (R34, R41). -/
@[simp] theorem InputFilter.rise_eq (f : InputFilter) : f.rise = { level := true, agree := 0 } := by
  simp [InputFilter.rise]

/-- A sample equal to the accepted level keeps it and restarts the count (R34). -/
@[simp] theorem InputFilter.sample_same (f : InputFilter) : f.sample f.level = { f with agree := 0 } := by
  simp [InputFilter.sample]

/-- A low level takes no change from low samples, and nothing is counted (R34). -/
@[simp] theorem InputFilter.sample_low (n : Nat) :
    ({ level := false, agree := n } : InputFilter).sample false = { level := false, agree := 0 } := by
  simp [InputFilter.sample]

/-- Low samples after a high level: fewer than three are counted, the third takes the falling change (R34). -/
theorem InputFilter.sink_high (f : InputFilter) (n : Nat) (h : f.level = true) :
    f.sink n = if n < 3 then { level := true, agree := n } else { level := false, agree := 0 } := by
  induction n with
  | zero => simp [InputFilter.sink, InputFilter.sample, Nat.repeat, h]
  | succ n ih =>
    have step : f.sink (n + 1) = (f.sink n).sample false := rfl
    rw [step, ih]
    by_cases h2 : n < 3
    · interval_cases n <;> rfl
    · have h3 : ¬ n + 1 < 3 := by omega
      simp [h2, h3]

/-- A level that is low stays low (R34). -/
@[simp] theorem InputFilter.sink_zero (f : InputFilter) : f.sink 0 = { f with agree := 0 } := by
  simp [InputFilter.sink, Nat.repeat]

/-- A millisecond's samples: PGATE, BREAKn and STOPINn keep their levels, and MKCLK stays or, from high, falls (R34). -/
theorem sampleInputs_inputs (s : State) :
    (sampleInputs s).inputs.pgate = { s.inputs.pgate with agree := 0 } ∧
    (sampleInputs s).inputs.breakn = { s.inputs.breakn with agree := 0 } ∧
    (sampleInputs s).inputs.stopinn = { s.inputs.stopinn with agree := 0 } ∧
    ((sampleInputs s).inputs.mkclk = { level := false, agree := 0 } ∨
      s.inputs.mkclk.level = true ∧ (sampleInputs s).inputs.mkclk.level = true ∧
        (sampleInputs s).inputs.mkclk.agree < 3) := by
  refine ⟨by simp [sampleInputs], by simp [sampleInputs], by simp [sampleInputs], ?_⟩
  cases h : s.inputs.mkclk.level
  · exact .inl (by simp [sampleInputs, h])
  · simp only [sampleInputs, h, if_true, InputFilter.sink_high _ _ h]
    split <;> simp_all

/-- The samples change the filters and the count of free values alone. -/
theorem sampleInputs_frame (s : State) :
    sampleInputs s = { s with inputs := (sampleInputs s).inputs, freeSeq := (sampleInputs s).freeSeq } := rfl

/-- The power-on source decides the cause wherever it is among the sources (R185). -/
@[simp] theorem causeTogether_powerOn (c : ResetCause) :
    causeTogether .powerOn c = .powerOn ∧ causeTogether c .powerOn = .powerOn := by cases c <;> exact ⟨rfl, rfl⟩

/-- The supply monitor decides it where the power-on source is absent (R185). -/
theorem causeTogether_supply (c : ResetCause) (h : c ≠ .powerOn) :
    causeTogether .supply c = .supply ∧ causeTogether c .supply = .supply := by
  cases c
  · exact absurd rfl h
  · exact ⟨rfl, rfl⟩
  · exact ⟨rfl, rfl⟩

/-- What a source of device reset can do: begin the reset, join one that begins, or change nothing (R185). -/
theorem deviceReset_cases (c : ResetCause) (s : State) :
    (s.live = true ∧ deviceReset c s = beginReset c s) ∨
    (s.live = false ∧ s.resetUnit.beginning = true ∧
      deviceReset c s = { s with resetUnit := { s.resetUnit with cause := causeTogether s.resetUnit.cause c } }) ∨
    (s.live = false ∧ s.resetUnit.beginning = false ∧ deviceReset c s = s) := by
  cases h : s.live <;> cases hb : s.resetUnit.beginning <;> simp [deviceReset, h, hb]

end Sys2Proof.Machine
end

