-- ==== Sys2Proof/Laws/Memory.lean ====
section
/-!
SUPPORT. The laws of the store array: every operation keeps the canonical form, a read after a write gives what was written,
and a write, a program and an erase leave every other address alone.
-/
namespace Sys2Proof.Machine

/-! ## The canonical form -/

/-- The canonical form as one statement: strictly rising addresses, no cell holding FFh. -/
theorem Memory.wf_iff (m : Memory) :
    Memory.wf m = true ↔ m.Pairwise (fun c d => c.1 < d.1) ∧ ∀ c ∈ m, c.2 ≠ erasedByte := by
  induction m with
  | nil => simp [Memory.wf]
  | cons c rest ih =>
    obtain ⟨a, v⟩ := c
    cases rest with
    | nil => simp [Memory.wf]
    | cons d tail =>
      obtain ⟨b, w⟩ := d
      rw [Memory.wf]
      simp only [Bool.and_eq_true, decide_eq_true_eq, ih, List.pairwise_cons, List.mem_cons, forall_eq_or_imp]
      constructor
      · rintro ⟨⟨hv, hab⟩, ⟨hb, hp⟩, hw, ht⟩
        exact ⟨⟨⟨hab, fun c hc => lt_trans hab (hb c hc)⟩, hb, hp⟩, hv, hw, ht⟩
      · rintro ⟨⟨⟨hab, -⟩, hb, hp⟩, hv, hw, ht⟩
        exact ⟨⟨hv, hab⟩, ⟨hb, hp⟩, hw, ht⟩

/-- The tail of a canonical array is canonical. -/
theorem Memory.wf_tail {c : Host.Cell} {m : Memory} (h : Memory.wf (c :: m) = true) : Memory.wf m = true := by
  rw [Memory.wf_iff] at *
  exact ⟨(List.pairwise_cons.mp h.1).2, fun d hd => h.2 d (List.mem_cons_of_mem _ hd)⟩

/-- A byte written before a canonical array whose addresses all lie above it. -/
theorem Memory.wf_consCell {m : Memory} {a : Nat} {v : Byte} (h : Memory.wf m = true) (ha : ∀ c ∈ m, a < c.1) :
    Memory.wf (Memory.consCell a v m) = true := by
  unfold Memory.consCell
  split
  · exact h
  · rename_i hv
    rw [Memory.wf_iff] at *
    refine ⟨List.pairwise_cons.mpr ⟨ha, h.1⟩, fun c hc => ?_⟩
    rcases List.mem_cons.mp hc with rfl | hc
    · exact hv
    · exact h.2 c hc

/-- The cells of an array after a write: the one written, or cells it had. -/
theorem Memory.mem_write {m : Memory} {a : Nat} {v : Byte} {c : Host.Cell} (h : c ∈ Memory.write m a v) :
    c = (a, v) ∨ c ∈ m := by
  have cons : ∀ {n : Memory}, c ∈ Memory.consCell a v n → c = (a, v) ∨ c ∈ n := by
    intro n hc
    unfold Memory.consCell at hc
    split at hc
    · exact .inr hc
    · exact List.mem_cons.mp hc
  induction m with
  | nil => exact cons h
  | cons d rest ih =>
    obtain ⟨b, w⟩ := d
    simp only [Memory.write] at h
    split at h
    · exact cons h
    · split at h
      · exact (cons h).imp_right (List.mem_cons_of_mem _)
      · rcases List.mem_cons.mp h with rfl | h
        · exact .inr List.mem_cons_self
        · exact (ih h).imp_right (List.mem_cons_of_mem _)

/-- A write keeps the canonical form. -/
theorem Memory.wf_write {m : Memory} (a : Nat) (v : Byte) (h : Memory.wf m = true) :
    Memory.wf (Memory.write m a v) = true := by
  induction m with
  | nil => exact Memory.wf_consCell h (by simp)
  | cons d rest ih =>
    obtain ⟨b, w⟩ := d
    have hb := (List.pairwise_cons.mp ((Memory.wf_iff _).mp h).1).1
    simp only [Memory.write]
    split
    · rename_i hab
      refine Memory.wf_consCell h fun c hc => ?_
      rcases List.mem_cons.mp hc with rfl | hc
      · exact hab
      · exact lt_trans hab (hb c hc)
    · split
      · rename_i hab
        exact Memory.wf_consCell (Memory.wf_tail h) fun c hc => hab ▸ hb c hc
      · rename_i hlt hne
        have ht := (Memory.wf_iff _).mp (ih (Memory.wf_tail h))
        refine (Memory.wf_iff _).mpr ⟨List.pairwise_cons.mpr ⟨fun c hc => ?_, ht.1⟩, fun c hc => ?_⟩
        · rcases Memory.mem_write hc with rfl | hc
          · exact lt_of_le_of_ne (Nat.le_of_not_lt hlt) fun e => hne e.symm
          · exact hb c hc
        · rcases List.mem_cons.mp hc with rfl | hc
          · exact ((Memory.wf_iff _).mp h).2 _ List.mem_cons_self
          · exact ht.2 c hc

/-- A program keeps the canonical form. -/
theorem Memory.wf_program {m : Memory} (a : Nat) (v : Byte) (h : Memory.wf m = true) :
    Memory.wf (Memory.program m a v) = true :=
  Memory.wf_write a _ h

/-- Programming a list keeps the canonical form. -/
theorem Memory.wf_programList {m : Memory} (a : Nat) (vs : List Byte) (h : Memory.wf m = true) :
    Memory.wf (Memory.programList m a vs) = true := by
  induction vs generalizing m a with
  | nil => exact h
  | cons v rest ih => exact ih (a + 1) (Memory.wf_program a v h)

/-- An erase keeps the canonical form. -/
theorem Memory.wf_eraseRange {m : Memory} (a n : Nat) (h : Memory.wf m = true) :
    Memory.wf (Memory.eraseRange m a n) = true := by
  rw [Memory.wf_iff] at *
  exact ⟨h.1.filter _, fun c hc => h.2 c (List.mem_of_mem_filter hc)⟩

/-- A row program keeps the canonical form. -/
theorem programRow_wf {m : Memory} (r : StagingRow) (h : Memory.wf m = true) : Memory.wf (programRow m r) = true :=
  Memory.wf_programList _ _ h

/-- A program cut off keeps the canonical form. -/
theorem programPart_wf {m : Memory} (n a : Nat) (vs : List Byte) (h : Memory.wf m = true) :
    Memory.wf (programPart n m a vs) = true := by
  induction vs generalizing m a with
  | nil => exact h
  | cons v rest ih => exact ih (a + 1) (Memory.wf_write a _ h)

/-- A chain of writes keeps the canonical form. -/
theorem foldl_write_wf {α : Type} (f : α → Nat × Byte) (l : List α) {m : Memory} (h : Memory.wf m = true) :
    Memory.wf (l.foldl (fun t i => Memory.write t (f i).1 (f i).2) m) = true := by
  induction l generalizing m with
  | nil => exact h
  | cons i rest ih => exact ih (Memory.wf_write _ _ h)

/-- A scrambled slot keeps the canonical form. -/
theorem scrambleSlot_wf {m : Memory} (n : Nat) (slot : SlotId) (h : Memory.wf m = true) :
    Memory.wf (scrambleSlot n m slot) = true :=
  foldl_write_wf (fun i => (slotBase slot + i,
    if i = 0 ∧ Config.cutByte n (slotBase slot + i) = 0x3C then 0 else Config.cutByte n (slotBase slot + i)))
    (List.range 1024) h

/-- An erase cut off keeps the canonical form. -/
theorem cutErase_wf {m : Memory} (n progress : Nat) (slot : SlotId) (h : Memory.wf m = true) :
    Memory.wf (cutErase n progress m slot) = true := by
  unfold cutErase
  split
  · exact h
  · split
    · exact Memory.wf_eraseRange _ _ h
    · exact scrambleSlot_wf n slot h

/-! ## Reads -/

/-- An address below every listed one reads FFh. -/
theorem Memory.read_of_lt {m : Memory} {a : Nat} (h : ∀ c ∈ m, a < c.1) : Memory.read m a = erasedByte := by
  induction m with
  | nil => rfl
  | cons d rest ih =>
    obtain ⟨b, w⟩ := d
    have hab : a ≠ b := Nat.ne_of_lt (h (b, w) List.mem_cons_self)
    simp only [Memory.read, hab, if_false]
    exact ih fun c hc => h c (List.mem_cons_of_mem _ hc)

/-- A byte set before an array that lists only higher addresses reads back. -/
theorem Memory.read_consCell {m : Memory} {a : Nat} (v : Byte) (h : ∀ c ∈ m, a < c.1) :
    Memory.read (Memory.consCell a v m) a = v := by
  unfold Memory.consCell
  split
  · rename_i hv
    rw [Memory.read_of_lt h, hv]
  · simp [Memory.read]

/-- A read after a write to the same address gives the byte written. -/
theorem Memory.read_write {m : Memory} (a : Nat) (v : Byte) (h : Memory.wf m = true) :
    Memory.read (Memory.write m a v) a = v := by
  induction m with
  | nil => exact Memory.read_consCell v (by simp)
  | cons d rest ih =>
    obtain ⟨b, w⟩ := d
    have hb := (List.pairwise_cons.mp ((Memory.wf_iff _).mp h).1).1
    simp only [Memory.write]
    split
    · rename_i hab
      refine Memory.read_consCell v fun c hc => ?_
      rcases List.mem_cons.mp hc with rfl | hc
      · exact hab
      · exact lt_trans hab (hb c hc)
    · split
      · rename_i hab
        exact Memory.read_consCell v fun c hc => hab ▸ hb c hc
      · rename_i hne
        simp only [Memory.read, hne, if_false]
        exact ih (Memory.wf_tail h)

/-- A write leaves every other address as it was. -/
theorem Memory.read_write_other {m : Memory} {a x : Nat} (v : Byte) (hx : x ≠ a) :
    Memory.read (Memory.write m a v) x = Memory.read m x := by
  have cons : ∀ n : Memory, Memory.read (Memory.consCell a v n) x = Memory.read n x := by
    intro n
    unfold Memory.consCell
    split
    · rfl
    · simp [Memory.read, hx]
  induction m with
  | nil => exact cons []
  | cons d rest ih =>
    obtain ⟨b, w⟩ := d
    simp only [Memory.write]
    split
    · exact cons _
    · split
      · rename_i hab
        rw [cons]
        simp [Memory.read, hab ▸ hx]
      · simp only [Memory.read, ih]

/-- A program reads back with bits cleared only (R135). -/
theorem Memory.read_program {m : Memory} (a : Nat) (v : Byte) (h : Memory.wf m = true) :
    Memory.read (Memory.program m a v) a = Memory.read m a &&& v :=
  Memory.read_write a _ h

/-- A program leaves every other address as it was. -/
theorem Memory.read_program_other {m : Memory} {a x : Nat} (v : Byte) (hx : x ≠ a) :
    Memory.read (Memory.program m a v) x = Memory.read m x :=
  Memory.read_write_other _ hx

/-- Programming a list leaves every address outside it as it was. -/
theorem Memory.read_programList_other {m : Memory} {a x : Nat} (vs : List Byte) (hx : x < a ∨ a + vs.length ≤ x) :
    Memory.read (Memory.programList m a vs) x = Memory.read m x := by
  induction vs generalizing m a with
  | nil => rfl
  | cons v rest ih =>
    simp only [List.length_cons] at hx
    rw [Memory.programList, ih (by omega), Memory.read_program_other _ (by omega)]

/-- After an erase, an address reads FFh inside the range and as before outside it (R135). -/
theorem Memory.read_eraseRange (m : Memory) (a n x : Nat) :
    Memory.read (Memory.eraseRange m a n) x = if a ≤ x ∧ x < a + n then erasedByte else Memory.read m x := by
  induction m with
  | nil => simp [Memory.eraseRange, Memory.read]
  | cons d rest ih =>
    obtain ⟨b, w⟩ := d
    simp only [Memory.eraseRange] at ih ⊢
    by_cases hb : a ≤ b ∧ b < a + n
    · rw [List.filter_cons_of_neg (by simp only [decide_not]; simpa using hb), ih]
      by_cases hx : a ≤ x ∧ x < a + n
      · simp [hx]
      · have : x ≠ b := fun e => hx (e ▸ hb)
        simp [hx, Memory.read, this]
    · rw [List.filter_cons_of_pos (by simp only [decide_eq_true_eq]; exact hb)]
      by_cases hxb : x = b
      · subst hxb
        simp [Memory.read, hb]
      · simp only [Memory.read, hxb, if_false, ih]

end Sys2Proof.Machine
end

