-- ==== Sys2Proof/Tests/Slice0.lean ====
section
/-!
SUPPORT. Tests: the WellFormed smoke, figures of the manual's worked examples, and for every statement of Obligations.lean
that has hypotheses a state that meets them, clause by clause.
-/
-- one theorem after another: in parallel the kernel evaluations below want more thread stacks than the check allows
set_option Elab.async false

namespace Sys2Proof.Tests

open Sys2Proof.Machine Sys2Proof.Safety

/-! ## WellFormed: what it refuses -/

theorem test_announce_too_long_is_ill_formed :
    (Instr.announcePanel 3 0 1 1000 300 (List.replicate 50 0)).wellFormed = false := by decide

theorem test_announce_that_fits_is_well_formed :
    (Instr.announcePanel 3 0 1 1000 300 (List.replicate 49 0)).wellFormed = true := by decide

theorem test_write_too_long_is_ill_formed :
    (Instr.writeSlot 3 1 2 (List.replicate 59 0)).wellFormed = false := by decide

theorem test_report_too_long_is_ill_formed :
    (Instr.reportTemperatures 1 (List.replicate 31 0)).wellFormed = false := by decide

/-! ## Helper states -/

/-- A station port with its default mask. -/
def station (r : Role) : Port :=
  { Port.reset with role := r, mask := defaultMask r }

/-- The part running with a PRINT, a CALENDER, a DRIVE and a PRODUCTION port. -/
def run : State :=
  { State.reset with
    resetUnit := { State.reset.resetUnit with phase := .running, maint := true }
    ports := #v[station .print, station .calender, station .drive, station .production] }

/-- The machine record of the manual's worked figures (2.1, 2.2, 3.10, 5.7, 6.6, 7.7). -/
def rec0 : MachineRecord :=
  { zoneCount := 8, name := List.replicate 16 0x41, pencRes := 5000, cencRes := 12500, fencRes := 10000
    gateActiveLow := false, filterInterval := 1, arcLen := 4200, drumWidth := 3200, markLead := 8000, blankLen := 2000
    syncLimit := 300, haltOnNonMatch := false, holdOnUnready := true, stopLow := 40000, warnLow := 60000, resume := 90000
    holdHigh := 180000, stopHigh := 220000, lengthTolerance := 200, nominalSpeed := 150, vMin := 5, slipLimit := 5000
    tempStaleMs := 500, tensionStaleMs := 500, hardStaleMs := 3000, fallbackTemp := 2120, fallbackDRef := 20000
    scorchLimit := 1300, spreadLimit := 20, t0 := 1800, tempStep := 20
    rates := [380, 430, 485, 545, 610, 680, 735, 790, 845, 905, 1000, 1090, 1180, 1270, 1360, 1450]
    refreshInterval := 5000, pitch := 42333, defaultPaperIn := 100, defaultFabricUnwind := 150, defaultCalIn := 160
    defaultFabricRewind := 140, rampRate := 40, excursionBand := 15, coreDiameter := 150, maxDiameter := 1000 }

/-- The profile of section 3.10. -/
def prof0 : Profile :=
  { channels :=
      [{ base := 4300, limit := 6144, curve := [5120, 4600, 4096, 3700, 3400] },
        { base := 4096, limit := 6144, curve := [5300, 4700, 4096, 3650, 3300] },
        { base := 3900, limit := 6144, curve := [4900, 4450, 4096, 3800, 3550] },
        { base := 4200, limit := 6144, curve := [4700, 4380, 4096, 3850, 3640] }]
    inkLimit := 320
    stretch := 45
    neck := 12
    copies := { dRef := 25000, band := 40, baseTension := 160, paperTension := 90, taper := 30 } }

/-- The snapshot of section 3.10. -/
def snap0 : Snapshot :=
  { width := 1800, coverage := [95, 90, 85, 60], profile := prof0, generation := 1, machine := rec0
    vCal := { magnitude := 160, reverse := false }
    zones := [(0, false), (1978, true), (1986, true), (1990, true), (1988, true), (1984, true), (1978, true), (0, false)]
    trim := -12, bias := 20 }

/-- A fresh zone. -/
def fresh (v : Nat) : Zone :=
  { value := v, age := 0, standing := .fresh }

/-- A line that tracks under the record, 150,000 WU long. -/
def tracking : State :=
  { run with
    line := { run.line with state := .tracking, active := some rec0 }
    pos := { run.pos with xPrint := 150000, lastFill := 150000, vCal := { magnitude := 160, reverse := false } }
    pace := { run.pace with threshold := some 42333 }
    dose := { run.dose with zones := List.replicate 8 (fresh 1984) }
    tension := { run.tension with
      paperIn := fresh 100, fabricUnwind := fresh 150, calIn := fresh 160, fabricRewind := fresh 140, diameter := 700
      setpoints := { paperIn := 10000, fabricUnwind := 15000, calIn := 16000, fabricRewind := 14000 } } }

/-- The same line halted by STOP. -/
def halted : State :=
  { tracking with line := { tracking.line with state := .halted, stop := some (latchRecord tracking .requested) } }

/-- The announced part of a record of slot 5. -/
def announced : Announced :=
  { jobId := 7, slot := 5, generation := 1, length := 12000, width := 1800, coverage := [95, 90, 85, 60] }

/-- A NORMAL record waiting in the queue. -/
def waiting : Panel :=
  { id := 101, normal := some announced, state := .queued, lead := none, trail := none, mark := none, probes := []
    correction := none, flags := 0 }

/-- A NORMAL record READY with the correction of section 3.10. -/
def readied (fetched : Bool) : Panel :=
  { waiting with state := .ready fetched 0 false, correction := some (computeCorrection snap0) }

/-- A NORMAL record being printed from a lead. -/
def printing (lead : Nat) : Panel :=
  { waiting with state := .printing, lead := some lead, mark := some .noneYet }

/-- An ANONYMOUS record on the web between two coordinates. -/
def anonymous (state : PanelState) (lead trail : Nat) (probes : List Probe) : Panel :=
  { id := 9, normal := none, state := state, lead := some lead, trail := some trail, mark := none, probes := probes
    correction := none, flags := 0 }

/-- A state whose queue is replaced. -/
def withQueue (s : State) (q : List Panel) : State :=
  { s with queue := q }

/-- A state whose directory has slot 5 in a state with four channels. -/
def withSlot (s : State) (st : SlotState) : State :=
  s.updateDir 5 fun d => { d with state := st, channels := some 4, generation := 1 }

/-- A state whose store is held by an operation. -/
def holding (s : State) (op : StoreOp) : State :=
  { s with store := { s.store with holder := some op } }

/-- A state whose array has some bytes of slot 0 or of another slot. -/
def withArray (s : State) (m : Memory) : State :=
  { s with store := { s.store with array := m } }

/-! ## Figures of the manual -/

/-- Stages A to G of section 3.10, Table 15. -/
theorem test_correction_3_10 :
    computeCorrection snap0 =
      { qPred := 958, dwell := 26250, tPred := 1984, targetTension := 180, gains := [4152, 3975, 3737, 4012]
        along := 1008100, cross := 997840, generation := 1, copies := prof0.copies } ∧
    computeFlags snap0 = Flag.inkScaled.bit := by decide +kernel

/-- Section 3.11: at a crawl with stale zones (Tables 16 and 17). -/
theorem test_correction_3_11 :
    let c := computeCorrection
      { snap0 with vCal := { magnitude := 3, reverse := false }, zones := List.replicate 8 (0, false) }
    c.qPred = 1500 ∧ c.dwell = 28000 ∧ c.tPred = 2120 ∧ c.gains = [3569, 3300, 3380, 3732] := by decide +kernel

/-- The CRC-8 of the frames of chapter 11: LINE_CLEAR's response, a READ_STATUS request, a DONE of LINE_CLEAR. -/
theorem test_crc8 : crc8 [0x01] = 0x07 ∧ crc8 [0x01, 0x10] = 0x65 ∧ crc8 [0x02, 0x00, 0x80, 0x23] = 0x73 := by
  decide +kernel

/-- A PRODUCTION port idle with an empty buffer on a TRACKING line shows only its role (11.3). -/
theorem test_status_byte : statusByte tracking 3 = 0x04 := by decide +kernel

/-- Table 8: the carry of the twentieth forward count, and the borrow of count 19 of its last row. -/
theorem test_penc_counts :
    (printForward rec0 { tracking with pos := { tracking.pos with xPrint := 150000, remPrint := 95000 } }).1.pos.xPrint = 150001 ∧
    (printReverse rec0 { tracking with pos := { tracking.pos with xPrint := 150000, remPrint := 0 } }).1.pos.remPrint = 95000 := by
  decide +kernel

/-- The worked figure of speed and slip (2.2). -/
theorem test_speed_and_slip :
    speedOf 1280 12500 = { magnitude := 160, reverse := false } ∧ speedOf 1598 10000 = { magnitude := 159, reverse := false } ∧
    slipOf rec0 1280 1598 = 1250 := by decide +kernel

/-- MKCLK falls at the third low sample, and not before (R34). -/
theorem test_mkclk_falls :
    (({ level := true, agree := 0 } : InputFilter).sink 2).level = true ∧
    (({ level := true, agree := 0 } : InputFilter).sink 3).level = false := by decide +kernel

/-- The check of a mark word (2.6): code 101 is 065h, its groups 0, 6 and 5. -/
theorem test_mark_check : expectedCheck 101 = 3 := by decide +kernel

/-- Table 19 and Table 20: the threshold for along 1,008,100, and the carry after the ninth count. -/
theorem test_pace :
    paceThreshold rec0 1008100 = 42676 ∧
    (({ tracking.pace with threshold := some 42676, accumulator := 40000 } : Pace).forward 5000).accumulator = 2324 := by
  decide +kernel

/-- Table 22: the completion evaluation of the panel of section 6.6. -/
theorem test_completion_evaluation :
    let r := { readied false with
      state := .transferring, probes := List.replicate 3 { position := 0, accumulator := 2425500, inArc := false } }
    r.dAct = 24255 ∧ r.probeMin = 24255 ∧ r.qAct = some 970 ∧ r.isOffDose = false ∧ trimAfter (-12) r = -11 := by
  decide +kernel

/-- Table 24: the heat advice at its first and third expiry. -/
theorem test_heat_advice :
    (adviceFor rec0 { magnitude := 160, reverse := false } (-12) 1 (computeCorrection snap0)).temperature = 1992 ∧
    (adviceFor rec0 { magnitude := 140, reverse := false } (-4) 1 (computeCorrection snap0)).temperature = 1957 := by
  decide +kernel

/-- Table 25: the first and the last report that moves the bias. -/
theorem test_bias : biasAfter 0 186 16000 = 2 ∧ biasAfter 18 186 16000 = 19 ∧ biasAfter 19 186 16000 = 19 := by
  decide +kernel

/-- Section 6.6: a tick adds the rate 924 to a probe in the arc. -/
theorem test_dose_tick :
    (tickPanel rec0 (zoneReadings { tracking with dose := { tracking.dose with zones := List.replicate 8 (fresh 1984) } }) 100
      { magnitude := 160, reverse := false } false
      (anonymous .transferring 100 200 [newProbe 100, newProbe 150])).probes.map (·.accumulator) = [924, 0] := by
  decide +kernel

/-- READ_STATUS as it is sent on the link is the row of the table (RequestFramesReachTheirCommands on one frame). -/
theorem test_read_status_frame :
    requestBits 0x10 [] = [false, false, false, false, false, false, false, true,
      false, false, false, true, false, false, false, false, false, true, true, false, false, true, false, true] := by
  decide +kernel

/-! ## States that meet the hypotheses of the statements, clause by clause

Each theorem is named for the statement of Obligations.lean whose hypotheses it meets. -/

theorem witness_StepTakesFrontCommand : ({ run with pending := [.stop 3] } : State).pending = .stop 3 :: [] := rfl

theorem witness_IdleStepAgesAndSamples :
    (run.pending = [] ∧ run.live = true) ∧ (State.reset.pending = [] ∧ State.reset.live = false) := by decide +kernel

/-- The array is kept with no operation in progress and with a read in progress; a reset in its first instant, and later. -/
theorem witness_DeviceResetSetsEveryBlock :
    run.live = true ∧ (∀ op, run.store.holder = some op → op.code = 0) ∧
    (∀ op, (holding run (.read 3 5 0 1)).store.holder = some op → op.code = 0) ∧
    ((beginReset .pin run).live = false ∧ (beginReset .pin run).resetUnit.beginning = true) ∧
    (State.reset.live = false ∧ State.reset.resetUnit.beginning = false) := by
  refine ⟨rfl, nofun, ?_, ⟨rfl, rfl⟩, rfl, rfl⟩
  rintro _ ⟨⟩
  rfl

/-- RESETn and the supply monitor in one instant are SUPPLY; a millisecond apart the cause stays PIN (R185). -/
theorem test_reset_cause :
    (deviceReset .supply (deviceReset .pin run)).resetUnit.cause = .supply ∧
    (deviceReset .supply (idle (deviceReset .pin run))).resetUnit.cause = .pin := by decide +kernel

theorem witness_CutOffEraseLeavesSlotOldErasedOrUncommitted :
    (holding run (.erase 3 5)).live = true ∧ ArrayCanonical (holding run (.erase 3 5)) ∧
    (holding run (.erase 3 5)).store.holder = some (.erase 3 5) ∧
    ∀ c ∈ [Instr.powerOnReset, .supplyMonitorReset, .resetnReset],
      c = .powerOnReset ∨ c = .supplyMonitorReset ∨ c = .resetnReset := by
  refine ⟨rfl, rfl, rfl, ?_⟩
  decide

/-- Any strap levels on any port, the four roles each on one port, and one role on all. -/
theorem witness_ResetEndGivesRoles :
    State.reset.live = false ∧
    (∀ (a b : BitVec 4) (p : PortId),
      (a.getLsbD p = false → b.getLsbD p = false → strapOf a b p = .print) ∧
      (a.getLsbD p = false → b.getLsbD p = true → strapOf a b p = .calender) ∧
      (a.getLsbD p = true → b.getLsbD p = false → strapOf a b p = .drive) ∧
      (a.getLsbD p = true → b.getLsbD p = true → strapOf a b p = .production)) ∧
    (∀ p q : PortId, q ≠ p → strapOf 0b1100 0b1010 q ≠ strapOf 0b1100 0b1010 p) ∧
    (∀ p q : PortId, strapOf 0 0 q = strapOf 0 0 p) := by
  refine ⟨rfl, fun a b p => ⟨?_, ?_, ?_, ?_⟩, by decide +kernel, by decide +kernel⟩ <;> intro ha hb <;>
    (unfold strapOf strappedRole; rw [ha, hb])

/-- The scan over an array with slot 1 LOCKED with one channel, slot 31 VALID with eight, the others erased. -/
def scanning : State :=
  withArray { State.reset with resetUnit := { State.reset.resetUnit with phase := .scanning } }
    [(1024, 0x3C), (1025, 0xC3), (1026, 0x50), (1027, 1), (31744, 0x3C), (31746, 0x50), (31747, 8)]

theorem witness_ScanClassifiesProfileSlots :
    scanning.resetUnit.phase = .scanning ∧ ArrayCanonical scanning ∧
    (slotByte scanning.store.array 1 0 = 0x3C ∧ slotByte scanning.store.array 1 2 = 0x50 ∧
      slotByte scanning.store.array 1 3 = 1 ∧ slotByte scanning.store.array 1 1 = 0xC3) ∧
    (slotByte scanning.store.array 31 0 = 0x3C ∧ slotByte scanning.store.array 31 2 = 0x50 ∧
      slotByte scanning.store.array 31 3 = 8 ∧ slotByte scanning.store.array 31 1 ≠ 0xC3) ∧
    (∀ off < 1024, slotByte scanning.store.array 5 off = 0xFF) := by unfold ArrayCanonical; decide +kernel

/-! ### Slots whose CRC holds and slots whose CRC fails -/

/-- The fold of the CRC-16, each byte taken before the next, so that the kernel can run it over a slot. -/
def crcForced : List Byte → BitVec 16 → BitVec 16
  | [], c => c
  | b :: rest, c => if c.toNat = 65536 then 0 else crcForced rest (crc16Byte c b)

theorem crcForced_eq (l : List Byte) (c : BitVec 16) : crcForced l c = l.foldl crc16Byte c := by
  induction l generalizing c with
  | nil => rfl
  | cons b rest ih =>
    have : c.toNat ≠ 65536 := by have := c.isLt; omega
    simp [crcForced, this, ih]

/-- Whether a slot's CRC holds, from the forced fold. -/
theorem slotCrcHolds_of_forced (m : Memory) (i : SlotId) (b : Bool)
    (h : decide ((crcForced (slotBytes m i 2 1020) 0xFFFF#16).toNat =
      256 * (slotByte m i 1022).toNat + (slotByte m i 1023).toNat) = b) : slotCrcHolds m i = b := by
  rw [← h]
  exact decide_eq_decide.mpr (by rw [crc16, crcForced_eq])

/-- Slot 0 committed as a machine record whose CRC is as given in its last two bytes. -/
def scanningRecord (high low : Byte) : State :=
  withArray scanning [(0, 0x3C), (2, 0x4D), (1022, high), (1023, low)]

theorem scanningRecord_good : slotCrcHolds (scanningRecord 0x3D 0xA1).store.array 0 = true :=
  slotCrcHolds_of_forced _ _ _ (by decide +kernel)

theorem scanningRecord_bad : slotCrcHolds (scanningRecord 0x3D 0xA2).store.array 0 = false :=
  slotCrcHolds_of_forced _ _ _ (by decide +kernel)

/-- Slot 5 with the profile of section 3.10 cut to its first channel, and its CRC; slot 0 with a format code and a CRC, its
other fields erased. -/
def cells : Memory :=
  [(2, 0x4D), (1022, 0x3D), (1023, 0xA1), (5122, 0x50), (5123, 0x01), (5140, 0x40), (5141, 0x01), (5142, 0xA8), (5143, 0x61),
    (5144, 0x00), (5145, 0x00), (5146, 0x28), (5147, 0x00), (5148, 0x2D), (5149, 0x00), (5150, 0x0C), (5151, 0x00),
    (5152, 0xA0), (5153, 0x00), (5154, 0x5A), (5155, 0x00), (5156, 0x1E), (5184, 0xCC), (5185, 0x10), (5186, 0x00),
    (5187, 0x18), (5188, 0x00), (5189, 0x14), (5190, 0xF8), (5191, 0x11), (5192, 0x00), (5193, 0x10), (5194, 0x74),
    (5195, 0x0E), (5196, 0x48), (5197, 0x0D), (6142, 0xBE), (6143, 0x36)]

theorem cells_wf : Memory.wf cells = true := by decide +kernel

theorem cells_profile_holds : slotCrcHolds cells 5 = true := slotCrcHolds_of_forced _ _ _ (by decide +kernel)

theorem cells_profile_passes : contentFault cells 5 = none := by decide +kernel

theorem cells_record_holds : slotCrcHolds cells 0 = true := slotCrcHolds_of_forced _ _ _ (by decide +kernel)

/-- The first field of slot 0 out of its range is its zone count. -/
theorem cells_record_fails : contentFault cells 0 = some 3 := by decide +kernel

theorem cells_blank_fails : slotCrcHolds cells 31 = false := slotCrcHolds_of_forced _ _ _ (by decide +kernel)

/-- The profile read back as it was written. -/
theorem test_parse_profile :
    parseProfile cells 5 = { prof0 with channels := prof0.channels.take 1 } := by decide +kernel

/-- Slot 0 committed with a CRC that holds and one that fails, locked, erased, and cut off before its commit mark. -/
theorem witness_ScanLoadsSlotZero :
    (∀ s ∈ [scanningRecord 0x3D 0xA1, scanningRecord 0x3D 0xA2, withArray scanning [(0, 0x3C), (1, 0xC3), (2, 0x4D)], scanning,
        withArray scanning [(0, 0x3E), (2, 0x4D)]],
      s.resetUnit.phase = .scanning ∧ Memory.wf s.store.array = true ∧ s.line.active = none ∧
        s.line.hold.unready = unreadyHolds s ∧ s.line.hold.stale = staleHolds s) ∧
    (∀ low ∈ [(0xA1 : Byte), 0xA2], slotByte (scanningRecord 0x3D low).store.array 0 0 = 0x3C ∧
      slotByte (scanningRecord 0x3D low).store.array 0 2 = 0x4D ∧ slotByte (scanningRecord 0x3D low).store.array 0 1 ≠ 0xC3) ∧
    (slotByte [(0, 0x3C), (1, 0xC3), (2, 0x4D)] 0 0 = 0x3C ∧ slotByte [(0, 0x3C), (1, 0xC3), (2, 0x4D)] 0 2 = 0x4D ∧
      slotByte [(0, 0x3C), (1, 0xC3), (2, 0x4D)] 0 1 = 0xC3) ∧
    (slotByte scanning.store.array 0 0 ≠ 0x3C ∧ slotByte [(0, 0x3E), (2, 0x4D)] 0 0 ≠ 0x3C) ∧
    slotCrcHolds (scanningRecord 0x3D 0xA1).store.array 0 = true ∧
    slotCrcHolds (scanningRecord 0x3D 0xA2).store.array 0 = false :=
  ⟨by decide +kernel, by decide +kernel, by decide +kernel, by decide +kernel, scanningRecord_good, scanningRecord_bad⟩

/-! ### Requests -/

/-- A line whose temperature table has been stale since reset, the clock at the end of a time's range, with a mark accepted whose
blanking end is the last coordinate, and an unmatched mark. -/
def measured : State :=
  { tracking with
    now := 4294967295
    dose := { tracking.dose with zones := [Zone.reset] }
    mark :=
      { tracking.mark with
        accepted := some { stamp := 9, blankingEnd := 4294967295 }
        unmatched := some { code := 101, stamp := 7 } } }

/-- A NORMAL record in TRANSFERRING whose mark was seen. -/
def matched : Panel :=
  { waiting with
    state := .transferring, lead := some 100, trail := some 200, mark := some (.seen (-3))
    probes := [newProbe 100, newProbe 150, newProbe 200] }

theorem witness_ReportsAnswerEveryRole :
    (∀ p : PortId, Serves (withQueue run [waiting]) p anyRole) ∧ findPanel (withQueue run [waiting]) 101 = some waiting ∧
    (∀ r ∈ (withQueue run [waiting]).queue, r.id ≠ 102) ∧
    (Serves halted 0 anyRole ∧ halted.line.active = some rec0 ∧ halted.line.stop = some (latchRecord tracking .requested) ∧
      halted.store.holder = none ∧ halted.store.fillWaiting = none ∧ halted.store.requestWaiting = none ∧
      halted.engine = none ∧ halted.pace.threshold = some 42333 ∧ halted.pace.source = none ∧ halted.dose.advice = none ∧
      governing halted = none) ∧
    run.line.stop = none ∧
    (Serves measured 0 anyRole ∧ measured.line.active = some rec0 ∧
      measured.mark.accepted = some { stamp := 9, blankingEnd := 4294967295 } ∧
      measured.mark.unmatched = some { code := 101, stamp := 7 } ∧ tableStaleSince measured.dose.zones = some 0 ∧
      measured.now ≤ 0 + 4294967295 ∧ tableStaleSince measured.tension.zones = none) ∧
    (findPanel (withQueue measured [readied true]) 101 = some (readied true) ∧ (readied true).normal = some announced ∧
      (readied true).correction = some (computeCorrection snap0) ∧ (readied true).state = .ready true 0 false ∧
      (withQueue measured [readied true]).now ≤ 0 + 4294967295 ∧ (readied true).lead = none ∧ (readied true).trail = none ∧
      (readied true).mark = none ∧ (readied true).probes = []) ∧
    (findPanel (withQueue run [matched]) 101 = some matched ∧ matched.normal = some announced ∧ matched.correction = none ∧
      matched.state = .transferring ∧ matched.lead = some 100 ∧ matched.trail = some 200 ∧
      matched.mark = some (.seen (-3)) ∧ matched.probes ≠ []) := by unfold Serves; decide +kernel

/-- A state whose cache has slot 31 in its last entry. -/
def cached (s : State) : State :=
  { s with
    cache :=
      { entries := (Vector.replicate 8 none).set 7 (some { slot := 31, generation := 65535, profile := prof0 }), nlu := 5 } }

/-- A hit in the last entry and a miss, with no fill, a fill that waits and a fill that reads; both slots without an entry. -/
theorem witness_StationReportsChangeNothing :
    Serves run 0 anyRole ∧ Serves run 2 onlyDrive ∧ Serves (cached run) 3 onlyProduction ∧
    (1 ≤ (1 : Byte).toNat ∧ (4 : Byte).toNat ≤ 4) ∧ ((0 : Byte).toNat = 0 ∧ 4 < (5 : Byte).toNat) ∧
    (1 ≤ (1 : Byte).toNat ∧ (31 : Byte).toNat ≤ 31) ∧
    ((cached run).store.fillWaiting = none ∧ ∀ w, (cached run).store.holder ≠ some (.fill w)) ∧
    ({ run with store := { run.store with fillWaiting := some 31 } } : State).store.fillWaiting = some 31 ∧
    ((holding run (.fill 1)).store.fillWaiting = none ∧ (holding run (.fill 1)).store.holder = some (.fill 1)) ∧
    ((cached run).cache.entries[(7 : Fin 8)] = some { slot := 31, generation := 65535, profile := prof0 } ∧
      ∀ j : Fin 8, j < 7 → (cached run).cache.entries[j] = none) ∧
    (∀ k : Fin 8, run.cache.entries[k] = none) ∧ ((0 : Byte).toNat = 0 ∧ 31 < (32 : Byte).toNat) := by
  unfold Serves
  refine ⟨by decide +kernel, by decide +kernel, by decide +kernel, by decide, by decide, by decide, ⟨rfl, nofun⟩, rfl,
    ⟨rfl, rfl⟩, by decide +kernel, by decide +kernel, by decide⟩

theorem witness_AttentionRequestsActOnTheirPort : Serves (run.raise .scorch) 1 anyRole := by
  unfold Serves; decide +kernel

/-- Port 0 as an OBSERVER. -/
def observed : State :=
  run.updatePort 0 fun q => { q with role := .observer }

theorem witness_StopRequest :
    (observed.running = true ∧ observed.ports[0].executing = false ∧ observed.ports[0].role = .observer) ∧
    (run.running = true ∧ run.ports[0].executing = false ∧ run.ports[0].role ≠ .observer ∧ run.line.state = .unset) ∧
    (tracking.running = true ∧ tracking.ports[3].executing = false ∧ tracking.ports[3].role ≠ .observer ∧
      tracking.line.state = .tracking) ∧
    (halted.running = true ∧ halted.ports[2].executing = false ∧ halted.ports[2].role ≠ .observer ∧
      halted.line.state = .halted) := by decide +kernel

theorem witness_HoldAndUnhold : Serves run 1 holdRoles ∧ Serves tracking 2 holdRoles ∧ Serves halted 3 holdRoles := by
  unfold Serves; decide +kernel

/-- A state with BREAKn low. -/
def broken (s : State) : State :=
  { s with inputs := { s.inputs with breakn := { level := false, agree := 0 } } }

theorem witness_ReleaseStopRequest :
    (Serves tracking 1 releaseRoles ∧ tracking.line.state ≠ .halted) ∧
    (Serves (broken halted) 2 releaseRoles ∧ (broken halted).line.state = .halted ∧
      (broken halted).inputs.breakn.level = false) ∧
    (Serves halted 1 releaseRoles ∧ halted.line.state = .halted ∧ halted.inputs.breakn.level = true ∧
      halted.inputs.stopinn.level = true) := by unfold Serves; decide +kernel

/-- The lower bounds of length and slot and an upper one of coverage; a full queue; an unusable slot. -/
theorem witness_AnnouncePanel :
    (Serves (withSlot run .valid) 3 onlyProduction ∧ (5 : Byte).toNat = (5 : SlotId).val ∧ (5 : SlotId) ≠ 0 ∧
      (withSlot run .valid).queue.length < 64 ∧ slotUsable (withSlot run .valid) 5 = true ∧ 1000 ≤ (1000 : BitVec 32).toNat ∧
      (40000 : BitVec 32).toNat ≤ 40000 ∧ 1 ≤ ([0, 100, 101, 255] : List Byte).length ∧
      (dirEntry (withSlot run .valid) 5).channels = some ([0, 100, 101, 255] : List Byte).length) ∧
    (Serves run 3 onlyProduction ∧ (0 : Byte).toNat = 0 ∧ 31 < (32 : Byte).toNat) ∧
    (Serves (withQueue run (List.replicate 64 waiting)) 3 onlyProduction ∧
      64 ≤ (withQueue run (List.replicate 64 waiting)).queue.length ∧ 1 ≤ (1 : Byte).toNat ∧ (31 : Byte).toNat ≤ 31) ∧
    (run.queue.length < 64 ∧ slotUsable run 1 = false ∧ slotUsable run 31 = false) := by unfold Serves; decide +kernel

theorem witness_WithdrawAndScrap :
    Serves (withQueue run [readied false]) 3 onlyProduction ∧
    (findPanel (withQueue run [readied false]) 101 = some (readied false) ∧ (readied false).unprinted = true ∧
      (readied false).isFetched = false) ∧
    (findPanel (withQueue run [readied true]) 101 = some (readied true) ∧ (readied true).isFetched = true) ∧
    (findPanel (withQueue tracking [printing 9]) 101 = some (printing 9) ∧ (printing 9).unprinted = false) ∧
    findPanel (withQueue run [waiting]) 0 = none := by unfold Serves; decide +kernel

/-- A record past the nip with its trail open. -/
def overrun (lead : Nat) : Panel :=
  { printing lead with state := .transferring, probes := [newProbe lead], flags := Flag.overrun.bit }

/-- A line with a closed record before one whose trail is open, and a record that waits behind it. -/
def abutting (r : Panel) (xPrint xNip : Nat) : State :=
  withQueue
    { tracking with pos := { tracking.pos with xPrint := xPrint, xNip := xNip } }
    [anonymous .inTransit 100 200 [], r, waiting]

/-- A PRINTING record among others, a TRANSFERRING one, and one whose new trail lies a full arc, and one WU less, behind the nip. -/
theorem witness_PrintAbortClosesTheOpenTrail :
    (∀ r ∈ [printing 300, overrun 300], Serves (abutting r 400 42399) 0 onlyPrint ∧
      (abutting r 400 42399).line.active = some rec0 ∧
      (abutting r 400 42399).queue = [anonymous .inTransit 100 200 []] ++ r :: [waiting] ∧ r.openTrail = true ∧
      r.lead = some 300 ∧ r.id = (101 : BitVec 16).toNat ∧ r.id ≠ (102 : BitVec 16).toNat) ∧
    (∀ q ∈ [anonymous .inTransit 100 200 []] ++ [waiting], q.openTrail = false ∧ q.state ≠ .transferring) ∧
    ((printing 300).state ≠ .transferring ∧ (overrun 300).state = .transferring ∧
      (abutting (overrun 300) 400 42399).pos.xNip < (abutting (overrun 300) 400 42399).pos.xPrint + 10 * rec0.arcLen ∧
      (abutting (overrun 300) 400 42400).pos.xPrint + 10 * rec0.arcLen ≤ (abutting (overrun 300) 400 42400).pos.xNip) := by
  unfold Serves; decide +kernel

theorem witness_GetCorrectionFetches :
    Serves (withQueue run [readied false]) 0 onlyPrint ∧
    (findPanel (withQueue run [readied false]) 101 = some (readied false) ∧ (readied false).correction.isSome = true ∧
      (readied false).state = .ready false 0 false) ∧
    (findPanel (withQueue run [waiting]) 101 = some waiting ∧ waiting.correction = none) ∧
    findPanel (withQueue run [waiting]) 102 = none := by unfold Serves; decide +kernel

theorem witness_SetTrimClamps : Serves run 3 onlyProduction := ⟨rfl, rfl, rfl⟩

theorem witness_AckRecords : Serves run 3 onlyProduction ∧ 1 ≤ (1 : Byte).toNat ∧ 1 ≤ (255 : Byte).toNat := by
  unfold Serves; decide +kernel

theorem witness_SetRecordQueue :
    Serves run 3 onlyProduction ∧
    ((1 : Byte).toNat = QueueMode.overwrite.code ∧ (2 : Byte).toNat = QueueFilter.none.code ∧ (32 : Byte).toNat ≤ 32) ∧
    (1 < (2 : Byte).toNat ∧ 32 < (33 : Byte).toNat ∧ 2 < (3 : Byte).toNat) := by unfold Serves; decide +kernel

/-! ### The profile store -/

/-- A state in which a request waits at the arbiter. -/
def asking (s : State) (r : StoreRequest) : State :=
  { s with store := { s.store with requestWaiting := some r } }

/-- A state in which a fill waits at the arbiter. -/
def missing (s : State) (slot : SlotId) : State :=
  { s with store := { s.store with fillWaiting := some slot } }

/-- A state whose staging memory holds four rows of slot 6. -/
def staged (s : State) : State :=
  { s with
    store := { s.store with staging := (List.range 4).map fun k => { slot := 6, row := k, bytes := List.replicate 32 none } } }

theorem witness_StoreRequestsTakeOrWait :
    (∀ st, Serves (withSlot run st) 3 onlyProduction ∧ StoreIdle (withSlot run st) ∧
      (dirEntry (withSlot run st) 5).state = st) ∧
    (1 ≤ (1 : Byte).toNat ∧ (992 : BitVec 16).toNat + (32 : Byte).toNat ≤ 1024) ∧
    (slotUsable (run.updateDir 0 fun d => { d with state := .locked }) 0 = true ∧
      run.inputs.breakn.level = true ∧ run.inputs.stopinn.level = true) ∧
    (∀ st, Serves (holding (withSlot run st) (.fill 6)) 3 onlyProduction ∧
      (holding (withSlot run st) (.fill 6)).store.holder.isSome = true ∧
      (dirEntry (holding (withSlot run st) (.fill 6)) 5).state = st) ∧
    ((holding (withSlot run .writing) (.fill 6)).store.staging = [] ∧
      (dirEntry (holding (withSlot run .writing) (.fill 6)) 5).programmed = 0 ∧ (32 : BitVec 16).toNat % 32 = 0 ∧
      32 ≤ (32 : BitVec 16).toNat ∧ (992 : BitVec 16).toNat ≤ 992) ∧
    ((staged (holding (withSlot run .writing) (.fill 6))).store.staging.length = 4 ∧
      (∀ r ∈ (staged (holding (withSlot run .writing) (.fill 6))).store.staging, r.slot ≠ 5) ∧ 2 ≤ (2 : BitVec 16).toNat ∧
      (1023 : BitVec 16).toNat % 32 + 1 ≤ 32 ∧ (1023 : BitVec 16).toNat ≤ 1023) ∧
    (slotUsable (holding (run.updateDir 0 fun d => { d with state := .locked }) (.fill 6)) 0 = true ∧
      (holding run (.fill 6)).inputs.breakn.level = true ∧ (holding run (.fill 6)).inputs.stopinn.level = true) ∧
    ((holding (withSlot run .writing) (.fill 6)).store.holder.isSome = true ∧
      (dirEntry (holding (withSlot run .writing) (.fill 6)) 5).state = .writing ∧
      (∀ r ∈ (holding (withSlot run .writing) (.fill 6)).queue, r.isFetched = true → r.slot ≠ some 5) ∧
      (holding (withSlot run .writing) (.fill 6)).resetUnit.maint = true ∧
      (∀ r ∈ (holding (withSlot run .writing) (.fill 6)).queue, r.unprinted = false)) := by
  refine ⟨fun st => ⟨⟨rfl, rfl, rfl⟩, ⟨rfl, rfl, rfl⟩, by cases st <;> rfl⟩, ?_, ?_,
    fun st => ⟨⟨rfl, rfl, rfl⟩, rfl, by cases st <;> rfl⟩, ?_, ?_, ?_, ?_⟩ <;> decide +kernel

theorem witness_EraseGrantEffects :
    Serves (withQueue (withSlot run .valid) [readied false]) 3 onlyProduction ∧
    StoreIdle (withQueue (withSlot run .valid) [readied false]) ∧ (5 : Byte).toNat = (5 : SlotId).val ∧
    (dirEntry (withQueue (withSlot run .valid) [readied false]) 5).state ≠ .locked ∧
    (∀ r ∈ (withQueue (withSlot run .valid) [readied false]).queue, r.isFetched = true → r.slot ≠ some 5) ∧
    (dirEntry (withSlot run .valid) 0).state ≠ .locked := by unfold Serves StoreIdle; decide +kernel

theorem witness_GrantRowsServeTheWaitingClient :
    ((asking run (.erase 3 5)).store.holder = none ∧ (asking run (.erase 3 5)).store.fillWaiting = none ∧
      (asking run (.erase 3 5)).store.requestWaiting = some (.erase 3 5) ∧
      ∀ r ∈ (asking run (.erase 3 5)).queue, r.isFetched = true → r.slot ≠ some 5) ∧
    ((asking (withQueue run [readied true]) (.erase 3 5)).store.requestWaiting = some (.erase 3 5) ∧
      ∃ r ∈ (asking (withQueue run [readied true]) (.erase 3 5)).queue, r.isFetched = true ∧ r.slot = some 5) ∧
    ((missing (withSlot run .valid) 5).store.holder = none ∧ (missing (withSlot run .valid) 5).store.fillWaiting = some 5 ∧
      slotUsable (missing (withSlot run .valid) 5) 5 = true) ∧
    ((asking run (.read 3 5 0 1)).store.holder = none ∧
      (asking run (.read 3 5 0 1)).store.requestWaiting = some (.read 3 5 0 1)) ∧
    ((asking run (.clear 3)).store.holder = none ∧ (asking run (.clear 3)).store.requestWaiting = some (.clear 3)) := by
  decide +kernel

theorem witness_StoreClearRequest :
    (Serves run 3 onlyProduction ∧ StoreIdle run ∧ run.resetUnit.maint = true ∧ ∀ r ∈ run.queue, r.unprinted = false) ∧
    (withQueue run [waiting]).resetUnit.maint = true ∧ (∃ r ∈ (withQueue run [waiting]).queue, r.unprinted = true) ∧
    ({ run with resetUnit := { run.resetUnit with maint := false } } : State).resetUnit.maint = false := by
  unfold Serves StoreIdle; decide +kernel

/-- The first clause at the first writable byte and in the last row; the second at the second row and at the last. -/
theorem witness_WriteSlotStagesOrPrograms :
    (Serves (withSlot run .writing) 3 onlyProduction ∧ (5 : Byte).toNat = (5 : SlotId).val ∧
      (dirEntry (withSlot run .writing) 5).state = .writing ∧ (withSlot run .writing).store.staging = [] ∧
      (dirEntry (withSlot run .writing) 5).programmed = 0 ∧ StoreIdle (withSlot run .writing)) ∧
    (2 ≤ (2 : BitVec 16).toNat ∧ 1 ≤ 29 ∧ (2 : BitVec 16).toNat % 32 + 29 ≤ 31) ∧
    ((1022 : BitVec 16).toNat % 32 + 1 ≤ 31 ∧ (1022 : BitVec 16).toNat / 32 ≤ 31) ∧
    ((32 : BitVec 16).toNat % 32 = 0 ∧ 32 ≤ (32 : BitVec 16).toNat) ∧
    ((992 : BitVec 16).toNat % 32 = 0 ∧ (992 : BitVec 16).toNat ≤ 992) := by unfold Serves StoreIdle; decide +kernel

theorem witness_EraseReadAndClearCompletions :
    ((holding run (.erase 3 31)).store.holder = some (.erase 3 31) ∧ (holding run (.erase 3 31)).store.fillWaiting = none ∧
      (holding run (.erase 3 31)).store.requestWaiting = none) ∧
    ((holding run (.read 3 5 992 32)).store.holder = some (.read 3 5 992 32) ∧
      (holding run (.read 3 5 992 32)).store.fillWaiting = none) ∧
    ((holding run (.clear 3)).store.holder = some (.clear 3) ∧
      ∀ i : SlotId, (dirEntry (holding run (.clear 3)) i).state = .erased) := by decide +kernel

/-- A staging row of zeros, the last of slot 31. -/
def lastRow : StagingRow :=
  { slot := 31, row := 31, bytes := List.replicate 32 (some 0) }

/-- A write that displaces a row of another slot and completes its own. -/
theorem witness_WriteCompletionProgramsItsRows :
    (holding run (.write 3 [{ lastRow with slot := 9 }, lastRow])).store.holder =
      some (.write 3 [{ lastRow with slot := 9 }, lastRow]) ∧
    ArrayCanonical (holding run (.write 3 [{ lastRow with slot := 9 }, lastRow])) ∧
    (holding run (.write 3 [{ lastRow with slot := 9 }, lastRow])).store.fillWaiting = none ∧
    (holding run (.write 3 [{ lastRow with slot := 9 }, lastRow])).store.requestWaiting = none ∧
    ∀ r ∈ [{ lastRow with slot := 9 }, lastRow], r.bytes.length = 32 ∧ r.row < 32 := by
  unfold ArrayCanonical; decide +kernel

/-- An operation over the array of `cells`. -/
def operating (op : StoreOp) (st : SlotState) : State :=
  withArray (holding (withSlot run st) op) cells

/-- Row 1 of slot 5 in that array, as it is staged. -/
def stagedRow : StagingRow :=
  { slot := 5, row := 1, bytes := [some 0xA0, some 0x00, some 0x5A, some 0x00, some 0x1E] ++ List.replicate 27 none }

/-- That array before the row is programmed. -/
def cellsBefore : Memory :=
  cells.filter fun c => decide (c.1 < 5152 ∨ 5184 ≤ c.1)

theorem cellsBefore_wf : Memory.wf cellsBefore = true := by decide +kernel

/-- The staged row makes the array whose profile passes. -/
theorem cellsBefore_staged : programRow cellsBefore stagedRow = cells := by decide +kernel

/-- A commit without and with a staged row; after it a profile that passes, a slot whose CRC fails and one whose content does. -/
theorem witness_CommitCompletion (i : SlotId) :
    (operating (.commit 3 i []) .writing).store.holder = some (.commit 3 i []) ∧
    ArrayCanonical (operating (.commit 3 i []) .writing) ∧
    (operating (.commit 3 i []) .writing).store.fillWaiting = none ∧
    (operating (.commit 3 i []) .writing).store.requestWaiting = none ∧
    ((withArray (operating (.commit 3 5 [stagedRow]) .writing) cellsBefore).store.holder = some (.commit 3 5 [stagedRow]) ∧
      ArrayCanonical (withArray (operating (.commit 3 5 [stagedRow]) .writing) cellsBefore) ∧
      ∀ r ∈ [stagedRow], r.slot = 5 ∧ r.bytes.length = 32 ∧ r.row < 32) ∧
    (slotCrcHolds cells 5 = true ∧ contentFault cells 5 = none) ∧ slotCrcHolds cells 31 = false ∧
    (slotCrcHolds cells 0 = true ∧ contentFault cells 0 = some 3) :=
  ⟨rfl, cells_wf, rfl, rfl, ⟨rfl, cellsBefore_wf, by decide⟩, ⟨cells_profile_holds, cells_profile_passes⟩, cells_blank_fails,
    cells_record_holds, cells_record_fails⟩

theorem witness_LockCompletion :
    ((operating (.lock 3 5) .valid).store.holder = some (.lock 3 5) ∧ ArrayCanonical (operating (.lock 3 5) .valid) ∧
      (dirEntry (operating (.lock 3 5) .valid) 5).state = .valid ∧ (operating (.lock 3 5) .valid).store.fillWaiting = none ∧
      (operating (.lock 3 5) .valid).store.requestWaiting = none ∧
      slotCrcHolds (operating (.lock 3 5) .valid).store.array 5 = true) ∧
    slotCrcHolds (withArray (operating (.lock 3 5) .valid) []).store.array 5 = false :=
  ⟨⟨rfl, cells_wf, rfl, rfl, rfl, cells_profile_holds⟩, slotCrcHolds_of_forced _ _ _ (by decide +kernel)⟩

theorem witness_FillCompletion :
    ((operating (.fill 5) .valid).store.holder = some (.fill 5) ∧ (operating (.fill 5) .valid).store.fillWaiting = none ∧
      (operating (.fill 5) .valid).store.requestWaiting = none ∧ (operating (.fill 5) .valid).queue = [] ∧
      (dirEntry (operating (.fill 5) .valid) 5).state = .valid ∧
      slotCrcHolds (operating (.fill 5) .valid).store.array 5 = true) ∧
    slotCrcHolds (withArray (operating (.fill 5) .valid) []).store.array 5 = false :=
  ⟨⟨rfl, rfl, rfl, rfl, rfl, cells_profile_holds⟩, slotCrcHolds_of_forced _ _ _ (by decide +kernel)⟩

theorem witness_InvalidateCacheEmptiesIt :
    Serves (withQueue tracking [printing 9]) 3 onlyProduction ∧
    ∀ r ∈ (withQueue tracking [printing 9]).queue, r.unprinted = false := by unfold Serves; decide +kernel

/-! ### Clearing the line -/

/-- A line clear over a LOCKED slot 0 with the limits, speed and resolutions of the worked record. -/
def clearing (span : Nat) : State :=
  withArray
    (holding (halted.updateDir 0 fun d => { d with state := .locked }) (.lineClear 3 span))
    [(20, 0x88), (21, 0x13), (22, 0), (23, 0), (24, 0xD4), (25, 0x30), (26, 0), (27, 0), (48, 0x40), (49, 0x9C), (50, 0), (51, 0),
      (64, 0x60), (65, 0x5B), (66, 3), (67, 0), (72, 5), (73, 0)]

/-- A net calender count kept from the last window. -/
def kept (n : Int) (s : State) : State :=
  { s with pos := { s.pos with keptCal := n } }

/-- A line clear over a VALID slot 0 of eight zones, with its CRC or, one byte off, without. -/
def clearingValid (low : Byte) : State :=
  withArray (holding (halted.updateDir 0 fun d => { d with state := .valid }) (.lineClear 3 40001))
    [(2, 0x4D), (3, 8), (20, 0x88), (21, 0x13), (22, 0), (23, 0), (24, 0xD4), (25, 0x30), (26, 0), (27, 0), (48, 0x40),
      (49, 0x9C), (50, 0), (51, 0), (64, 0x60), (65, 0x5B), (66, 3), (67, 0), (72, 5), (73, 0), (1022, 0x51), (1023, low)]

theorem clearingValid_good : slotCrcHolds (clearingValid 0xEF).store.array 0 = true :=
  slotCrcHolds_of_forced _ _ _ (by decide +kernel)

theorem clearingValid_bad : slotCrcHolds (clearingValid 0xEE).store.array 0 = false :=
  slotCrcHolds_of_forced _ _ _ (by decide +kernel)

/-- A line clear over a printed record and a READY one whose slot is in entry 7 of the cache. -/
def clearingQueue : State :=
  { withQueue (withSlot (clearingValid 0xEF) .valid) [printing 9, readied false] with
    cache :=
      { entries := (Vector.replicate 8 none).set 7 (some { slot := 5, generation := 1, profile := prof0 }), nlu := 0 } }

theorem witness_LineClearCompletes_kept :
    let v := parseMachineRecord clearingQueue.store.array 0
    (∃ kept : Panel → Panel,
      (∀ r time due, r.state = .ready false time due → kept r = { r with state := .ready false time true }) ∧
      ∀ r, (∀ time due, r.state ≠ .ready false time due) → kept r = r) ∧
    (clearingQueue.store.holder = some (.lineClear 3 40001) ∧ clearingQueue.store.fillWaiting = none ∧
      clearingQueue.store.requestWaiting = none ∧ (dirEntry clearingQueue 0).state = .valid ∧
      slotCrcHolds clearingQueue.store.array 0 = true ∧ clearingQueue.inputs.breakn.level = true ∧
      clearingQueue.inputs.stopinn.level = true) ∧
    (clearingQueue.pos.keptCal.natAbs * v.cencRes / 100000 < v.vMin ∧
      clearingQueue.pos.keptPrint.natAbs * v.pencRes / 100000 < v.vMin ∧ v.stopLow < 40001 ∧ 40001 < v.stopHigh ∧
      clearingQueue.queue.filter (·.unprinted) = [readied false] ∧ (readied false).state = .ready false 0 false ∧
      (readied false).normal = some announced ∧ clearingQueue.engine = none ∧ slotUsable clearingQueue announced.slot = true ∧
      (dirEntry clearingQueue announced.slot).channels = some announced.coverage.length ∧
      lookup clearingQueue.cache announced.slot = some (7, { slot := 5, generation := 1, profile := prof0 }) ∧
      prof0.channels.length = announced.coverage.length) := by
  refine ⟨⟨Panel.dueAfterClear, fun r _ _ h => by simp [Panel.dueAfterClear, h], fun r h => ?_⟩,
    ⟨rfl, rfl, rfl, by decide +kernel, clearingValid_good, rfl, rfl⟩, by decide +kernel⟩
  unfold Panel.dueAfterClear
  split
  · exact absurd ‹_› (h _ _)
  · rfl

/-- A LOCKED slot 0 of 255 zones; a VALID one of eight, as many as the table has. -/
theorem witness_LineClearCompletes :
    let m := parseMachineRecord (clearing 40001).store.array 0
    let v := parseMachineRecord (clearingValid 0xEF).store.array 0
    (∃ expired : Nat → Zone → Zone, ∀ limit z, expired limit z =
      if z.isFresh = true ∧ limit < z.age then { z with standing := .stale (clearing 40001).now } else z) ∧
    (m.zoneCount ≠ (clearing 40001).dose.zones.length ∧ v.zoneCount = (clearingValid 0xEF).dose.zones.length) ∧
    ((clearingValid 0xEF).store.holder = some (.lineClear 3 40001) ∧ (clearingValid 0xEF).store.fillWaiting = none ∧
      (clearingValid 0xEF).store.requestWaiting = none ∧ (dirEntry (clearingValid 0xEF) 0).state = .valid ∧
      slotCrcHolds (clearingValid 0xEF).store.array 0 = true ∧ (∀ r ∈ (clearingValid 0xEF).queue, r.unprinted = false) ∧
      (clearingValid 0xEF).pos.keptCal.natAbs * v.cencRes / 100000 < v.vMin ∧
      (clearingValid 0xEF).pos.keptPrint.natAbs * v.pencRes / 100000 < v.vMin ∧ v.stopLow < 40001 ∧ 40001 < v.stopHigh) ∧
    (clearing 40001).store.holder = some (.lineClear 3 40001) ∧ (clearing 40001).store.fillWaiting = none ∧
    (clearing 40001).store.requestWaiting = none ∧ (dirEntry (clearing 40001) 0).state = .locked ∧
    (∀ r ∈ (clearing 40001).queue, r.unprinted = false) ∧ (clearing 40001).inputs.breakn.level = true ∧
    (clearing 40001).inputs.stopinn.level = true ∧ (kept (-39) (clearing 40001)).pos.keptCal.natAbs * m.cencRes / 100000 < m.vMin ∧
    (clearing 40001).pos.keptPrint.natAbs * m.pencRes / 100000 < m.vMin ∧ m.stopLow < 40001 ∧ 219999 < m.stopHigh := by
  refine ⟨⟨fun _ _ => _, fun _ _ => rfl⟩, by decide +kernel,
    ⟨rfl, rfl, rfl, by decide +kernel, clearingValid_good, nofun, by decide +kernel⟩, by decide +kernel⟩

theorem witness_LineClearRefusals :
    let m := parseMachineRecord (clearing 40000).store.array 0
    (broken (clearing 40000)).inputs.breakn.level = false ∧
    m.vMin ≤ (kept (-40) (clearing 40000)).pos.keptCal.natAbs * m.cencRes / 100000 ∧
    ((clearing 40000).pos.keptCal.natAbs * m.cencRes / 100000 < m.vMin ∧
      (clearing 40000).pos.keptPrint.natAbs * m.pencRes / 100000 < m.vMin ∧ 40000 ≤ m.stopLow ∧ m.stopHigh ≤ 220000) ∧
    ((clearingValid 0xEE).store.holder = some (.lineClear 3 40001) ∧ (clearingValid 0xEE).store.fillWaiting = none ∧
      (clearingValid 0xEE).store.requestWaiting = none ∧ (dirEntry (clearingValid 0xEE) 0).state = .valid ∧
      slotCrcHolds (clearingValid 0xEE).store.array 0 = false) := by
  refine ⟨by decide +kernel, by decide +kernel, by decide +kernel, rfl, rfl, rfl, by decide +kernel, clearingValid_bad⟩

/-! ### Calender, drive and transactions -/

theorem witness_TemperatureReports :
    (Serves tracking 1 onlyCalender ∧ tracking.line.active = some rec0 ∧
      ([65535, 0, 3000, 3001, 65534, 1, 2, 3] : List (BitVec 16)).length = rec0.zoneCount ∧
      tracking.dose.zones.length = rec0.zoneCount) ∧
    ([1] : List (BitVec 16)).length ≠ rec0.zoneCount ∧ (Serves run 1 onlyCalender ∧ run.line.active = none) := by
  unfold Serves; decide +kernel

/-- The corrections of section 3.10 with the lowest and the highest reference dose. -/
def doses (d : Nat) : Correction :=
  { computeCorrection snap0 with copies := { prof0.copies with dRef := d } }

/-- A record with a correction on the web. -/
def governing0 (st : PanelState) (c : Correction) : Panel :=
  { anonymous st 100 200 [newProbe 100] with correction := some c }

/-- A line under a TRANSFERRING record with a correction. -/
def governed (c : Correction) : State :=
  withQueue tracking [governing0 .transferring c]

/-- That line with the trim of section 6.6 and a reference. -/
def advised (c : Correction) (r : Option AdviceReference) : State :=
  { governed c with dose := { tracking.dose with trim := -12, reference := r } }

theorem witness_HeatAdviceRead :
    (Serves tracking 1 onlyCalender ∧ NoneGoverns tracking.queue ∧ tracking.dose.reference = none ∧
      (recomputeAdvice tracking).dose.advice = none) ∧
    (Serves run 1 onlyCalender ∧ run.line.active = none) ∧
    (∀ st, st = .transferring ∨ st = .inTransit → ∀ d, Governs [governing0 st d] (governing0 st d) d) ∧
    (Serves (advised (doses 1000) none) 1 onlyCalender ∧ (advised (doses 1000) none).line.active = some rec0 ∧
      (advised (doses 1000) none).dose.trim ≤ 1000) ∧
    (adviceFor rec0 tracking.pos.vCal 0 9 (doses 1000)).rateRequired ≤ rateAt rec0 0 ∧
    (rateAt rec0 0 < (adviceFor rec0 tracking.pos.vCal 0 9 (doses 120000)).rateRequired ∧
      rateAt rec0 15 ≤ (adviceFor rec0 tracking.pos.vCal 0 9 (doses 120000)).rateRequired) := by
  refine ⟨⟨⟨rfl, rfl, rfl⟩, nofun, rfl, rfl⟩, ⟨⟨rfl, rfl, rfl⟩, rfl⟩, ?_, ⟨⟨rfl, rfl, rfl⟩, rfl, by decide +kernel⟩,
    by decide +kernel, by decide +kernel⟩
  rintro _ (rfl | rfl) d
  · exact ⟨rfl, [], [], rfl, .inl ⟨rfl, nofun⟩⟩
  · exact ⟨rfl, [], [], rfl, .inr ⟨rfl, by simp [governing0, anonymous], nofun⟩⟩

/-- The advice of Table 24 between two rates of the table, and references that it meets: 10 units and 9 away, of another indication,
absent; and one that it leaves behind. -/
theorem witness_HeatAdviceRead_moves :
    (let a := adviceFor rec0 tracking.pos.vCal (-12) 9 (computeCorrection snap0);
      rateAt rec0 0 < a.rateRequired ∧ rateAt rec0 9 ≤ a.rateRequired ∧ a.rateRequired < rateAt rec0 (9 + 1) ∧
        IsRounded ((a.rateRequired - rateAt rec0 9) * rec0.tempStep) (rateAt rec0 (9 + 1) - rateAt rec0 9) 12 ∧
        a.temperature = 1992 ∧ a.range = .within) ∧
    (∀ i j, i < j → j ≤ 15 → rateAt rec0 i < rateAt rec0 j) ∧
    (∀ r ∈ [none, some ⟨1982, .within⟩, some ⟨2001, .within⟩, some ⟨1992, .low⟩],
      (recomputeAdvice (advised (computeCorrection snap0) r)).dose.advice =
        some (adviceFor rec0 tracking.pos.vCal (-12) 9 (computeCorrection snap0))) ∧
    (({ tracking with dose := { tracking.dose with reference := some ⟨1992, .low⟩ } } : State).dose.reference.isSome = true ∧
      (recomputeAdvice { tracking with dose := { tracking.dose with reference := some ⟨1992, .low⟩ } }).dose.advice = none) := by
  refine ⟨by unfold IsRounded; decide +kernel, fun i j hij hj => ?_, by decide +kernel, rfl, rfl⟩
  have all : ∀ j < 16, ∀ i < j, rateAt rec0 i < rateAt rec0 j := by decide +kernel
  exact all j (by omega) i hij

theorem witness_TensionReports :
    Serves tracking 2 onlyDrive ∧ tracking.line.active = some rec0 ∧ rec0.coreDiameter ≤ rec0.maxDiameter ∧
    ∃ taken : Zone → BitVec 16 → Zone, ∀ z v, taken z v =
      if v.toNat = 65535 then z else { value := min v.toNat 5000, age := 0, standing := .fresh } :=
  ⟨⟨rfl, rfl, rfl⟩, rfl, by decide, fun z v => _, fun _ _ => rfl⟩

theorem witness_TransactionsWithoutARequest :
    (run.live = true ∧ ∀ b ∈ List.replicate 8 false, b = false) ∧
    (run.updatePort 1 Port.accept).ports[(1 : PortId)].executing = true ∧ scanning.resetUnit.phase = .scanning ∧
    (run.running = true ∧ run.ports[1].executing = false ∧ 62 < (63 : Byte).toNat ∧ ([] : List Byte).length ≤ (1 : Byte).toNat ∧
      ([0x10, 0x66] : List Byte)[(1 : Byte).toNat]? ≠ some (crc8 (1 :: [0x10, 0x66].take (1 : Byte).toNat))) := by
  decide +kernel

/-- Codes beside the table's, a role that is not among a code's, and payloads one byte beside their form. -/
theorem witness_TransactionsWithoutARequest_refused :
    (run.running = true ∧ ∀ p : PortId, run.ports[p].executing = false) ∧
    (∀ code ∈ [(0x0F : Byte), 0x19, 0x27, 0x38, 0x42, 0x52, 0x62, 0x73, 0xFF], ∀ row ∈ requestRows, row.1 ≠ code) ∧
    (∃ row ∈ requestRows, row.1 = 0x20 ∧ run.ports[(0 : PortId)].role ∉ row.2.1) ∧
    (∀ x ∈ [((1 : PortId), (0x10 : Byte), 1), (3, 0x20, 12), (3, 0x20, 14), (3, 0x31, 3), (3, 0x31, 36), (1, 0x50, 1), (1, 0x50, 61)],
      ∃ row ∈ requestRows, row.1 = x.2.1 ∧ run.ports[x.1].role ∈ row.2.1 ∧
        ¬FitsRow x.2.1 row.2.2 (List.replicate x.2.2 3) ∧ (List.replicate x.2.2 (3 : Byte)).length ≤ 61) := by
  unfold FitsRow; decide +kernel

/-- The shortest request and the longest of each of three kinds. -/
theorem witness_RequestFramesReachTheirCommands :
    run.running = true ∧ run.ports[3].executing = false ∧
    requestBytes (.readStatus 3) = some (3, 0x10, []) ∧ (Instr.readStatus 3).wellFormed = true ∧
    requestBytes (.writeSlot 3 5 0x0102 (List.replicate 58 7)) = some (3, 0x31, [5, 2, 1] ++ List.replicate 58 7) ∧
    (Instr.writeSlot 3 5 0x0102 (List.replicate 58 7)).wellFormed = true ∧
    (Instr.reportTemperatures 1 (List.replicate 30 1980)).wellFormed = true ∧
    (Instr.announcePanel 3 1 5 12000 1800 (List.replicate 49 0)).wellFormed = true := by decide +kernel

/-! ### Counts -/

/-- A state with given coordinates and remainders, its fill evaluated. -/
def placed (s : State) (xPrint remPrint xNip remNip : Nat) : State :=
  { s with pos := { s.pos with
      xPrint := xPrint, remPrint := remPrint, xNip := xNip, remNip := remNip, lastFill := xPrint - xNip } }

theorem witness_PrintCounts :
    (tracking.running = true ∧ tracking.line.active = some rec0 ∧ tracking.line.state ≠ .unset ∧
      tracking.pace.threshold = some 42333) ∧
    (placed tracking 4294967295 94999 0 0).pos.remPrint + rec0.pencRes < 100000 ∧
    (95000 + rec0.pencRes = 1 * 100000 + 0 ∧ 4294967295 < (placed tracking 4294967295 95000 0 0).pos.xPrint + 1) ∧
    ((placed tracking 4294967293 95000 4294867293 0).pos.xPrint + 1 < 4294967295 ∧
      NoCrossing rec0 (placed tracking 4294967293 95000 4294867293 0).pos.lastFill 100001) ∧
    ((placed tracking 4294967294 95000 4294867294 0).pos.xPrint + 1 = 4294967295 ∧
      NoCrossing rec0 (placed tracking 4294967294 95000 4294867294 0).pos.lastFill (4294967295 - 4294867294)) ∧
    ((placed tracking 179999 95000 0 0).pos.lastFill < rec0.holdHigh ∧ rec0.holdHigh ≤ 179999 + 1 - 0) ∧
    ((placed tracking 219999 95000 0 0).pos.lastFill < rec0.stopHigh ∧ rec0.stopHigh ≤ 219999 + 1 - 0) ∧
    rec0.pencRes ≤ (placed tracking 150000 5000 0 0).pos.remPrint ∧
    (rec0.pencRes + 95000 = 1 * 100000 + 0 ∧ (placed tracking 7 0 7 0).pos.xPrint < printFloor (placed tracking 7 0 7 0) + 1 ∧
      printFloor (placed tracking 100002 0 100 0) + 1 ≤ (placed tracking 100002 0 100 0).pos.xPrint ∧
      NoCrossing rec0 (placed tracking 100002 0 100 0).pos.lastFill 99901) := by
  unfold NoCrossing; decide +kernel

/-- A line whose calender encoder moves more than two WU at a count. -/
def coarse (s : State) : State :=
  { s with line := { s.line with active := some { rec0 with cencRes := 212500 } } }

/-- One WU above stop_low, warn_low and resume; one short of x_print with a carry of three. -/
theorem witness_NipCounts :
    (run.running = true ∧ (∀ r ∈ run.queue, r.state ≠ .transferring) ∧
      ({ run with line := { run.line with active := some rec0 } } : State).line.state = .unset) ∧
    (tracking.running = true ∧ tracking.line.active = some rec0 ∧ tracking.queue = [] ∧ tracking.line.state ≠ .unset) ∧
    (placed tracking 9 0 0 87499).pos.remNip + rec0.cencRes < 100000 ∧
    (100000 ≤ (placed tracking 9 0 9 87500).pos.remNip + rec0.cencRes ∧
      (placed tracking 9 0 9 87500).pos.xNip = (placed tracking 9 0 9 87500).pos.xPrint) ∧
    ((placed tracking 100000 0 99 87500).pos.remNip + rec0.cencRes = 1 * 100000 + 0 ∧
      (placed tracking 100000 0 99999 87500).pos.xNip + 1 ≤ 100000 ∧
      NoCrossing rec0 (placed tracking 100000 0 99 87500).pos.lastFill 99900) ∧
    (∀ s ∈ [placed tracking 40001 0 0 87500, placed tracking 60001 0 0 87500, placed tracking 90001 0 0 87500],
      s.running = true ∧ s.pos.remNip + rec0.cencRes = 1 * 100000 + 0 ∧ s.pos.xNip < s.pos.xPrint ∧
      s.pos.xNip + 1 ≤ s.pos.xPrint ∧ s.pos.xPrint - (s.pos.xNip + 1) ≤ s.pos.lastFill) ∧
    (rec0.stopLow < (placed tracking 40001 0 0 87500).pos.lastFill ∧ 40001 - 1 ≤ rec0.stopLow ∧
      rec0.warnLow < (placed tracking 60001 0 0 87500).pos.lastFill ∧ 60001 - 1 ≤ rec0.warnLow ∧
      rec0.resume < (placed tracking 90001 0 0 87500).pos.lastFill ∧ 90001 - 1 ≤ rec0.resume) ∧
    ((coarse (placed tracking 9 0 8 87500)).line.active = some { rec0 with cencRes := 212500 } ∧
      (placed tracking 9 0 8 87500).pos.remNip + 212500 = 3 * 100000 + 0 ∧ 8 < 9 ∧ 9 < 8 + 3 ∧
      9 - 9 ≤ (placed tracking 9 0 8 87500).pos.lastFill) ∧
    rec0.cencRes ≤ (placed tracking 9 0 0 12500).pos.remNip ∧
    (rec0.cencRes + 87500 = 1 * 100000 + (placed tracking 9 0 0 0).pos.remNip ∧ (placed tracking 9 0 0 0).pos.xNip < 1 ∧
      1 ≤ (placed tracking 100000 0 1 0).pos.xNip ∧ NoCrossing rec0 (placed tracking 100000 0 1 0).pos.lastFill 100000) := by
  unfold NoCrossing; decide +kernel

/-- In reverse, at the lead of the newest TRANSFERRING record and one WU past it, between a record before it and one behind it; and
without one, at 0 and at 1. -/
theorem witness_NipCounts_reverse :
    (∀ x ∈ [42500, 42501],
      let s := withQueue (placed tracking 142500 0 x 0)
        [anonymous .transferring 100 42500 [], anonymous .transferring 42500 42600 [newProbe 42500], anonymous .inTransit 43000 43100 []]
      s.running = true ∧ s.line.active = some rec0 ∧ s.line.state ≠ .unset ∧
        s.queue = [anonymous .transferring 100 42500 []] ++ anonymous .transferring 42500 42600 [newProbe 42500] ::
          [anonymous .inTransit 43000 43100 []] ∧
        rec0.cencRes + 87500 = 1 * 100000 + s.pos.remNip ∧ s.pos.xNip < 42500 + 1 + (x - 42500) ∧
        42500 + (x - 42500) = s.pos.xNip ∧ 42500 < 43000 ∧ 42500 < 42500 + 10 * rec0.arcLen ∧
        NoCrossing rec0 s.pos.lastFill (s.pos.xPrint - 42500)) ∧
    (∀ r ∈ (placed tracking 100000 0 1 0).queue, r.state ≠ .transferring) ∧
    (0 + 1 = (placed tracking 100000 0 1 0).pos.xNip ∧ (placed tracking 100000 0 0 0).pos.xNip < 0 + 1) := by
  unfold NoCrossing; decide +kernel

/-- An ANONYMOUS record on a web whose next forward count of the calender carries the nip to x + 1. -/
def approaching (st : PanelState) (x : Nat) : State :=
  withQueue (placed tracking 142500 0 x 87500) [anonymous st 42500 42600 [newProbe 42500]]

/-- That record with its trail open. -/
def trailing (x : Nat) : State :=
  withQueue (placed tracking 142500 0 x 87500) [printing 42500]

/-- That state with a record queue. -/
def offering (r : RecordQueue) : State :=
  { approaching .transferring 84599 with records := r }

/-- A record queue with as many records as are asked. -/
def recorded (n : Nat) (mode : QueueMode) (watermark : Nat) (filter : QueueFilter) : RecordQueue :=
  { list := List.replicate n (transferRecord (anonymous .transferring 1 2 [newProbe 1]))
    mode := mode, watermark := watermark, filter := filter, lost := false, drops := 65535 }

/-- One WU short of the lead and at it, with the trail closed and open, one short of a full arc past the trail and at that; the
mark window of a record with its lead at 42,500, of which the last WU is 34,799; the record queue with room for one and full. -/
theorem witness_ArrivalAndCompletion :
    (approaching .inTransit 42498).running = true ∧ (approaching .inTransit 42498).line.active = some rec0 ∧
    (approaching .inTransit 42498).line.state ≠ .unset ∧
    (approaching .inTransit 42498).pos.remNip + rec0.cencRes = 1 * 100000 + 0 ∧
    (∀ x ∈ [34798, 34799, 42498, 42499, 84598, 84599],
      (approaching .inTransit x).pos.xNip + 1 ≤ (approaching .inTransit x).pos.xPrint) ∧
    (∃ passed : Panel → Panel, ∀ q, passed q =
      if q.mark = some .noneYet ∧ ((42500 : Nat) : Int) - rec0.markLead + rec0.syncLimit ≤ (34800 : Nat) then
        { q with mark := some .missed, flags := addFlag q.flags .markMissed }
      else q) ∧
    ((printing 42500).mark = some .noneYet ∧ ((42500 : Nat) : Int) - rec0.markLead + rec0.syncLimit ≤ (34799 + 1 : Nat) ∧
      ¬((42500 : Nat) : Int) - rec0.markLead + rec0.syncLimit ≤ (34798 + 1 : Nat)) ∧
    ((approaching .inTransit 42498).pos.xNip + 1 < 42500 ∧ (trailing 42498).pos.xNip + 1 < 42500) ∧
    ((trailing 42499).queue = [printing 42500] ∧ (printing 42500).state = .printing ∧ (printing 42500).trail = none ∧
      42500 ≤ (trailing 42499).pos.xNip + 1) ∧
    (42500 ≤ (approaching .inTransit 42499).pos.xNip + 1 ∧
      (approaching .inTransit 42499).pos.xNip + 1 < 42600 + 10 * rec0.arcLen) ∧
    (approaching .transferring 84598).pos.xNip + 1 < 42600 + 10 * rec0.arcLen ∧
    42600 + 10 * rec0.arcLen ≤ (offering (recorded 0 .blocking 1 .all)).pos.xNip + 1 ∧
    ((anonymous .transferring 42500 42600 [newProbe 42500]).correction = none ∧
      (anonymous .transferring 42500 42600 [newProbe 42500]).probes ≠ [] ∧ 1 ≤ (doses 1).copies.dRef ∧
      ({ anonymous .transferring 42500 42600 [newProbe 42500] with correction := some (doses 1) } : Panel).correction =
        some (doses 1)) ∧
    ((recorded 0 .blocking 1 .none).filter = .none ∧ (recorded 31 .blocking 32 .exceptions).list.length < 32 ∧
      (recorded 31 .blocking 32 .exceptions).list.length + 1 = (recorded 31 .blocking 32 .exceptions).watermark ∧
      32 ≤ (recorded 32 .blocking 0 .all).list.length ∧ (recorded 32 .blocking 0 .all).mode = .blocking ∧
      32 ≤ (recorded 32 .overwrite 0 .all).list.length ∧ (recorded 32 .overwrite 0 .all).mode = .overwrite) ∧
    (∀ x ∈ [34798, 34799, 42498, 42499, 84598, 84599],
      NoCrossing rec0 (approaching .transferring x).pos.lastFill ((approaching .transferring x).pos.xPrint - (x + 1))) := by
  unfold NoCrossing
  refine ⟨by decide +kernel, rfl, by decide +kernel, by decide +kernel, by decide +kernel,
    ⟨fun _ => _, fun _ => rfl⟩, ?_⟩
  decide +kernel

/-! ### Inputs and marks -/

/-- A mark word of which some bits are in, stamped. -/
def marked (s : State) (stamp : Nat) (bits : List Bool) : State :=
  { s with mark := { s.mark with partialWord := some { stamp := stamp, bits := bits } } }

theorem witness_PlainInputs :
    (run.running = true ∧ run.live = true ∧ run.mark.partialWord = none) ∧ run.pos.errPrint ≤ 65535 ∧
    ({ run with pace := { run.pace with pulse := .gapPending } } : State).pace.pulse = .gapPending ∧
    (marked run 7 (List.replicate 14 true)).mark.partialWord = some { stamp := 7, bits := List.replicate 14 true } ∧
    (List.replicate 14 true).length < 15 := by decide +kernel

/-- A line whose queue is made of the closed printed records, the one with an open trail and the unprinted ones. -/
def edging (before opened rest : List Panel) (xPrint xNip : Nat) : State :=
  withQueue (placed tracking xPrint 0 xNip 0) (before ++ opened ++ rest)

/-- The hypotheses of an accepted edge. -/
def EdgeTaken (s : State) (before opened rest : List Panel) : Prop :=
  s.live = true ∧ s.line.active = some rec0 ∧ s.line.state ≠ .unset ∧ s.pos.vPrint.reverse = false ∧
    s.pos.xNip ≤ s.pos.xPrint ∧ 1 ≤ rec0.arcLen ∧
    (∀ q ∈ before, q.printed = true ∧ q.openTrail = false ∧
      (q.state = .transferring → s.pos.xNip < q.trail.getD 0 + 10 * rec0.arcLen)) ∧
    opened.length ≤ 1 ∧ (∀ q ∈ opened, q.openTrail = true) ∧
    (∀ q ∈ before ++ opened, q.lead.isSome = true ∧ q.lead.getD 0 < s.pos.xPrint ∧
      (q.state = .transferring ∨ s.pos.xNip < q.lead.getD 0)) ∧
    ∀ q ∈ rest, q.unprinted = true

/-- They hold on such a line. -/
def Edging (before opened rest : List Panel) (xPrint xNip : Nat) : Prop :=
  EdgeTaken (edging before opened rest xPrint xNip) before opened rest

/-- A record with its lead at x_print; a record to start with the nip short of x_print and at it, behind an open trail of a PRINTING
and of a TRANSFERRING record; no record to start, with 63 records and with 64. -/
theorem witness_GateRisingEdge :
    (run.live = true ∧ run.line.state = .unset) ∧
    (newestPrinted (withQueue tracking [printing 150000]) = some (printing 150000) ∧
      (withQueue tracking [printing 150000]).pos.xPrint ≤ (printing 150000).lead.getD 0) ∧
    Edging [] [] [readied true, waiting] 150000 0 ∧
    Edging [anonymous .transferring 100 200 []] [printing 300] [readied false] 301 299 ∧
    Edging [anonymous .transferring 100 200 []] [overrun 300] [waiting] 301 301 ∧
    (Edging [] [] [] 1 0 ∧ Edging [] [] [] 1 1) ∧
    (Edging (List.replicate 62 (anonymous .inTransit 100 200 [])) [printing 300] [] 301 0 ∧
      (edging (List.replicate 62 (anonymous .inTransit 100 200 [])) [printing 300] [] 301 0).queue.length < 64) ∧
    (Edging (List.replicate 63 (anonymous .inTransit 100 200 [])) [printing 300] [] 301 0 ∧
      64 ≤ (edging (List.replicate 63 (anonymous .inTransit 100 200 [])) [printing 300] [] 301 0).queue.length) := by
  refine ⟨by decide +kernel, by decide +kernel, ?_, ?_, ?_, ⟨?_, ?_⟩, ⟨?_, by decide +kernel⟩, ?_, by decide +kernel⟩ <;>
    unfold Edging EdgeTaken <;> decide +kernel

theorem witness_GateFallingEdge :
    (run.live = true ∧ ∀ r ∈ run.queue, r.openTrail = false) ∧
    (∀ r ∈ [printing 300, overrun 300], (abutting r 400 42399).line.active = some rec0 ∧
      (abutting r 400 42399).line.state ≠ .unset ∧
      (abutting r 400 42399).queue = [anonymous .inTransit 100 200 []] ++ r :: [waiting] ∧ r.openTrail = true ∧
      r.lead = some 300) ∧
    (∀ q ∈ [anonymous .inTransit 100 200 []] ++ [waiting], q.openTrail = false ∧ q.state ≠ .transferring) ∧
    ((printing 300).state ≠ .transferring ∧ (overrun 300).state = .transferring ∧
      (abutting (overrun 300) 400 42399).pos.xNip < (abutting (overrun 300) 400 42399).pos.xPrint + 10 * rec0.arcLen ∧
      (abutting (overrun 300) 400 42400).pos.xPrint + 10 * rec0.arcLen ≤ (abutting (overrun 300) 400 42400).pos.xNip) := by
  decide +kernel

/-- The four line states' cases of a cause. -/
theorem witness_StopInputs :
    run.live = true ∧ run.line.state = .unset ∧ tracking.live = true ∧ tracking.line.state = .tracking ∧
    halted.live = true ∧ halted.line.state = .halted := by decide +kernel

/-- The fifteen bits of code 101 with check 3, short of the last. -/
def code101 : List Bool :=
  [false, false, false, false, false, true, true, false, false, true, false, true, false, false, true]

/-- Code 101 at a stamp under a record with a lead, under a streak. -/
def expecting (lead stamp streak : Nat) : State :=
  let s := marked (withQueue tracking [printing lead]) stamp code101
  { s with mark := { s.mark with streak := streak } }

/-- A state with an accepted mark. -/
def blanking (s : State) (until_ : Nat) : State :=
  { s with mark := { s.mark with accepted := some { stamp := 0, blankingEnd := until_ } } }

/-- A candidate on its way to the nip, ten WU long. -/
def candidate (id lead : Nat) : Panel :=
  { printing lead with id := id, state := .inTransit, trail := some (lead + 10) }

/-- Code 101 at a stamp, with the nip at a coordinate, over a queue. -/
def matching (xNip stamp : Nat) (q : List Panel) : State :=
  marked (withQueue (placed tracking 150000 0 xNip 0) q) stamp code101

/-- Records passed over before a match: ANONYMOUS, and NORMAL with the mark seen, under an id of the code, missed and rejected. -/
def passedOver : List Panel :=
  [anonymous .inTransit 8300 8310 [], { candidate 4197 8320 with mark := some (.seen 0) },
    { candidate 5 8340 with mark := some .missed }, { candidate 6 8360 with mark := some .rejected }]

/-- Behind those, three candidates before the match, which is 300 WU early, and behind it one whose window the corrected nip has
just passed. -/
def fourth : State :=
  matching 2000 1000
    (passedOver ++ [candidate 1 8400, candidate 2 8500, candidate 3 8600] ++ candidate 101 8700 :: [candidate 102 9400])

theorem witness_MarkWords_candidates :
    (∀ q : Panel, q.markOpen = true ↔ q.printed = true ∧ q.normal.isSome = true ∧ q.mark = some .noneYet) ∧
    (let s := matching 2000 1000 (passedOver ++ (List.range 5).map fun k => candidate (97 + k) (8400 + k));
      (∀ q ∈ (s.queue.filter (·.markOpen)).take 4, q.id % 4096 ≠ bitsValue (code101.take 12)) ∧
        ∃ q ∈ s.queue, q.markOpen = true ∧ q.id % 4096 = bitsValue (code101.take 12)) ∧
    (fourth.queue =
        (passedOver ++ [candidate 1 8400, candidate 2 8500, candidate 3 8600]) ++ candidate 101 8700 :: [candidate 102 9400] ∧
      ((passedOver ++ [candidate 1 8400, candidate 2 8500, candidate 3 8600]).filter (·.markOpen)).length = 3 ∧
      (fourth.queue.map (·.id)).Nodup ∧
      (∀ q ∈ passedOver ++ [candidate 1 8400, candidate 2 8500, candidate 3 8600], q.markOpen = true →
        q.id % 4096 ≠ bitsValue (code101.take 12)) ∧
      ((candidate 101 8700).markOpen = true ∧ (candidate 101 8700).lead = some 8700 ∧
        (candidate 101 8700).id % 4096 = bitsValue (code101.take 12)) ∧
      ((8700 : Nat) : Int) - rec0.markLead - (1000 : Nat) = -300 ∧ (-300 : Int).natAbs ≤ rec0.syncLimit ∧
      ((1700 : Nat) : Int) =
        min (fourth.pos.xPrint : Int) (max (nipFloor fourth) (max 0 ((fourth.pos.xNip : Int) + -300))) ∧
      NoCrossing rec0 fourth.pos.lastFill (fourth.pos.xPrint - 1700) ∧
      (∀ q ∈ fourth.queue, q.state ≠ .transferring) ∧ (∀ q ∈ fourth.queue, q.lead.isSome = true ∧ 1700 < q.lead.getD 0) ∧
      ((9400 : Nat) : Int) - rec0.markLead + rec0.syncLimit ≤ (1700 : Nat)) ∧
    ((matching 8700 700 [candidate 101 9000]).queue = [] ++ candidate 101 9000 :: [] ∧
      ((9000 : Nat) : Int) - rec0.markLead - (700 : Nat) = 300 ∧
      ((9000 : Nat) : Int) = min (150000 : Int) (max (nipFloor (matching 8700 700 [candidate 101 9000])) (max 0 (8700 + 300))) ∧
      NoCrossing rec0 (matching 8700 700 [candidate 101 9000]).pos.lastFill (150000 - 9000) ∧
      (candidate 101 9000).state = .inTransit ∧ (candidate 101 9000).trail = some 9010 ∧ 9000 < 9010 + 10 * rec0.arcLen) := by
  refine ⟨fun q => by simp [Panel.markOpen, and_assoc], ?_⟩
  unfold NoCrossing; decide +kernel

theorem witness_MarkWords :
    (∃ (good : Prop) (miss : Panel → Panel),
      (good ↔ bitsValue ((code101 ++ [true]).drop 12) = expectedCheck (bitsValue (code101.take 12))) ∧
      ∀ q, miss q = { q with mark := some .missed, flags := addFlag q.flags .markMissed }) ∧
    (run.live = true ∧ (marked run 7 code101).mark.partialWord = some { stamp := 7, bits := code101 } ∧ code101.length = 15 ∧
      (marked run 7 code101).line.state = .unset) ∧
    (tracking.line.active = some rec0 ∧ tracking.line.state ≠ .unset ∧
      bitsValue ((code101 ++ [false]).drop 12) ≠ expectedCheck (bitsValue (code101.take 12)) ∧
      bitsValue ((code101 ++ [true]).drop 12) = expectedCheck (bitsValue (code101.take 12))) ∧
    ((blanking (marked tracking 7 code101) 8).mark.accepted = some { stamp := 0, blankingEnd := 8 } ∧
      (blanking (marked tracking 8 code101) 8).mark.accepted = some { stamp := 0, blankingEnd := 8 }) ∧
    (∀ q ∈ ((marked tracking 7 code101).queue.filter (·.markOpen)).take 4, q.id % 4096 ≠ bitsValue (code101.take 12)) ∧
    (rec0.haltOnNonMatch = false ∧ ({ rec0 with haltOnNonMatch := true } : MachineRecord).haltOnNonMatch = true) ∧
    ((expecting 9000 1000 2).queue = [] ++ printing 9000 :: [] ∧ (printing 9000).markOpen = true ∧
      (printing 9000).lead = some 9000 ∧
      (printing 9000).id % 4096 = bitsValue (code101.take 12)) ∧
    (((9000 : Int) - rec0.markLead - 1300).natAbs ≤ rec0.syncLimit ∧
      rec0.syncLimit < ((9000 : Int) - rec0.markLead - 1301).natAbs) ∧
    ((expecting 9000 1301 2).mark.streak = 2 ∧ (expecting 9000 1301 255).mark.streak ≠ 2) :=
  ⟨⟨_, fun _ => _, Iff.rfl, fun _ => rfl⟩, by decide +kernel⟩

/-! ### Timed events and the engine -/

/-- A state with the net counts of a window. -/
def counted (cal fab : Int) : State :=
  { tracking with pos := { tracking.pos with netCal := cal, netFab := fab } }

/-- A record whose accumulator stands at its scorch dose of 26,000 dms, over stale zones that differ by more than the limit. -/
def scorching (standing : Standing) : State :=
  { approaching .transferring 42500 with
    queue := [anonymous .transferring 42500 42600 [{ position := 42500, accumulator := 2600000, inArc := false }]]
    dose :=
      { tracking.dose with
        zones := { value := 1963, age := 0, standing := standing } ::
          List.replicate 7 { value := 1984, age := 0, standing := standing } } }

/-- A tick that scorches, with every zone fresh and with none; and the flags it adds. -/
theorem witness_DoseTicks_flags :
    (∀ standing ∈ [Standing.fresh, .stale 0], (scorching standing).running = true ∧
      (scorching standing).line.active = some rec0 ∧ (scorching standing).line.state ≠ .unset ∧
      (scorching standing).queue.map (fun r => hasFlag r.flags .scorch) = [false] ∧
      (doseTick (scorching standing)).queue.map (fun r => hasFlag r.flags .scorch) = [true]) ∧
    (doseTick (scorching .fresh)).queue.map (fun r => (hasFlag r.flags .unverified, hasFlag r.flags .spread)) = [(false, true)] ∧
    (doseTick (scorching (.stale 0))).queue.map (fun r => (hasFlag r.flags .unverified, hasFlag r.flags .spread)) =
      [(true, true)] ∧
    (doseTick (approaching .transferring 84499)).queue.map (fun r => hasFlag r.flags .scorch) = [false] := by decide +kernel

theorem witness_DoseTicks :
    (run.running = true ∧ run.line.state = .unset) ∧
    ((approaching .transferring 84499).running = true ∧ (approaching .transferring 84499).line.active = some rec0 ∧
      (approaching .transferring 84499).line.state ≠ .unset ∧
      (approaching .transferring 84499).queue[0]? = some (anonymous .transferring 42500 42600 [newProbe 42500]) ∧
      42500 ≤ (approaching .transferring 84499).pos.xNip ∧
      (approaching .transferring 84499).pos.xNip < 42500 + 10 * rec0.arcLen) := by decide +kernel

theorem witness_TensionTicks :
    tracking.line.active = some rec0 ∧
    (∃ moved : Nat → Nat → Nat → Prop, ∀ before goal after, moved before goal after ↔
      (goal ≤ before + rec0.rampRate ∧ before ≤ goal + rec0.rampRate → after = goal) ∧
      (before + rec0.rampRate < goal → after = before + rec0.rampRate) ∧
      (goal + rec0.rampRate < before → after + rec0.rampRate = before)) ∧
    Governs (governed (doses 1000)).queue (governing0 .transferring (doses 1000)) (doses 1000) ∧
    (rec0.coreDiameter < rec0.maxDiameter ∧ (doses 1000).copies.taper ≤ 100 ∧
      700 = max rec0.coreDiameter (min rec0.maxDiameter (governed (doses 1000)).tension.diameter)) ∧
    NoneGoverns tracking.queue ∧ tracking.tension.governed = false :=
  ⟨rfl, ⟨fun _ _ _ => _, fun _ _ _ => Iff.rfl⟩, ⟨rfl, [], [], rfl, .inl ⟨rfl, nofun⟩⟩, by decide +kernel, nofun, rfl⟩

/-- R124's figure: 129 N/m at 700 mm. -/
theorem test_rewind_target : rewindTarget rec0 prof0.copies 700 = 129 := by decide +kernel

/-- Zones of one age. -/
def aged (n : Nat) : State :=
  { tracking with
    dose := { tracking.dose with zones := List.replicate 8 { value := 1984, age := n, standing := .fresh } }
    tension := { tracking.tension with paperIn := { value := 100, age := n, standing := .fresh } } }

/-- Both tables stale since a time, with their lost indications, in a line state. -/
def bothStale (base : State) (since now : Nat) (lostTemperature lostTension : Bool) : State :=
  { base with
    now := now
    dose := { base.dose with zones := List.replicate 8 { value := 1984, age := 600, standing := .stale since } }
    tension :=
      { base.tension with
        paperIn := fresh 100
        fabricUnwind := fresh 150
        calIn := { value := 160, age := 600, standing := .stale since }
        fabricRewind := fresh 140
        lostTemperature := lostTemperature
        lostTension := lostTension } }

theorem witness_StaleExpiries :
    tracking.line.active = some rec0 ∧ (∃ z ∈ (aged 501).dose.zones, z.isFresh = true ∧ rec0.tempStaleMs < z.age) ∧
    (∃ z ∈ (aged 501).tension.zones, z.isFresh = true ∧ rec0.tensionStaleMs < z.age) := by
  decide +kernel

/-- A table of which a zone is stale since ms 7: its indication is lost one ms past hard_stale_ms (3000) and not before. -/
theorem measure_lost_after (n : Nat) (zones : List Zone) (lost : Bool) (all : ∀ z ∈ zones, z.standing = .stale 7 ∨ z.standing = .fresh)
    (some_ : ∃ z ∈ zones, z.standing = .stale 7) :
    RaisesMeasureLost rec0 { magnitude := 160, reverse := false } n zones lost ↔ lost = false ∧ 3007 < n := by
  constructor
  · rintro ⟨-, hlost, z, hz, since, h, hn⟩
    have hn : since + 3000 < n := hn
    rcases all z hz with h' | h' <;> rw [h'] at h <;> cases h
    exact ⟨hlost, by omega⟩
  · rintro ⟨hlost, hn⟩
    obtain ⟨z, hz, h⟩ := some_
    exact ⟨by decide, hlost, z, hz, 7, h, show 7 + 3000 < n by omega⟩

/-- One ms past hard_stale_ms, both tables, either and neither; at hard_stale_ms neither; in each line state. -/
theorem witness_StaleExpiries_lost :
    (∀ base ∈ [tracking, halted, { run with line := { run.line with active := some rec0 }, pos := tracking.pos }],
      base.line.active = some rec0 ∧ base.pos.vCal = { magnitude := 160, reverse := false }) ∧
    (tracking.line.state = .tracking ∧ halted.line.state = .halted ∧ run.line.state = .unset) ∧
    ∀ (base : State) (n : Nat) (lostTemperature lostTension : Bool), base.pos.vCal = { magnitude := 160, reverse := false } →
      let s := bothStale base 7 n lostTemperature lostTension
      (RaisesMeasureLost rec0 s.pos.vCal s.now s.dose.zones s.tension.lostTemperature ↔ lostTemperature = false ∧ 3007 < n) ∧
        (RaisesMeasureLost rec0 s.pos.vCal s.now s.tension.zones s.tension.lostTension ↔ lostTension = false ∧ 3007 < n) := by
  refine ⟨by decide +kernel, by decide +kernel, fun base n a b hv => ⟨?_, ?_⟩⟩
  · show RaisesMeasureLost rec0 base.pos.vCal n _ a ↔ _
    rw [hv]
    exact measure_lost_after n _ a (fun z hz => .inl (by rw [List.eq_of_mem_replicate hz]))
      ⟨{ value := 1984, age := 600, standing := .stale 7 }, by simp [bothStale], rfl⟩
  · show RaisesMeasureLost rec0 base.pos.vCal n (Tension.zones _) b ↔ _
    rw [hv]
    exact measure_lost_after n _ b (by simp [Tension.zones, bothStale, fresh])
      ⟨{ value := 160, age := 600, standing := .stale 7 }, by simp [Tension.zones, bothStale], rfl⟩

/-- The worked figure of 2.2 in ppm, and a calender that stood. -/
theorem witness_SpeedWindow :
    (tracking.running = true ∧ tracking.line.active = some rec0) ∧ (counted 0 5).pos.netCal ≤ 0 ∧
    (0 < (counted 1280 1598).pos.netCal ∧ 1 ≤ rec0.cencRes ∧
      1250 * ((counted 1280 1598).pos.netCal.toNat * rec0.cencRes) ≤
        ((counted 1280 1598).pos.netCal * rec0.cencRes - (counted 1280 1598).pos.netFab * rec0.fencRes).natAbs * 1000000 ∧
      ((counted 1280 1598).pos.netCal * rec0.cencRes - (counted 1280 1598).pos.netFab * rec0.fencRes).natAbs * 1000000 <
        1251 * ((counted 1280 1598).pos.netCal.toNat * rec0.cencRes)) := by decide +kernel

/-- The computation of a record of slot 5 at the directory's generation, or after a commit. -/
def computing (generation : Nat) : State :=
  { withQueue (withSlot tracking .valid) [waiting] with
    engine := some { panel := 101, snapshot := { snap0 with generation := generation } } }

/-- A READY record past its refresh interval whose slot is in entry 7 of the cache. -/
def refreshing (now : Nat) : State :=
  { withQueue (withSlot tracking .valid) [readied false] with
    now := now
    cache :=
      { entries := (Vector.replicate 8 none).set 7 (some { slot := 5, generation := 1, profile := prof0 }), nlu := 0 } }

/-- A fetched record past its refresh interval before a QUEUED one whose slot is not cached, while the engine computes. -/
def stalled : State :=
  { withQueue (withSlot tracking .valid) [readied true, { waiting with id := 102 }] with
    now := 5001
    engine := some { panel := 103, snapshot := snap0 } }

theorem witness_CorrectionsAndRefreshes_fetched :
    stalled.line.active = some rec0 ∧ stalled.queue = [readied true, { waiting with id := 102 }] ∧
    (readied true).state = .ready true 0 false ∧ 0 + rec0.refreshInterval < stalled.now ∧
    ({ waiting with id := 102 } : Panel).state = .queued ∧ ({ waiting with id := 102 } : Panel).normal = some announced ∧
    slotUsable stalled announced.slot = true ∧ (dirEntry stalled announced.slot).channels = some announced.coverage.length ∧
    stalled.engine = some { panel := 103, snapshot := snap0 } ∧ StoreIdle stalled ∧
    (∀ j : Fin 8, stalled.cache.entries[j] = none) := by unfold StoreIdle; decide +kernel

/-- R79 makes a fetched record's age a refresh expiry too: the fill that the record behind it misses reads. -/
theorem test_refresh_of_a_fetched_record :
    (match execRefreshExpiry stalled with
      | .next t => t.store.holder
      | _ => none) = some (.fill 5) := by decide +kernel

theorem witness_CorrectionsAndRefreshes :
    ((computing 1).line.active = some rec0 ∧ (computing 1).queue = [waiting] ∧ waiting.normal = some announced ∧
      slotUsable (computing 1) announced.slot = true ∧
      (computing 1).engine = some { panel := waiting.id, snapshot := { snap0 with generation := 1 } } ∧
      waiting.state = .queued) ∧
    ((dirEntry (computing 1) 5).generation = 1 ∧ (dirEntry (computing 65535) 5).generation ≠ 65535) ∧
    ((refreshing 5001).queue = [readied false] ∧ (readied false).state = .ready false 0 false ∧
      0 + rec0.refreshInterval < (refreshing 5001).now ∧ (refreshing 5001).engine = none ∧
      (dirEntry (refreshing 5001) 5).channels = some announced.coverage.length ∧
      (refreshing 5001).cache.entries[(7 : Fin 8)] = some { slot := 5, generation := 1, profile := prof0 } ∧
      (∀ j : Fin 8, j ≠ 7 → (refreshing 5001).cache.entries[j] = none) ∧
      prof0.channels.length = announced.coverage.length) := by decide +kernel

/-- A snapshot whose target tension is 1,700 N/m under a stretch of 400. -/
def steep : Snapshot :=
  { snap0 with
    profile := { prof0 with stretch := 400, copies := { prof0.copies with baseTension := 1500 } }
    bias := 200 }

/-- The snapshot of section 3.10 under a total ink limit that does not act. -/
def unscaled : Snapshot :=
  { snap0 with profile := { prof0 with inkLimit := 340 } }

/-- Each stage at the figures of section 3.10 and at its clamps: the speeds and dwells of R55's table, the table's ends, an inner
point and a falling half of R58 and R61, both sides of the two ink limits. -/
theorem witness_StagesAToFGiveTheCorrection :
    (∀ x ∈ [(4200, 160, 26250), (4200, 150, 28000), (8000, 12, 666667), (500, 900, 556)],
      1 ≤ x.2.1 ∧ IsRounded (x.1 * 1000) x.2.1 x.2.2) ∧
    IsRounded [1978, 1986, 1990, 1988, 1984, 1978].sum 6 1984 ∧ IsRounded [1978, 1986, 1984, 1978].sum 4 1982 ∧
    (1799 < rec0.t0 ∧ rec0.t0 + 15 * rec0.tempStep ≤ 2100 ∧ 1982 = rec0.t0 + 9 * rec0.tempStep + 2 ∧
      2 < rec0.tempStep ∧ rec0.rates[9]? = some 905 ∧ rec0.rates[10]? = some 1000 ∧
      IsRounded ((1000 - 905) * 2) rec0.tempStep 10) ∧
    (800 ≤ 958 ∧ 958 < 800 + 200 ∧ IsRounded ((4600 - 4096) * (958 - 800)) 200 398 ∧ IsRounded ((7 - 2) * (620 - 600)) 200 1) ∧
    (IsRounded ((computeCorrection snap0).dwell * stageRate rec0 (computeCorrection snap0).tPred) 1000 24255 ∧
      1 ≤ prof0.copies.dRef ∧ IsRounded (24255 * 1000) prof0.copies.dRef 970) ∧
    (∀ (k : Fin 4), ∃ (c : Channel) (g : Nat), prof0.channels[k.val]? = some c ∧
      [4411, 4223, 3970, 4262][k.val]? = some g ∧
      IsRounded (curveAt c.curve (computeCorrection snap0).qPred * c.base) 4096 g ∧ g ≤ c.limit) ∧
    ((List.zipWith (· * ·) snap0.coverage [4411, 4223, 3970, 4262]).sum = 1392285 ∧
      snap0.profile.inkLimit * 4096 < 1392285 ∧ 1392285 ≤ unscaled.profile.inkLimit * 4096) := by
  unfold IsRounded
  refine ⟨by decide +kernel, by decide +kernel, by decide +kernel, by decide +kernel, by decide +kernel, by decide +kernel, ?_,
    by decide +kernel⟩
  intro k
  refine ⟨(prof0.channels[k.val]?).getD { base := 0, limit := 0, curve := [] }, ([4411, 4223, 3970, 4262][k.val]?).getD 0, ?_⟩
  revert k
  decide +kernel

theorem witness_StageGGivesTheScales :
    (snap0.profile.stretch = 45 ∧ snap0.profile.neck = 12 ∧ (computeCorrection snap0).targetTension = 180) ∧
    (steep.profile.stretch = 400 ∧ (computeCorrection steep).targetTension = 1700) := by decide +kernel

/-! ### Invariants: a state other than reset's, and a step from it -/

theorem witness_EveryStepKeeps :
    ArrayCanonical (operating (.erase 3 5) .writing) ∧ WebInRange tracking ∧ UnsetHoldsNoWeb tracking ∧ IdsDistinct tracking ∧
    UnreadyFollows tracking ∧ StaleFollows tracking ∧ StopRecordFitsLine halted ∧ TrimInRange tracking ∧
    BiasInRange tracking ∧ ∃ t, step tracking = .next t := by
  refine ⟨cells_wf, ?_, nofun, ?_, rfl, rfl, ?_, ?_, ?_, _, rfl⟩
  · unfold WebInRange; decide +kernel
  · unfold IdsDistinct QueuesBounded; decide +kernel
  · unfold StopRecordFitsLine; decide +kernel
  · unfold TrimInRange; decide +kernel
  · unfold BiasInRange; decide +kernel

/-- A printed record on the web of its line. -/
theorem witness_EveryStepKeepsTheWebInRangeAndOrdered : WebOrdered (withQueue tracking [printing 100, waiting]) := by
  refine ⟨?_, ?_⟩
  · intro r hr
    obtain rfl | rfl : r = printing 100 ∨ r = waiting := by simpa [withQueue] using hr
    · exact fun _ => ⟨100, rfl, by decide +kernel, nofun⟩
    · exact fun h => absurd h (by decide)
  · simp only [withQueue, List.pairwise_cons, List.mem_singleton, forall_eq, List.not_mem_nil, false_implies, implies_true,
      List.Pairwise.nil, and_true]
    exact fun h => absurd h (by decide)

/-- A record in each printed state, its lead on its side of the nip at 100 WU, and one that waits. -/
def onTheWeb : List Panel :=
  [anonymous .transferring 100 200 [], anonymous .inTransit 200 300 [], printing 300, waiting]

/-- Any line with those four on it, the print position at or beyond the last trail. -/
theorem onTheWeb_follows (s : State) (hnip : s.pos.xNip = 100) (hprint : 300 ≤ s.pos.xPrint) :
    StatesFollowWeb (withQueue s onTheWeb) := by
  refine ⟨⟨?_, ?_⟩, ?_, ?_⟩
  · simp [onTheWeb, withQueue, CoordinatesOrdered, anonymous, printing, waiting, Panel.printed, Panel.unprinted]
    omega
  · simp [onTheWeb, withQueue, RecordsOrdered, anonymous, printing, waiting, Panel.printed, Panel.unprinted]
  · simp [onTheWeb, withQueue, StateFollowsNip, anonymous, printing, waiting, Panel.printed, Panel.unprinted, hnip]
  · simp only [onTheWeb, withQueue]
    decide +kernel

theorem witness_EveryStepKeepsTheWebInRangeAndOrdered_states :
    StatesFollowWeb (withQueue (placed tracking 150000 0 100 0) onTheWeb) :=
  onTheWeb_follows _ rfl (show 300 ≤ 150000 by decide)

/-- The one valid entry of that cache. -/
theorem refreshing_entry (i : Fin 8) (e : CacheEntry) (h : (refreshing 5001).cache.entries[i] = some e) :
    e = { slot := 5, generation := 1, profile := prof0 } := by
  have all : ∀ j : Fin 8, (refreshing 5001).cache.entries[j] = none ∨
      (refreshing 5001).cache.entries[j] = some { slot := 5, generation := 1, profile := prof0 } := by decide +kernel
  rcases all i with h' | h' <;> rw [h'] at h
  · cases h
  · exact (Option.some.inj h).symm

/-- A filled entry of the slot in the directory. -/
theorem refreshing_coherent : CacheCoherent (refreshing 5001) := by
  refine ⟨fun i e h => ?_, ?_, ⟨fun i e h => ?_, fun r hr a h => ?_, nofun⟩, ⟨nofun, nofun⟩, nofun⟩
  · rw [refreshing_entry i e h]
    decide +kernel
  · have lone : ∀ k : Fin 8, (refreshing 5001).cache.entries[k].isSome = true → k = 7 := by decide +kernel
    intro i j e f hi hj _
    rw [lone i (by rw [hi]; rfl), lone j (by rw [hj]; rfl)]
  · rw [refreshing_entry i e h]
    decide
  · obtain rfl : r = readied false := by simpa [refreshing, withQueue] using hr
    obtain rfl : announced = a := Option.some.inj h
    decide

/-- The correction of section 3.10 is within its limits. -/
theorem snap0_as_computed : CorrectionAsComputed (computeCorrection snap0) := by
  refine ⟨snap0, rfl, by decide +kernel, ?_, by decide +kernel, by decide +kernel⟩
  have all : ∀ k : Fin 4, ((computeCorrection snap0).gains[k.val]?).getD 0 ≤
      ((snap0.profile.channels[k.val]?).map (·.limit)).getD 0 := by decide +kernel
  have few : snap0.profile.channels.length = 4 := rfl
  intro i g ch hg hc
  have hi : i < 4 := few ▸ (List.getElem?_eq_some_iff.mp hc).1
  simpa [hg, hc] using all ⟨i, hi⟩

/-- A READY record of a VALID slot under its directory generation, with the correction of section 3.10, and its cached entry. -/
theorem witness_EveryStepKeepsTheCacheAndTheCorrections :
    CacheCoherent (refreshing 5001) ∧ CorrectionsAsComputed (refreshing 5001) ∧ ReadyRecordsCoherent (refreshing 5001) := by
  refine ⟨refreshing_coherent, ?_, ?_, ⟨by decide +kernel, nofun, nofun⟩, ⟨nofun, nofun, nofun, nofun⟩, ?_, refreshing_coherent⟩
  · intro r hr c h
    obtain rfl : r = readied false := by simpa [refreshing, withQueue] using hr
    obtain rfl : computeCorrection snap0 = c := Option.some.inj h
    exact snap0_as_computed
  · intro r hr _
    obtain rfl : r = readied false := by simpa [refreshing, withQueue] using hr
    exact ⟨announced, computeCorrection snap0, rfl, rfl, by decide +kernel⟩
  · unfold IdsDistinct QueuesBounded
    decide +kernel

end Sys2Proof.Tests
end

