-- ==== Sys2Proof/Proofs/Quiet.lean ====
section
/-!
What leaves the panel queue's promises alone: the part of the state they speak of, and the changes to it that keep them.
-/
namespace Sys2Proof.Proofs

open Sys2Proof.Machine Sys2Proof.Safety

/-! ## The part of the state that the queue's promises speak of -/

/-- The panel queue, its counter, the transfer records, the coordinates and the line state. -/
structure QueueView where
  queue : List Panel
  idCounter : Nat
  records : List TransferRecord
  xPrint : Nat
  xNip : Nat
  remPrint : Nat
  remNip : Nat
  line : LineState

/-- That part of a state. -/
def view (s : State) : QueueView :=
  { queue := s.queue, idCounter := s.idCounter, records := s.records.list, xPrint := s.pos.xPrint, xNip := s.pos.xNip
    remPrint := s.pos.remPrint, remNip := s.pos.remNip, line := s.line.state }

/-- Two states with the same view, field by field. -/
theorem view_eq_iff {s t : State} :
    view t = view s ↔ t.queue = s.queue ∧ t.idCounter = s.idCounter ∧ t.records.list = s.records.list ∧
      t.pos.xPrint = s.pos.xPrint ∧ t.pos.xNip = s.pos.xNip ∧ t.pos.remPrint = s.pos.remPrint ∧
      t.pos.remNip = s.pos.remNip ∧ t.line.state = s.line.state := by
  simp [view]

@[simp] theorem view_updatePort (s : State) (p : PortId) (f : Port → Port) : view (s.updatePort p f) = view s := rfl
@[simp] theorem view_updateDir (s : State) (i : SlotId) (f : DirEntry → DirEntry) : view (s.updateDir i f) = view s := rfl
@[simp] theorem view_updateHold (s : State) (f : HoldSet → HoldSet) : view (s.updateHold f) = view s := rfl
@[simp] theorem view_updateInputs (s : State) (f : Inputs → Inputs) : view (s.updateInputs f) = view s := rfl
@[simp] theorem view_updateMark (s : State) (f : MarkUnit → MarkUnit) : view (s.updateMark f) = view s := rfl
@[simp] theorem view_updatePace (s : State) (f : Pace → Pace) : view (s.updatePace f) = view s := rfl
@[simp] theorem view_updateCache (s : State) (f : Cache → Cache) : view (s.updateCache f) = view s := rfl
@[simp] theorem view_updateStore (s : State) (f : Store → Store) : view (s.updateStore f) = view s := rfl
@[simp] theorem view_updateDose (s : State) (f : Dose → Dose) : view (s.updateDose f) = view s := rfl
@[simp] theorem view_updateTension (s : State) (f : Tension → Tension) : view (s.updateTension f) = view s := rfl
@[simp] theorem view_raise (s : State) (k : Attn) : view (s.raise k) = view s := rfl
@[simp] theorem view_answer (s : State) (p : PortId) (c : Byte) (r : Reply) : view (s.answer p c r) = view s := rfl

@[simp] theorem view_raiseIf (s : State) (c : Bool) (k : Attn) : view (s.raiseIf c k) = view s := by cases c <;> rfl

@[simp] theorem view_reevaluate (s : State) : view (reevaluate s) = view s := by simp [view]

@[simp] theorem view_syncUnready (s : State) : view (syncUnready s) = view s := rfl
@[simp] theorem view_syncStale (s : State) : view (syncStale s) = view s := rfl
@[simp] theorem view_hold (op : StoreOp) (s : State) : view (hold op s) = view s := rfl
@[simp] theorem view_freeStore (s : State) : view (freeStore s) = view s := rfl
@[simp] theorem view_markDamaged (i : SlotId) (s : State) : view (markDamaged i s) = view s := rfl
@[simp] theorem view_setRecordPending (i : SlotId) (s : State) : view (setRecordPending i s) = view s := rfl
@[simp] theorem view_answerLater (p : PortId) (c : Byte) (r : Reply) (s : State) : view (answerLater p c r s) = view s := rfl
@[simp] theorem view_clearLostTemperature (s : State) : view (clearLostTemperature s) = view s := rfl

@[simp] theorem view_closeEvent_nil (b s : State) : view (closeEvent b s []) = view s := by simp [view]

@[simp] theorem view_paceNominal (s : State) : view (paceNominal s) = view s := by
  unfold paceNominal; split <;> rfl

@[simp] theorem view_paceAtEdge (s : State) : view (paceAtEdge s) = view s := by
  unfold paceAtEdge; split <;> simp

@[simp] theorem view_programRows (rows : List StagingRow) (s : State) : view (programRows rows s) = view s := by
  unfold programRows
  induction rows generalizing s with
  | nil => rfl
  | cons r rest ih => rw [List.foldl_cons, ih]; rfl

@[simp] theorem view_commitEffects (i : SlotId) (s : State) : view (commitEffects i s) = view s := by
  simp [commitEffects]

@[simp] theorem view_judgeLost (s : State) : view (judgeLost s).1 = view s := by
  unfold judgeLost; split <;> simp

@[simp] theorem view_recomputeAdvice (s : State) : view (recomputeAdvice s) = view s := by
  simp [recomputeAdvice]

/-! ## Records that stand alike on the web -/

/-- A record with another's place on the web: printed or not as it, and when printed with its coordinates. -/
def SamePlace (new old : Panel) : Prop :=
  new.printed = old.printed ∧ (old.printed = true → new.lead = old.lead ∧ new.trail = old.trail)

/-- A record with another's place on the web, and when printed its state. -/
def Alike (new old : Panel) : Prop :=
  SamePlace new old ∧ (old.printed = true → new.state = old.state)

theorem SamePlace.refl (r : Panel) : SamePlace r r := ⟨rfl, fun _ => ⟨rfl, rfl⟩⟩

theorem SamePlace.trans {a b c : Panel} (h : SamePlace a b) (g : SamePlace b c) : SamePlace a c := by
  obtain ⟨hp, hc⟩ := h
  obtain ⟨gp, gc⟩ := g
  refine ⟨hp.trans gp, fun h => ?_⟩
  obtain ⟨h1, h2⟩ := hc (gp.trans h)
  obtain ⟨g1, g2⟩ := gc h
  exact ⟨h1.trans g1, h2.trans g2⟩

theorem Alike.refl (r : Panel) : Alike r r := ⟨.refl r, fun _ => rfl⟩

theorem Alike.trans {a b c : Panel} (h : Alike a b) (g : Alike b c) : Alike a c :=
  ⟨h.1.trans g.1, fun hc => (h.2 (g.1.1.trans hc)).trans (g.2 hc)⟩

/-- A record whose state, lead and trail are another's stands alike. -/
theorem Alike.of_fields {a b : Panel} (hs : a.state = b.state) (hl : a.lead = b.lead) (ht : a.trail = b.trail) :
    Alike a b :=
  ⟨⟨by simp [Panel.printed, Panel.unprinted, hs], fun _ => ⟨hl, ht⟩⟩, fun _ => hs⟩

/-- Two unprinted records stand alike: neither is on the web. -/
theorem Alike.of_unprinted {a b : Panel} (ha : a.unprinted = true) (hb : b.unprinted = true) : Alike a b := by
  refine ⟨⟨?_, fun h => ?_⟩, fun h => ?_⟩ <;> simp_all [Panel.printed]

theorem alike_flag (r : Panel) (f : Flag) : Alike (r.flag f) r := .of_fields rfl rfl rfl

theorem alike_flagIf (r : Panel) (c : Bool) (f : Flag) : Alike (r.flagIf c f) r := by
  cases c
  · exact .refl r
  · exact alike_flag r f

theorem alike_missMark (r : Panel) : Alike r.missMark r := .of_fields rfl rfl rfl

theorem alike_fetch (r : Panel) : Alike r.fetch r := by
  unfold Panel.fetch
  split
  · rename_i h
    exact .of_unprinted rfl (by simp [Panel.unprinted, h])
  · exact .refl r

theorem unprinted_of_isReady {r : Panel} (h : r.isReady = true) : r.unprinted = true := by
  unfold Panel.isReady at h
  split at h <;> simp_all [Panel.unprinted]

theorem alike_returnToQueued {i : SlotId} {r : Panel} (h : unfetchedNames i r = true) : Alike r.returnToQueued r := by
  refine .of_unprinted rfl (unprinted_of_isReady ?_)
  simp only [unfetchedNames, Bool.and_eq_true] at h
  exact h.1.1

theorem alike_tickPanel (m : MachineRecord) (zs : List (Nat × Bool)) (x : Nat) (v : Speed) (halted : Bool) (r : Panel) :
    Alike (tickPanel m zs x v halted r) r := by
  unfold tickPanel
  exact (alike_flagIf _ _ _).trans <| (alike_flagIf _ _ _).trans <| (alike_flagIf _ _ _).trans <|
    (alike_flagIf _ _ _).trans <| (alike_flagIf _ _ _).trans <| .of_fields rfl rfl rfl

/-! ## Queues that keep their web -/

/-- Every record of a queue that a relation ties to one at the same place of a part of another queue: membership. -/
theorem exists_of_sublistForall₂ {S : Panel → Panel → Prop} {l k : List Panel} (h : List.SublistForall₂ S l k) :
    ∀ a ∈ l, ∃ b ∈ k, S a b := by
  induction h with
  | nil => simp
  | cons hab _ ih =>
    intro a ha
    rcases List.mem_cons.mp ha with rfl | ha
    · exact ⟨_, List.mem_cons_self, hab⟩
    · obtain ⟨b, hb, hs⟩ := ih a ha
      exact ⟨b, List.mem_cons_of_mem _ hb, hs⟩
  | cons_right _ ih =>
    intro a ha
    obtain ⟨b, hb, hs⟩ := ih a ha
    exact ⟨b, List.mem_cons_of_mem _ hb, hs⟩

/-- An order that a relation carries over passes to the part of the queue that is so related. -/
theorem pairwise_of_sublistForall₂ {S R : Panel → Panel → Prop} {l k : List Panel} (h : List.SublistForall₂ S l k)
    (hR : ∀ a b c d, S a c → S b d → R c d → R a b) (hk : k.Pairwise R) : l.Pairwise R := by
  induction h with
  | nil => exact .nil
  | cons hab hl ih =>
    obtain ⟨hb, hk⟩ := List.pairwise_cons.mp hk
    refine List.pairwise_cons.mpr ⟨fun c hc => ?_, ih hk⟩
    obtain ⟨d, hd, hcd⟩ := exists_of_sublistForall₂ hl c hc
    exact hR _ _ _ _ hab hcd (hb d hd)
  | cons_right _ ih => exact ih (List.pairwise_cons.mp hk).2

theorem sublistForall₂_map {S : Panel → Panel → Prop} {f : Panel → Panel} {l : List Panel} (h : ∀ r ∈ l, S (f r) r) :
    List.SublistForall₂ S (l.map f) l :=
  List.sublistForall₂_iff.mpr ⟨l, List.forall₂_map_left_iff.mpr (List.forall₂_same.mpr h), List.Sublist.refl l⟩

theorem sublistForall₂_sublist {S : Panel → Panel → Prop} (hS : ∀ r, S r r) {l k : List Panel} (h : l.Sublist k) :
    List.SublistForall₂ S l k :=
  List.sublistForall₂_iff.mpr ⟨l, List.forall₂_same.mpr fun r _ => hS r, h⟩

theorem sublistForall₂_trans {S : Panel → Panel → Prop} (hS : ∀ {a b c}, S a b → S b c → S a c) {l k j : List Panel}
    (h : List.SublistForall₂ S l k) (g : List.SublistForall₂ S k j) : List.SublistForall₂ S l j :=
  have : IsTrans Panel S := ⟨fun _ _ _ => hS⟩
  IsTrans.trans l k j h g

/-- A step that keeps the coordinates, brings no line back to UNSET, and leaves of the queue records that stand alike. -/
structure WebKept (s t : State) : Prop where
  xPrint : t.pos.xPrint = s.pos.xPrint
  xNip : t.pos.xNip = s.pos.xNip
  remPrint : t.pos.remPrint = s.pos.remPrint
  remNip : t.pos.remNip = s.pos.remNip
  line : t.line.state = .unset → s.line.state = .unset
  queue : List.SublistForall₂ Alike t.queue s.queue

/-- A step that takes no new id into use and lengthens no queue beyond its limit. -/
structure IdsKept (s t : State) : Prop where
  ids : (idsInUse t).Subperm (idsInUse s)
  counter : t.idCounter = s.idCounter
  queue : t.queue.length ≤ s.queue.length
  records : s.records.list.length ≤ 32 → t.records.list.length ≤ 32

/-- A step that keeps the web and takes no id. -/
structure Quiet (s t : State) : Prop where
  web : WebKept s t
  ids : IdsKept s t

theorem WebKept.trans {s t u : State} (h : WebKept s t) (g : WebKept t u) : WebKept s u where
  xPrint := g.xPrint.trans h.xPrint
  xNip := g.xNip.trans h.xNip
  remPrint := g.remPrint.trans h.remPrint
  remNip := g.remNip.trans h.remNip
  line := fun hu => h.line (g.line hu)
  queue := sublistForall₂_trans (S := Alike) Alike.trans g.queue h.queue

theorem IdsKept.trans {s t u : State} (h : IdsKept s t) (g : IdsKept t u) : IdsKept s u where
  ids := g.ids.trans h.ids
  counter := g.counter.trans h.counter
  queue := g.queue.trans h.queue
  records := fun hs => g.records (h.records hs)

theorem Quiet.trans {s t u : State} (h : Quiet s t) (g : Quiet t u) : Quiet s u := ⟨h.web.trans g.web, h.ids.trans g.ids⟩

theorem WebKept.of_view {s t : State} (h : view t = view s) : WebKept s t := by
  obtain ⟨hq, -, -, h1, h2, h3, h4, hl⟩ := view_eq_iff.mp h
  exact ⟨h1, h2, h3, h4, fun hu => hl ▸ hu, sublistForall₂_sublist Alike.refl (hq ▸ List.Sublist.refl _)⟩

theorem IdsKept.of_view {s t : State} (h : view t = view s) : IdsKept s t := by
  obtain ⟨hq, hc, hr, -⟩ := view_eq_iff.mp h
  exact ⟨by simp only [idsInUse, hq, hr]; exact .refl _, hc, by rw [hq], fun hs => hr ▸ hs⟩

/-- A step that changes nothing of the view is quiet. -/
theorem Quiet.of_view {s t : State} (h : view t = view s) : Quiet s t := ⟨.of_view h, .of_view h⟩

theorem Quiet.refl (s : State) : Quiet s s := .of_view rfl

/-- A quiet step on one side of which only what is outside the view changes. -/
theorem Quiet.after_view {s t u : State} (h : Quiet s t) (g : view u = view t) : Quiet s u := h.trans (.of_view g)

theorem Quiet.before_view {s t u : State} (g : view t = view s) (h : Quiet t u) : Quiet s u := (Quiet.of_view g).trans h

theorem IdsKept.mapPanels (s : State) (c : Panel → Bool) {f : Panel → Panel} (hf : ∀ r, (f r).id = r.id) :
    IdsKept s (s.mapPanels c f) where
  ids := by
    have hid : (s.mapPanels c f).queue.map (·.id) = s.queue.map (·.id) := by
      rw [State.mapPanels_queue, List.map_map]
      refine List.map_congr_left fun r _ => ?_
      simp only [Function.comp]
      split <;> simp [hf]
    simp only [idsInUse, hid, State.mapPanels_records]
    exact .refl _
  counter := rfl
  queue := by simp
  records := id

theorem WebKept.mapPanels (s : State) {c : Panel → Bool} {f : Panel → Panel}
    (hf : ∀ r ∈ s.queue, c r = true → Alike (f r) r) : WebKept s (s.mapPanels c f) where
  xPrint := rfl
  xNip := rfl
  remPrint := rfl
  remNip := rfl
  line := id
  queue := sublistForall₂_map fun r hr => by
    split
    · exact hf r hr ‹_›
    · exact .refl r

/-- A change of picked records that keeps their ids and leaves them alike is quiet. -/
theorem quiet_mapPanels (s : State) {c : Panel → Bool} {f : Panel → Panel} (hid : ∀ r, (f r).id = r.id)
    (hf : ∀ r ∈ s.queue, c r = true → Alike (f r) r) : Quiet s (s.mapPanels c f) :=
  ⟨.mapPanels s hf, .mapPanels s c hid⟩

/-- A flag on picked records is quiet. -/
theorem quiet_flag (s : State) (c : Panel → Bool) (f : Flag) : Quiet s (s.mapPanels c (·.flag f)) :=
  quiet_mapPanels s (fun _ => rfl) fun r _ _ => alike_flag r f

/-- The queue cut down to some of its records, in their order, is quiet. -/
theorem quiet_sublist (s : State) {l : List Panel} (h : l.Sublist s.queue) : Quiet s { s with queue := l } where
  web := ⟨rfl, rfl, rfl, rfl, id, sublistForall₂_sublist Alike.refl h⟩
  ids := ⟨((h.map _).append_right _).subperm, rfl, h.length_le, id⟩

/-! ## The shared operations -/

theorem quiet_raiseCause (s : State) (c : StopCause) : Quiet s (raiseCause s c) := by
  unfold raiseCause
  split
  · exact .refl s
  · rename_i h
    refine Quiet.after_view (t := State.mapPanels _ _ _) (Quiet.trans ?_ (quiet_flag _ _ _)) (view_raise _ _)
    exact ⟨⟨rfl, rfl, rfl, rfl, nofun, sublistForall₂_sublist Alike.refl (List.Sublist.refl _)⟩,
      ⟨List.Subperm.refl _, rfl, le_rfl, id⟩⟩
  · refine Quiet.before_view ?_ (quiet_flag _ _ _)
    simp [view, ‹s.line.state = .halted›]

/-- The causes of an event are quiet, and so is its end. -/
theorem quiet_closeEvent (b s : State) (cs : List StopCause) : Quiet s (closeEvent b s cs) := by
  have fold : ∀ (cs : List StopCause) (s : State), Quiet s (cs.foldl raiseCause s) := by
    intro cs
    induction cs with
    | nil => exact Quiet.refl
    | cons c rest ih => exact fun s => (quiet_raiseCause s c).trans (ih _)
  exact (fold _ s).after_view (view_raiseIf _ _ _)

theorem quiet_removeUnprinted (id : Nat) (s : State) : Quiet s (removeUnprinted id s) :=
  (quiet_sublist s List.filter_sublist).after_view (by rw [removeUnprinted]; simp; rfl)

theorem quiet_grantErase (p : PortId) (i : SlotId) (s : State) : Quiet s (grantErase p i s) :=
  (quiet_mapPanels s (c := unfetchedNames i) (f := Panel.returnToQueued) (fun _ => rfl)
    fun _ _ h => alike_returnToQueued h).after_view (by simp [grantErase])

theorem quiet_startRequest (r : StoreRequest) (s : State) : Quiet s (startRequest r s) := by
  cases r with
  | erase p i =>
    rw [startRequest]
    split
    · exact .of_view (by simp)
    · exact quiet_grantErase p i s
  | _ => exact .of_view rfl

theorem quiet_grantFill (s : State) : Quiet s (grantFill s) := by
  unfold grantFill
  split
  · dsimp only
    split <;> exact .of_view (by simp)
  · exact .refl s

theorem quiet_grantWaiting (s : State) : Quiet s (grantWaiting s) := by
  refine (quiet_grantFill s).trans ?_
  unfold grantWaiting grantRequest
  split
  · exact Quiet.before_view (view_updateStore _ _) (quiet_startRequest _ _)
  · exact .refl _

theorem quiet_askStore (r : StoreRequest) (s : State) : Quiet s (askStore r s).st :=
  Quiet.before_view (view_updateStore s _) (quiet_grantWaiting _)

/-- The end of a store operation is quiet, whatever it did outside the view. -/
theorem quiet_endOperation {s t : State} (b : State) (p : PortId) (c : Byte) (r : Reply) (h : view t = view s) :
    Quiet s (endOperation b p c r t) :=
  ((Quiet.of_view ((view_answerLater p c r t).trans h)).trans (quiet_grantWaiting _)).trans (quiet_closeEvent _ _ _)

/-! ## Completion (R18) -/

theorem length_offerRecord (s : State) (k : TransferRecord) (h : s.records.list.length ≤ 32) :
    (offerRecord s k).records.list.length ≤ 32 := by
  unfold offerRecord offerToFull appendRecord recordCapacity
  split
  · split
    · simp; omega
    · split <;> simp <;> omega
  · exact h

theorem ids_offerRecord (s : State) (k : TransferRecord) :
    (idsInUse (offerRecord s k)).Subperm (idsInUse s ++ [k.id]) := by
  have same : (idsInUse s).Subperm (idsInUse s ++ [k.id]) := (List.sublist_append_left _ _).subperm
  unfold offerRecord offerToFull appendRecord
  split
  · split
    · simp only [idsInUse, State.raiseIf_queue, State.raiseIf_records, State.updateRecords_queue,
        State.updateRecords_records, List.map_append, List.append_assoc]
      exact .refl _
    · split
      · simpa [idsInUse] using same
      · simp only [idsInUse, State.updateRecords_queue, State.updateRecords_records, List.map_append, List.map_cons,
          List.map_nil, ← List.append_assoc]
        exact (((List.tail_sublist _).map _).append_left _ |>.append_right _).subperm
  · exact same

/-- What an offer leaves alone: all of the view but the transfer records. -/
theorem offerRecord_keeps (s : State) (k : TransferRecord) :
    (offerRecord s k).queue = s.queue ∧ (offerRecord s k).idCounter = s.idCounter ∧ (offerRecord s k).pos = s.pos ∧
      (offerRecord s k).line = s.line := by
  unfold offerRecord offerToFull appendRecord
  split
  · split
    · simp
    · split <;> simp
  · simp

/-- One record's completion leaves the queue, the coordinates and the line, and takes at most the record's id. -/
theorem completeOne_keeps (s : State) (r : Panel) :
    ((completeOne s r).queue = s.queue ∧ (completeOne s r).idCounter = s.idCounter ∧ (completeOne s r).pos = s.pos ∧
      (completeOne s r).line = s.line) ∧
    (idsInUse (completeOne s r)).Subperm (idsInUse s ++ [r.id]) ∧
    (s.records.list.length ≤ 32 → (completeOne s r).records.list.length ≤ 32) := by
  unfold completeOne
  refine ⟨?_, ?_, fun h => length_offerRecord _ _ (by simpa using h)⟩
  · obtain ⟨hq, hc, hp, hl⟩ := offerRecord_keeps
      ((s.updateDose fun d => { d with trim := trimAfter d.trim (evaluated r) }).raiseIf
        (decide (outcomeOf (evaluated r) = .flagged ∨ outcomeOf (evaluated r) = .untracked)) .panelFlagged)
      (transferRecord (evaluated r))
    exact ⟨hq.trans (by simp), hc.trans (by simp), hp.trans (by simp), hl.trans (by simp)⟩
  · have hid : (transferRecord (evaluated r)).id = r.id := by
      simp only [transferRecord, evaluated, Panel.flagIf]; split <;> rfl
    rw [← hid]
    refine (ids_offerRecord _ _).trans ?_
    simp only [idsInUse, State.raiseIf_queue, State.raiseIf_records, State.updateDose_queue, State.updateDose_records]
    exact .refl _

theorem foldl_completeOne_keeps (l : List Panel) (s : State) :
    ((l.foldl completeOne s).queue = s.queue ∧ (l.foldl completeOne s).idCounter = s.idCounter ∧
      (l.foldl completeOne s).pos = s.pos ∧ (l.foldl completeOne s).line = s.line) ∧
    (idsInUse (l.foldl completeOne s)).Subperm (idsInUse s ++ l.map (·.id)) ∧
    (s.records.list.length ≤ 32 → (l.foldl completeOne s).records.list.length ≤ 32) := by
  induction l generalizing s with
  | nil => exact ⟨⟨rfl, rfl, rfl, rfl⟩, by rw [List.map_nil, List.append_nil]; exact .refl _, id⟩
  | cons r rest ih =>
    obtain ⟨⟨hq, hc, hp, hl⟩, hids, hlen⟩ := completeOne_keeps s r
    obtain ⟨⟨gq, gc, gp, gl⟩, gids, glen⟩ := ih (completeOne s r)
    refine ⟨⟨gq.trans hq, gc.trans hc, gp.trans hp, gl.trans hl⟩, ?_, fun h => glen (hlen h)⟩
    rw [List.foldl_cons, List.map_cons, List.append_cons]
    exact gids.trans ((List.subperm_append_right _).mpr hids)

/-- Completion takes records out of the queue into the transfer records: quiet. -/
theorem quiet_completeRecords (m : MachineRecord) (s : State) : Quiet s (completeRecords m s) := by
  obtain ⟨⟨hq, hc, hp, hl⟩, hids, hlen⟩ := foldl_completeOne_keeps (s.queue.filter (completes m s.pos.xNip))
    { s with queue := s.queue.filter fun r => !completes m s.pos.xNip r }
  change (completeRecords m s).queue = _ at hq
  refine ⟨⟨?_, ?_, ?_, ?_, ?_, ?_⟩, ⟨?_, hc, ?_, hlen⟩⟩
  · exact congrArg (·.xPrint) hp
  · exact congrArg (·.xNip) hp
  · exact congrArg (·.remPrint) hp
  · exact congrArg (·.remNip) hp
  · exact fun h => by rwa [show (completeRecords m s).line = s.line from hl] at h
  · rw [hq]; exact sublistForall₂_sublist Alike.refl List.filter_sublist
  · refine hids.trans (List.Perm.subperm ?_)
    refine List.perm_append_comm.trans ?_
    rw [idsInUse, idsInUse, ← List.append_assoc, ← List.map_append]
    exact ((List.filter_append_perm _ _).map _).append_right _
  · rw [hq]; exact List.length_filter_le _ _

end Sys2Proof.Proofs
end

