-- ==== Sys2Proof/Proofs/EveryStep.lean ====
section
/-!
The requests that are quiet, and what must be shown of the others: a promise of the queue that every quiet step keeps is kept
by every step once the commands that move the web or take an id keep it.
-/
namespace Sys2Proof.Proofs

open Sys2Proof.Machine Sys2Proof.Safety

/-! ## Requests -/

/-- An owner that keeps a predicate. -/
def OwnerKeeps (inv : State → Prop) (owner : State → Served) : Prop :=
  ∀ s, inv s → inv (owner s).st

/-- An owner that is quiet in every state. -/
def OwnerQuiet (owner : State → Served) : Prop :=
  ∀ s, Quiet s (owner s).st

theorem ownerQuiet_refuse (r : Reason) : OwnerQuiet fun s => Served.refuse s r := Quiet.refl

theorem ownerQuiet_readStatus (p : PortId) : OwnerQuiet (readStatusOwner p) := Quiet.refl

theorem ownerQuiet_readPanel (id : BitVec 16) : OwnerQuiet (readPanelOwner id) := by
  intro s
  unfold readPanelOwner
  split <;> exact .refl s

theorem ownerQuiet_readQueueSummary : OwnerQuiet readQueueSummaryOwner := Quiet.refl

theorem ownerQuiet_readStopRecord : OwnerQuiet readStopRecordOwner := Quiet.refl

theorem ownerQuiet_readMeasurements : OwnerQuiet readMeasurementsOwner := Quiet.refl

theorem ownerQuiet_readSetpoints : OwnerQuiet readSetpointsOwner := Quiet.refl

theorem ownerQuiet_readRecords (n : Byte) : OwnerQuiet (readRecordsOwner n) := by
  intro s
  unfold readRecordsOwner
  split <;> exact .refl s

theorem ownerQuiet_readAndClear (p : PortId) : OwnerQuiet (readAndClearOwner p) := fun _ => .of_view rfl

theorem ownerQuiet_setAttentionMask (p : PortId) (mask : BitVec 16) : OwnerQuiet (setAttentionMaskOwner p mask) :=
  fun _ => .of_view rfl

theorem ownerQuiet_stop : OwnerQuiet stopOwner := by
  intro s
  unfold stopOwner
  split <;> exact .refl s

theorem ownerQuiet_withdraw (id : BitVec 16) : OwnerQuiet (withdrawOwner id) := by
  intro s
  unfold withdrawOwner
  split
  · exact .refl s
  · split
    · exact quiet_removeUnprinted _ s
    · exact .refl s

theorem ownerQuiet_scrap (id : BitVec 16) : OwnerQuiet (scrapOwner id) := by
  intro s
  unfold scrapOwner
  split
  · exact .refl s
  · split
    · exact quiet_removeUnprinted _ s
    · exact quiet_flag s _ _

theorem ownerQuiet_lineClear (p : PortId) (span : BitVec 32) : OwnerQuiet (lineClearOwner p span) := by
  intro s
  unfold lineClearOwner
  split
  · exact .refl s
  · split
    · exact .refl s
    · exact quiet_askStore _ s

theorem ownerQuiet_setTrim (trim : BitVec 16) : OwnerQuiet (setTrimOwner trim) := fun _ => .of_view rfl

/-- Acknowledged records leave the transfer record queue, and their ids leave use. -/
theorem ownerQuiet_ackRecords (n : Byte) : OwnerQuiet (ackRecordsOwner n) := by
  intro s
  unfold ackRecordsOwner
  split
  · exact .of_view rfl
  · refine ⟨⟨rfl, rfl, rfl, rfl, id, sublistForall₂_sublist Alike.refl (List.Sublist.refl _)⟩, ⟨?_, rfl, le_rfl, ?_⟩⟩
    · exact (((List.drop_sublist _ _).map _).append_left _).subperm
    · intro h
      simp only [Served.of, State.updateRecords_records, List.length_drop]
      omega

theorem ownerQuiet_setRecordQueue (mode watermark filter : Byte) :
    OwnerQuiet (setRecordQueueOwner mode watermark filter) := by
  intro s
  unfold setRecordQueueOwner
  split
  · split
    · exact .of_view rfl
    · exact .refl s
  · exact .refl s

theorem ownerQuiet_erase (p : PortId) (slot : Byte) : OwnerQuiet (eraseOwner p slot) := by
  intro s
  unfold eraseOwner
  split
  · exact .refl s
  · split
    · exact .refl s
    · split
      · exact .refl s
      · exact quiet_askStore _ s

theorem ownerQuiet_write (p : PortId) (slot : Byte) (offset : BitVec 16) (data : List Byte) :
    OwnerQuiet (writeOwner p slot offset data) := by
  intro s
  unfold writeOwner
  split
  · exact .refl s
  · split
    · exact .refl s
    · split
      · exact .refl s
      · dsimp only
        split
        · exact .of_view rfl
        · exact quiet_askStore _ s

theorem ownerQuiet_commit (p : PortId) (slot : Byte) : OwnerQuiet (commitOwner p slot) := by
  intro s
  unfold commitOwner
  split
  · exact .refl s
  · split
    · exact .refl s
    · exact quiet_askStore _ s

theorem ownerQuiet_lock (p : PortId) (slot : Byte) : OwnerQuiet (lockOwner p slot) := by
  intro s
  unfold lockOwner
  split
  · exact .refl s
  · split
    · exact .refl s
    · split
      · exact .refl s
      · exact quiet_askStore _ s

theorem ownerQuiet_readSlot (p : PortId) (slot : Byte) (offset : BitVec 16) (n : Byte) :
    OwnerQuiet (readSlotOwner p slot offset n) := by
  intro s
  unfold readSlotOwner
  split
  · exact .refl s
  · split
    · exact .refl s
    · exact quiet_askStore _ s

theorem ownerQuiet_storeClear (p : PortId) : OwnerQuiet (storeClearOwner p) := by
  intro s
  unfold storeClearOwner
  split
  · exact .refl s
  · split
    · exact .refl s
    · exact quiet_askStore _ s

theorem ownerQuiet_probeCache (slot : Byte) : OwnerQuiet (probeCacheOwner slot) := by
  intro s
  unfold probeCacheOwner
  split
  · split <;> exact .refl s
  · exact .refl s

theorem ownerQuiet_invalidateCache : OwnerQuiet invalidateCacheOwner :=
  fun s => .of_view (by simp [invalidateCacheOwner, Served.of])

theorem ownerQuiet_getCorrection (id : BitVec 16) : OwnerQuiet (getCorrectionOwner id) := by
  intro s
  unfold getCorrectionOwner
  split
  · exact .refl s
  · split
    · refine quiet_mapPanels s (fun r => ?_) fun r _ _ => alike_fetch r
      unfold Panel.fetch
      split <;> rfl
    · exact .refl s

theorem ownerQuiet_reportTemperatures (values : List (BitVec 16)) : OwnerQuiet (reportTemperaturesOwner values) := by
  intro s
  unfold reportTemperaturesOwner
  split
  · exact .refl s
  · split
    · exact .of_view (by simp [Served.of])
    · exact .refl s

theorem ownerQuiet_readHeatAdvice : OwnerQuiet readHeatAdviceOwner :=
  fun s => .of_view (by simp [readHeatAdviceOwner, Served.of])

theorem quiet_checkExcursion (m : MachineRecord) (reading : Bool) (s : State) : Quiet s (checkExcursion m reading s) := by
  unfold checkExcursion
  split
  · exact quiet_flag s _ _
  · exact .refl s

theorem ownerQuiet_reportTensions (v : Tensions) (diameter : Nat) : OwnerQuiet (reportTensionsOwner v diameter) := by
  intro s
  unfold reportTensionsOwner
  split
  · exact .refl s
  · exact (Quiet.before_view (view_updateTension s _) (quiet_checkExcursion _ _ _)).after_view
      (by simp only [Served.of, view_syncStale, view_updateTension]; rfl)

theorem ownerQuiet_hold : OwnerQuiet holdOwner := fun _ => .of_view rfl

theorem ownerQuiet_unhold : OwnerQuiet unholdOwner := fun _ => .of_view rfl

/-- A release takes a line that is HALTED back to TRACKING. -/
theorem ownerQuiet_releaseStop : OwnerQuiet releaseStopOwner := by
  intro s
  unfold releaseStopOwner
  split
  · split
    · exact .refl s
    · exact ⟨⟨rfl, rfl, rfl, rfl, nofun, sublistForall₂_sublist Alike.refl (List.Sublist.refl _)⟩,
        ⟨List.Subperm.refl _, rfl, le_rfl, id⟩⟩
  · exact .refl s

/-! ## The commands that are not quiet -/

/-- A predicate that quiet steps keep, and every event that moves the web, takes an id, or starts the part anew. -/
structure KeptByWeb (inv : State → Prop) : Prop where
  quiet : ∀ {s t}, Quiet s t → inv s → inv t
  reset : ∀ cause s, inv (beginReset cause s)
  announce : ∀ jobId slot length width coverage, OwnerKeeps inv (announceOwner jobId slot length width coverage)
  printAbort : ∀ id, OwnerKeeps inv (printAbortOwner id)
  print : ∀ d s, inv s → inv (printCount d s).1
  nip : ∀ d s, inv s → inv (nipCount d s).1
  rising : ∀ m s, s.onLine = true → risingIgnored s = false → inv s → inv (takeRisingEdge m s)
  falling : ∀ m s, inv s → inv (takeFallingEdge m s)
  seen : ∀ m id stamp e s, s.onLine = true → inv s → inv (markSeen m id stamp e s).1
  result : ∀ k s r, findPanel s k.panel = some r → r.unprinted = true → inv s → inv (writeResult k s)
  clear : ∀ m span s, span ≤ maxU32 → inv s → inv (clearLine m span s)

/-- A number of n bytes. -/
theorem fromLe_lt (bs : List Byte) : fromLe bs < 256 ^ bs.length := by
  induction bs with
  | nil => simp [fromLe]
  | cons b rest ih =>
    have := b.isLt
    rw [fromLe, List.length_cons, Nat.pow_succ]
    omega

/-- The stop limit of a record that a slot spells has four bytes. -/
theorem parseMachineRecord_stopHigh_le (a : Memory) (i : SlotId) : (parseMachineRecord a i).stopHigh ≤ maxU32 := by
  have := fromLe_lt (slotBytes a i 64 4)
  rw [show (slotBytes a i 64 4).length = 4 by simp [slotBytes]] at this
  exact Nat.le_of_lt_succ this

/-- A line clear that passes its checks has a span below the record's stop limit (R49). -/
theorem span_lt_of_lineClearRefusal {m : MachineRecord} {span : Nat} {s : State}
    (h : lineClearRefusal m span s = none) : span < m.stopHigh := by
  unfold lineClearRefusal at h
  split at h
  · cases h
  · split at h
    · cases h
    · split at h
      · rename_i hspan
        exact hspan.2
      · cases h

section Kept

variable {inv : State → Prop} (h : KeptByWeb inv)
include h

theorem KeptByWeb.view_eq {s t : State} (hs : inv s) (g : view t = view s) : inv t := h.quiet (.of_view g) hs

theorem KeptByWeb.closeEvent (b : State) {s : State} (cs : List StopCause) (hs : inv s) : inv (closeEvent b s cs) :=
  h.quiet (quiet_closeEvent b s cs) hs

theorem KeptByWeb.owner {owner : State → Served} (ho : OwnerQuiet owner) : OwnerKeeps inv owner :=
  fun s hs => h.quiet (ho s) hs

theorem KeptByWeb.serve {owner : State → Served} (ho : OwnerKeeps inv owner) (p : PortId) (c : Byte)
    (allowed : Role → Bool) {s : State} (hs : inv s) : inv (serve p c allowed owner s) := by
  unfold Machine.serve
  split
  · exact h.closeEvent _ _ (h.view_eq (ho _ (h.view_eq hs (view_updatePort _ _ _))) (view_answer _ _ _ _))
  · exact h.view_eq hs (by simp)

theorem KeptByWeb.takeRequest {owner : State → Served} (ho : OwnerKeeps inv owner) (p : PortId) (c : Byte)
    (allowed : Role → Bool) {s : State} (hs : inv s) : inv (takeRequest p c allowed owner s) := by
  unfold Machine.takeRequest
  split
  · exact h.serve ho p c allowed hs
  · exact hs

/-! ### Requests in frames -/

/-- An owner of the right form, or the refusal of a payload of a wrong one. -/
theorem KeptByWeb.noArgs {owner : State → Served} (ho : OwnerKeeps inv owner) (a : List Byte) (allowed : Role → Bool) :
    OwnerKeeps inv (Request.serveOwner ⟨allowed, noArgs a owner⟩) := by
  unfold Request.serveOwner Machine.noArgs
  split
  · exact ho
  · exact h.owner (ownerQuiet_refuse _)

theorem KeptByWeb.withArgs {owner : State → Served} (ho : OwnerKeeps inv owner) (n : Nat) (a : List Byte)
    (allowed : Role → Bool) : OwnerKeeps inv (Request.serveOwner ⟨allowed, withArgs n a owner⟩) := by
  unfold Request.serveOwner Machine.withArgs
  split
  · exact ho
  · exact h.owner (ownerQuiet_refuse _)

theorem KeptByWeb.generalRequest {p : PortId} {code : Nat} {a : List Byte} {r : Request}
    (hr : generalRequest p code a = some r) : OwnerKeeps inv r.serveOwner := by
  unfold Machine.generalRequest at hr
  split at hr
  next => cases hr; exact h.noArgs (h.owner (ownerQuiet_readStatus p)) a _
  next => cases hr; exact h.withArgs (h.owner (ownerQuiet_readPanel _)) 2 a _
  next => cases hr; exact h.noArgs (h.owner ownerQuiet_readQueueSummary) a _
  next => cases hr; exact h.noArgs (h.owner ownerQuiet_readStopRecord) a _
  next => cases hr; exact h.noArgs (h.owner ownerQuiet_readMeasurements) a _
  next => cases hr; exact h.withArgs (h.owner (ownerQuiet_readRecords _)) 1 a _
  next => cases hr; exact h.noArgs (h.owner (ownerQuiet_readAndClear p)) a _
  next => cases hr; exact h.withArgs (h.owner (ownerQuiet_setAttentionMask p _)) 2 a _
  next => cases hr; exact h.noArgs (h.owner ownerQuiet_stop) a _
  next => cases hr

theorem KeptByWeb.productionRequest {p : PortId} {code : Nat} {a : List Byte} {r : Request}
    (hr : productionRequest p code a = some r) : OwnerKeeps inv r.serveOwner := by
  unfold Machine.productionRequest at hr
  split at hr
  next =>
    cases hr
    unfold Request.serveOwner announceForm
    dsimp only
    split
    · exact h.announce _ _ _ _ _
    · exact h.owner (ownerQuiet_refuse _)
  next => cases hr; exact h.withArgs (h.owner (ownerQuiet_withdraw _)) 2 a _
  next => cases hr; exact h.withArgs (h.owner (ownerQuiet_scrap _)) 2 a _
  next => cases hr; exact h.withArgs (h.owner (ownerQuiet_lineClear p _)) 4 a _
  next => cases hr; exact h.withArgs (h.owner (ownerQuiet_setTrim _)) 2 a _
  next => cases hr; exact h.withArgs (h.owner (ownerQuiet_ackRecords _)) 1 a _
  next => cases hr; exact h.withArgs (h.owner (ownerQuiet_setRecordQueue _ _ _)) 3 a _
  next => cases hr

theorem KeptByWeb.storeRequest {p : PortId} {code : Nat} {a : List Byte} {r : Request}
    (hr : storeRequest p code a = some r) : OwnerKeeps inv r.serveOwner := by
  unfold Machine.storeRequest at hr
  split at hr
  next => cases hr; exact h.withArgs (h.owner (ownerQuiet_erase p _)) 1 a _
  next =>
    cases hr
    unfold Request.serveOwner writeForm
    split
    · exact h.owner (ownerQuiet_write p _ _ _)
    · exact h.owner (ownerQuiet_refuse _)
  next => cases hr; exact h.withArgs (h.owner (ownerQuiet_commit p _)) 1 a _
  next => cases hr; exact h.withArgs (h.owner (ownerQuiet_lock p _)) 1 a _
  next => cases hr; exact h.withArgs (h.owner (ownerQuiet_readSlot p _ _ _)) 4 a _
  next => cases hr; exact h.noArgs (h.owner (ownerQuiet_storeClear p)) a _
  next => cases hr; exact h.withArgs (h.owner (ownerQuiet_probeCache _)) 1 a _
  next => cases hr; exact h.noArgs (h.owner ownerQuiet_invalidateCache) a _
  next => cases hr

theorem KeptByWeb.stationRequest {code : Nat} {a : List Byte} {r : Request}
    (hr : stationRequest code a = some r) : OwnerKeeps inv r.serveOwner := by
  unfold Machine.stationRequest at hr
  split at hr
  next => cases hr; exact h.withArgs (h.owner (ownerQuiet_getCorrection _)) 2 a _
  next => cases hr; exact h.withArgs (h.printAbort _) 2 a _
  next =>
    cases hr
    unfold Request.serveOwner temperaturesForm
    split
    · exact h.owner (ownerQuiet_reportTemperatures _)
    · exact h.owner (ownerQuiet_refuse _)
  next => cases hr; exact h.noArgs (h.owner ownerQuiet_readHeatAdvice) a _
  next => cases hr; exact h.withArgs (h.owner (ownerQuiet_reportTensions _ _)) 10 a _
  next => cases hr; exact h.noArgs (h.owner ownerQuiet_readSetpoints) a _
  next => cases hr; exact h.noArgs (h.owner ownerQuiet_hold) a _
  next => cases hr; exact h.noArgs (h.owner ownerQuiet_unhold) a _
  next => cases hr; exact h.noArgs (h.owner ownerQuiet_releaseStop) a _
  next => cases hr

/-- Whatever request a frame carries, its owner keeps the predicate. -/
theorem KeptByWeb.requestOf {p : PortId} {code : Byte} {a : List Byte} {r : Request}
    (hr : requestOf p code a = some r) : OwnerKeeps inv r.serveOwner := by
  simp only [Machine.requestOf, Option.or_eq_some_iff] at hr
  rcases hr with hr | ⟨-, hr | ⟨-, hr | ⟨-, hr⟩⟩⟩
  · exact h.generalRequest hr
  · exact h.productionRequest hr
  · exact h.storeRequest hr
  · exact h.stationRequest hr

theorem KeptByWeb.judgeFrame (p : PortId) (stream : List Byte) {s : State} (hs : inv s) :
    inv (judgeFrame p stream s) := by
  unfold Machine.judgeFrame acceptFrame
  dsimp only
  split
  · exact h.view_eq hs (by simp)
  · split
    · exact h.serve (h.requestOf ‹_›) _ _ _ hs
    · exact h.view_eq hs (by simp)

theorem KeptByWeb.spiTransaction (p : PortId) (mosi : List Bool) {s : State} (hs : inv s) :
    ∃ t, execSpiTransaction p mosi s = .next t ∧ inv t := by
  refine ⟨_, rfl, ?_⟩
  unfold judgeStream
  split
  · split
    · exact h.view_eq hs (view_updatePort _ _ _)
    · exact h.judgeFrame _ _ (h.view_eq hs (view_updatePort _ _ _))
  · exact h.view_eq hs (view_updatePort _ _ _)

/-! ### The part's own events -/

theorem KeptByWeb.deviceReset (c : ResetCause) {s : State} (hs : inv s) : inv (deviceReset c s) := by
  rcases deviceReset_cases c s with ⟨-, e⟩ | ⟨-, -, e⟩ | ⟨-, -, e⟩ <;> rw [e]
  · exact h.reset c s
  · exact h.view_eq hs rfl
  · exact hs

theorem KeptByWeb.startUpScanEnd {s : State} (hs : inv s) : inv (endScan s) := by
  have load : ∀ t : State, view (loadSlotZero t) = view t := by
    intro t
    unfold loadSlotZero
    split
    · split <;> rfl
    · rfl
  refine h.closeEvent _ _ (h.view_eq hs ?_)
  rw [view_syncStale, view_syncUnready, load]
  rfl

theorem KeptByWeb.idle {s : State} (hs : inv s) : inv (idle s) := by
  unfold Machine.idle
  split <;> exact h.view_eq hs rfl

theorem KeptByWeb.pgateRisingEdge {s : State} (hs : inv s) : inv (gateRising s) := by
  unfold gateRising
  split
  · split
    · rename_i hc
      simp only [Bool.and_eq_true, Bool.not_eq_true'] at hc
      exact h.rising _ _ hc.1 hc.2 hs
    · exact h.view_eq hs (view_raise _ _)
  · exact h.view_eq hs (view_raise _ _)

theorem KeptByWeb.pgateFallingEdge {s : State} (hs : inv s) : inv (gateFalling s) := by
  unfold gateFalling
  split
  · split
    · exact h.falling _ _ hs
    · exact h.view_eq hs (view_raise _ _)
  · exact h.view_eq hs (view_raise _ _)

theorem KeptByWeb.matchMark (m : MachineRecord) (code stamp : Nat) {s : State} (hl : s.onLine = true) (hs : inv s) :
    inv (matchMark m code stamp s).1 := by
  have missed : ∀ ids, inv (missSkipped ids s) := fun ids =>
    h.quiet (quiet_mapPanels s (fun _ => rfl) fun r _ _ => alike_missMark r) hs
  unfold Machine.matchMark
  split
  · exact h.view_eq hs (by simp [markUnmatched])
  · dsimp only
    split
    · exact h.seen _ _ _ _ _ hl (missed _)
    · refine h.quiet ?_ (missed (skippedCandidates code (markCandidates s)))
      refine Quiet.after_view ?_ (view_updateMark _ _)
      exact quiet_mapPanels _ (fun _ => rfl) fun _ _ _ => Alike.of_fields rfl rfl rfl

theorem KeptByWeb.markEdge (bit : Bool) {s : State} (hs : inv s) : inv (markEdge bit s) := by
  have judge : ∀ stamp bits t, inv t → inv (judgeMark stamp bits t).1 := by
    intro stamp bits t ht
    unfold judgeMark
    split
    · split
      · exact ht
      · split
        · exact h.view_eq ht (view_raise _ _)
        · split
          · exact ht
          · exact h.matchMark _ _ _ (by simpa using ‹¬(!t.onLine) = true›) ht
    · exact ht
  unfold Machine.markEdge
  dsimp only
  split
  · exact h.view_eq hs (by simp)
  · exact h.closeEvent _ _ (judge _ _ _ (h.view_eq hs (by simp)))

theorem KeptByWeb.speedWindow {s : State} (hs : inv s) : inv (speedWindow s) := by
  have slip : ∀ n, view (s.updatePos fun x => { x with slip := n }) = view s := fun _ => by simp [view]
  have slipped : Quiet s (evaluateSlip s) := by
    unfold evaluateSlip
    split
    · split
      · dsimp only
        split
        · exact Quiet.before_view (slip _) (quiet_flag _ _ _)
        · exact .of_view (slip _)
      · exact .of_view (slip _)
    · exact .of_view (slip _)
  refine h.closeEvent _ _ (h.view_eq (h.quiet slipped hs) ?_)
  rw [view_judgeLost, view_syncStale, view_recomputeAdvice]
  simp [view, Position.endWindow]

theorem KeptByWeb.doseTick {s : State} (hs : inv s) : inv (doseTick s) := by
  have tick : ∀ m t, Quiet t (tickQueue m t) := by
    intro m t
    unfold tickQueue
    refine (quiet_mapPanels t (fun r => ?_) fun r _ _ => alike_tickPanel _ _ _ _ _ r).after_view (view_raiseIf _ _ _)
    simp only [tickPanel, Panel.flagIf, Panel.flag]
    repeat' split
    all_goals rfl
  unfold Machine.doseTick
  dsimp only
  split
  · split
    · exact h.quiet (Quiet.before_view (view_updateDose _ _) (tick _ _)) hs
    · exact h.view_eq hs (view_updateDose _ _)
  · exact h.view_eq hs (view_updateDose _ _)

theorem KeptByWeb.correctionCompletion (k : Computation) {s : State} (hs : inv s) : inv (completeComputation k s) := by
  have idle : inv { s with engine := none } := h.view_eq hs rfl
  unfold completeComputation
  refine h.closeEvent _ _ (h.view_eq ?_ (view_reevaluate _))
  split
  · rename_i r hr
    split
    · rename_i hw
      refine h.result k _ r hr ?_ idle
      unfold resultWritable at hw
      split at hw
      · simp only [Bool.and_eq_true] at hw
        exact hw.1.1
      · exact absurd hw Bool.false_ne_true
    · exact idle
  · exact idle

theorem KeptByWeb.endFill (slot : SlotId) {s : State} (hs : inv s) : inv (endFill slot s) := by
  refine h.closeEvent _ _ (h.quiet (quiet_grantWaiting _) (h.view_eq hs ?_))
  rw [view_reevaluate]
  split <;> rfl

theorem KeptByWeb.endOperation {s t : State} (b : State) (p : PortId) (c : Byte) (r : Reply) (hs : inv s)
    (hv : view t = view s) : inv (endOperation b p c r t) :=
  h.quiet (quiet_endOperation b p c r hv) hs

theorem KeptByWeb.endCommit (p : PortId) (slot : SlotId) (rows : List StagingRow) {s : State} (hs : inv s) :
    inv (endCommit p slot rows s) := by
  unfold Machine.endCommit
  dsimp only
  split
  · split <;> exact h.endOperation _ _ _ _ hs (by simp)
  · exact h.endOperation _ _ _ _ hs (by simp)

theorem KeptByWeb.endLock (p : PortId) (slot : SlotId) {s : State} (hs : inv s) : inv (endLock p slot s) := by
  unfold Machine.endLock
  dsimp only
  split <;> exact h.endOperation _ _ _ _ hs (by simp)

theorem KeptByWeb.judgeLineClear (p : PortId) (span : Nat) {s : State} (hs : inv s) : inv (judgeLineClear p span s) := by
  have ended : ∀ r t, inv t → inv (endLineClear s p r t) := fun r t ht =>
    h.closeEvent _ _ (h.quiet (quiet_grantWaiting _) (h.view_eq ht (view_answer _ _ _ _)))
  unfold Machine.judgeLineClear
  dsimp only
  split
  · split
    · exact ended _ _ (h.view_eq hs (view_freeStore s))
    · rename_i hr
      exact ended _ _ (h.clear _ _ _
        ((span_lt_of_lineClearRefusal hr).le.trans (parseMachineRecord_stopHigh_le _ _)) (h.view_eq hs (view_freeStore s)))
  · exact ended _ _ (h.view_eq hs (by simp))

/-- Every command keeps the predicate. -/
theorem KeptByWeb.exec (i : Instr) {s : State} (hs : inv s) : ∃ t, exec i s = .next t ∧ inv t := by
  have request : ∀ {owner : State → Served} (p : PortId) (c : Byte) (allowed : Role → Bool), OwnerQuiet owner →
      inv (Machine.takeRequest p c allowed owner s) := fun p c allowed ho => h.takeRequest (h.owner ho) p c allowed hs
  have guarded : ∀ (c : Prop) [Decidable c] (t : State), inv t → inv (if c then t else s) := by
    intro c _ t ht
    split
    · exact ht
    · exact hs
  have granted : ∀ c : Prop, [Decidable c] → inv (if c then Machine.closeEvent s (grantWaiting s) [] else s) :=
    fun c _ => guarded c _ (h.closeEvent _ _ (h.quiet (quiet_grantWaiting s) hs))
  cases i with
  | readStatus p => exact ⟨_, rfl, request _ _ _ (ownerQuiet_readStatus p)⟩
  | readPanel p id => exact ⟨_, rfl, request _ _ _ (ownerQuiet_readPanel id)⟩
  | readQueueSummary p => exact ⟨_, rfl, request _ _ _ ownerQuiet_readQueueSummary⟩
  | readStopRecord p => exact ⟨_, rfl, request _ _ _ ownerQuiet_readStopRecord⟩
  | readMeasurements p => exact ⟨_, rfl, request _ _ _ ownerQuiet_readMeasurements⟩
  | readRecords p n => exact ⟨_, rfl, request _ _ _ (ownerQuiet_readRecords n)⟩
  | readAndClearAttention p => exact ⟨_, rfl, request _ _ _ (ownerQuiet_readAndClear p)⟩
  | setAttentionMask p mask => exact ⟨_, rfl, request _ _ _ (ownerQuiet_setAttentionMask p mask)⟩
  | stop p => exact ⟨_, rfl, request _ _ _ ownerQuiet_stop⟩
  | announcePanel p jobId slot length width coverage =>
    exact ⟨_, rfl, h.takeRequest (h.announce _ _ _ _ _) _ _ _ hs⟩
  | withdrawPanel p id => exact ⟨_, rfl, request _ _ _ (ownerQuiet_withdraw id)⟩
  | scrapPanel p id => exact ⟨_, rfl, request _ _ _ (ownerQuiet_scrap id)⟩
  | lineClear p span => exact ⟨_, rfl, request _ _ _ (ownerQuiet_lineClear p span)⟩
  | setTrim p trim => exact ⟨_, rfl, request _ _ _ (ownerQuiet_setTrim trim)⟩
  | ackRecords p n => exact ⟨_, rfl, request _ _ _ (ownerQuiet_ackRecords n)⟩
  | setRecordQueue p mode watermark filter => exact ⟨_, rfl, request _ _ _ (ownerQuiet_setRecordQueue _ _ _)⟩
  | eraseSlot p slot => exact ⟨_, rfl, request _ _ _ (ownerQuiet_erase p slot)⟩
  | writeSlot p slot offset data => exact ⟨_, rfl, request _ _ _ (ownerQuiet_write p slot offset data)⟩
  | commitSlot p slot => exact ⟨_, rfl, request _ _ _ (ownerQuiet_commit p slot)⟩
  | lockSlot p slot => exact ⟨_, rfl, request _ _ _ (ownerQuiet_lock p slot)⟩
  | readSlot p slot offset n => exact ⟨_, rfl, request _ _ _ (ownerQuiet_readSlot p slot offset n)⟩
  | storeClear p => exact ⟨_, rfl, request _ _ _ (ownerQuiet_storeClear p)⟩
  | probeCache p slot => exact ⟨_, rfl, request _ _ _ (ownerQuiet_probeCache slot)⟩
  | invalidateCache p => exact ⟨_, rfl, request _ _ _ ownerQuiet_invalidateCache⟩
  | getCorrection p id => exact ⟨_, rfl, request _ _ _ (ownerQuiet_getCorrection id)⟩
  | printAbort p id => exact ⟨_, rfl, h.takeRequest (h.printAbort id) _ _ _ hs⟩
  | reportTemperatures p values => exact ⟨_, rfl, request _ _ _ (ownerQuiet_reportTemperatures values)⟩
  | readHeatAdvice p => exact ⟨_, rfl, request _ _ _ ownerQuiet_readHeatAdvice⟩
  | reportTensions p a b c d e => exact ⟨_, rfl, request _ _ _ (ownerQuiet_reportTensions _ _)⟩
  | readSetpoints p => exact ⟨_, rfl, request _ _ _ ownerQuiet_readSetpoints⟩
  | hold p => exact ⟨_, rfl, request _ _ _ ownerQuiet_hold⟩
  | unhold p => exact ⟨_, rfl, request _ _ _ ownerQuiet_unhold⟩
  | releaseStop p => exact ⟨_, rfl, request _ _ _ ownerQuiet_releaseStop⟩
  | spiTransaction p mosi => exact h.spiTransaction p mosi hs
  | powerOnReset => exact ⟨_, rfl, h.deviceReset _ hs⟩
  | supplyMonitorReset => exact ⟨_, rfl, h.deviceReset _ hs⟩
  | resetnReset => exact ⟨_, rfl, h.deviceReset _ hs⟩
  | resetEnd rolea roleb maint =>
    refine ⟨_, rfl, ?_⟩
    split
    · exact hs
    · exact h.view_eq hs rfl
  | startUpScanEnd => exact ⟨_, rfl, guarded _ _ (h.startUpScanEnd hs)⟩
  | pencCount d => exact ⟨_, rfl, guarded _ _ (h.closeEvent _ _ (h.print d _ (h.view_eq hs rfl)))⟩
  | cencCount d => exact ⟨_, rfl, guarded _ _ (h.closeEvent _ _ (h.nip d _ (h.view_eq hs rfl)))⟩
  | fencCount d => exact ⟨_, rfl, guarded _ _ (h.view_eq hs rfl)⟩
  | pacePulseTimer => exact ⟨_, rfl, h.view_eq hs rfl⟩
  | pgateRisingEdge => exact ⟨_, rfl, guarded _ _ (h.pgateRisingEdge (h.view_eq hs rfl))⟩
  | pgateFallingEdge => exact ⟨_, rfl, guarded _ _ (h.pgateFallingEdge (h.view_eq hs rfl))⟩
  | breaknAssertion => exact ⟨_, rfl, guarded _ _ (h.closeEvent _ _ (h.view_eq hs rfl))⟩
  | breaknRelease => exact ⟨_, rfl, guarded _ _ (h.view_eq hs rfl)⟩
  | stopinnAssertion => exact ⟨_, rfl, guarded _ _ (h.closeEvent _ _ (h.view_eq hs rfl))⟩
  | stopinnRelease => exact ⟨_, rfl, guarded _ _ (h.view_eq hs rfl)⟩
  | markWord bit => exact ⟨_, rfl, guarded _ _ (h.markEdge bit hs)⟩
  | markWordTimeout =>
    refine ⟨_, rfl, ?_⟩
    split
    · exact h.view_eq hs rfl
    · exact hs
  | speedWindowExpiry => exact ⟨_, rfl, guarded _ _ (h.speedWindow hs)⟩
  | doseTick => exact ⟨_, rfl, guarded _ _ (h.doseTick hs)⟩
  | tensionTick =>
    refine ⟨_, rfl, ?_⟩
    split
    · exact h.view_eq hs (by simp [tensionTick])
    · exact hs
  | temperatureStaleExpiry =>
    refine ⟨_, rfl, ?_⟩
    split
    · exact guarded _ _ (h.closeEvent _ _ (h.view_eq hs (by simp [expireTemperatures])))
    · exact hs
  | tensionStaleExpiry =>
    refine ⟨_, rfl, ?_⟩
    split
    · exact guarded _ _ (h.closeEvent _ _ (h.view_eq hs (by simp [expireTensions])))
    · exact hs
  | hardStaleExpiry => exact ⟨_, rfl, h.closeEvent _ _ (h.view_eq hs (view_judgeLost s))⟩
  | refreshExpiry =>
    refine ⟨_, rfl, ?_⟩
    split
    · exact guarded _ _ (h.view_eq hs (view_reevaluate s))
    · exact hs
  | correctionCompletion =>
    refine ⟨_, rfl, ?_⟩
    split
    · exact h.correctionCompletion _ hs
    · exact hs
  | cacheFillGrant => exact ⟨_, rfl, granted _⟩
  | cacheFillCompletion =>
    refine ⟨_, rfl, ?_⟩
    split
    · exact h.endFill _ hs
    · exact hs
  | eraseSlotGrant => exact ⟨_, rfl, granted _⟩
  | eraseSlotCompletion =>
    refine ⟨_, rfl, ?_⟩
    split
    · exact h.endOperation _ _ _ _ hs rfl
    · exact hs
  | storeGrant => exact ⟨_, rfl, granted _⟩
  | writeSlotCompletion =>
    refine ⟨_, rfl, ?_⟩
    split
    · exact h.endOperation _ _ _ _ hs (by simp)
    · exact hs
  | commitSlotCompletion =>
    refine ⟨_, rfl, ?_⟩
    split
    · exact h.endCommit _ _ _ hs
    · exact hs
  | lockSlotCompletion =>
    refine ⟨_, rfl, ?_⟩
    split
    · exact h.endLock _ _ hs
    · exact hs
  | readSlotCompletion =>
    refine ⟨_, rfl, ?_⟩
    split
    · exact h.endOperation _ _ _ _ hs rfl
    · exact hs
  | storeClearGrant => exact ⟨_, rfl, granted _⟩
  | storeClearCompletion =>
    refine ⟨_, rfl, ?_⟩
    split
    · exact h.endOperation _ _ _ _ hs (by simp)
    · exact hs
  | lineClearReadCompletion =>
    refine ⟨_, rfl, ?_⟩
    split
    · exact h.judgeLineClear _ _ hs
    · exact hs
  | mkclkRisingEdge bit => exact ⟨_, rfl, guarded _ _ (h.markEdge bit hs)⟩
  | quadratureTransitionError e =>
    refine ⟨_, rfl, guarded _ _ (h.view_eq hs ?_)⟩
    cases e <;> rfl

/-- Every step keeps the predicate. -/
theorem KeptByWeb.everyStep : KeptByEveryStep inv := by
  intro s s' hs hstep
  unfold step at hstep
  split at hstep
  · rename_i c rest _
    obtain ⟨t, ht, hi⟩ := h.exec c (s := { s with pending := rest }) (h.view_eq hs rfl)
    cases ht.symm.trans hstep
    exact hi
  · cases hstep
    exact h.idle hs

end Kept

end Sys2Proof.Proofs
end

