-- ==== Sys2Proof/Proofs/WebSteps.lean ====
section
/-!
The commands that move the web, each described once by what it does to the view: counts of both encoders, mark corrections,
gate edges, announcements and the writing of a correction.
-/
namespace Sys2Proof.Proofs

open Sys2Proof.Machine Sys2Proof.Safety

/-! ## Events as views -/

theorem WebKept.of_eq {s t : State} (hp : t.pos = s.pos) (hl : t.line.state = s.line.state)
    (hq : List.SublistForall₂ Alike t.queue s.queue) : WebKept s t :=
  ⟨by rw [hp], by rw [hp], by rw [hp], by rw [hp], fun h => hl ▸ h, hq⟩

theorem IdsKept.of_eq {s t : State} (hq : t.queue = s.queue) (hc : t.idCounter = s.idCounter)
    (hr : t.records = s.records) : IdsKept s t :=
  ⟨by simp only [idsInUse, hq, hr]; exact .refl _, hc, by rw [hq], fun h => hr ▸ h⟩

theorem IdsKept.of_view_xPrint {s t : State} {x r : Nat} (h : view t = { view s with xPrint := x, remPrint := r }) :
    IdsKept s t :=
  .trans (t := { s with pos := t.pos }) (.of_eq rfl rfl rfl) <| .of_view <| by
    simp only [view, QueueView.mk.injEq] at h ⊢
    simp [h]

theorem IdsKept.of_view_xNip {s t : State} {x r : Nat} (h : view t = { view s with xNip := x, remNip := r }) :
    IdsKept s t :=
  .trans (t := { s with pos := t.pos }) (.of_eq rfl rfl rfl) <| .of_view <| by
    simp only [view, QueueView.mk.injEq] at h ⊢
    simp [h]

@[simp] theorem view_evaluateFill (m : MachineRecord) (s : State) : view (evaluateFill m s).1 = view s := by
  simp [evaluateFill, view]

/-- What a PENC count can do to the view: nothing on a line in UNSET, else x_print and its remainder move, up to the coordinate
limit or down to the print floor (R26, R27). -/
theorem printCount_moves (d : Direction) (s : State) :
    (printCount d s).1 = s ∨
      s.onLine = true ∧ ∃ x r, view (printCount d s).1 = { view s with xPrint := x, remPrint := r } ∧
        (x = s.pos.xPrint ∨ (s.pos.xPrint ≤ x ∧ x ≤ maxU32) ∨ (printFloor s ≤ x ∧ x ≤ s.pos.xPrint)) := by
  unfold printCount
  split
  · split
    · rename_i m _ hon
      cases d with
      | forward =>
        simp only [printForward]
        split
        · exact .inl rfl
        · rename_i hmax
          refine .inr ⟨hon, s.pos.xPrint + (s.pos.remPrint + m.pencRes) / wuNm,
            (s.pos.remPrint + m.pencRes) % wuNm, ?_, .inr (.inl ⟨Nat.le_add_right _ _, Nat.le_of_not_lt hmax⟩)⟩
          rw [view_updatePace]
          split
          · rfl
          · rw [view_evaluateFill]; rfl
      | reverse =>
        simp only [printReverse]
        split
        · exact .inr ⟨hon, s.pos.xPrint, s.pos.remPrint - m.pencRes, rfl, .inl rfl⟩
        · split
          · exact .inl rfl
          · refine .inr ⟨hon, s.pos.xPrint - borrowOf s.pos.remPrint m.pencRes,
              s.pos.remPrint + borrowOf s.pos.remPrint m.pencRes * wuNm - m.pencRes, ?_, .inr (.inr ⟨by omega, by omega⟩)⟩
            rw [view_updatePace, view_evaluateFill]; rfl
    · exact .inl rfl
  · exact .inl rfl

/-- Where a count or a correction may bring x_nip: not beyond x_print unless it was there, and not below a TRANSFERRING record's
lead (R28, R44). -/
def NipMove (s : State) (x : Nat) : Prop :=
  (x ≤ s.pos.xPrint ∨ x ≤ s.pos.xNip) ∧ (s.pos.xNip ≤ x ∨ x = s.pos.xPrint ∨ nipFloor s ≤ x)

/-- A change of x_nip as an event: the coordinate moved after a quiet step, then the fill, arrivals, completions and missed marks
it brings (R28, R40, R44). -/
def NipMoved (s t : State) : Prop :=
  ∃ m v u x r, Quiet s v ∧ NipMove s x ∧ view u = { view v with xNip := x, remNip := r } ∧ t = (nipChanged m u).1

/-- What a CENC count can do: nothing on a line in UNSET, else the remainder alone moves, or x_nip does (R28). -/
theorem nipCount_moves (d : Direction) (s : State) :
    (nipCount d s).1 = s ∨
      s.onLine = true ∧
        ((∃ x r, x = s.pos.xNip ∧ view (nipCount d s).1 = { view s with xNip := x, remNip := r }) ∨
          NipMoved s (nipCount d s).1) := by
  unfold nipCount
  split
  · split
    · rename_i m _ hon
      cases d with
      | forward =>
        simp only [nipForward]
        split
        · exact .inr ⟨hon, .inl ⟨_, s.pos.remNip + m.cencRes, rfl, rfl⟩⟩
        · split
          · split
            · rename_i heq
              exact .inr ⟨hon, .inl ⟨_, 0, heq.symm ▸ rfl, rfl⟩⟩
            · exact .inr ⟨hon, .inr ⟨m, s, _, s.pos.xPrint, 0, .refl s, ⟨.inl le_rfl, .inr (.inl rfl)⟩, rfl, rfl⟩⟩
          · rename_i hle
            exact .inr ⟨hon, .inr ⟨m, s, _, s.pos.xNip + (s.pos.remNip + m.cencRes) / wuNm,
              (s.pos.remNip + m.cencRes) % wuNm, .refl s, ⟨.inl (Nat.le_of_not_lt hle), .inl (Nat.le_add_right _ _)⟩, rfl, rfl⟩⟩
      | reverse =>
        simp only [nipReverse]
        split
        · exact .inr ⟨hon, .inl ⟨_, s.pos.remNip - m.cencRes, rfl, rfl⟩⟩
        · split
          · exact .inl rfl
          · exact .inr ⟨hon, .inr ⟨m, s, _, s.pos.xNip - borrowOf s.pos.remNip m.cencRes,
              s.pos.remNip + borrowOf s.pos.remNip m.cencRes * wuNm - m.cencRes, .refl s,
              ⟨.inr (by omega), .inr (.inr (by omega))⟩, rfl, rfl⟩⟩
    · exact .inl rfl
  · exact .inl rfl

/-- A seen mark's correction moves x_nip between the newest TRANSFERRING lead and x_print (R44). -/
theorem markSeen_moves (m : MachineRecord) (id stamp : Nat) (e : Int) (s : State) :
    NipMoved s (markSeen m id stamp e s).1 := by
  refine ⟨m, s.mapPanels (fun r => decide (r.id = id)) fun r =>
      { r with mark := some (.seen ((correctedNip s e : Int) - s.pos.xNip)) }, _, correctedNip s e,
    if correctedNip s e = s.pos.xPrint then 0 else s.pos.remNip,
    quiet_mapPanels s (fun _ => rfl) fun _ _ _ => Alike.of_fields rfl rfl rfl, ⟨.inl ?_, .inr ?_⟩, rfl, rfl⟩
  · exact min_le_left _ _
  · unfold correctedNip
    omega

/-- A change of x_nip, after the fill is evaluated, is the arrivals, and after them quiet. -/
theorem quiet_nipChanged (m : MachineRecord) (u : State) :
    ∃ w, view w = view u ∧ Quiet (nipArrival w).1 (nipChanged m u).1 :=
  ⟨(evaluateFill m u).1, view_evaluateFill m u,
    (quiet_completeRecords m _).trans
      (quiet_mapPanels _ (fun _ => rfl) fun r _ _ => alike_missMark r)⟩

/-- An announcement changes nothing of the view, or appends an unprinted record with the next id to a queue that is not full
(R5, R6). -/
theorem announceOwner_st (jobId : BitVec 32) (slot : Byte) (length : BitVec 32) (width : BitVec 16) (coverage : List Byte)
    (s : State) :
    (announceOwner jobId slot length width coverage s).st = s ∨
      ∃ r, r.unprinted = true ∧ r.id = nextId s ∧ s.queue.length < 64 ∧
        view (announceOwner jobId slot length width coverage s).st = view (appendPanel r s) := by
  have notFull : announceRefusal s slot length.toNat coverage.length = none → s.queue.length < 64 := by
    intro h
    unfold announceRefusal at h
    split at h
    · cases h
    · split at h
      · cases h
      · split at h
        · cases h
        · simp only [queueCapacity] at *; omega
  unfold announceOwner
  split
  · exact .inl rfl
  · split
    · rename_i i hr _
      exact .inr ⟨announcedPanel s jobId i length.toNat width.toNat (coverage.map BitVec.toNat), rfl, rfl, notFull hr,
        by simp [Served.of]⟩
    · exact .inl rfl
    · exact .inl rfl

/-- A print abort changes nothing, or closes the open trail (R9). -/
theorem printAbortOwner_st (id : BitVec 16) (s : State) :
    (printAbortOwner id s).st = s ∨
      ∃ m, view (printAbortOwner id s).st = view (closeOpenTrail m (·.flag .scrapped) s) := by
  unfold printAbortOwner
  split
  · split
    · exact .inr ⟨_, view_paceNominal _⟩
    · exact .inl rfl
  · exact .inl rfl

theorem view_takeFallingEdge (m : MachineRecord) (s : State) :
    view (takeFallingEdge m s) = view (closeOpenTrail m (Panel.compareLength m) s) :=
  view_paceNominal _

theorem alike_compareLength (m : MachineRecord) (r : Panel) : Alike (r.compareLength m) r := by
  unfold Panel.compareLength
  split
  · exact alike_flagIf _ _ _
  · exact .refl r

theorem compareLength_id (m : MachineRecord) (r : Panel) : (r.compareLength m).id = r.id := by
  unfold Panel.compareLength Panel.flagIf
  split
  · split <;> rfl
  · rfl

/-- After the open trail is closed and the next record started, a rising edge arrives what the nip reaches, and is then
quiet. -/
theorem quiet_takeRisingEdge (m : MachineRecord) (s : State) :
    Quiet (nipArrival (startNext (holdAsserted s) (closeOpenTrail m (·.flag .gateFault) s)).1).1 (takeRisingEdge m s) :=
  (Quiet.of_view (by simp)).trans (quiet_closeEvent _ _ _)

/-! ## Starting the next record (R11, R12) -/

/-- A queue that holds an unprinted record, split at the first one. -/
theorem exists_first_unprinted {l : List Panel} (h : l.any (·.unprinted) = true) :
    ∃ pre r post, l = pre ++ r :: post ∧ (∀ q ∈ pre, q.printed = true) ∧ r.unprinted = true := by
  induction l with
  | nil => simp at h
  | cons q rest ih =>
    cases hq : q.unprinted with
    | true => exact ⟨[], q, rest, rfl, by simp, hq⟩
    | false =>
      obtain ⟨pre, r, post, rfl, hpre, hr⟩ := ih (by simpa [hq] using h)
      exact ⟨q :: pre, r, post, rfl, by simpa [Panel.printed, hq] using hpre, hr⟩

/-- The first unprinted record of a queue split there is the one that changes. -/
theorem mapFirst_unprinted {pre post : List Panel} {r : Panel} (f : Panel → Panel) (hpre : ∀ q ∈ pre, q.printed = true)
    (hr : r.unprinted = true) : mapFirst (·.unprinted) f (pre ++ r :: post) = pre ++ f r :: post := by
  induction pre with
  | nil => simp [mapFirst, hr]
  | cons q rest ih =>
    have hq : q.unprinted = false := by simpa [Panel.printed] using hpre q List.mem_cons_self
    simp [mapFirst, hq, ih fun a ha => hpre a (List.mem_cons_of_mem _ ha)]

theorem startNext_unprinted {s : State} {pre post : List Panel} {r : Panel} (held : Bool) (hq : s.queue = pre ++ r :: post)
    (hpre : ∀ q ∈ pre, q.printed = true) (hr : r.unprinted = true) :
    startNext held s = ({ s with queue := pre ++ r.start s.pos.xPrint held :: post }, []) := by
  have hany : s.queue.any (·.unprinted) = true := by simp [hq, hr]
  rw [startNext, if_pos hany, hq, mapFirst_unprinted _ hpre hr]

theorem not_any_unprinted {l : List Panel} (h : ∀ q ∈ l, q.printed = true) : l.any (·.unprinted) = false := by
  simpa [Panel.printed] using h

theorem startNext_anonymous {s : State} (held : Bool) (hq : ∀ q ∈ s.queue, q.printed = true) (hl : s.queue.length < 64) :
    startNext held s = ((appendPanel (anonymousPanel (nextId s) s.pos.xPrint) s).raise .gateFault, []) := by
  rw [startNext, if_neg (by simp [not_any_unprinted hq]), if_pos (by simpa [queueCapacity] using hl)]

theorem startNext_full {s : State} (held : Bool) (hq : ∀ q ∈ s.queue, q.printed = true) (hl : 64 ≤ s.queue.length) :
    startNext held s = (s, [.trackingLost]) := by
  rw [startNext, if_neg (by simp [not_any_unprinted hq]), if_neg (by simpa [queueCapacity] using hl)]

/-- What starting the next record can do: the first unprinted one starts, an anonymous one is appended, or none starts. -/
theorem startNext_cases (held : Bool) (s : State) :
    (∃ pre r post, s.queue = pre ++ r :: post ∧ (∀ q ∈ pre, q.printed = true) ∧ r.unprinted = true ∧
      startNext held s = ({ s with queue := pre ++ r.start s.pos.xPrint held :: post }, [])) ∨
    ((∀ q ∈ s.queue, q.printed = true) ∧ s.queue.length < 64 ∧
      startNext held s = ((appendPanel (anonymousPanel (nextId s) s.pos.xPrint) s).raise .gateFault, [])) ∨
    ((∀ q ∈ s.queue, q.printed = true) ∧ 64 ≤ s.queue.length ∧ startNext held s = (s, [.trackingLost])) := by
  cases h : s.queue.any (·.unprinted) with
  | true =>
    obtain ⟨pre, r, post, hq, hpre, hr⟩ := exists_first_unprinted h
    exact .inl ⟨pre, r, post, hq, hpre, hr, startNext_unprinted held hq hpre hr⟩
  | false =>
    have hall : ∀ q ∈ s.queue, q.printed = true := by simpa [Panel.printed] using h
    rcases Nat.lt_or_ge s.queue.length 64 with hl | hl
    · exact .inr (.inl ⟨hall, hl, startNext_anonymous held hall hl⟩)
    · exact .inr (.inr ⟨hall, hl, startNext_full held hall hl⟩)

/-- A started record: PRINTING, its lead at the print line and its trail open. -/
theorem start_fields (r : Panel) (x : Nat) (held : Bool) :
    (r.start x held).id = r.id ∧ (r.start x held).state = .printing ∧ (r.start x held).lead = some x ∧
      (r.start x held).trail = none := by
  simp only [Panel.start, Panel.flagIf, Panel.flag]
  split <;> split <;> exact ⟨rfl, rfl, rfl, rfl⟩

/-! ## A line clear (R50) -/

@[simp] theorem view_clearTensions (m : MachineRecord) (s : State) : view (clearTensions m s) = view s := by
  simp [clearTensions, expireTensions]

@[simp] theorem view_clearTemperatures (m : MachineRecord) (s : State) : view (clearTemperatures m s) = view s := by
  unfold clearTemperatures
  split
  · simp [expireTemperatures]
  · simp

/-- A line clear keeps the unprinted records, sets the coordinates and brings the line to TRACKING. -/
theorem view_clearLine (m : MachineRecord) (span : Nat) (s : State) :
    view (clearLine m span s) =
      { view s with
        queue := (s.queue.filter (·.unprinted)).map Panel.dueAfterClear
        xPrint := span, xNip := 0, remPrint := 0, remNip := 0, line := .tracking } := by
  simp only [clearLine, view_syncStale, view_syncUnready, view_reevaluate, view_clearTensions, view_clearTemperatures]
  simp [view, clearQueue, clearLineControl, Position.clear]

theorem dueAfterClear_unprinted (r : Panel) : r.dueAfterClear.unprinted = r.unprinted := by
  unfold Panel.dueAfterClear
  split
  · rename_i h
    simp [Panel.unprinted, h]
  · rfl

theorem dueAfterClear_id (r : Panel) : r.dueAfterClear.id = r.id := by
  unfold Panel.dueAfterClear
  split <;> rfl

/-- After a line clear no record is printed (R23). -/
theorem clearLine_unprinted (m : MachineRecord) (span : Nat) (s : State) :
    ∀ r ∈ (clearLine m span s).queue, r.unprinted = true := by
  have hq := congrArg QueueView.queue (view_clearLine m span s)
  change (clearLine m span s).queue = _ at hq
  rw [hq]
  intro r hr
  obtain ⟨a, ha, rfl⟩ := List.mem_map.mp hr
  rw [dueAfterClear_unprinted]
  exact (List.mem_filter.mp ha).2

end Sys2Proof.Proofs
end

