-- ==== Sys2Proof/Proofs/WebOrder.lean ====
section
/-!
O54: the coordinates stay in range, the web in order, and the record states as the nip gives them.
-/
namespace Sys2Proof.Proofs

open Sys2Proof.Machine Sys2Proof.Safety

/-! ## The coordinates in range (R26, R28) -/

theorem webInRange_of_web {s t : State} (h : WebKept s t) (hs : WebInRange s) : WebInRange t := by
  unfold WebInRange
  rw [h.xNip, h.xPrint]
  exact hs

theorem webInRange_of_view {s t : State} (h : view t = view s) (hs : WebInRange s) : WebInRange t :=
  webInRange_of_web (.of_view h) hs

theorem webInRange_nipMoved {s t : State} (h : NipMoved s t) (hs : WebInRange s) : WebInRange t := by
  obtain ⟨m, v, u, x, r, hv, ⟨hx, -⟩, hu, rfl⟩ := h
  obtain ⟨w, hw, hq⟩ := quiet_nipChanged m u
  have hux : u.pos.xNip = x ∧ u.pos.xPrint = v.pos.xPrint := by
    simp only [view, QueueView.mk.injEq] at hu
    exact ⟨hu.2.2.2.2.1, hu.2.2.2.1⟩
  have hur : WebInRange u := by
    obtain ⟨h1, h2⟩ := hs
    unfold WebInRange
    rw [hux.1, hux.2, hv.web.xPrint]
    exact ⟨by omega, h2⟩
  have hwr : WebInRange (nipArrival w).1 := webInRange_of_view (t := w) hw hur
  exact webInRange_of_web hq.web hwr

theorem webInRange_closeOpenTrail {s : State} (m : MachineRecord) (f : Panel → Panel) (hs : WebInRange s) :
    WebInRange (closeOpenTrail m f s) :=
  webInRange_of_web (quiet_completeRecords m _).web hs

theorem startNext_pos (held : Bool) (s : State) :
    (startNext held s).1.pos = s.pos ∧ (startNext held s).1.line = s.line := by
  unfold startNext
  split
  · exact ⟨rfl, rfl⟩
  · split <;> exact ⟨rfl, rfl⟩

theorem webInRange_startNext {s : State} (held : Bool) (hs : WebInRange s) : WebInRange (startNext held s).1 := by
  unfold WebInRange
  rw [(startNext_pos held s).1]
  exact hs

theorem webInRange_kept : KeptByWeb WebInRange where
  quiet h := webInRange_of_web h.web
  reset _ _ := ⟨le_rfl, Nat.zero_le _⟩
  announce jobId slot length width coverage s hs := by
    rcases announceOwner_st jobId slot length width coverage s with h | ⟨r, -, -, -, h⟩
    · rwa [h]
    · exact webInRange_of_view h hs
  printAbort id s hs := by
    rcases printAbortOwner_st id s with h | ⟨m, h⟩
    · rwa [h]
    · exact webInRange_of_view h (webInRange_closeOpenTrail m _ hs)
  print d s hs := by
    rcases printCount_moves d s with h | ⟨-, x, r, h, hx⟩
    · rwa [h]
    · simp only [view, QueueView.mk.injEq] at h
      obtain ⟨h1, h2⟩ := hs
      have floor : s.pos.xNip ≤ printFloor s := by
        unfold printFloor
        split
        · exact le_max_left _ _
        · exact le_rfl
      unfold WebInRange
      rw [h.2.2.2.1, h.2.2.2.2.1]
      omega
  nip d s hs := by
    rcases nipCount_moves d s with h | ⟨-, ⟨x, r, hx, h⟩ | h⟩
    · rwa [h]
    · simp only [view, QueueView.mk.injEq] at h
      unfold WebInRange
      rw [h.2.2.2.1, h.2.2.2.2.1, hx]
      exact hs
    · exact webInRange_nipMoved h hs
  rising m s _ _ hs :=
    webInRange_of_web (quiet_takeRisingEdge m s).web
      (webInRange_startNext _ (webInRange_closeOpenTrail m (·.flag .gateFault) hs))
  falling m s hs := webInRange_of_view (view_takeFallingEdge m s) (webInRange_closeOpenTrail m _ hs)
  seen m id stamp e s _ hs := webInRange_nipMoved (markSeen_moves m id stamp e s) hs
  result k s _ _ _ hs := hs
  clear m span s hspan hs := by
    have h := view_clearLine m span s
    simp only [view, QueueView.mk.injEq] at h
    unfold WebInRange
    rw [h.2.2.2.1, h.2.2.2.2.1]
    exact ⟨Nat.zero_le _, hspan⟩

/-! ## No web in UNSET (R24, R29) -/

theorem unset_of_web {s t : State} (h : WebKept s t) (hs : UnsetHoldsNoWeb s) : UnsetHoldsNoWeb t := by
  intro ht
  obtain ⟨h1, h2, h3, h4, hq⟩ := hs (h.line ht)
  refine ⟨h.xPrint.trans h1, h.xNip.trans h2, h.remPrint.trans h3, h.remNip.trans h4, fun r hr => ?_⟩
  obtain ⟨q, hmem, ⟨hp, -⟩, -⟩ := exists_of_sublistForall₂ h.queue r hr
  simpa [Panel.printed, hq q hmem] using hp

theorem unset_of_view {s t : State} (h : view t = view s) (hs : UnsetHoldsNoWeb s) : UnsetHoldsNoWeb t :=
  unset_of_web (.of_view h) hs

/-- On a line that is not UNSET the promise says nothing. -/
theorem unset_of_line {t : State} (h : t.line.state ≠ .unset) : UnsetHoldsNoWeb t := fun ht => absurd ht h

theorem onLine_iff {s : State} : s.onLine = true ↔ s.line.state ≠ .unset := by simp [State.onLine]

theorem line_of_view {s t : State} (h : (view t).line = (view s).line) (hs : s.onLine = true) : t.line.state ≠ .unset :=
  fun ht => onLine_iff.mp hs (h.symm.trans ht)

/-- A change of x_nip leaves a line on the web. -/
theorem line_nipMoved {s t : State} (h : NipMoved s t) (hs : s.onLine = true) : t.line.state ≠ .unset := by
  obtain ⟨m, v, u, x, r, hv, -, hu, rfl⟩ := h
  obtain ⟨w, hw, hq⟩ := quiet_nipChanged m u
  intro ht
  have hwl : w.line.state = .unset := hq.web.line ht
  have huv : w.line.state = v.line.state := (congrArg (·.line) hw).trans (congrArg (·.line) hu)
  exact onLine_iff.mp hs (hv.web.line (huv.symm.trans hwl))

/-- In UNSET no trail is open, so that closing it changes nothing of the web. -/
theorem unset_closeOpenTrail {s : State} (m : MachineRecord) (f : Panel → Panel) (hs : UnsetHoldsNoWeb s) :
    UnsetHoldsNoWeb (closeOpenTrail m f s) := by
  refine unset_of_web (quiet_completeRecords m _).web fun h => ?_
  obtain ⟨h1, h2, h3, h4, hq⟩ := hs h
  refine ⟨h1, h2, h3, h4, fun r hr => ?_⟩
  obtain ⟨q, hmem, rfl⟩ := List.mem_map.mp hr
  have hu : q.openTrail = false := by simp [Panel.openTrail, Panel.printed, hq q hmem]
  simpa [hu] using hq q hmem

theorem unset_kept : KeptByWeb UnsetHoldsNoWeb where
  quiet h := unset_of_web h.web
  reset _ _ _ := ⟨rfl, rfl, rfl, rfl, nofun⟩
  announce jobId slot length width coverage s hs := by
    rcases announceOwner_st jobId slot length width coverage s with h | ⟨r, hr, -, -, h⟩
    · rwa [h]
    · refine unset_of_view h fun hl => ?_
      obtain ⟨h1, h2, h3, h4, hq⟩ := hs hl
      refine ⟨h1, h2, h3, h4, fun q hmem => ?_⟩
      rcases List.mem_append.mp hmem with hmem | hmem
      · exact hq q hmem
      · rw [List.mem_singleton.mp hmem]
        exact hr
  printAbort id s hs := by
    rcases printAbortOwner_st id s with h | ⟨m, h⟩
    · rwa [h]
    · exact unset_of_view h (unset_closeOpenTrail m _ hs)
  print d s hs := by
    rcases printCount_moves d s with h | ⟨hon, x, r, h, -⟩
    · rwa [h]
    · exact unset_of_line (line_of_view (by rw [h]) hon)
  nip d s hs := by
    rcases nipCount_moves d s with h | ⟨hon, ⟨x, r, -, h⟩ | h⟩
    · rwa [h]
    · exact unset_of_line (line_of_view (by rw [h]) hon)
    · exact unset_of_line (line_nipMoved h hon)
  rising m s hon _ hs := by
    refine unset_of_line fun ht => onLine_iff.mp hon ?_
    have h1 := (quiet_takeRisingEdge m s).web.line ht
    have h2 : (closeOpenTrail m (·.flag .gateFault) s).line.state = .unset := by
      rw [← (startNext_pos (holdAsserted s) _).2]
      exact h1
    exact (quiet_completeRecords m (s.mapPanels _ _)).web.line h2
  falling m s hs := unset_of_view (view_takeFallingEdge m s) (unset_closeOpenTrail m _ hs)
  seen m id stamp e s hon _ := unset_of_line (line_nipMoved (markSeen_moves m id stamp e s) hon)
  result k s r hr hu hs := by
    intro hl
    obtain ⟨h1, h2, h3, h4, hq⟩ := hs hl
    refine ⟨h1, h2, h3, h4, fun q hmem => ?_⟩
    obtain ⟨a, ha, rfl⟩ := List.mem_map.mp hmem
    split
    · rfl
    · exact hq a ha
  clear m span s _ _ := unset_of_line <| by
    rw [show (clearLine m span s).line.state = .tracking from congrArg (·.line) (view_clearLine m span s)]
    exact nofun

/-! ## The order of the web (R14) -/

/-- A step that keeps x_print and leaves of the queue records at their places. -/
def PlaceKept (s t : State) : Prop :=
  t.pos.xPrint = s.pos.xPrint ∧ List.SublistForall₂ SamePlace t.queue s.queue

theorem sublistForall₂_mono {S T : Panel → Panel → Prop} (hST : ∀ a b, S a b → T a b) {l k : List Panel}
    (h : List.SublistForall₂ S l k) : List.SublistForall₂ T l k := by
  obtain ⟨j, hj, hs⟩ := List.sublistForall₂_iff.mp h
  exact List.sublistForall₂_iff.mpr ⟨j, hj.imp hST, hs⟩

theorem WebKept.place {s t : State} (h : WebKept s t) : PlaceKept s t :=
  ⟨h.xPrint, sublistForall₂_mono (fun _ _ h => h.1) h.queue⟩

theorem coordinatesOrdered_of_samePlace {s t : State} {a b : Panel} (hx : s.pos.xPrint ≤ t.pos.xPrint)
    (h : SamePlace a b) (hb : CoordinatesOrdered s b) : CoordinatesOrdered t a := by
  intro ha
  have hp : b.printed = true := h.1 ▸ ha
  obtain ⟨lead, hl, hle, ht⟩ := hb hp
  obtain ⟨h1, h2⟩ := h.2 hp
  refine ⟨lead, h1.trans hl, hle.trans hx, fun trail htr => ?_⟩
  obtain ⟨g1, g2⟩ := ht trail (h2 ▸ htr)
  exact ⟨g1, g2.trans hx⟩

theorem recordsOrdered_of_samePlace (a b c d : Panel) (h : SamePlace a c) (g : SamePlace b d) (ho : RecordsOrdered c d) :
    RecordsOrdered a b := by
  intro hb
  have hd : d.printed = true := g.1 ▸ hb
  obtain ⟨hc, trail, lead, ht, hl, hle, hlt⟩ := ho hd
  obtain ⟨h1, h2⟩ := h.2 hc
  exact ⟨h.1.trans hc, trail, lead, h2.trans ht, (g.2 hd).1.trans hl, hle, by rw [h1]; exact hlt⟩

theorem webOrdered_of_place {s t : State} (h : PlaceKept s t) (hs : WebOrdered s) : WebOrdered t := by
  refine ⟨fun r hr => ?_, pairwise_of_sublistForall₂ h.2 recordsOrdered_of_samePlace hs.2⟩
  obtain ⟨q, hq, hp⟩ := exists_of_sublistForall₂ h.2 r hr
  exact coordinatesOrdered_of_samePlace h.1.ge hp (hs.1 q hq)

theorem webOrdered_of_web {s t : State} (h : WebKept s t) (hs : WebOrdered s) : WebOrdered t :=
  webOrdered_of_place h.place hs

theorem webOrdered_of_view {s t : State} (h : view t = view s) (hs : WebOrdered s) : WebOrdered t :=
  webOrdered_of_web (.of_view h) hs

theorem webOrdered_of_unprinted {t : State} (h : ∀ r ∈ t.queue, r.unprinted = true) : WebOrdered t := by
  have none : ∀ r ∈ t.queue, r.printed = false := fun r hr => by simp [Panel.printed, h r hr]
  refine ⟨fun r hr hp => absurd hp (by simp [none r hr]), ?_⟩
  exact List.pairwise_of_forall_mem_list fun _ _ b hb hp => absurd hp (by simp [none b hb])

/-- A member of an ordered list is its last or before it. -/
theorem eq_or_rel_of_getLast? {R : Panel → Panel → Prop} {l : List Panel} (h : l.Pairwise R) {a last : Panel}
    (hl : l.getLast? = some last) (ha : a ∈ l) : a = last ∨ R a last := by
  obtain ⟨init, rfl⟩ := List.getLast?_eq_some_iff.mp hl
  rcases List.mem_append.mp ha with ha | ha
  · exact .inr ((List.pairwise_append.mp h).2.2 a ha last (by simp))
  · exact .inl (List.mem_singleton.mp ha)

/-- A picked record is there, so that a newest one is. -/
theorem exists_getLast?_of_mem {l : List Panel} {a : Panel} (ha : a ∈ l) : ∃ last, l.getLast? = some last := by
  cases h : l.getLast? with
  | none => exact absurd (List.getLast?_eq_none_iff.mp h) (List.ne_nil_of_mem ha)
  | some last => exact ⟨last, rfl⟩

/-- The newest printed record bounds the web: every printed record is it, or has its trail closed and its lead before its. -/
theorem exists_newestPrinted {s : State} (hs : WebOrdered s) {r : Panel} (hr : r ∈ s.queue) (hp : r.printed = true) :
    ∃ last, newestPrinted s = some last ∧ last ∈ s.queue ∧ last.printed = true ∧ (r = last ∨ RecordsOrdered r last) := by
  have hmem : r ∈ s.queue.filter (·.printed) := List.mem_filter.mpr ⟨hr, hp⟩
  obtain ⟨last, hl⟩ := exists_getLast?_of_mem hmem
  obtain ⟨h1, h2⟩ := List.mem_filter.mp (List.mem_of_getLast? hl)
  exact ⟨last, hl, h1, h2, eq_or_rel_of_getLast? (hs.2.filter _) hl hmem⟩

/-- No coordinate of a printed record lies above the print floor (R27). -/
theorem coordinates_le_printFloor {s : State} (hs : WebOrdered s) {r : Panel} (hr : r ∈ s.queue) (hp : r.printed = true) :
    ∃ lead, r.lead = some lead ∧ lead ≤ printFloor s ∧
      ∀ trail, r.trail = some trail → lead ≤ trail ∧ trail ≤ printFloor s := by
  obtain ⟨last, hl, hm, hlp, h⟩ := exists_newestPrinted hs hr hp
  obtain ⟨lead, hlead, -, htrail⟩ := hs.1 last hm hlp
  have hfloor : printFloor s = max s.pos.xNip (max lead (last.trail.getD 0)) := by simp [printFloor, hl, hlead]
  rcases h with rfl | h
  · refine ⟨lead, hlead, by omega, fun trail ht => ⟨(htrail trail ht).1, ?_⟩⟩
    rw [hfloor, ht]
    exact (le_max_right _ _).trans (le_max_right _ _)
  · obtain ⟨-, trail, lead', ht, hl', hle, hlt⟩ := h hlp
    obtain rfl : lead = lead' := Option.some.inj (hlead.symm.trans hl')
    obtain ⟨rlead, hrl, -, hrt⟩ := hs.1 r hr hp
    have hlead' : lead ≤ printFloor s := by omega
    refine ⟨rlead, hrl, ?_, fun t htr => ?_⟩
    · rw [hrl] at hlt
      exact hlt.le.trans hlead'
    · obtain rfl : trail = t := Option.some.inj (ht.symm.trans htr)
      exact ⟨(hrt trail ht).1, hle.trans hlead'⟩

/-- The web stays in order when x_print moves and no printed record's coordinate passes it. -/
theorem webOrdered_of_xPrint {s t : State} (hq : t.queue = s.queue)
    (hx : s.pos.xPrint ≤ t.pos.xPrint ∨ printFloor s ≤ t.pos.xPrint) (hs : WebOrdered s) : WebOrdered t := by
  refine ⟨fun r hr hp => ?_, hq ▸ hs.2⟩
  rw [hq] at hr
  rcases hx with hx | hx
  · exact coordinatesOrdered_of_samePlace hx (.refl r) (hs.1 r hr) hp
  · obtain ⟨lead, hl, hle, ht⟩ := coordinates_le_printFloor hs hr hp
    exact ⟨lead, hl, hle.trans hx, fun trail h => ⟨(ht trail h).1, (ht trail h).2.trans hx⟩⟩

/-! ### Arrival, closing and starting -/

/-- Arrival leaves every record at its place. -/
theorem samePlace_arrive (r : Panel) : SamePlace r.arrive r := by
  unfold Panel.arrive
  split
  · rename_i h
    exact ⟨by simp [Panel.printed, Panel.unprinted, h], fun _ => ⟨rfl, rfl⟩⟩
  · rename_i h
    exact ⟨by simp [Panel.printed, Panel.unprinted, h], fun _ => ⟨rfl, rfl⟩⟩
  · exact .refl r

theorem placeKept_nipArrival (s : State) : PlaceKept s (nipArrival s).1 := by
  refine ⟨rfl, sublistForall₂_map fun r _ => ?_⟩
  split
  · exact samePlace_arrive r
  · exact .refl r

theorem webOrdered_nipMoved {s t : State} (h : NipMoved s t) (hs : WebOrdered s) : WebOrdered t := by
  obtain ⟨m, v, u, x, r, hv, -, hu, rfl⟩ := h
  obtain ⟨w, hw, hq⟩ := quiet_nipChanged m u
  have hv' : WebOrdered v := webOrdered_of_web hv.web hs
  have hw' : WebOrdered w := by
    have huv := hw.trans hu
    simp only [view, QueueView.mk.injEq] at huv
    exact webOrdered_of_xPrint huv.1 (.inl huv.2.2.2.1.ge) hv'
  exact webOrdered_of_web hq.web (webOrdered_of_place (placeKept_nipArrival w) hw')

/-- A record whose trail closes: printed, at its lead. -/
theorem closeTrail_fields (r : Panel) (x : Nat) :
    (r.closeTrail x).printed = true ∧ (r.closeTrail x).lead = r.lead ∧ (r.closeTrail x).trail = some x ∧
      (r.closeTrail x).id = r.id := by
  unfold Panel.closeTrail
  split
  · rename_i h
    exact ⟨by simp [Panel.printed, Panel.unprinted, h], rfl, rfl, rfl⟩
  · exact ⟨rfl, rfl, rfl, rfl⟩

/-- The queue with its open trail closed, before completion. -/
def trailsClosed (f : Panel → Panel) (s : State) : State :=
  s.mapPanels (·.openTrail) fun r => f (r.closeTrail s.pos.xPrint)

theorem quiet_closeOpenTrail (m : MachineRecord) (f : Panel → Panel) (s : State) :
    Quiet (trailsClosed f s) (closeOpenTrail m f s) :=
  quiet_completeRecords m _

theorem openTrail_iff {r : Panel} : r.openTrail = true ↔ r.printed = true ∧ r.trail = none := by
  simp [Panel.openTrail]

/-- A record after the open trail is closed: an open-trail one closed at x_print, any other as it was. -/
theorem mem_trailsClosed {f : Panel → Panel} {s : State} {r : Panel} (h : r ∈ (trailsClosed f s).queue) :
    ∃ q ∈ s.queue, (q.openTrail = true ∧ r = f (q.closeTrail s.pos.xPrint)) ∨ (q.openTrail = false ∧ r = q) := by
  obtain ⟨q, hq, rfl⟩ := List.mem_map.mp h
  refine ⟨q, hq, ?_⟩
  cases ho : q.openTrail <;> simp [ho]

/-- Closing the open trail at x_print keeps the order of the web: it is the newest printed record's (R10, R14). -/
theorem webOrdered_trailsClosed {f : Panel → Panel} (hf : ∀ r, SamePlace (f r) r) {s : State} (hs : WebOrdered s) :
    WebOrdered (trailsClosed f s) := by
  have closed : ∀ (q : Panel) x, (f (q.closeTrail x)).printed = true ∧ (f (q.closeTrail x)).lead = q.lead ∧
      (f (q.closeTrail x)).trail = some x := fun q x => by
    obtain ⟨h1, h2, h3, -⟩ := closeTrail_fields q x
    obtain ⟨g1, g2⟩ := hf (q.closeTrail x)
    exact ⟨g1.trans h1, (g2 h1).1.trans h2, (g2 h1).2.trans h3⟩
  refine ⟨fun r hr => ?_, ?_⟩
  · obtain ⟨q, hq, ⟨ho, rfl⟩ | ⟨-, rfl⟩⟩ := mem_trailsClosed hr
    · intro _
      obtain ⟨lead, hl, hle, -⟩ := hs.1 q hq (openTrail_iff.mp ho).1
      obtain ⟨-, h2, h3⟩ := closed q s.pos.xPrint
      refine ⟨lead, h2.trans hl, hle, fun trail ht => ?_⟩
      obtain rfl : s.pos.xPrint = trail := Option.some.inj (h3.symm.trans ht)
      exact ⟨hle, le_rfl⟩
    · exact hs.1 r hq
  · refine List.Pairwise.map _ (fun a b hab hb => ?_) hs.2
    have hbp : b.printed = true ∧ (if b.openTrail = true then f (b.closeTrail s.pos.xPrint) else b).lead = b.lead := by
      split at hb
      · rename_i ho
        simpa [ho] using ⟨(openTrail_iff.mp ho).1, (closed b s.pos.xPrint).2.1⟩
      · rename_i ho
        simpa [ho] using hb
    obtain ⟨ha, trail, lead, ht, hl, hle, hlt⟩ := hab hbp.1
    have hao : a.openTrail = false := by simp [Panel.openTrail, ht]
    simp only [hao, Bool.false_eq_true, if_false]
    exact ⟨ha, trail, lead, ht, hbp.2.trans hl, hle, hlt⟩

theorem webOrdered_closeOpenTrail (m : MachineRecord) {f : Panel → Panel} (hf : ∀ r, SamePlace (f r) r) {s : State}
    (hs : WebOrdered s) : WebOrdered (closeOpenTrail m f s) :=
  webOrdered_of_web (quiet_closeOpenTrail m f s).web (webOrdered_trailsClosed hf hs)

/-- No trail is open, and the web ends before x_print: the next record may start (R10, R14). -/
def ReadyToStart (s : State) : Prop :=
  ∀ r ∈ s.queue, r.printed = true →
    ∃ lead trail, r.lead = some lead ∧ r.trail = some trail ∧ lead < s.pos.xPrint ∧ trail ≤ s.pos.xPrint

/-- A rising edge that is not ignored, after the open trail is closed, finds the print line free (R38). -/
theorem readyToStart_of_rising {m : MachineRecord} {s : State} (hi : risingIgnored s = false) (hs : WebOrdered s) :
    ReadyToStart (closeOpenTrail m (·.flag .gateFault) s) := by
  have before : ∀ q ∈ s.queue, q.printed = true → ∃ lead, q.lead = some lead ∧ lead < s.pos.xPrint := by
    intro q hq hp
    obtain ⟨last, hl, hm, hlp, h⟩ := exists_newestPrinted hs hq hp
    obtain ⟨lead, hlead, -, -⟩ := hs.1 last hm hlp
    have hx : lead < s.pos.xPrint := by simpa [risingIgnored, hl, hlead] using (Bool.or_eq_false_iff.mp hi).2
    rcases h with rfl | h
    · exact ⟨lead, hlead, hx⟩
    · obtain ⟨-, _, lead', -, hl', -, hlt⟩ := h hlp
      obtain rfl : lead = lead' := Option.some.inj (hlead.symm.trans hl')
      obtain ⟨qlead, hql, -, -⟩ := hs.1 q hq hp
      rw [hql] at hlt
      exact ⟨qlead, hql, lt_trans hlt hx⟩
  have free : ReadyToStart (trailsClosed (·.flag .gateFault) s) := by
    intro r hr hp
    obtain ⟨q, hq, ⟨ho, rfl⟩ | ⟨ho, rfl⟩⟩ := mem_trailsClosed hr
    · obtain ⟨lead, hl, hx⟩ := before q hq (openTrail_iff.mp ho).1
      exact ⟨lead, s.pos.xPrint, (closeTrail_fields q _).2.1.trans hl, (closeTrail_fields q _).2.2.1, hx, le_rfl⟩
    · obtain ⟨lead, hl, hx⟩ := before r hq hp
      obtain ⟨lead', hl', -, ht⟩ := hs.1 r hq hp
      cases htr : r.trail with
      | none => exact absurd (openTrail_iff.mpr ⟨hp, htr⟩) (by simp [ho])
      | some trail => exact ⟨lead, trail, hl, rfl, hx, (ht trail htr).2⟩
  obtain ⟨hx, hq⟩ := (quiet_closeOpenTrail m (·.flag .gateFault) s).web.place
  intro r hr hp
  obtain ⟨q, hmem, hqp, hc⟩ := exists_of_sublistForall₂ hq r hr
  have hqp : q.printed = true := hqp ▸ hp
  obtain ⟨lead, trail, hl, ht, h1, h2⟩ := free q hmem hqp
  exact ⟨lead, trail, (hc hqp).1.trans hl, (hc hqp).2.trans ht, by rwa [hx], by rwa [hx]⟩

/-- A record started at x_print behind a web that ends before it keeps the order (R14). -/
theorem webOrdered_started {s t : State} {pre post : List Panel} {new : Panel} (hs : WebOrdered s) (hr : ReadyToStart s)
    (hx : t.pos.xPrint = s.pos.xPrint) (hsub : (pre ++ post).Sublist s.queue) (hpre : ∀ q ∈ pre, q.printed = true)
    (hpost : ∀ q ∈ post, q.unprinted = true) (hl : new.lead = some s.pos.xPrint) (ht : new.trail = none)
    (hq : t.queue = pre ++ new :: post) : WebOrdered t := by
  have hpw : (pre ++ post).Pairwise RecordsOrdered := hs.2.sublist hsub
  have coord : ∀ r ∈ pre ++ post, CoordinatesOrdered t r := fun r hr =>
    coordinatesOrdered_of_samePlace hx.ge (.refl r) (hs.1 r (hsub.subset hr))
  obtain ⟨h1, h2, h3⟩ := List.pairwise_append.mp hpw
  have unprinted : ∀ b ∈ post, ∀ a, RecordsOrdered a b := fun b hb a hp =>
    absurd hp (by simp [Panel.printed, hpost b hb])
  refine ⟨fun r hmem => ?_, hq ▸ List.pairwise_append.mpr ⟨h1, List.pairwise_cons.mpr ⟨?_, h2⟩, fun a ha b hb => ?_⟩⟩
  · rw [hq] at hmem
    rcases List.mem_append.mp hmem with hmem | hmem
    · exact coord r (List.mem_append_left _ hmem)
    · rcases List.mem_cons.mp hmem with rfl | hmem
      · exact fun _ => ⟨_, hl, hx.ge, fun trail h => by rw [ht] at h; cases h⟩
      · exact coord r (List.mem_append_right _ hmem)
  · exact fun b hb => unprinted b hb new
  · rcases List.mem_cons.mp hb with rfl | hb
    · intro _
      obtain ⟨lead, trail, hal, hat, hlt, hle⟩ := hr a (hsub.subset (List.mem_append_left _ ha)) (hpre a ha)
      exact ⟨hpre a ha, trail, _, hat, hl, hle, by rw [hal]; exact hlt⟩
    · exact unprinted b hb a

/-- Behind an unprinted record no record is printed (R14). -/
theorem unprinted_behind {pre post : List Panel} {r : Panel} (hr : r.unprinted = true)
    (h : (pre ++ r :: post).Pairwise RecordsOrdered) : ∀ q ∈ post, q.unprinted = true := by
  intro q hq
  cases hu : q.unprinted with
  | true => rfl
  | false =>
    have hp := ((List.pairwise_cons.mp (List.pairwise_append.mp h).2.1).1 q hq (by simp [Panel.printed, hu])).1
    simp [Panel.printed, hr] at hp

/-- What starting the next record leaves, as one form: nothing changed, or a PRINTING record with an open trail at x_print
between the printed records and the unprinted ones. -/
theorem startNext_form (held : Bool) {s : State} (hs : WebOrdered s) :
    (startNext held s).1 = s ∨
      ∃ pre new post, (startNext held s).1.queue = pre ++ new :: post ∧ (pre ++ post).Sublist s.queue ∧
        (∀ q ∈ pre, q.printed = true) ∧ (∀ q ∈ post, q.unprinted = true) ∧ new.state = .printing ∧
        new.lead = some s.pos.xPrint ∧ new.trail = none := by
  rcases startNext_cases held s with ⟨pre, r, post, hq, hpre, hr, h⟩ | ⟨hall, -, h⟩ | ⟨-, -, h⟩
  · obtain ⟨-, h1, h2, h3⟩ := start_fields r s.pos.xPrint held
    refine .inr ⟨pre, r.start s.pos.xPrint held, post, by rw [h], ?_, hpre, unprinted_behind hr (hq ▸ hs.2), h1, h2, h3⟩
    rw [hq]
    exact (List.sublist_cons_self r post).append_left pre
  · exact .inr ⟨s.queue, anonymousPanel (nextId s) s.pos.xPrint, [], by rw [h]; rfl, by simp, hall, by simp, rfl, rfl, rfl⟩
  · exact .inl (by rw [h])

theorem webOrdered_startNext (held : Bool) {s : State} (hs : WebOrdered s) (hr : ReadyToStart s) :
    WebOrdered (startNext held s).1 := by
  rcases startNext_form held hs with h | ⟨pre, new, post, hq, hsub, hpre, hpost, -, hl, ht⟩
  · rwa [h]
  · exact webOrdered_started hs hr (by rw [(startNext_pos held s).1]) hsub hpre hpost hl ht hq

/-- The record a result is written into is unprinted, and with it every record of its id (R82). -/
theorem webKept_writeResult {k : Computation} {s : State} {r : Panel} (hr : findPanel s k.panel = some r)
    (hu : r.unprinted = true) (hs : WebOrdered s) : WebKept s (writeResult k s) := by
  refine WebKept.trans (WebKept.mapPanels s fun q hq hid => ?_) (.of_view rfl)
  refine .of_unprinted rfl ?_
  obtain ⟨-, pre, post, hsplit, hpre⟩ := List.find?_eq_some_iff_append.mp hr
  rw [hsplit] at hq
  rcases List.mem_append.mp hq with hq | hq
  · exact absurd hid (by simpa using hpre q hq)
  · rcases List.mem_cons.mp hq with rfl | hq
    · exact hu
    · exact unprinted_behind hu (hsplit ▸ hs.2) q hq

theorem webOrdered_kept : KeptByWeb WebOrdered where
  quiet h := webOrdered_of_web h.web
  reset _ _ := ⟨nofun, .nil⟩
  announce jobId slot length width coverage s hs := by
    rcases announceOwner_st jobId slot length width coverage s with h | ⟨r, hr, -, -, h⟩
    · rwa [h]
    · have hp : ∀ a, RecordsOrdered a r := fun a hp => absurd hp (by simp [Panel.printed, hr])
      refine webOrdered_of_view h ⟨fun q hq => ?_, List.pairwise_append.mpr ⟨hs.2, List.pairwise_singleton _ _, ?_⟩⟩
      · rcases List.mem_append.mp hq with hq | hq
        · exact hs.1 q hq
        · rw [List.mem_singleton.mp hq]
          exact fun hp => absurd hp (by simp [Panel.printed, hr])
      · exact fun a _ b hb => List.mem_singleton.mp hb ▸ hp a
  printAbort id s hs := by
    rcases printAbortOwner_st id s with h | ⟨m, h⟩
    · rwa [h]
    · exact webOrdered_of_view h (webOrdered_closeOpenTrail m (fun r => (alike_flag r _).1) hs)
  print d s hs := by
    rcases printCount_moves d s with h | ⟨-, x, r, h, hx⟩
    · rwa [h]
    · simp only [view, QueueView.mk.injEq] at h
      refine webOrdered_of_xPrint h.1 ?_ hs
      rw [h.2.2.2.1]
      omega
  nip d s hs := by
    rcases nipCount_moves d s with h | ⟨-, ⟨x, r, -, h⟩ | h⟩
    · rwa [h]
    · simp only [view, QueueView.mk.injEq] at h
      exact webOrdered_of_xPrint h.1 (.inl h.2.2.2.1.ge) hs
    · exact webOrdered_nipMoved h hs
  rising m s _ hi hs :=
    webOrdered_of_web (quiet_takeRisingEdge m s).web <| webOrdered_of_place (placeKept_nipArrival _) <|
      webOrdered_startNext _ (webOrdered_closeOpenTrail m (fun r => (alike_flag r _).1) hs) (readyToStart_of_rising hi hs)
  falling m s hs :=
    webOrdered_of_view (view_takeFallingEdge m s) (webOrdered_closeOpenTrail m (fun r => (alike_compareLength m r).1) hs)
  seen m id stamp e s _ hs := webOrdered_nipMoved (markSeen_moves m id stamp e s) hs
  result k s r hr hu hs := webOrdered_of_web (webKept_writeResult hr hu hs) hs
  clear m span s _ _ := webOrdered_of_unprinted (clearLine_unprinted m span s)

end Sys2Proof.Proofs
end

