-- ==== Sys2Proof/Proofs/RecordStates.lean ====
section
/-!
O54, the record states: each as the nip gives it (R15, R16, R28), which with the order of the web places them.
-/
namespace Sys2Proof.Proofs

open Sys2Proof.Machine Sys2Proof.Safety

/-- The order of the states along the queue follows from the order of the leads and from each record's own state. -/
theorem statesFollowWeb_iff {s : State} :
    StatesFollowWeb s ↔ WebOrdered s ∧ ∀ r ∈ s.queue, StateFollowsNip s r := by
  refine ⟨fun h => ⟨h.1, h.2.1⟩, fun ⟨hw, hs⟩ => ⟨hw, hs, hw.2.imp_of_mem fun {a b} ha hb hab => ?_⟩⟩
  cases hu : b.unprinted with
  | true =>
    refine ⟨?_, fun _ => rfl, fun _ => rfl⟩
    have rank : ∀ st, webRank st ≤ 3 := fun st => by cases st <;> simp [webRank]
    unfold Panel.unprinted at hu
    split at hu
    · rename_i hq; rw [hq]; exact rank _
    · rename_i hq; rw [hq]; exact rank _
    · cases hu
  | false =>
    have hbp : b.printed = true := by simp [Panel.printed, hu]
    obtain ⟨hap, trail, lead, ht, hl, -, hlt⟩ := hab hbp
    obtain ⟨hnip, hprinting, -⟩ := hs a ha
    have hnp : a.state ≠ .printing := fun h => by rw [hprinting h] at ht; cases ht
    refine ⟨?_, fun h => absurd h hnp, fun h => absurd h (by simp [Panel.openTrail, ht])⟩
    cases hst : a.state with
    | transferring => exact Nat.zero_le _
    | inTransit =>
      have hb : b.state ≠ .transferring := fun h => by
        obtain ⟨alead, hal, -, -⟩ := hw.1 a ha hap
        rw [hal] at hlt
        have := ((hs b hb).1 lead hbp hl).mp h
        have := ((hnip alead hap hal).mpr (by simp only [Option.getD_some] at hlt; omega))
        rw [hst] at this
        cases this
      cases hbst : b.state <;> simp_all [webRank]
    | printing => exact absurd hst hnp
    | queued => simp [Panel.printed, Panel.unprinted, hst] at hap
    | ready _ _ _ => simp [Panel.printed, Panel.unprinted, hst] at hap

/-- A record as a change of x_nip finds it before its arrivals: no TRANSFERRING lead lies past x_nip. -/
def BeforeArrival (s : State) (r : Panel) : Prop :=
  (∀ lead, r.state = .transferring → r.lead = some lead → lead ≤ s.pos.xNip) ∧
  (r.state = .printing → r.trail = none) ∧ (r.state = .inTransit → r.trail.isSome = true)

theorem printed_of_transferring {r : Panel} (h : r.state = .transferring) : r.printed = true := by
  simp [Panel.printed, Panel.unprinted, h]

theorem printed_of_inTransit {r : Panel} (h : r.state = .inTransit) : r.printed = true := by
  simp [Panel.printed, Panel.unprinted, h]

theorem printed_of_printing {r : Panel} (h : r.state = .printing) : r.printed = true := by
  simp [Panel.printed, Panel.unprinted, h]

theorem StateFollowsNip.beforeArrival {s : State} {r : Panel} (h : StateFollowsNip s r) : BeforeArrival s r :=
  ⟨fun lead hst hl => (h.1 lead (printed_of_transferring hst) hl).mp hst, h.2⟩

/-- After the arrivals every record's state is as the nip gives it (R15, R16). -/
theorem followsNip_nipArrival {s : State} (hb : ∀ r ∈ s.queue, BeforeArrival s r) :
    ∀ r ∈ (nipArrival s).1.queue, StateFollowsNip (nipArrival s).1 r := by
  intro r hr
  obtain ⟨q, hq, rfl⟩ := List.mem_map.mp hr
  obtain ⟨htr, hprinting, htransit⟩ := hb q hq
  have arrived : q.reached s.pos.xNip = true → StateFollowsNip (nipArrival s).1 q.arrive := by
    intro h
    simp only [Panel.reached, Bool.and_eq_true, decide_eq_true_eq] at h
    obtain ⟨hst, hle⟩ := h
    have hqs : q.arrive.state = .transferring ∧ q.arrive.lead = q.lead := by
      unfold Panel.arrive
      rcases hst with hst | hst <;> simp [hst]
    refine ⟨fun lead _ hl => ⟨fun _ => ?_, fun _ => hqs.1⟩, ?_, ?_⟩
    · rw [hqs.2] at hl
      simp only [hl, Option.getD_some] at hle
      exact hle
    · exact fun h => by rw [hqs.1] at h; cases h
    · exact fun h => by rw [hqs.1] at h; cases h
  have kept : q.reached s.pos.xNip = false → StateFollowsNip (nipArrival s).1 q := by
    intro h
    refine ⟨fun lead hp hl => ⟨fun hst => htr lead hst hl, fun hle => ?_⟩, hprinting, htransit⟩
    cases hst : q.state with
    | transferring => rfl
    | inTransit => exact absurd (show lead ≤ s.pos.xNip from hle) (by simpa [Panel.reached, hst, hl] using h)
    | printing => exact absurd (show lead ≤ s.pos.xNip from hle) (by simpa [Panel.reached, hst, hl] using h)
    | queued => simp [Panel.printed, Panel.unprinted, hst] at hp
    | ready _ _ _ => simp [Panel.printed, Panel.unprinted, hst] at hp
  cases h : q.reached s.pos.xNip with
  | true => simpa [h] using arrived h
  | false => simpa [h] using kept h

/-! ## The states under each kind of step -/

/-- A record that stands alike under the same x_nip has its state as the nip gives it. -/
theorem followsNip_of_alike {s t : State} {a b : Panel} (hx : t.pos.xNip = s.pos.xNip) (h : Alike a b)
    (hb : StateFollowsNip s b) : StateFollowsNip t a := by
  obtain ⟨⟨hp, hc⟩, hst⟩ := h
  have state : a.printed = true → a.state = b.state ∧ a.lead = b.lead ∧ a.trail = b.trail := fun ha =>
    ⟨hst (hp ▸ ha), hc (hp ▸ ha)⟩
  refine ⟨fun lead ha hl => ?_, fun h => ?_, fun h => ?_⟩
  · obtain ⟨h1, h2, -⟩ := state ha
    rw [h1, hx]
    exact hb.1 lead (hp ▸ ha) (h2 ▸ hl)
  · obtain ⟨h1, -, h3⟩ := state (printed_of_printing h)
    exact h3.trans (hb.2.1 (h1 ▸ h))
  · obtain ⟨h1, -, h3⟩ := state (printed_of_inTransit h)
    rw [h3]
    exact hb.2.2 (h1 ▸ h)

theorem states_of_web {s t : State} (h : WebKept s t) (hs : StatesFollowWeb s) : StatesFollowWeb t := by
  rw [statesFollowWeb_iff] at *
  refine ⟨webOrdered_of_web h hs.1, fun r hr => ?_⟩
  obtain ⟨q, hq, hal⟩ := exists_of_sublistForall₂ h.queue r hr
  exact followsNip_of_alike h.xNip hal (hs.2 q hq)

theorem states_of_view {s t : State} (h : view t = view s) (hs : StatesFollowWeb s) : StatesFollowWeb t :=
  states_of_web (.of_view h) hs

theorem states_of_unprinted {t : State} (h : ∀ r ∈ t.queue, r.unprinted = true) : StatesFollowWeb t := by
  have none : ∀ r ∈ t.queue, r.printed ≠ true := fun r hr => by simp [Panel.printed, h r hr]
  exact statesFollowWeb_iff.mpr ⟨webOrdered_of_unprinted h, fun r hr => ⟨fun _ hp _ => absurd hp (none r hr),
    fun hst => absurd (printed_of_printing hst) (none r hr), fun hst => absurd (printed_of_inTransit hst) (none r hr)⟩⟩

/-- Arrivals bring the states to the nip, in a web that is in order. -/
theorem states_nipArrival {s : State} (hs : WebOrdered s) (hb : ∀ r ∈ s.queue, BeforeArrival s r) :
    StatesFollowWeb (nipArrival s).1 :=
  statesFollowWeb_iff.mpr ⟨webOrdered_of_place (placeKept_nipArrival s) hs, followsNip_nipArrival hb⟩

/-- No TRANSFERRING record's lead lies past the nip floor (R28). -/
theorem lead_le_nipFloor {s : State} (hs : WebOrdered s) {r : Panel} (hr : r ∈ s.queue) (hst : r.state = .transferring)
    {lead : Nat} (hl : r.lead = some lead) : lead ≤ nipFloor s := by
  have hmem : r ∈ s.queue.filter (·.isTransferring) := List.mem_filter.mpr ⟨hr, by simp [Panel.isTransferring, hst]⟩
  obtain ⟨last, hlast⟩ := exists_getLast?_of_mem hmem
  have hfloor : nipFloor s = last.lead.getD 0 := by simp [nipFloor, newestTransferring, hlast]
  have hlp : last.printed = true :=
    printed_of_transferring (by simpa [Panel.isTransferring] using (List.mem_filter.mp (List.mem_of_getLast? hlast)).2)
  rcases eq_or_rel_of_getLast? (hs.2.filter _) hlast hmem with rfl | h
  · simp [hfloor, hl]
  · obtain ⟨-, _, lead', -, hl', -, hlt⟩ := h hlp
    rw [hl] at hlt
    rw [hfloor, hl']
    exact hlt.le

theorem states_nipMoved {s t : State} (h : NipMoved s t) (hs : StatesFollowWeb s) : StatesFollowWeb t := by
  obtain ⟨m, v, u, x, r, hv, ⟨-, hx⟩, hu, rfl⟩ := h
  obtain ⟨w, hw, hq⟩ := quiet_nipChanged m u
  obtain ⟨ho, hf⟩ := statesFollowWeb_iff.mp hs
  obtain ⟨ho', hf'⟩ := statesFollowWeb_iff.mp (states_of_web hv.web hs)
  have huv := hw.trans hu
  simp only [view, QueueView.mk.injEq] at huv
  have behind : ∀ q ∈ v.queue, ∀ lead, q.state = .transferring → q.lead = some lead → lead ≤ x := by
    intro q hmem lead hst hl
    have hp := printed_of_transferring hst
    obtain ⟨o, hom, ⟨hop, hoc⟩, host⟩ := exists_of_sublistForall₂ hv.web.queue q hmem
    have hop : o.printed = true := hop ▸ hp
    have hol : o.lead = some lead := (hoc hop).1.symm.trans hl
    have host : o.state = .transferring := (host hop).symm.trans hst
    rcases hx with hx | hx | hx
    · exact (((hf o hom).1 lead hop hol).mp host).trans hx
    · obtain ⟨lead', hl', hle, -⟩ := ho.1 o hom hop
      obtain rfl : lead = lead' := Option.some.inj (hol.symm.trans hl')
      exact hx ▸ hle
    · exact (lead_le_nipFloor ho hom host hol).trans hx
  refine states_of_web hq.web (states_nipArrival (webOrdered_of_xPrint huv.1 (.inl huv.2.2.2.1.ge) ho') fun q hmem => ?_)
  rw [huv.1] at hmem
  exact ⟨fun lead hst hl => huv.2.2.2.2.1 ▸ behind q hmem lead hst hl, (hf' q hmem).2⟩

/-- A PRINTING record whose trail closes is IN_TRANSIT ahead of the nip; a TRANSFERRING one stays so (R13, R16). -/
theorem states_closeOpenTrail (m : MachineRecord) {f : Panel → Panel} (hfa : ∀ r, Alike (f r) r) {s : State}
    (hs : StatesFollowWeb s) : StatesFollowWeb (closeOpenTrail m f s) := by
  refine states_of_web (quiet_closeOpenTrail m f s).web ?_
  obtain ⟨ho, hf⟩ := statesFollowWeb_iff.mp hs
  refine statesFollowWeb_iff.mpr ⟨webOrdered_trailsClosed (fun r => (hfa r).1) ho, fun r hr => ?_⟩
  obtain ⟨q, hq, ⟨hopen, rfl⟩ | ⟨-, rfl⟩⟩ := mem_trailsClosed hr
  · refine followsNip_of_alike (s := trailsClosed f s) rfl (hfa _) ?_
    obtain ⟨hp, ht⟩ := openTrail_iff.mp hopen
    obtain ⟨hnip, -, htransit⟩ := hf q hq
    obtain ⟨-, hl, hct, -⟩ := closeTrail_fields q s.pos.xPrint
    have hst : (q.closeTrail s.pos.xPrint).state = .transferring ∧ q.state = .transferring ∨
        (q.closeTrail s.pos.xPrint).state = .inTransit ∧ q.state ≠ .transferring := by
      unfold Panel.closeTrail
      split
      · rename_i h; exact .inl ⟨h, h⟩
      · rename_i h; exact .inr ⟨rfl, h⟩
    refine ⟨fun lead _ hlead => ?_, fun h => ?_, fun _ => by rw [hct]; rfl⟩
    · rw [hl] at hlead
      rw [show (trailsClosed f s).pos.xNip = s.pos.xNip from rfl, ← hnip lead hp hlead]
      rcases hst with ⟨h1, h2⟩ | ⟨h1, h2⟩ <;> simp [h1, h2]
    · rcases hst with ⟨h1, -⟩ | ⟨h1, -⟩ <;> rw [h1] at h <;> cases h
  · exact followsNip_of_alike (s := s) rfl (.refl _) (hf r hq)

theorem states_kept : KeptByWeb StatesFollowWeb where
  quiet h := states_of_web h.web
  reset _ _ := states_of_unprinted nofun
  announce jobId slot length width coverage s hs := by
    have ho := webOrdered_kept.announce jobId slot length width coverage s hs.1
    rcases announceOwner_st jobId slot length width coverage s with h | ⟨r, hr, -, -, h⟩
    · rwa [h]
    · have ho' := webOrdered_of_view h.symm ho
      refine states_of_view h (statesFollowWeb_iff.mpr ⟨ho', fun q hq => ?_⟩)
      rcases List.mem_append.mp hq with hq | hq
      · exact hs.2.1 q hq
      · rw [List.mem_singleton.mp hq]
        have hp : r.printed ≠ true := by simp [Panel.printed, hr]
        exact ⟨fun _ h _ => absurd h hp, fun h => absurd (printed_of_printing h) hp,
          fun h => absurd (printed_of_inTransit h) hp⟩
  printAbort id s hs := by
    rcases printAbortOwner_st id s with h | ⟨m, h⟩
    · rwa [h]
    · exact states_of_view h (states_closeOpenTrail m (fun r => alike_flag r _) hs)
  print d s hs := by
    have ho := webOrdered_kept.print d s hs.1
    rcases printCount_moves d s with h | ⟨-, x, r, h, -⟩
    · rwa [h]
    · simp only [view, QueueView.mk.injEq] at h
      refine statesFollowWeb_iff.mpr ⟨ho, fun q hq => ?_⟩
      exact followsNip_of_alike h.2.2.2.2.1 (.refl q) (hs.2.1 q (h.1 ▸ hq))
  nip d s hs := by
    rcases nipCount_moves d s with h | ⟨-, ⟨x, r, hx, h⟩ | h⟩
    · rwa [h]
    · simp only [view, QueueView.mk.injEq] at h
      refine statesFollowWeb_iff.mpr ⟨webOrdered_of_xPrint h.1 (.inl h.2.2.2.1.ge) hs.1, fun q hq => ?_⟩
      exact followsNip_of_alike (h.2.2.2.2.1.trans hx) (.refl q) (hs.2.1 q (h.1 ▸ hq))
    · exact states_nipMoved h hs
  rising m s _ hi hs := by
    have hc := states_closeOpenTrail m (fun r => alike_flag r .gateFault) hs
    have ho := webOrdered_startNext (holdAsserted s) hc.1 (readyToStart_of_rising hi hs.1)
    refine states_of_web (quiet_takeRisingEdge m s).web (states_nipArrival ho fun q hq => ?_)
    have hnip := congrArg Position.xNip (startNext_pos (holdAsserted s) (closeOpenTrail m (·.flag .gateFault) s)).1
    rcases startNext_form (holdAsserted s) hc.1 with h | ⟨pre, new, post, hqueue, hsub, -, -, hst, hl, ht⟩
    · rw [h] at hq ⊢
      exact StateFollowsNip.beforeArrival (hc.2.1 q hq)
    · have old : ∀ a ∈ pre ++ post, BeforeArrival (startNext (holdAsserted s)
          (closeOpenTrail m (·.flag .gateFault) s)).1 a := fun a ha =>
        StateFollowsNip.beforeArrival (followsNip_of_alike hnip (.refl a) (hc.2.1 a (hsub.subset ha)))
      rw [hqueue] at hq
      rcases List.mem_append.mp hq with hq | hq
      · exact old q (List.mem_append_left _ hq)
      · rcases List.mem_cons.mp hq with rfl | hq
        · exact ⟨fun _ h _ => (nomatch hst.symm.trans h), fun _ => ht, fun h => (nomatch hst.symm.trans h)⟩
        · exact old q (List.mem_append_right _ hq)
  falling m s hs :=
    states_of_view (view_takeFallingEdge m s) (states_closeOpenTrail m (fun r => alike_compareLength m r) hs)
  seen m id stamp e s _ hs := states_nipMoved (markSeen_moves m id stamp e s) hs
  result k s r hr hu hs := states_of_web (webKept_writeResult hr hu hs.1) hs
  clear m span s _ _ := states_of_unprinted (clearLine_unprinted m span s)

/-- Settles O54: each of the four promises is kept by every quiet step and by each command that moves the web. -/
theorem everyStepKeepsTheWebInRangeAndOrdered : Obligations.EveryStepKeepsTheWebInRangeAndOrdered :=
  ⟨webInRange_kept.everyStep, webOrdered_kept.everyStep, unset_kept.everyStep, states_kept.everyStep⟩

end Sys2Proof.Proofs
end

