-- ==== Sys2Proof/Proofs/PanelIds.lean ====
section
/-!
O56: panel ids stay distinct, in both queues, and the queues within their limits.
-/
namespace Sys2Proof.Proofs

open Sys2Proof.Machine Sys2Proof.Safety

/-! ## The next free id (R2) -/

theorem idAfter_range (c : Nat) : 1 ≤ idAfter c ∧ idAfter c ≤ 65535 := by
  unfold idAfter
  split <;> omega

theorem freeId_range (used : List Nat) (fuel : Nat) {c : Nat} (hc : 1 ≤ c ∧ c ≤ 65535) :
    1 ≤ freeId used fuel c ∧ freeId used fuel c ≤ 65535 := by
  induction fuel generalizing c with
  | zero => exact hc
  | succ fuel ih =>
    rw [freeId]
    split
    · exact ih (idAfter_range c)
    · exact hc

/-- The counter runs through 1 to 65,535 in a ring. -/
theorem idAfter_iterate {c : Nat} (hc : 1 ≤ c ∧ c ≤ 65535) (k : Nat) : idAfter^[k] c = (c - 1 + k) % 65535 + 1 := by
  induction k with
  | zero => rw [Function.iterate_zero, id_eq]; omega
  | succ k ih =>
    rw [Function.iterate_succ_apply', ih, idAfter]
    split <;> omega

/-- Where the search ends on a value in use, it has passed nothing but values in use. -/
theorem iterates_used_of_freeId {used : List Nat} {fuel c : Nat} (hc : 1 ≤ c) (h : freeId used fuel c ∈ used) :
    ∀ k ≤ fuel, idAfter^[k] c ∈ used := by
  induction fuel generalizing c with
  | zero =>
    intro k hk
    rw [Nat.le_zero.mp hk]
    exact h
  | succ fuel ih =>
    rw [freeId] at h
    split at h
    · rename_i hu
      intro k hk
      cases k with
      | zero => exact hu.resolve_left (by omega)
      | succ k => exact ih (idAfter_range c).1 h k (Nat.le_of_succ_le_succ hk)
    · rename_i hu
      exact absurd h fun h => hu (.inr h)

/-- With more fuel than ids in use, and fewer ids in use than there are, the search ends on a free one. -/
theorem freeId_fresh {used : List Nat} {fuel c : Nat} (hc : 1 ≤ c ∧ c ≤ 65535) (hlen : used.length ≤ fuel)
    (hfuel : fuel < 65535) : freeId used fuel c ∉ used := by
  intro h
  have nodup : ((List.range (fuel + 1)).map fun k => idAfter^[k] c).Nodup := by
    refine List.Nodup.map_on (fun a ha b hb hab => ?_) List.nodup_range
    rw [List.mem_range] at ha hb
    simp only [idAfter_iterate hc] at hab
    omega
  have used' : ((List.range (fuel + 1)).map fun k => idAfter^[k] c) ⊆ used := by
    intro i hi
    obtain ⟨k, hk, rfl⟩ := List.mem_map.mp hi
    exact iterates_used_of_freeId hc.1 h k (Nat.le_of_lt_succ (List.mem_range.mp hk))
  have := (List.subperm_of_subset nodup used').length_le
  rw [List.length_map, List.length_range] at this
  omega

/-- The next id is free and in range (R2). -/
theorem nextId_fresh {s : State} (hs : IdsDistinct s) :
    nextId s ∉ idsInUse s ∧ 1 ≤ nextId s ∧ nextId s ≤ 65535 := by
  obtain ⟨-, -, hc, hq, hr⟩ := hs
  have hlen : (idsInUse s).length ≤ 96 := by
    simp only [idsInUse, List.length_append, List.length_map]
    omega
  exact ⟨freeId_fresh hc (by omega) (by omega), freeId_range _ _ hc⟩

/-! ## The ids under each kind of step -/

theorem idsDistinct_of_ids {s t : State} (h : IdsKept s t) (hs : IdsDistinct s) : IdsDistinct t := by
  obtain ⟨hn, hrange, hc, hq, hr⟩ := hs
  obtain ⟨l, hp, hsub⟩ := h.ids
  exact ⟨hp.nodup_iff.mp (hn.sublist hsub), fun i hi => hrange i (h.ids.subset hi), h.counter ▸ hc,
    h.queue.trans hq, h.records hr⟩

/-- A record appended with the next id to a queue that is not full takes a fresh id. -/
theorem idsDistinct_appendPanel {s : State} {r : Panel} (hid : r.id = nextId s) (hl : s.queue.length < 64)
    (hs : IdsDistinct s) : IdsDistinct (appendPanel r s) := by
  obtain ⟨hfresh, h1, h2⟩ := nextId_fresh hs
  obtain ⟨hn, hrange, -, -, hr⟩ := hs
  have hperm : (idsInUse (appendPanel r s)).Perm (nextId s :: idsInUse s) := by
    simp only [idsInUse, appendPanel, List.map_append, List.map_cons, List.map_nil, List.append_assoc, hid,
      List.singleton_append]
    exact List.perm_middle
  refine ⟨hperm.nodup_iff.mpr (List.nodup_cons.mpr ⟨hfresh, hn⟩), fun i hi => ?_, idAfter_range _, ?_, hr⟩
  · rcases List.mem_cons.mp (hperm.subset hi) with rfl | hi
    · exact ⟨h1, h2⟩
    · exact hrange i hi
  · simpa [appendPanel] using hl

theorem arrive_id (r : Panel) : r.arrive.id = r.id := by
  unfold Panel.arrive
  split <;> rfl

theorem idsKept_nipArrival (s : State) : IdsKept s (nipArrival s).1 :=
  (IdsKept.mapPanels s _ arrive_id).trans (.of_eq rfl rfl rfl)

theorem idsKept_nipMoved {s t : State} (h : NipMoved s t) : IdsKept s t := by
  obtain ⟨m, v, u, x, r, hv, -, hu, rfl⟩ := h
  obtain ⟨w, hw, hq⟩ := quiet_nipChanged m u
  exact hv.ids.trans <| (IdsKept.of_view_xNip (hw.trans hu)).trans <| (idsKept_nipArrival w).trans hq.ids

theorem idsKept_closeOpenTrail (m : MachineRecord) {f : Panel → Panel} (hf : ∀ r, (f r).id = r.id) (s : State) :
    IdsKept s (closeOpenTrail m f s) :=
  (IdsKept.mapPanels s _ fun r => (hf _).trans (closeTrail_fields r _).2.2.2).trans (quiet_closeOpenTrail m f s).ids

theorem idsKept_start {s : State} {pre post : List Panel} {r a : Panel} (hq : s.queue = pre ++ r :: post)
    (ha : a.id = r.id) : IdsKept s { s with queue := pre ++ a :: post } where
  ids := by simp only [idsInUse, hq, List.map_append, List.map_cons, ha]; exact .refl _
  counter := rfl
  queue := by simp [hq]
  records := id

theorem idsDistinct_startNext (held : Bool) {s : State} (hs : IdsDistinct s) : IdsDistinct (startNext held s).1 := by
  rcases startNext_cases held s with ⟨pre, r, post, hq, -, -, h⟩ | ⟨-, hl, h⟩ | ⟨-, -, h⟩ <;> rw [h]
  · exact idsDistinct_of_ids (idsKept_start hq (start_fields r _ held).1) hs
  · exact idsDistinct_of_ids (.of_view (view_raise _ _)) (idsDistinct_appendPanel rfl hl hs)
  · exact hs

/-- A line clear drops the printed records and keeps the ids of the others (R23, R50). -/
theorem idsKept_clearLine (m : MachineRecord) (span : Nat) (s : State) : IdsKept s (clearLine m span s) := by
  obtain ⟨hq, hc, hr, -⟩ := QueueView.mk.injEq .. ▸ view_clearLine m span s
  have hids : ((s.queue.filter (·.unprinted)).map Panel.dueAfterClear).map (·.id) =
      (s.queue.filter (·.unprinted)).map (·.id) := by
    rw [List.map_map]
    exact List.map_congr_left fun r _ => dueAfterClear_id r
  refine ⟨?_, hc, ?_, fun h => hr ▸ h⟩
  · rw [idsInUse, hq, hr, hids]
    exact ((List.filter_sublist.map _).append_right _).subperm
  · rw [hq, List.length_map]
    exact List.length_filter_le _ _

theorem idsDistinct_kept : KeptByWeb IdsDistinct where
  quiet h := idsDistinct_of_ids h.ids
  reset _ _ := ⟨.nil, nofun, ⟨le_rfl, show 1 ≤ 65535 by decide⟩, Nat.zero_le _, Nat.zero_le _⟩
  announce jobId slot length width coverage s hs := by
    rcases announceOwner_st jobId slot length width coverage s with h | ⟨r, -, hid, hl, h⟩
    · rwa [h]
    · exact idsDistinct_of_ids (.of_view h) (idsDistinct_appendPanel hid hl hs)
  printAbort id s hs := by
    rcases printAbortOwner_st id s with h | ⟨m, h⟩
    · rwa [h]
    · exact idsDistinct_of_ids ((idsKept_closeOpenTrail m (f := (·.flag .scrapped)) (fun _ => rfl) s).trans (.of_view h)) hs
  print d s hs := by
    rcases printCount_moves d s with h | ⟨-, x, r, h, -⟩
    · rwa [h]
    · exact idsDistinct_of_ids (.of_view_xPrint h) hs
  nip d s hs := by
    rcases nipCount_moves d s with h | ⟨-, ⟨x, r, -, h⟩ | h⟩
    · rwa [h]
    · exact idsDistinct_of_ids (.of_view_xNip h) hs
    · exact idsDistinct_of_ids (idsKept_nipMoved h) hs
  rising m s _ _ hs :=
    idsDistinct_of_ids ((idsKept_nipArrival _).trans (quiet_takeRisingEdge m s).ids) <|
      idsDistinct_startNext _ <| idsDistinct_of_ids (idsKept_closeOpenTrail m (f := (·.flag .gateFault)) (fun _ => rfl) s) hs
  falling m s hs :=
    idsDistinct_of_ids
      ((idsKept_closeOpenTrail m (compareLength_id m) s).trans (.of_view (view_takeFallingEdge m s))) hs
  seen m id stamp e s _ := idsDistinct_of_ids (idsKept_nipMoved (markSeen_moves m id stamp e s))
  result k s _ _ _ := idsDistinct_of_ids <| (IdsKept.mapPanels s _ (f := (·.writeCorrection s.now (computeCorrection k.snapshot)
    (computeFlags k.snapshot))) fun _ => rfl).trans (.of_view rfl)
  clear m span s _ := idsDistinct_of_ids (idsKept_clearLine m span s)

/-- Settles O56: no step takes an id but an appended record, and that takes the next free one. -/
theorem everyStepKeepsIdsDistinct : Obligations.EveryStepKeepsIdsDistinct :=
  idsDistinct_kept.everyStep

end Sys2Proof.Proofs
end

