-- ==== Sys2Proof/Proofs/ResetState.lean ====
section
/-!
O60: the state after reset has what every step keeps.
-/
namespace Sys2Proof.Proofs

open Sys2Proof.Machine Sys2Proof.Safety

/-- After reset no cache entry is valid (R72). -/
theorem reset_entries (i : Fin 8) : State.reset.cache.entries[i] = none := by
  simp [State.reset]

theorem reset_webOrdered : WebOrdered State.reset := ⟨nofun, .nil⟩

theorem reset_idsDistinct : IdsDistinct State.reset :=
  ⟨.nil, nofun, ⟨le_rfl, show 1 ≤ 65535 by decide⟩, Nat.zero_le _, Nat.zero_le _⟩

theorem reset_quietBeforeRunning : QuietBeforeRunning State.reset :=
  fun _ => ⟨rfl, rfl, rfl, rfl, reset_entries⟩

theorem reset_cacheCoherent : CacheCoherent State.reset := by
  have empty : ∀ {i : Fin 8} {e : CacheEntry}, State.reset.cache.entries[i] ≠ some e := fun h => by
    rw [reset_entries] at h
    cases h
  exact ⟨fun _ _ h => absurd h empty, fun _ _ _ _ h => absurd h empty,
    ⟨fun _ _ h => absurd h empty, nofun, nofun⟩, ⟨nofun, nofun⟩, reset_quietBeforeRunning⟩

/-- After reset every station is an observer (R184). -/
theorem reset_role (p : PortId) : State.reset.ports[p].role = .observer := by
  simp [State.reset, Port.reset]

theorem reset_oneStoreRequest : OneStoreRequest State.reset := by
  refine ⟨fun p q hp => ?_, nofun, nofun⟩
  rw [reset_role] at hp
  cases hp

theorem reset_trimInRange : TrimInRange State.reset := ⟨by simp [State.reset], by simp [State.reset]⟩

theorem reset_biasInRange : BiasInRange State.reset := ⟨by simp [State.reset], by simp [State.reset]⟩

theorem reset_readyRecordsCoherent : ReadyRecordsCoherent State.reset :=
  ⟨nofun, reset_oneStoreRequest, ⟨nofun, nofun, nofun, fun _ => rfl⟩, reset_idsDistinct, reset_cacheCoherent⟩

/-- Settles O60: nothing is queued, valid, on the web or in flight after reset. -/
theorem resetHasWhatEveryStepKeeps : Obligations.ResetHasWhatEveryStepKeeps :=
  ⟨rfl, ⟨le_rfl, Nat.zero_le _⟩, reset_webOrdered, fun _ => ⟨rfl, rfl, rfl, rfl, nofun⟩,
    ⟨reset_webOrdered, nofun, .nil⟩, reset_idsDistinct, rfl, rfl, ⟨fun _ => rfl, nofun⟩, reset_trimInRange,
    reset_biasInRange, reset_cacheCoherent, nofun, reset_readyRecordsCoherent⟩

end Sys2Proof.Proofs
end

