-- ==== Sys2Proof/Proofs/DeviceReset.lean ====
section
/-!
O3: what a device reset leaves in every block, and how its sources join.
-/
namespace Sys2Proof.Proofs

open Sys2Proof.Machine Sys2Proof.Safety

/-- The three commands that begin a device reset, each with its cause (R185). -/
theorem exec_resetSource {c : Instr} {cause : ResetCause}
    (h : (c = .powerOnReset ∧ cause = .powerOn) ∨ (c = .supplyMonitorReset ∧ cause = .supply) ∨
      (c = .resetnReset ∧ cause = .pin)) (s : State) : exec c s = .next (deviceReset cause s) := by
  obtain ⟨rfl, rfl⟩ | ⟨rfl, rfl⟩ | ⟨rfl, rfl⟩ := h <;> rfl

/-- Reset keeps the array where the operation that it cuts off only reads. -/
theorem arrayAfterReset_of_reading {s : State} (h : ∀ op, s.store.holder = some op → op.code = 0) :
    arrayAfterReset s = s.store.array := by
  unfold arrayAfterReset
  split
  case h_6 => rfl
  all_goals
    rename_i heq
    exact absurd (h _ heq) (by simp [StoreOp.code])

/-- The rank of the causes is the one R185 gives. -/
theorem causeTogether_eq (a b : ResetCause) :
    causeTogether a b =
      if a = .powerOn ∨ b = .powerOn then .powerOn else if a = .supply ∨ b = .supply then .supply else .pin := by
  cases a <;> cases b <;> rfl

theorem beginReset_port (cause : ResetCause) (s : State) (q : PortId) : (beginReset cause s).ports[q] = Port.reset := by
  simp [beginReset, State.reset]

theorem beginReset_attn (cause : ResetCause) (s : State) (q : PortId) : attnAsserted (beginReset cause s) q = false := by
  rw [attnAsserted, beginReset_port]
  rfl

theorem beginReset_entry (cause : ResetCause) (s : State) (i : Fin 8) : (beginReset cause s).cache.entries[i] = none :=
  reset_entries i

theorem beginReset_dirEntry (cause : ResetCause) (s : State) (slot : SlotId) :
    dirEntry (beginReset cause s) slot = DirEntry.reset := by
  simp [dirEntry, beginReset, State.reset]

/-- Settles O3: a live part takes the reset state, a held one at most a cause that ranks before its own. -/
theorem deviceResetSetsEveryBlock : Obligations.DeviceResetSetsEveryBlock := by
  refine ⟨fun s c cause zone hlive hzone hc => ⟨beginReset cause s, ?_, rfl, rfl, rfl, rfl, beginReset_attn cause s, rfl, rfl,
    beginReset_port cause s, rfl, rfl, rfl, rfl, rfl, rfl, rfl, rfl, beginReset_entry cause s, rfl, ⟨rfl, rfl, rfl⟩, rfl,
    beginReset_dirEntry cause s, rfl, hzone ▸ rfl, rfl, rfl, arrayAfterReset_of_reading⟩,
    fun s c source hlive hc => ⟨_, exec_resetSource hc s, fun hb => ?_, fun hb => ?_⟩⟩
  · rw [exec_resetSource hc, deviceReset, if_pos hlive]
  · simp [deviceReset, hlive, hb, causeTogether_eq]
  · simp [deviceReset, hlive, hb]

end Sys2Proof.Proofs
end

