-- ==== Sys2Proof/Proofs/Requests.lean ====
section
/-!
A request that is taken and answered in its event: what it leaves of its owner's state, and its port.
-/
namespace Sys2Proof.Proofs

open Sys2Proof.Machine Sys2Proof.Safety

/-! ## The ports under each update -/

theorem updatePort_port (s : State) (p : PortId) (f : Port → Port) (q : PortId) :
    (s.updatePort p f).ports[q] = if q = p then f s.ports[q] else s.ports[q] := by
  by_cases h : q = p
  · subst h
    simp
  · have hv : ¬ p.val = q.val := fun hv => h (Fin.ext hv.symm)
    simp [h, hv]

theorem raise_port (s : State) (k : Attn) (q : PortId) :
    (s.raise k).ports[q] = { s.ports[q] with pending := s.ports[q].pending ||| k.bit } := by
  simp

theorem portsRaise_refl (s : State) : PortsRaise s s 0 := fun q => by simp

theorem portsRaise_of_ports {s t : State} (h : t.ports = s.ports) : PortsRaise s t 0 := fun q => by rw [h]; simp

theorem portsRaise_trans {s t u : State} {a b : AttnSet} (h : PortsRaise s t a) (g : PortsRaise t u b) :
    PortsRaise s u (a ||| b) := fun q => by
  rw [g q, h q]
  simp only [BitVec.or_assoc]

theorem portsRaise_raise (s : State) (k : Attn) : PortsRaise s (s.raise k) k.bit := raise_port s k

theorem portsRaise_raiseIf (s : State) (c : Bool) (k : Attn) : PortsRaise s (s.raiseIf c k) (if c then k.bit else 0) := by
  cases c
  · exact portsRaise_refl s
  · exact portsRaise_raise s k

/-! ## The end of an event without a cause (R170) -/

theorem closeEvent_nil (b s : State) :
    closeEvent b s [] = s.raiseIf (holdAsserted b != holdAsserted s) .holdChanged := rfl

theorem closeEvent_nil_frame (b s : State) : closeEvent b s [] = { s with ports := (closeEvent b s []).ports } := by
  rw [closeEvent_nil]
  cases holdAsserted b != holdAsserted s <;> rfl

theorem portsRaise_closeEvent_nil (b s : State) : PortsRaise s (closeEvent b s []) (holdKind b s) := by
  rw [closeEvent_nil, holdKind]
  have h := portsRaise_raiseIf s (holdAsserted b != holdAsserted s) .holdChanged
  by_cases hb : holdAsserted b = holdAsserted s
  · simpa [hb] using h
  · simpa [hb] using h

/-- HOLDn follows line control alone. -/
theorem holdKind_of_line {s t u : State} (h : t.line = u.line) : holdKind s t = holdKind s u := by
  simp [holdKind, holdAsserted, h]

theorem holdKind_self {s t : State} (h : t.line = s.line) : holdKind s t = 0 := by
  simp [holdKind, holdAsserted, h]

/-! ## Requests (R190 to R193) -/

theorem portFree_of_serves {s : State} {p : PortId} {allowed : Role → Bool} (h : Serves s p allowed) :
    portFree s p = true := by
  obtain ⟨hr, he, -⟩ := h
  rw [portFree, hr, he]
  rfl

/-- A reply with a frame, placed on the accepting port of a state that has raised kinds, is that port's answer. -/
theorem portsAnswer_answer {s u : State} {p : PortId} {code : Byte} {reply : Reply} {frame : List Byte} {raised : AttnSet}
    (hf : reply.frame code = some frame) (hu : PortsRaise (s.updatePort p Port.accept) u raised) :
    PortsAnswer s (u.answer p code reply) p frame raised := by
  intro q
  rw [State.answer, updatePort_port, hu q, updatePort_port]
  by_cases h : q = p
  · simp [h, Port.place, hf, Port.accept]
  · simp [h]

theorem portsAnswer_raise {s t u : State} {p : PortId} {frame : List Byte} {a b : AttnSet} (h : PortsAnswer s t p frame a)
    (g : PortsRaise t u b) : PortsAnswer s u p frame (a ||| b) := fun q => by
  rw [g q, h q]
  simp only [BitVec.or_assoc]

/-- A request that is taken and answered without a cause: its owner's state but for the ports, the port's answer, and the kinds
its owner raised with HOLD_CHANGED. -/
theorem takeRequest_answer {s t u : State} {p : PortId} {code : Byte} {allowed : Role → Bool} {owner : State → Served}
    {reply : Reply} {frame : List Byte} {raised : AttnSet} (hs : Serves s p allowed)
    (ht : t = takeRequest p code allowed owner s) (ho : owner (s.updatePort p Port.accept) = Served.of u reply)
    (hf : reply.frame code = some frame) (hu : PortsRaise (s.updatePort p Port.accept) u raised) :
    t = { u with ports := t.ports } ∧ PortsAnswer s t p frame (raised ||| holdKind s t) := by
  rw [takeRequest_served code owner (portFree_of_serves hs) hs.2.2, ho] at ht
  change t = closeEvent s (u.answer p code reply) [] at ht
  subst ht
  have frameOf := closeEvent_nil_frame s (u.answer p code reply)
  have line : (closeEvent s (u.answer p code reply) []).line = (u.answer p code reply).line := by rw [frameOf]
  refine ⟨frameOf, ?_⟩
  rw [holdKind_of_line line]
  exact portsAnswer_raise (portsAnswer_answer hf hu) (portsRaise_closeEvent_nil _ _)

/-- A request whose owner leaves line control alone raises what the owner raises. -/
theorem takeRequest_raised {s t u : State} {p : PortId} {code : Byte} {allowed : Role → Bool} {owner : State → Served}
    {reply : Reply} {frame : List Byte} {raised : AttnSet} (hs : Serves s p allowed)
    (ht : t = takeRequest p code allowed owner s) (ho : owner (s.updatePort p Port.accept) = Served.of u reply)
    (hf : reply.frame code = some frame) (hu : PortsRaise (s.updatePort p Port.accept) u raised) (hl : u.line = s.line) :
    t = { u with ports := t.ports } ∧ PortsAnswer s t p frame raised := by
  obtain ⟨h1, h2⟩ := takeRequest_answer hs ht ho hf hu
  have line : t.line = s.line := by rw [h1]; exact hl
  exact ⟨h1, fun q => by rw [h2 q, holdKind_self line, show raised ||| (0 : AttnSet) = raised from BitVec.or_zero]⟩

/-- A request whose owner raises no kind. -/
theorem takeRequest_silent {s t u : State} {p : PortId} {code : Byte} {allowed : Role → Bool} {owner : State → Served}
    {reply : Reply} {frame : List Byte} (hs : Serves s p allowed) (ht : t = takeRequest p code allowed owner s)
    (ho : owner (s.updatePort p Port.accept) = Served.of u reply) (hf : reply.frame code = some frame)
    (hu : u.ports = (s.updatePort p Port.accept).ports) :
    t = { u with ports := t.ports } ∧ PortsAnswer s t p frame (holdKind s t) := by
  obtain ⟨h1, h2⟩ := takeRequest_answer hs ht ho hf (portsRaise_of_ports hu)
  exact ⟨h1, fun q => by rw [h2 q, show (0 : AttnSet) ||| holdKind s t = holdKind s t from BitVec.zero_or]⟩

/-- A request that is answered and changes nothing else. -/
theorem takeRequest_unchanged {s t : State} {p : PortId} {code : Byte} {allowed : Role → Bool} {owner : State → Served}
    {reply : Reply} {frame : List Byte} (hs : Serves s p allowed) (ht : t = takeRequest p code allowed owner s)
    (ho : owner (s.updatePort p Port.accept) = Served.of (s.updatePort p Port.accept) reply)
    (hf : reply.frame code = some frame) : t = { s with ports := t.ports } ∧ PortsAnswer s t p frame 0 :=
  takeRequest_raised (u := s.updatePort p Port.accept) hs ht ho hf (portsRaise_refl _) rfl

/-- A request that is refused changes nothing but the port. -/
theorem takeRequest_refused {s t : State} {p : PortId} {code : Byte} {allowed : Role → Bool} {owner : State → Served}
    {reason : Reason} (hs : Serves s p allowed) (ht : t = takeRequest p code allowed owner s)
    (ho : owner (s.updatePort p Port.accept) = Served.refuse (s.updatePort p Port.accept) reason) :
    t = { s with ports := t.ports } ∧ PortsAnswer s t p (refusedFrame code reason) 0 :=
  takeRequest_unchanged hs ht ho rfl

end Sys2Proof.Proofs
end

