-- ==== Sys2Proof/Proofs/Reports.lean ====
section
/-!
O8: the reports of the state, field by field.
-/
namespace Sys2Proof.Proofs

open Sys2Proof.Machine Sys2Proof.Safety

/-! ## Bytes (R194) -/

theorem leBytes_zero (k : Nat) : leBytes k 0 = List.replicate k 0 := by
  refine List.ext_getElem (by simp [leBytes]) fun i _ _ => ?_
  simp [leBytes, byte]

theorem leSigned_zero (k : Nat) : leSigned k 0 = List.replicate k 0 := by
  simp [leSigned, leBytes_zero]

theorem timeField_of_le {t : Nat} (h : t ≤ 4294967295) : timeField t = leBytes 4 t := by
  rw [timeField, if_pos (by simpa [maxU32] using h)]

theorem endField_of_le {x : Nat} (h : x ≤ 4294967295) : endField x = leBytes 4 x := by
  rw [endField, if_pos (by simpa [maxU32] using h)]

theorem leOption_some (k n : Nat) : leOption k (some n) = leBytes k n := rfl

theorem leOption_none (k : Nat) : leOption k none = List.replicate k 0 := leBytes_zero k

theorem indication_true : indication true = [1] := rfl

theorem indication_false : indication false = List.replicate 1 0 := rfl

/-- Fields that are 0 join. -/
theorem zeros_append (m n : Nat) (l : List Byte) :
    List.replicate m 0 ++ (List.replicate n 0 ++ l) = List.replicate (m + n) 0 ++ l := by
  rw [← List.append_assoc, List.replicate_append_replicate]

/-! ## The layouts -/

theorem summaryPayload_eq (s : State) :
    summaryPayload s =
      leBytes 2 ((s.queue.head?.map (·.id)).isSome.toNat + 2 * (s.queue.getLast?.map (·.id)).isSome.toNat +
          4 * (openRecord s).isSome.toNat + 8 * (firstUnprinted s).isSome.toNat) ++
        leBytes 1 s.queue.length ++
        leBytes 1 (s.queue.filter fun r => decide (r.state = .queued)).length ++
        leBytes 1 (s.queue.filter fun r => r.isFetched).length ++
        leBytes 1 (s.queue.filter fun r => r.isReady && !r.isFetched).length ++
        leBytes 1 (s.queue.filter fun r => decide (r.state = .printing)).length ++
        leBytes 1 (s.queue.filter fun r => decide (r.state = .inTransit)).length ++
        leBytes 1 (s.queue.filter fun r => decide (r.state = .transferring)).length ++
        leBytes 2 ((s.queue.head?.map (·.id)).getD 0) ++ leBytes 2 ((s.queue.getLast?.map (·.id)).getD 0) ++
        leBytes 2 (((openRecord s).map (·.id)).getD 0) ++ leBytes 2 (((firstUnprinted s).map (·.id)).getD 0) ++
        leBytes 2 s.idCounter := by
  have present (a b c d : Bool) :
      presence 2 [a, b, c, d] = leBytes 2 (a.toNat + 2 * b.toNat + 4 * c.toNat + 8 * d.toNat) := by
    simp only [presence, List.foldr_cons, List.foldr_nil]
    congr 1
    omega
  simp only [summaryPayload, present, countPanels, leOption, Option.isSome_map]
  rfl

theorem stopRecordPayload_some {s : State} {r : StopRecord} (h : s.line.stop = some r) :
    stopRecordPayload s =
      leBytes 2 (1 + 2 * r.interrupted.isSome.toNat + 4 * r.lastFurther.isSome.toNat) ++ leBytes 1 s.line.state.code ++
        leBytes 1 r.firstCause.code ++ leBytes 4 r.xPrint ++ leBytes 4 r.xNip ++ leBytes 2 (r.interrupted.getD 0) ++
        indication r.interrupted.isSome ++ leBytes 1 r.transferring ++ leBytes 1 r.furtherCount ++
        leBytes 1 ((r.lastFurther.map (·.code)).getD 0) ++ indication r.released := by
  have present (b c : Bool) : presence 2 [true, b, c] = leBytes 2 (1 + 2 * b.toNat + 4 * c.toNat) := by
    simp only [presence, List.foldr_cons, List.foldr_nil, Bool.toNat_true]
    congr 1
    omega
  simp [stopRecordPayload, stopRecordFields, h, present, leOption]

theorem stopRecordPayload_none {s : State} (h : s.line.stop = none) :
    stopRecordPayload s = leBytes 2 0 ++ leBytes 1 s.line.state.code ++ List.replicate 16 0 := by
  simp [stopRecordPayload, stopRecordFields, h, presence, leOption, leBytes_zero, indication, byte, List.replicate]

theorem measurementsPayload_hot {s : State} {m : MachineRecord} {a : AcceptedMark} {u : UnmatchedMark} {since : Nat}
    (hm : s.line.active = some m) (ha : s.mark.accepted = some a) (hb : a.blankingEnd ≤ 4294967295)
    (hu : s.mark.unmatched = some u) (hhot : tableStaleSince s.dose.zones = some since)
    (hnow : s.now ≤ since + 4294967295) (htight : tableStaleSince s.tension.zones = none) :
    measurementsPayload s = leBytes 2 127 ++
      leBytes 1 s.line.state.code ++ leBytes 4 s.pos.xPrint ++ leBytes 4 s.pos.xNip ++
      leBytes 4 (s.pos.xPrint - s.pos.xNip) ++
      leBytes 4 s.pos.vPrint.magnitude ++ indication s.pos.vPrint.reverse ++
      leBytes 4 s.pos.vCal.magnitude ++ indication s.pos.vCal.reverse ++
      leBytes 4 s.pos.vFab.magnitude ++ indication s.pos.vFab.reverse ++ leBytes 4 s.pos.slip ++
      leBytes 2 s.pos.errPrint ++ leBytes 2 s.pos.errCal ++ leBytes 2 s.pos.errFab ++
      leBytes 1 s.mark.streak ++ leBytes 4 a.blankingEnd ++ leBytes 2 u.code ++ leBytes 4 u.stamp ++
      leBytes 1 s.dose.zones.length ++
      s.dose.zones.flatMap (fun z => leBytes 2 z.value ++ leBytes 4 z.age ++ indication (!z.isFresh)) ++
      leSigned 2 s.dose.trim ++ leBytes 4 s.dose.ticks ++
      s.tension.zones.flatMap (fun z => leBytes 2 z.value ++ leBytes 4 z.age ++ indication (!z.isFresh)) ++
      leBytes 2 s.tension.diameter ++
      [1] ++ leBytes 4 (s.now - since) ++ indication s.tension.lostTemperature ++
      [0, 0, 0, 0, 0] ++ indication s.tension.lostTension ++ leSigned 2 s.tension.bias := by
  have zone : zoneFields = fun z => leBytes 2 z.value ++ leBytes 4 z.age ++ indication (!z.isFresh) := rfl
  have present : presence 2 [true, true, true, true, true, true, true, false] = leBytes 2 127 := rfl
  have zeros : ([0, 0, 0, 0, 0] : List Byte) = List.replicate 5 0 := rfl
  have time : timeField (s.now - since) = leBytes 4 (s.now - since) := timeField_of_le (by omega)
  unfold measurementsPayload
  extract_lets active blanking hot tight
  have hactive : active = true := by simp only [active, hm, Option.isSome_some]
  have hblanking : blanking = some a.blankingEnd := by simp only [blanking, ha, Option.map_some]
  have hhot : hot = some since := hhot
  have htight : tight = none := htight
  clear_value active blanking hot tight
  subst hactive hblanking hhot htight
  rw [zeros]
  simp only [hu, Option.map_some, Option.isSome_some, Option.isSome_none, present, speedFields, reduceIte, Option.getD_some,
    endField_of_le hb, leOption_some, zone, tableFields, time, indication_true, indication_false, leBytes_zero, zeros_append,
    Nat.reduceAdd, State.fill, List.append_assoc]

theorem panelPayload_ready {now : Nat} {r : Panel} {a : Announced} {c : Correction} {fetched : Bool} {time : Nat} {due : Bool}
    (hn : r.normal = some a) (hc : r.correction = some c) (hst : r.state = .ready fetched time due)
    (hnow : now ≤ time + 4294967295) (hl : r.lead = none) (ht : r.trail = none) (hm : r.mark = none) (hp : r.probes = []) :
    panelPayload now r = leBytes 2 7 ++
      leBytes 2 r.id ++ [1, 0] ++ leBytes 4 r.flags.toNat ++
      leBytes 4 a.jobId.toNat ++ leBytes 1 a.slot.val ++ leBytes 2 a.generation ++ leBytes 4 a.length ++
      leBytes 2 a.width ++ leBytes 1 a.coverage.length ++ a.coverage.flatMap (leBytes 1) ++
      leBytes 2 c.qPred ++ leBytes 4 c.dwell ++ leBytes 2 c.tPred ++ leBytes 2 c.targetTension ++
      leBytes 4 c.along ++ leBytes 4 c.cross ++ leBytes 2 c.generation ++ leBytes 4 c.copies.dRef ++
      leBytes 2 c.copies.band ++ leBytes 2 c.copies.baseTension ++ leBytes 2 c.copies.paperTension ++
      leBytes 1 c.copies.taper ++ leBytes 1 c.gains.length ++ c.gains.flatMap (leBytes 2) ++
      indication fetched ++ leBytes 4 (now - time) ++ List.replicate 14 0 := by
  have present : presence 2 [true, true, true, false, false, false, false] = leBytes 2 7 := rfl
  have state : leBytes 1 r.state.code ++ indication r.normal.isNone = [1, 0] := by
    rw [hst, hn]
    exact show leBytes 1 1 ++ indication false = [1, 0] from rfl
  have time : timeField (now - time) = leBytes 4 (now - time) := timeField_of_le (by omega)
  have ready : r.isReady = true := by rw [Panel.isReady, hst]
  rw [panelPayload, List.append_assoc _ (leBytes 1 r.state.code), state, ready, hn, hc, hst, hl, ht, hm, hp]
  simp only [normalFields, correctionFields, readyFields, markFields, Option.map_some, Option.map_none, Option.isSome_some,
    Option.isSome_none, List.isEmpty_nil, Bool.not_true, present, leOption_some, leOption_none, Option.getD_some, time,
    List.length_nil, List.flatMap_nil, List.append_nil, leBytes_zero, leSigned_zero, List.replicate_append_replicate,
    Nat.reduceAdd, List.append_assoc]

theorem panelPayload_transferring {now : Nat} {r : Panel} {a : Announced} {lead trail : Nat} {e : Int}
    (hn : r.normal = some a) (hc : r.correction = none) (hst : r.state = .transferring) (hl : r.lead = some lead)
    (ht : r.trail = some trail) (hm : r.mark = some (.seen e)) (hp : r.probes ≠ []) :
    panelPayload now r = leBytes 2 121 ++
      leBytes 2 r.id ++ [4, 0] ++ leBytes 4 r.flags.toNat ++
      leBytes 4 a.jobId.toNat ++ leBytes 1 a.slot.val ++ leBytes 2 a.generation ++ leBytes 4 a.length ++
      leBytes 2 a.width ++ leBytes 1 a.coverage.length ++ a.coverage.flatMap (leBytes 1) ++
      List.replicate 37 0 ++ leBytes 4 lead ++ leBytes 4 trail ++ [1] ++ leSigned 4 e ++
      leBytes 1 r.probes.length ++
      r.probes.flatMap (fun q => leBytes 4 q.accumulator ++ indication q.inArc) := by
  have probe : probeFields = fun q => leBytes 4 q.accumulator ++ indication q.inArc := rfl
  have present : presence 2 [true, false, false, true, true, true, true] = leBytes 2 121 := rfl
  have state : leBytes 1 r.state.code ++ indication r.normal.isNone = [4, 0] := by
    rw [hst, hn]
    exact show leBytes 1 4 ++ indication false = [4, 0] from rfl
  have mark : leBytes 1 (MarkState.seen e).code = [1] := show leBytes 1 1 = [1] from rfl
  have ready : r.isReady = false := by rw [Panel.isReady, hst]
  have probes : (!r.probes.isEmpty) = true := by simpa using hp
  rw [panelPayload, List.append_assoc _ (leBytes 1 r.state.code), state, ready, probes, hn, hc, hst, hl, ht, hm]
  simp only [normalFields, correctionFields, readyFields, markFields, Option.map_some, Option.map_none, Option.isSome_some,
    Option.isSome_none, present, leOption_some, leOption_none, Option.getD_some, Option.getD_none, mark, probe,
    List.length_nil, List.flatMap_nil, List.append_nil, leBytes_zero, zeros_append, Nat.reduceAdd, List.append_assoc]

theorem statusPayload_quiet {s : State} {m : MachineRecord} {r : StopRecord} {th : Nat} (p : PortId)
    (hm : s.line.active = some m) (hr : s.line.stop = some r) (hh : s.store.holder = none)
    (hf : s.store.fillWaiting = none) (hq : s.store.requestWaiting = none) (he : s.engine = none)
    (ht : s.pace.threshold = some th) (hc : s.pace.source = none) (ha : s.dose.advice = none) (hg : governing s = none) :
    statusPayload p s = leBytes 2 35 ++
      leBytes 1 p.val ++ s.ports.toList.flatMap (fun q => leBytes 1 q.role.code) ++ indication s.resetUnit.conflict ++
      [s.resetUnit.vacant] ++ indication s.resetUnit.maint ++ leBytes 1 s.resetUnit.cause.code ++
      leBytes 2 s.ports[p].pending.toNat ++ leBytes 2 s.ports[p].mask.toNat ++
      leBytes 1 s.line.state.code ++
      leBytes 1 (s.line.hold.fillHigh.toNat + 2 * s.line.hold.unready.toNat + 4 * s.line.hold.stale.toNat +
        8 * s.line.hold.requested.toNat) ++
      indication (holdAsserted s) ++ indication (stopoutAsserted s) ++ indication (!s.inputs.breakn.level) ++
      indication (!s.inputs.stopinn.level) ++ leBytes 1 r.firstCause.code ++ indication r.released ++
      [1] ++ m.name ++ indication s.line.recordPending ++
      [0, 0, 0, 0] ++
      s.store.dir.toList.flatMap (fun d =>
        leBytes 2 (d.channels.isSome.toNat + 2 * d.name.isSome.toNat) ++ leBytes 1 d.state.code ++
          leBytes 2 d.generation ++ leBytes 1 (d.channels.getD 0) ++ d.name.getD (List.replicate 16 0)) ++
      [0, 0, 0] ++ leBytes 1 (s.cache.entries.toList.filter (·.isSome)).length ++ [0, 0] ++
      indication s.line.hold.unready ++
      indication s.onLine ++ leBytes 4 th ++ [0, 0, 0, 0, 0, 0] ++ leBytes 4 s.pace.accumulator ++
      leBytes 4 s.pace.total ++ leBytes 2 s.pace.panel ++ leBytes 2 s.pace.lost ++
      leSigned 2 s.dose.trim ++ List.replicate 17 0 ++ leSigned 2 s.tension.bias ++ [0, 0] ++
      indication s.line.hold.stale := by
  have slot : slotEntry = fun d => leBytes 2 (d.channels.isSome.toNat + 2 * d.name.isSome.toNat) ++
      leBytes 1 d.state.code ++ leBytes 2 d.generation ++ leBytes 1 (d.channels.getD 0) ++
      d.name.getD (List.replicate 16 0) := rfl
  have hold : s.line.hold.byte = s.line.hold.fillHigh.toNat + 2 * s.line.hold.unready.toNat +
      4 * s.line.hold.stale.toNat + 8 * s.line.hold.requested.toNat := rfl
  have fill : fillInFlight s = none := by simp [fillInFlight, hh, hf]
  have waiting : waitingClients s = [] := by simp [waitingClients, hf, hq]
  have present : presence 2 [true, true, false, false, false, true, false, false, false] = leBytes 2 35 := rfl
  have zeros2 : ([0, 0] : List Byte) = List.replicate 2 0 := rfl
  have zeros3 : ([0, 0, 0] : List Byte) = List.replicate 3 0 := rfl
  have zeros4 : ([0, 0, 0, 0] : List Byte) = List.replicate 4 0 := rfl
  have zeros6 : ([0, 0, 0, 0, 0, 0] : List Byte) = List.replicate 6 0 := rfl
  rw [zeros6, zeros4, zeros3, zeros2]
  simp only [statusPayload, portsGroup, lineGroup, recordGroup, storeGroup, engineGroup, paceGroup, doseTensionGroup, waiting,
    advicePayload, fillFields, hm, hr, hh, he, ht, hc, ha, hg, fill, slot, hold, Option.map_some, Option.map_none,
    Option.isSome_some, Option.isSome_none, Option.getD_some, present, leOption_some, leOption_none, indication_true,
    indication_false, List.length_nil, List.nil_append, leBytes_zero, zeros_append,
    Nat.reduceAdd, List.append_assoc]

/-! ## The reports -/

/-- An accepting port keeps its role. -/
theorem roles_accept (s : State) (p : PortId) :
    (s.updatePort p Port.accept).ports.toList.map (·.role) = s.ports.toList.map (·.role) := by
  rw [State.updatePort_ports, Vector.toList_set, List.map_set]
  exact List.ext_getElem (by simp) fun i _ _ => by
    by_cases h : p.val = i
    · subst h; simp [Port.accept]
    · simp [h]

/-- The status an accepting port is answered is that of the state before. -/
theorem statusPayload_accept (p : PortId) (s : State) :
    statusPayload p (s.updatePort p Port.accept) = statusPayload p s := by
  have port : (s.updatePort p Port.accept).ports[p] = s.ports[p].accept := by rw [updatePort_port, if_pos rfl]
  have codes (l : List Port) : l.flatMap (fun q => leBytes 1 q.role.code) =
      (l.map (·.role)).flatMap fun r => leBytes 1 r.code := by
    rw [List.flatMap_map]
  have ports : portsGroup p (s.updatePort p Port.accept) = portsGroup p s := by
    rw [portsGroup, portsGroup, port, codes, codes, roles_accept]
    rfl
  rw [statusPayload, statusPayload, ports]
  rfl

theorem findPanel_none_of_forall {s : State} {id : Nat} (h : ∀ r ∈ s.queue, r.id ≠ id) : findPanel s id = none :=
  List.find?_eq_none.mpr fun r hr => by simpa using h r hr

theorem readPanelOwner_some {s : State} {p : PortId} {id : BitVec 16} {r : Panel} (h : findPanel s id.toNat = some r) :
    readPanelOwner id (s.updatePort p Port.accept) =
      Served.of (s.updatePort p Port.accept) (.done (panelPayload s.now r)) := by
  rw [readPanelOwner, show findPanel (s.updatePort p Port.accept) id.toNat = some r from h]
  rfl

theorem readPanelOwner_none {s : State} {p : PortId} {id : BitVec 16} (h : findPanel s id.toNat = none) :
    readPanelOwner id (s.updatePort p Port.accept) = Served.refuse (s.updatePort p Port.accept) .noSuchPanel := by
  rw [readPanelOwner, show findPanel (s.updatePort p Port.accept) id.toNat = none from h]

/-- Settles O8: each report's owner leaves the state alone and answers its payload, whose layout is the one stated. -/
theorem reportsAnswerEveryRole : Obligations.ReportsAnswerEveryRole := by
  refine ⟨fun s p hs => ⟨?_, ?_, ?_, ?_⟩, fun s p id hs => ?_⟩
  · obtain ⟨hframe, hans⟩ := takeRequest_unchanged (owner := readStatusOwner p) (frame := doneFrame 0x10 (statusPayload p s))
      hs rfl rfl (by rw [statusPayload_accept]; rfl)
    exact ⟨_, _, rfl, hframe, hans, rfl, fun m r th hm hr hh hf hq he ht hc ha hg =>
      statusPayload_quiet p hm hr hh hf hq he ht hc ha hg⟩
  · obtain ⟨hframe, hans⟩ := takeRequest_unchanged (code := 0x12) (owner := readQueueSummaryOwner) hs rfl rfl rfl
    refine ⟨_, rfl, hframe, ?_⟩
    rw [← summaryPayload_eq]
    exact hans
  · obtain ⟨hframe, hans⟩ := takeRequest_unchanged (code := 0x13) (owner := readStopRecordOwner) hs rfl rfl rfl
    refine ⟨_, rfl, hframe, fun r hr => ?_, fun hn => ?_⟩
    · rw [← stopRecordPayload_some hr]
      exact hans
    · rw [← stopRecordPayload_none hn]
      exact hans
  · obtain ⟨hframe, hans⟩ := takeRequest_unchanged (code := 0x14) (owner := readMeasurementsOwner) hs rfl rfl rfl
    exact ⟨_, _, rfl, hframe, hans, rfl, fun m a u since hm ha hb hu hhot hnow htight =>
      measurementsPayload_hot hm ha hb hu hhot hnow htight⟩
  · cases hf : findPanel s id.toNat with
    | some r =>
      obtain ⟨hframe, hans⟩ := takeRequest_unchanged (code := 0x11) hs rfl (readPanelOwner_some hf) rfl
      refine ⟨_, rfl, hframe, fun r' hr => ?_, fun hn => ?_⟩
      · obtain rfl := Option.some.inj hr
        exact ⟨hans, fun a c fetched time due hn hc hst hnow hl ht hm hp => panelPayload_ready hn hc hst hnow hl ht hm hp,
          fun a lead trail e hn hc hst hl ht hm hp => panelPayload_transferring hn hc hst hl ht hm hp⟩
      · rw [findPanel_none_of_forall hn] at hf
        cases hf
    | none =>
      obtain ⟨hframe, hans⟩ := takeRequest_refused (code := 0x11) hs rfl (readPanelOwner_none hf)
      exact ⟨_, rfl, hframe, nofun, fun _ => hans⟩

end Sys2Proof.Proofs
end

