-- ==== Sys2Proof/Proofs/ProductionRequests.lean ====
section
/-!
O14 and O15: the requests of the production server on the panel queue.
-/
namespace Sys2Proof.Proofs

open Sys2Proof.Machine Sys2Proof.Safety

/-! ## A changed queue, with UNREADY after it and the scheduler re-evaluated (R80, R86) -/

/-- UNREADY's condition speaks of the active record and the queue alone. -/
theorem unreadyHolds_congr {s t : State} (hl : t.line.active = s.line.active) (hq : t.queue = s.queue) :
    unreadyHolds t = unreadyHolds s := by
  rw [unreadyHolds, unreadyHolds, hl, firstUnprinted, firstUnprinted, hq]

/-- Beside its ports, a state left by a synced and re-evaluated change differs from that change in UNREADY and in what the
scheduler may start. -/
theorem of_reevaluated {w t : State} (h : t = { reevaluate (syncUnready w) with ports := t.ports }) :
    t.queue = w.queue ∧ t.idCounter = w.idCounter ∧ t.line.hold.unready = unreadyHolds t ∧
      t = withScheduling
        { w with
          ports := t.ports
          line := { w.line with hold := { w.line.hold with unready := t.line.hold.unready } } } t := by
  obtain ⟨e, n, o, f, hr⟩ := reevaluate_changes (syncUnready w)
  rw [hr] at h
  have hq : t.queue = w.queue := by rw [h]; rfl
  have hl : t.line = { w.line with hold := { w.line.hold with unready := unreadyHolds w } } := by rw [h]; rfl
  have hu : t.line.hold.unready = unreadyHolds w := by rw [hl]
  refine ⟨hq, by rw [h]; rfl, ?_, ?_⟩
  · rw [hu, unreadyHolds_congr (s := w) (by rw [hl]) hq]
  · rw [hu]
    generalize t.ports = ports at h ⊢
    rw [h]
    rfl

/-- Syncing and re-evaluating raises nothing. -/
theorem ports_reevaluated (w : State) : (reevaluate (syncUnready w)).ports = w.ports := by
  rw [reevaluate_ports]
  rfl

/-! ## ANNOUNCE_PANEL (R5, R6) -/

theorem slotOf_eq_some {b : Byte} {i : SlotId} (h : b.toNat = i.val) : slotOf b = some i := by
  have hb : b.toNat < 32 := h ▸ i.isLt
  rw [slotOf, dif_pos hb]
  exact congrArg some (Fin.ext h)

theorem slotOf_eq_none {b : Byte} (h : 31 < b.toNat) : slotOf b = none := by
  rw [slotOf, dif_neg (by omega)]

/-- An announcement with a coverage list of a length that its form allows is refused as R5's checks say. -/
theorem announceOwner_refused {s : State} {jobId : BitVec 32} {slot : Byte} {length : BitVec 32} {width : BitVec 16}
    {coverage : List Byte} {reason : Reason} (h1 : 1 ≤ coverage.length) (h8 : coverage.length ≤ 8)
    (h : announceRefusal s slot length.toNat coverage.length = some reason) :
    announceOwner jobId slot length width coverage s = Served.refuse s reason := by
  rw [announceOwner, if_neg (by omega), h]

theorem announceOwner_accepted {s : State} {jobId : BitVec 32} {slot : Byte} {length : BitVec 32} {width : BitVec 16}
    {coverage : List Byte} {i : SlotId} (h1 : 1 ≤ coverage.length) (h8 : coverage.length ≤ 8)
    (h : announceRefusal s slot length.toNat coverage.length = none) (hi : slotOf slot = some i) :
    announceOwner jobId slot length width coverage s =
      Served.of
        (reevaluate (syncUnready (appendPanel
          (announcedPanel s jobId i length.toNat width.toNat (coverage.map BitVec.toNat)) s)))
        (doneOr (announceClamps width.toNat (coverage.map BitVec.toNat)) (leBytes 2 (nextId s))) := by
  rw [announceOwner, if_neg (by omega), h, hi]
  rfl

/-- R5's checks in their order. -/
theorem announceRefusal_badSlot {s : State} {slot : Byte} (length n : Nat) (h : slot.toNat = 0 ∨ 31 < slot.toNat) :
    announceRefusal s slot length n = some .badArg := by
  rcases h with h | h
  · rw [announceRefusal, slotOf_eq_some (i := 0) h]
    rfl
  · rw [announceRefusal, slotOf_eq_none h]

theorem announceRefusal_eq {s : State} {slot : Byte} {i : SlotId} (length n : Nat) (hi : slot.toNat = i.val)
    (h0 : 1 ≤ i.val) :
    announceRefusal s slot length n =
      if 64 ≤ s.queue.length then some .queueFull
      else if !slotUsable s i then some .noProfile
      else if length < 1000 ∨ 40000 < length then some .badArg
      else if (dirEntry s i).channels ≠ some n then some .badArg
      else none := by
  rw [announceRefusal, slotOf_eq_some hi]
  exact if_neg (by omega)

theorem storedWidth_eq (w : Nat) : storedWidth w = max 300 (min 3400 w) := by
  simp only [storedWidth, clampNat]
  split
  · omega
  · split <;> omega

/-- The announced record, with R6's values written out. -/
theorem announcedPanel_eq (s : State) (jobId : BitVec 32) (slot : SlotId) (length width : Nat) (coverage : List Byte) :
    announcedPanel s jobId slot length width (coverage.map BitVec.toNat) =
      { id := nextId s
        normal := some
          { jobId := jobId
            slot := slot
            generation := (dirEntry s slot).generation
            length := length
            width := max 300 (min 3400 width)
            coverage := coverage.map fun c => min c.toNat 100 }
        state := .queued
        lead := none
        trail := none
        mark := none
        probes := []
        correction := none
        flags := 0 } := by
  have cover : (coverage.map BitVec.toNat).map (min · 100) = coverage.map fun c => min c.toNat 100 := by
    rw [List.map_map]
    rfl
  rw [announcedPanel, cover, storedWidth_eq]

/-- DONE_CLAMPED exactly where a value lay outside its range (R6). -/
theorem announceFrame (width : Nat) (coverage : List Byte) (fields : List Byte) :
    (doneOr (announceClamps width (coverage.map BitVec.toNat)) fields).frame 0x20 =
      some (responseFrame
        (if (300 ≤ width ∧ width ≤ 3400) ∧ ∀ c ∈ coverage, c.toNat ≤ 100 then 0x80 else 0x81) (0x20 :: fields)) := by
  have clamps : announceClamps width (coverage.map BitVec.toNat) = false ↔
      (300 ≤ width ∧ width ≤ 3400) ∧ ∀ c ∈ coverage, c.toNat ≤ 100 := by
    have stored : storedWidth width = width ↔ 300 ≤ width ∧ width ≤ 3400 := by
      rw [storedWidth_eq]
      omega
    simp [announceClamps, stored]
  by_cases h : (300 ≤ width ∧ width ≤ 3400) ∧ ∀ c ∈ coverage, c.toNat ≤ 100
  · rw [if_pos h, clamps.mpr h]
    rfl
  · rw [if_neg h, Bool.eq_true_of_not_eq_false fun hc => h (clamps.mp hc)]
    rfl

/-- Settles O14: the accepted announcement by its owner's form, each refusal by the check of R5 it fails. -/
theorem announcePanel : Obligations.AnnouncePanel := by
  refine ⟨fun s p jobId slot length width coverage i hs hslot hi hq hu hmin hmax h1 h8 hch => ?_,
    fun s p jobId slot length width coverage hs h1 h8 => ?_⟩
  · have i0 : 1 ≤ i.val := Nat.one_le_iff_ne_zero.mpr fun h => hi (Fin.ext h)
    have passes : announceRefusal (s.updatePort p Port.accept) slot length.toNat coverage.length = none := by
      change announceRefusal s slot length.toNat coverage.length = none
      rw [announceRefusal_eq _ _ hslot i0, if_neg (by omega), hu, if_neg (by decide), if_neg (by omega),
        if_neg (not_not.mpr hch)]
    obtain ⟨hframe, hans⟩ := takeRequest_silent hs rfl
      (announceOwner_accepted (jobId := jobId) (width := width) h1 h8 passes (slotOf_eq_some hslot))
      (announceFrame _ _ _) (ports_reevaluated _)
    obtain ⟨hqueue, hid, hunready, hsched⟩ := of_reevaluated hframe
    refine ⟨_, _, rfl, ?_, hid, rfl, ?_, hunready, ?_⟩
    · rw [← announcedPanel_eq]
      exact hqueue
    · exact hans
    · rw [hqueue, hid]
      exact hsched
  · refine ⟨_, rfl, fun h => ?_, fun h0 h31 hfull => ?_, fun i hslot i0 hq hu => ?_⟩
    · exact takeRequest_refused hs rfl (announceOwner_refused h1 h8 (announceRefusal_badSlot _ _ h))
    · refine takeRequest_refused hs rfl (announceOwner_refused h1 h8 ?_)
      rw [announceRefusal_eq (i := ⟨slot.toNat, by omega⟩) _ _ rfl h0]
      exact if_pos hfull
    · refine takeRequest_refused hs rfl (announceOwner_refused h1 h8 ?_)
      change announceRefusal s slot length.toNat coverage.length = _
      rw [announceRefusal_eq _ _ hslot i0, if_neg (by omega), hu]
      rfl

/-! ## WITHDRAW_PANEL and SCRAP_PANEL (R7, R8) -/

/-- Both requests remove an unprinted record that is not fetched. -/
theorem removal_owners {s : State} {id : BitVec 16} {r : Panel} (h : findPanel s id.toNat = some r)
    (hu : r.unprinted = true) (hf : r.isFetched = false) :
    withdrawOwner id s = Served.of (removeUnprinted id.toNat s) (.done []) ∧
      scrapOwner id s = Served.of (removeUnprinted id.toNat s) (.done []) := by
  have removable : (r.unprinted && !r.isFetched) = true := by rw [hu, hf]; rfl
  rw [withdrawOwner, scrapOwner, h]
  exact ⟨if_pos removable, if_pos removable⟩

/-- Of any other record the one is too late and the other marks it. -/
theorem marking_owners {s : State} {id : BitVec 16} {r : Panel} (h : findPanel s id.toNat = some r)
    (hr : r.unprinted = false ∨ r.isFetched = true) :
    withdrawOwner id s = Served.refuse s .tooLate ∧
      scrapOwner id s =
        Served.of (s.mapPanels (fun q => decide (q.id = id.toNat)) (·.flag .scrapped)) (.done []) := by
  have stays : ¬ (r.unprinted && !r.isFetched) = true := by
    rcases hr with hr | hr <;> simp [hr]
  rw [withdrawOwner, scrapOwner, h]
  exact ⟨if_neg stays, if_neg stays⟩

theorem missing_owners {s : State} {id : BitVec 16} (h : findPanel s id.toNat = none) :
    withdrawOwner id s = Served.refuse s .noSuchPanel ∧ scrapOwner id s = Served.refuse s .noSuchPanel := by
  rw [withdrawOwner, scrapOwner, h]
  exact ⟨rfl, rfl⟩

/-- Settles O15: by what the id names, each request's owner has one form. -/
theorem withdrawAndScrap : Obligations.WithdrawAndScrap := by
  intro s p id hs
  refine ⟨_, _, rfl, rfl, fun r hr hu hf => ?_, fun r hr h => ?_, fun hn => ?_⟩
  · obtain ⟨hw, hc⟩ := removal_owners (s := s.updatePort p Port.accept) hr hu hf
    obtain ⟨htf, hta⟩ := takeRequest_silent (code := 0x21) hs rfl hw rfl (ports_reevaluated _)
    obtain ⟨huf, hua⟩ := takeRequest_silent (code := 0x22) hs rfl hc rfl (ports_reevaluated _)
    obtain ⟨hqueue, -, hunready, hsched⟩ := of_reevaluated htf
    refine ⟨hqueue, (of_reevaluated huf).1.trans hqueue.symm, hta, hua, hunready, ?_, ?_⟩
    · rw [hqueue]
      exact hsched
    · rw [htf]
      exact huf
  · obtain ⟨hw, hc⟩ := marking_owners (s := s.updatePort p Port.accept) hr h
    obtain ⟨htf, hta⟩ := takeRequest_refused (code := 0x21) hs rfl hw
    obtain ⟨huf, hua⟩ := takeRequest_silent (code := 0x22) hs rfl hc rfl rfl
    refine ⟨htf, hta, ?_, ?_, ?_⟩
    · rw [huf]
      simp
    · rw [huf]
      rfl
    · rw [holdKind_self (by rw [huf]; rfl)] at hua
      exact hua
  · obtain ⟨hw, hc⟩ := missing_owners (s := s.updatePort p Port.accept) hn
    obtain ⟨htf, hta⟩ := takeRequest_refused (code := 0x21) hs rfl hw
    obtain ⟨huf, hua⟩ := takeRequest_refused (code := 0x22) hs rfl hc
    exact ⟨htf, hta, huf, hua⟩

end Sys2Proof.Proofs
end

