-- ==== Sys2Proof/Proofs/Completion.lean ====
section
/-!
Completion of a record: its evaluation, the trim, its outcome, and the offer of its transfer record (R18 to R20, R109 to R111,
R174 to R176).
-/
namespace Sys2Proof.Proofs

open Sys2Proof.Machine Sys2Proof.Safety

/-! ## Rounding and clamps (3.2) -/

theorem isRounded_roundNat (n : Nat) {d : Nat} (hd : 0 < d) : IsRounded n d (roundNat n d) := by
  have hpos : 0 < 2 * d := by omega
  constructor
  · calc 2 * roundNat n d * d = (2 * n + d) / (2 * d) * (2 * d) := by rw [roundNat]; ring
      _ ≤ 2 * n + d := Nat.div_mul_le_self _ _
  · calc 2 * n + d < (2 * n + d) / (2 * d) * (2 * d) + 2 * d := Nat.lt_div_mul_add hpos
      _ = 2 * (roundNat n d + 1) * d := by rw [roundNat]; ring

theorem clampTrim_eq (x : Int) : clampTrim x = max (-250) (min 250 x) := by
  simp only [clampTrim, clampInt]
  split
  · omega
  · split <;> omega

/-! ## The evaluation of a completing record (R109 to R111) -/

theorem evaluated_eq (r : Panel) :
    evaluated r = { r with flags := if r.isOffDose then addFlag r.flags .offDose else r.flags } := by
  unfold evaluated Panel.flagIf
  split <;> rfl

/-- The least and the greatest accumulator are those of probes of the record. -/
theorem probeMin_spec {r : Panel} (h : r.probes ≠ []) :
    ∃ lo ∈ r.probes, (∀ q ∈ r.probes, lo.accumulator ≤ q.accumulator) ∧ IsRounded lo.accumulator 100 r.probeMin := by
  have some : (r.probes.map (·.accumulator)).min? ≠ none := mt List.min?_eq_none_iff.mp (mt List.map_eq_nil_iff.mp h)
  obtain ⟨x, hx⟩ := Option.ne_none_iff_exists'.mp some
  obtain ⟨hmem, hle⟩ := List.min?_eq_some_iff.mp hx
  obtain ⟨lo, hlo, rfl⟩ := List.mem_map.mp hmem
  refine ⟨lo, hlo, fun q hq => hle _ (List.mem_map_of_mem hq), ?_⟩
  rw [Panel.probeMin, Panel.accumulators, hx]
  exact isRounded_roundNat _ (by decide)

theorem probeMax_spec {r : Panel} (h : r.probes ≠ []) :
    ∃ hi ∈ r.probes, (∀ q ∈ r.probes, q.accumulator ≤ hi.accumulator) ∧ IsRounded hi.accumulator 100 r.probeMax := by
  have some : (r.probes.map (·.accumulator)).max? ≠ none := mt List.max?_eq_none_iff.mp (mt List.map_eq_nil_iff.mp h)
  obtain ⟨x, hx⟩ := Option.ne_none_iff_exists'.mp some
  obtain ⟨hmem, hle⟩ := List.max?_eq_some_iff.mp hx
  obtain ⟨hi, hhi, rfl⟩ := List.mem_map.mp hmem
  refine ⟨hi, hhi, fun q hq => hle _ (List.mem_map_of_mem hq), ?_⟩
  rw [Panel.probeMax, Panel.accumulators, hx]
  exact isRounded_roundNat _ (by decide)

theorem dAct_spec {r : Panel} (h : r.probes ≠ []) :
    IsRounded (r.probes.map (·.accumulator)).sum (100 * r.probes.length) r.dAct :=
  isRounded_roundNat _ (by have := List.length_pos_iff.mpr h; omega)

theorem isOffDose_some {r : Panel} {c : Correction} (h : r.correction = some c) :
    r.isOffDose =
      decide (c.copies.band < ((min (roundNat (r.dAct * 1000) c.copies.dRef) 9999 : Nat) - (c.qPred : Int)).natAbs) := by
  simp [Panel.isOffDose, Panel.ratioError, Panel.qAct, h]

theorem isOffDose_none {r : Panel} (h : r.correction = none) : r.isOffDose = false := by
  simp [Panel.isOffDose, h]

theorem trimAfter_evaluated_none (trim : Int) {r : Panel} (h : r.correction = none) :
    trimAfter trim (evaluated r) = trim := by
  simp [trimAfter, evaluated_eq, Panel.ratioError, h]

theorem trimAfter_evaluated_some (trim : Int) {r : Panel} {c : Correction} (h : r.correction = some c) :
    trimAfter trim (evaluated r) =
      if (evaluated r).flags &&& 0x104540#21 = 0 then
        max (-250) (min 250 (trim +
          ((min (roundNat (r.dAct * 1000) c.copies.dRef) 9999 : Nat) - (c.qPred : Int)).tdiv 8))
      else trim := by
  have excluding : trimExcludingFlags = 0x104540#21 := rfl
  have ratio : (evaluated r).ratioError =
      some ((min (roundNat (r.dAct * 1000) c.copies.dRef) 9999 : Nat) - (c.qPred : Int)) := by
    rw [evaluated_eq]
    simp [Panel.ratioError, Panel.qAct, Panel.dAct, Panel.accumulators, h]
  simp only [trimAfter, ratio, flagsMeet, excluding, clampTrim_eq]
  by_cases hf : (evaluated r).flags &&& 0x104540#21 = 0
  · rw [if_pos hf, if_neg (by simpa using hf)]
  · rw [if_neg hf, if_pos (by simpa using hf)]

/-- A record's outcome by its flags and its kind (R20). -/
theorem outcomeOf_eq (r : Panel) :
    outcomeOf r =
      if hasFlag r.flags .scrapped = true then .scrapped
      else if r.normal = none then .untracked
      else if r.flags &&& 0x7FFF#21 ≠ 0 then .flagged else .good := by
  have quality : (flagsMeet r.flags qualityFlags = true) = (r.flags &&& 0x7FFF#21 ≠ 0) := decide_eq_true_eq
  simp only [outcomeOf, quality, Option.isNone_iff_eq_none]

/-! ## The offer (R174 to R176) -/

theorem filterPasses_eq_false {f : QueueFilter} {o : PanelOutcome}
    (h : f = .none ∨ (f = .exceptions ∧ o = .good)) : filterPasses f o = false := by
  obtain rfl | ⟨rfl, rfl⟩ := h <;> rfl

theorem filterPasses_eq_true {f : QueueFilter} {o : PanelOutcome}
    (h : f = .all ∨ (f = .exceptions ∧ o ≠ .good)) : filterPasses f o = true := by
  obtain rfl | ⟨rfl, ho⟩ := h
  · rfl
  · exact decide_eq_true ho

theorem offerRecord_filtered {s : State} {k : TransferRecord} (h : filterPasses s.records.filter k.outcome = false) :
    offerRecord s k = s := by
  rw [offerRecord, if_neg (by simp [h])]

theorem offerRecord_room {s : State} {k : TransferRecord} (h : filterPasses s.records.filter k.outcome = true)
    (hl : s.records.list.length < 32) : offerRecord s k = appendRecord s k := by
  rw [offerRecord, if_pos h, if_pos (by simpa [recordCapacity] using hl)]

theorem offerRecord_full {s : State} {k : TransferRecord} (h : filterPasses s.records.filter k.outcome = true)
    (hl : 32 ≤ s.records.list.length) : offerRecord s k = offerToFull s k := by
  rw [offerRecord, if_pos h, if_neg (by simpa [recordCapacity] using hl)]

/-- An offer changes the transfer record queue and raises kinds, and nothing else. -/
theorem offerRecord_frame (s : State) (k : TransferRecord) :
    offerRecord s k = { s with records := (offerRecord s k).records, ports := (offerRecord s k).ports } := by
  unfold offerRecord appendRecord offerToFull
  split
  · split
    · cases decide (s.records.watermark ≠ 0 ∧ s.records.list.length + 1 = s.records.watermark) <;> rfl
    · split <;> rfl
  · rfl

/-- What an offer does to the queue, and the kinds it raises. -/
theorem offerRecord_spec (s : State) (k : TransferRecord) :
    ∃ offered, PortsRaise s (offerRecord s k) offered ∧
      (s.records.filter = .none ∨ (s.records.filter = .exceptions ∧ k.outcome = .good) →
        (offerRecord s k).records = s.records ∧ offered = 0) ∧
      (s.records.filter = .all ∨ (s.records.filter = .exceptions ∧ k.outcome ≠ .good) →
        (s.records.list.length < 32 →
          (offerRecord s k).records = { s.records with list := s.records.list ++ [k] } ∧
          offered =
            (if s.records.watermark ≠ 0 ∧ s.records.list.length + 1 = s.records.watermark then
              Attn.recordWatermark.bit else 0)) ∧
        (32 ≤ s.records.list.length → s.records.mode = .blocking →
          (offerRecord s k).records =
            { s.records with
              lost := true
              drops := if s.records.drops < 65535 then s.records.drops + 1 else s.records.drops } ∧
          offered = Attn.recordLost.bit) ∧
        (32 ≤ s.records.list.length → s.records.mode = .overwrite →
          (offerRecord s k).records =
            { s.records with
              list := s.records.list.tail ++ [k]
              drops := if s.records.drops < 65535 then s.records.drops + 1 else s.records.drops } ∧
          offered = 0)) := by
  cases hp : filterPasses s.records.filter k.outcome with
  | false =>
    rw [offerRecord_filtered hp]
    exact ⟨0, portsRaise_refl s, fun _ => ⟨rfl, rfl⟩, fun h => by rw [filterPasses_eq_true h] at hp; cases hp⟩
  | true =>
    have notFiltered : ¬ (s.records.filter = .none ∨ (s.records.filter = .exceptions ∧ k.outcome = .good)) := fun h => by
      rw [filterPasses_eq_false h] at hp
      cases hp
    rcases Nat.lt_or_ge s.records.list.length 32 with hl | hl
    · rw [offerRecord_room hp hl]
      refine ⟨if s.records.watermark ≠ 0 ∧ s.records.list.length + 1 = s.records.watermark then
          Attn.recordWatermark.bit else 0, ?_, fun h => absurd h notFiltered, fun _ => ⟨fun _ => ⟨?_, rfl⟩, ?_, ?_⟩⟩
      · have h := portsRaise_raiseIf (s.updateRecords fun q => { q with list := q.list ++ [k] })
          (decide (s.records.watermark ≠ 0 ∧ s.records.list.length + 1 = s.records.watermark)) .recordWatermark
        simp only [decide_eq_true_eq] at h
        exact h
      · simp [appendRecord, State.updateRecords]
      · exact fun h => absurd h (Nat.not_le.mpr hl)
      · exact fun h => absurd h (Nat.not_le.mpr hl)
    · rw [offerRecord_full hp hl]
      cases hm : s.records.mode with
      | blocking =>
        rw [offerToFull, hm]
        exact ⟨Attn.recordLost.bit, portsRaise_raise _ _, fun h => absurd h notFiltered,
          fun _ => ⟨fun h => absurd h (Nat.not_lt.mpr hl), fun _ _ => ⟨rfl, rfl⟩, nofun⟩⟩
      | overwrite =>
        rw [offerToFull, hm]
        exact ⟨0, portsRaise_of_ports rfl, fun h => absurd h notFiltered,
          fun _ => ⟨fun h => absurd h (Nat.not_lt.mpr hl), nofun, fun _ _ => ⟨rfl, rfl⟩⟩⟩

/-! ## One completion (R18 to R20) -/

/-- A completion changes the trim and the transfer record queue and raises kinds, and nothing else. -/
theorem completeOne_frame (s : State) (r : Panel) :
    completeOne s r =
      { s with
        dose := { s.dose with trim := (completeOne s r).dose.trim }
        records := (completeOne s r).records
        ports := (completeOne s r).ports } := by
  unfold completeOne
  rw [offerRecord_frame]
  cases decide (outcomeOf (evaluated r) = .flagged ∨ outcomeOf (evaluated r) = .untracked) <;> rfl

theorem syncError_some {r : Panel} {e : Int} (h : r.mark = some (.seen e)) : r.syncError = some e := by
  rw [Panel.syncError, h]

theorem syncError_none {r : Panel} (h : ∀ e, r.mark ≠ some (.seen e)) : r.syncError = none := by
  unfold Panel.syncError
  split
  · exact absurd ‹_› (h _)
  · rfl

/-- The state with a record's evaluation taken, before its transfer record is offered. -/
def afterEvaluation (s : State) (r : Panel) : State :=
  (s.updateDose fun d => { d with trim := trimAfter d.trim (evaluated r) }).raiseIf
    (decide (outcomeOf (evaluated r) = .flagged ∨ outcomeOf (evaluated r) = .untracked)) .panelFlagged

theorem completeOne_eq (s : State) (r : Panel) :
    completeOne s r = offerRecord (afterEvaluation s r) (transferRecord (evaluated r)) := rfl

theorem afterEvaluation_fields (s : State) (r : Panel) :
    (afterEvaluation s r).records = s.records ∧
      (afterEvaluation s r).dose.trim = trimAfter s.dose.trim (evaluated r) ∧
      PortsRaise s (afterEvaluation s r)
        (if outcomeOf (evaluated r) = .flagged ∨ outcomeOf (evaluated r) = .untracked then Attn.panelFlagged.bit else 0) := by
  have raised := portsRaise_raiseIf (s.updateDose fun d => { d with trim := trimAfter d.trim (evaluated r) })
    (decide (outcomeOf (evaluated r) = .flagged ∨ outcomeOf (evaluated r) = .untracked)) .panelFlagged
  simp only [decide_eq_true_eq] at raised
  exact ⟨by simp [afterEvaluation], by simp [afterEvaluation, State.updateDose], raised⟩

/-- A completed record gives its transfer record, moves the trim and raises the kinds that R18 to R20 say. -/
theorem completes_completeOne (s : State) (r : Panel) :
    ∃ raised, Completes s (completeOne s r) r (r.lead.getD 0) (r.trail.getD 0) raised ∧
      PortsRaise s (completeOne s r) raised := by
  obtain ⟨hrecords, htrim, hflagged⟩ := afterEvaluation_fields s r
  obtain ⟨offered, hports, hfiltered, hoffered⟩ := offerRecord_spec (afterEvaluation s r) (transferRecord (evaluated r))
  have fields := evaluated_eq r
  have trim : (completeOne s r).dose.trim = trimAfter s.dose.trim (evaluated r) := by
    rw [completeOne_eq, offerRecord_frame]
    exact htrim
  rw [hrecords] at hfiltered hoffered
  refine ⟨_, ⟨transferRecord (evaluated r), offered, ?_, ?_, ?_, ?_, ?_, ?_, ?_, ?_, ?_, fun hp => ?_, fun hc => ?_,
    fun c hc hd => ?_, ?_, rfl, hfiltered, hoffered⟩, portsRaise_trans hflagged hports⟩
  · rw [fields]; rfl
  · rw [fields]; rfl
  · rw [fields]; rfl
  · rw [fields]; rfl
  · rw [fields]; rfl
  · rw [fields]; rfl
  · rw [fields]; rfl
  · intro e he
    rw [fields]
    exact syncError_some he
  · intro he
    rw [fields]
    exact syncError_none he
  · rw [fields]
    exact ⟨dAct_spec hp, probeMin_spec hp, probeMax_spec hp⟩
  · rw [trim, trimAfter_evaluated_none _ hc, fields]
    simp [transferRecord, Panel.qAct, hc, isOffDose_none hc]
  · refine ⟨roundNat (r.dAct * 1000) c.copies.dRef, min (roundNat (r.dAct * 1000) c.copies.dRef) 9999, ?_, rfl, ?_, ?_, ?_, ?_⟩
    · rw [fields]
      exact isRounded_roundNat _ hd
    · rw [fields]
      simp [transferRecord, hc]
    · rw [fields]
      simp only [transferRecord, Panel.qAct, hc, Option.map_some]
      rfl
    · rw [fields]
      simp only [transferRecord, isOffDose_some hc, decide_eq_true_eq]
    · rw [trim]
      exact trimAfter_evaluated_some _ hc
  · rw [show (transferRecord (evaluated r)).outcome = outcomeOf (evaluated r) from rfl, outcomeOf_eq, fields]
    rfl

end Sys2Proof.Proofs
end

