-- ==== Sys2Proof/Proofs/OpenTrail.lean ====
section
/-!
O16 and O44: the open trail closed, wherever its record stands, by an abort and by a gate falling edge.
-/
namespace Sys2Proof.Proofs

open Sys2Proof.Machine Sys2Proof.Safety

/-! ## Completion speaks of the trim and the transfer records alone -/

theorem completes_congr {s s' t t' : State} {r : Panel} {lead trail : Nat} {raised : AttnSet}
    (hs : s'.dose.trim = s.dose.trim) (hr : s'.records = s.records) (ht : t'.dose.trim = t.dose.trim)
    (htr : t'.records = t.records) (h : Completes s t r lead trail raised) : Completes s' t' r lead trail raised := by
  unfold Completes
  rw [hs, hr, ht, htr]
  exact h

/-! ## Which records complete (R18) -/

theorem completes_eq_false {m : MachineRecord} {x : Nat} {r : Panel}
    (h : ∀ trail, r.state = .transferring → r.trail = some trail → x < trail + 10 * m.arcLen) : completes m x r = false := by
  unfold completes
  split
  · rename_i trail hst ht
    exact decide_eq_false (Nat.not_le.mpr (h trail hst ht))
  · rfl

theorem completes_eq_true {m : MachineRecord} {x : Nat} {r : Panel} {trail : Nat} (hst : r.state = .transferring)
    (ht : r.trail = some trail) (h : trail + 10 * m.arcLen ≤ x) : completes m x r = true := by
  rw [completes, hst, ht]
  exact decide_eq_true h

theorem completeRecords_of_none {m : MachineRecord} {s : State} (h : ∀ q ∈ s.queue, completes m s.pos.xNip q = false) :
    completeRecords m s = s := by
  have none : s.queue.filter (completes m s.pos.xNip) = [] := List.filter_eq_nil_iff.mpr fun q hq => by simp [h q hq]
  have all : s.queue.filter (fun r => !completes m s.pos.xNip r) = s.queue :=
    List.filter_eq_self.mpr fun q hq => by simp [h q hq]
  rw [completeRecords, none, all]
  rfl

theorem completeRecords_of_one {m : MachineRecord} {s : State} {before rest : List Panel} {c : Panel}
    (hq : s.queue = before ++ c :: rest) (hc : completes m s.pos.xNip c = true)
    (h : ∀ q ∈ before ++ rest, completes m s.pos.xNip q = false) :
    completeRecords m s = completeOne { s with queue := before ++ rest } c := by
  have nil : ∀ l : List Panel, (∀ q ∈ l, q ∈ before ++ rest) → l.filter (completes m s.pos.xNip) = [] := fun l hl =>
    List.filter_eq_nil_iff.mpr fun q hq => by simp [h q (hl q hq)]
  have all : ∀ l : List Panel, (∀ q ∈ l, q ∈ before ++ rest) → l.filter (fun r => !completes m s.pos.xNip r) = l := fun l hl =>
    List.filter_eq_self.mpr fun q hq => by simp [h q (hl q hq)]
  have inBefore : ∀ q ∈ before, q ∈ before ++ rest := fun q => List.mem_append_left rest
  have inRest : ∀ q ∈ rest, q ∈ before ++ rest := fun q => List.mem_append_right before
  have gone : s.queue.filter (completes m s.pos.xNip) = [c] := by
    rw [hq, List.filter_append, List.filter_cons, if_pos hc, nil before inBefore, nil rest inRest]
    rfl
  have kept : s.queue.filter (fun r => !completes m s.pos.xNip r) = before ++ rest := by
    rw [hq, List.filter_append, List.filter_cons, if_neg (by simp [hc]), all before inBefore, all rest inRest]
  rw [completeRecords, gone, kept]
  rfl

/-! ## The open trail closed (R9, R10, R13, R16) -/

theorem closeTrail_eq (r : Panel) (x : Nat) : r.closeTrail x = trailClosed r x := by
  unfold Panel.closeTrail trailClosed
  split
  · rename_i h
    rw [if_pos h]
    rfl
  · rename_i h
    rw [if_neg h]

theorem trailClosed_state (r : Panel) (x : Nat) :
    (r.state = .transferring → (trailClosed r x).state = .transferring) ∧
      (r.state ≠ .transferring → (trailClosed r x).state = .inTransit) :=
  ⟨fun h => by rw [trailClosed, if_pos h]; exact h, fun h => by rw [trailClosed, if_neg h]⟩

theorem trailClosed_trail (r : Panel) (x : Nat) : (trailClosed r x).trail = some x := by
  unfold trailClosed
  split <;> rfl

theorem trailClosed_lead (r : Panel) (x : Nat) : (trailClosed r x).lead = r.lead := by
  unfold trailClosed
  split <;> rfl

theorem trailClosed_flags (r : Panel) (x : Nat) : (trailClosed r x).flags = r.flags := by
  unfold trailClosed
  split <;> rfl

theorem trailClosed_normal (r : Panel) (x : Nat) : (trailClosed r x).normal = r.normal := by
  unfold trailClosed
  split <;> rfl

/-- The one open trail closes in its place. -/
theorem trailsClosed_queue {s : State} {before rest : List Panel} {r : Panel} (f : Panel → Panel)
    (hq : s.queue = before ++ r :: rest) (ho : r.openTrail = true) (h : ∀ q ∈ before ++ rest, q.openTrail = false) :
    (trailsClosed f s).queue = before ++ f (trailClosed r s.pos.xPrint) :: rest := by
  have same : ∀ l : List Panel, (∀ q ∈ l, q ∈ before ++ rest) →
      l.map (fun q => if q.openTrail then f (q.closeTrail s.pos.xPrint) else q) = l := fun l hl => by
    refine (List.map_congr_left fun q hq => ?_).trans (List.map_id l)
    rw [if_neg (by simp [h q (hl q hq)])]
    rfl
  change (s.queue.map fun q => if q.openTrail then f (q.closeTrail s.pos.xPrint) else q) = _
  rw [hq, List.map_append, List.map_cons, same before fun q => List.mem_append_left rest,
    same rest fun q => List.mem_append_right before, if_pos ho, closeTrail_eq]

/-- What closing the open trail leaves: its record closed in its place, or completed where x_nip lies a full arc past the new
trail; the records about it do not complete. -/
theorem closeOpenTrail_of_one {m : MachineRecord} {s : State} {before rest : List Panel} {r closed : Panel} {f : Panel → Panel}
    (hq : s.queue = before ++ r :: rest) (ho : r.openTrail = true)
    (h : ∀ q ∈ before ++ rest, q.openTrail = false ∧
      ∀ trail, q.state = .transferring → q.trail = some trail → s.pos.xNip < trail + 10 * m.arcLen)
    (hc : closed = f (trailClosed r s.pos.xPrint)) (hf : Alike closed (trailClosed r s.pos.xPrint)) :
    (r.state ≠ .transferring ∨ s.pos.xNip < s.pos.xPrint + 10 * m.arcLen →
      closeOpenTrail m f s = { s with queue := before ++ closed :: rest }) ∧
    (r.state = .transferring → s.pos.xPrint + 10 * m.arcLen ≤ s.pos.xNip →
      closeOpenTrail m f s = completeOne { s with queue := before ++ rest } closed) := by
  have queue := trailsClosed_queue f hq ho fun q hq => (h q hq).1
  rw [← hc] at queue
  have form : closeOpenTrail m f s = completeRecords m { s with queue := before ++ closed :: rest } := by
    rw [← queue]
    rfl
  have others : ∀ q ∈ before ++ rest, completes m s.pos.xNip q = false := fun q hq => completes_eq_false (h q hq).2
  have printed : (trailClosed r s.pos.xPrint).printed = true := closeTrail_eq r _ ▸ (closeTrail_fields r _).1
  obtain ⟨⟨-, coords⟩, state⟩ := hf
  have trail : closed.trail = some s.pos.xPrint := (coords printed).2.trans (trailClosed_trail r _)
  obtain ⟨stays, passes⟩ := trailClosed_state r s.pos.xPrint
  rw [form]
  refine ⟨fun hr => completeRecords_of_none fun q hq => ?_, fun hst hle => ?_⟩
  · have here : q = closed ∨ q ∈ before ++ rest := by
      rcases List.mem_append.mp hq with hq | hq
      · exact .inr (List.mem_append_left _ hq)
      · exact (List.mem_cons.mp hq).imp_right (List.mem_append_right _)
    rcases here with rfl | hq
    · refine completes_eq_false fun t hst ht => ?_
      obtain rfl : s.pos.xPrint = t := Option.some.inj (trail.symm.trans ht)
      refine hr.resolve_left fun hne => ?_
      rw [state printed, passes hne] at hst
      cases hst
    · exact others q hq
  · exact completeRecords_of_one rfl (completes_eq_true ((state printed).trans (stays hst)) trail hle) others

/-- With a record active the pace is at its nominal threshold (R95). -/
theorem paceNominal_eq {s : State} {m : MachineRecord} (h : s.line.active = some m) :
    paceNominal s = { s with pace := { s.pace with threshold := some (paceThreshold m 1000000), source := none } } := by
  rw [paceNominal, h]
  rfl

/-- The queue's one open trail is found. -/
theorem openRecord_of_one {s : State} {before rest : List Panel} {r : Panel} (hq : s.queue = before ++ r :: rest)
    (ho : r.openTrail = true) (h : ∀ q ∈ before ++ rest, q.openTrail = false) : openRecord s = some r := by
  refine List.find?_eq_some_iff_append.mpr ⟨ho, before, rest, hq, fun q hq => ?_⟩
  rw [h q (List.mem_append_left _ hq)]
  rfl

/-! ## What closing leaves of the rest -/

/-- Completions change the trim, the transfer records and the ports alone. -/
theorem foldl_completeOne_frame (l : List Panel) (s : State) :
    l.foldl completeOne s =
      { s with
        dose := { s.dose with trim := (l.foldl completeOne s).dose.trim }
        records := (l.foldl completeOne s).records
        ports := (l.foldl completeOne s).ports } := by
  induction l generalizing s with
  | nil => rfl
  | cons r rest ih =>
    rw [List.foldl_cons]
    have tail := ih (completeOne s r)
    rw [completeOne_frame s r] at tail ⊢
    exact tail

theorem closeOpenTrail_inputs (m : MachineRecord) (f : Panel → Panel) (s : State) :
    (closeOpenTrail m f s).inputs = s.inputs := by
  rw [closeOpenTrail, completeRecords, foldl_completeOne_frame]
  rfl

/-! ## The pace nominal after a closed or completed record -/

/-- With the trail closed and the pace nominal, the state stands as O16 and O44 say: queue and pace alone changed. -/
theorem nominal_of_closed {m : MachineRecord} {s u : State} {l : List Panel} (hm : s.line.active = some m)
    (hu : u = { s with queue := l }) :
    paceNominal u =
      { s with queue := l, pace := { s.pace with threshold := some (paceThreshold m 1000000), source := none } } := by
  subst hu
  exact paceNominal_eq hm

/-- With a record completed and the pace nominal: queue, trim, transfer records, ports and pace. -/
theorem nominal_of_completed {m : MachineRecord} {s u : State} {l : List Panel} {c : Panel} (hm : s.line.active = some m)
    (hu : u = completeOne { s with queue := l } c) :
    ∃ raised,
      paceNominal u =
        { s with
          queue := l
          pace := { s.pace with threshold := some (paceThreshold m 1000000), source := none }
          dose := { s.dose with trim := (paceNominal u).dose.trim }
          records := (paceNominal u).records
          ports := (paceNominal u).ports } ∧
      Completes s (paceNominal u) c (c.lead.getD 0) (c.trail.getD 0) raised ∧ PortsRaise s (paceNominal u) raised := by
  have frame := completeOne_frame { s with queue := l } c
  obtain ⟨raised, hcomp, hports⟩ := completes_completeOne { s with queue := l } c
  rw [← hu] at frame hcomp hports
  have active : u.line.active = some m := by rw [frame]; exact hm
  rw [paceNominal_eq active]
  refine ⟨raised, ?_, completes_congr rfl rfl rfl rfl hcomp, hports⟩
  generalize u.dose.trim = a at frame ⊢
  generalize u.records = b at frame ⊢
  generalize u.ports = c at frame ⊢
  rw [frame]

/-! ## PRINT_ABORT (R9) -/

theorem printAbortOwner_open {s : State} {m : MachineRecord} {r : Panel} {id : BitVec 16} (ho : openRecord s = some r)
    (hm : s.line.active = some m) :
    (r.id = id.toNat →
      printAbortOwner id s = Served.of (paceNominal (closeOpenTrail m (·.flag .scrapped) s)) (.done [])) ∧
      (r.id ≠ id.toNat → printAbortOwner id s = Served.refuse s .noSuchPanel) := by
  rw [printAbortOwner, ho, hm]
  exact ⟨fun h => if_pos h, fun h => if_neg h⟩

/-- Settles O16: the abort closes the one open trail, whose record stays or completes. -/
theorem printAbortClosesTheOpenTrail : Obligations.PrintAbortClosesTheOpenTrail := by
  intro s p id m before r closed rest hs hm hq ho h hclosed
  have hopen := openRecord_of_one (s := s.updatePort p Port.accept) hq ho fun q hq => (h q hq).1
  obtain ⟨named, other⟩ := printAbortOwner_open (id := id) hopen hm
  have hc : closed = (trailClosed r s.pos.xPrint).flag .scrapped := by
    rw [hclosed, Panel.flag, trailClosed_flags]
  obtain ⟨stays, gone⟩ := closeOpenTrail_of_one (f := (·.flag .scrapped)) (s := s.updatePort p Port.accept) hq ho h hc
    (hc ▸ alike_flag _ _)
  refine ⟨_, rfl, ?_⟩
  generalize ht : takeRequest p 0x41 onlyPrint (printAbortOwner id) s = t
  have abort (hid : r.id = id.toNat) (hst : r.state ≠ .transferring ∨ s.pos.xNip < s.pos.xPrint + 10 * m.arcLen) :
      t =
          { s with
            ports := t.ports
            queue := before ++ closed :: rest
            pace := { s.pace with threshold := some (paceThreshold m 1000000), source := none } } ∧
        PortsAnswer s t p (doneFrame 0x41 []) 0 := by
    have form := nominal_of_closed (s := s.updatePort p Port.accept) hm (stays hst)
    have answer := takeRequest_raised (code := 0x41) hs ht.symm (named hid) rfl (portsRaise_of_ports (by rw [form]))
      (by rw [form]; rfl)
    rwa [form] at answer
  have complete (hid : r.id = id.toNat) (hst : r.state = .transferring) (hle : s.pos.xPrint + 10 * m.arcLen ≤ s.pos.xNip) :
      ∃ raised,
        t =
          { s with
            ports := t.ports
            queue := before ++ rest
            pace := { s.pace with threshold := some (paceThreshold m 1000000), source := none }
            dose := { s.dose with trim := t.dose.trim }
            records := t.records } ∧
        Completes s t closed (closed.lead.getD 0) (closed.trail.getD 0) raised ∧
        PortsAnswer s t p (doneFrame 0x41 []) raised := by
    obtain ⟨raised, form, hcomp, hports⟩ := nominal_of_completed (s := s.updatePort p Port.accept) hm (gone hst hle)
    obtain ⟨hframe, hans⟩ := takeRequest_raised (code := 0x41) hs ht.symm (named hid) rfl hports (by rw [form]; rfl)
    have hdose := congrArg State.dose hframe
    have hrecords := congrArg State.records hframe
    refine ⟨raised, ?_, completes_congr rfl rfl (congrArg Dose.trim hdose) hrecords hcomp, hans⟩
    rw [hdose, hrecords]
    rw [form] at hframe
    exact hframe
  refine ⟨fun hid => ⟨?_, fun hst => ?_, fun lead hst hl hle => ?_⟩, fun hid => ?_⟩
  · by_cases hst : r.state ≠ .transferring ∨ s.pos.xNip < s.pos.xPrint + 10 * m.arcLen
    · exact congrArg State.pace (abort hid hst).1
    · rw [not_or, not_not, Nat.not_lt] at hst
      obtain ⟨raised, hframe, -⟩ := complete hid hst.1 hst.2
      exact congrArg State.pace hframe
  · obtain ⟨hframe, hans⟩ := abort hid hst
    rw [congrArg State.pace hframe]
    exact ⟨hframe, hans⟩
  · obtain ⟨raised, hframe, hcomp, hans⟩ := complete hid hst hle
    have lead' : closed.lead.getD 0 = lead := by rw [hc]; exact congrArg (·.getD 0) ((trailClosed_lead r _).trans hl)
    have trail' : closed.trail.getD 0 = s.pos.xPrint := by rw [hc]; exact congrArg (·.getD 0) (trailClosed_trail r _)
    rw [lead', trail'] at hcomp
    rw [congrArg State.pace hframe]
    exact ⟨raised, hframe, hcomp, hans⟩
  · exact takeRequest_refused (code := 0x41) hs ht.symm (other hid)

/-! ## A gate falling edge (R13, R39) -/

/-- The state as a gate edge finds it: the accepted pin level is the edge's (R34, R35). -/
def gateAt (level : Bool) (s : State) : State :=
  s.updateInputs fun i => { i with pgate := i.pgate.settle level }

theorem gateAt_eq (level : Bool) (s : State) :
    gateAt level s = { s with inputs := { s.inputs with pgate := { level := level, agree := 0 } } } := by
  rw [gateAt, State.updateInputs, InputFilter.settle_eq]

theorem exec_falling {s : State} (h : s.live = true) :
    exec .pgateFallingEdge s = .next (gateFalling (gateAt (!gateActiveLevel s) s)) :=
  congrArg Host.Outcome.next (if_pos h)

theorem gateFalling_inputs (s : State) : (gateFalling s).inputs = s.inputs := by
  have nominal (u : State) : (paceNominal u).inputs = u.inputs := by
    unfold paceNominal
    split <;> rfl
  unfold gateFalling
  split
  · split
    · exact (nominal _).trans (closeOpenTrail_inputs _ _ _)
    · rfl
  · rfl

theorem gateFalling_closed {s : State} (h : ∀ r ∈ s.queue, r.openTrail = false) : gateFalling s = s.raise .gateFault := by
  have none : openRecord s = none := List.find?_eq_none.mpr fun r hr => by simp [h r hr]
  unfold gateFalling
  split
  · rw [none, if_neg (by simp)]
  · rfl

theorem gateFalling_open {s : State} {m : MachineRecord} {r : Panel} (hm : s.line.active = some m)
    (hl : s.line.state ≠ .unset) (ho : openRecord s = some r) :
    gateFalling s = paceNominal (closeOpenTrail m (Panel.compareLength m) s) := by
  rw [gateFalling, hm, ho]
  exact if_pos (by simpa using onLine_iff.mpr hl)

/-- The measured length of a closed record against the announced one (R13). -/
theorem compareLength_trailClosed {m : MachineRecord} {r : Panel} {lead x : Nat} (hl : r.lead = some lead) :
    (trailClosed r x).compareLength m =
      { trailClosed r x with
        flags :=
          match r.normal with
          | some a => if m.lengthTolerance < ((x : Int) - lead - a.length).natAbs then addFlag r.flags .lengthMismatch else r.flags
          | none => r.flags } := by
  rw [Panel.compareLength, trailClosed_normal]
  cases hn : r.normal with
  | none => rw [← trailClosed_flags r x]
  | some a =>
    change (trailClosed r x).flagIf (decide (m.lengthTolerance <
      (((trailClosed r x).trail.getD 0 : Int) - (trailClosed r x).lead.getD 0 - a.length).natAbs)) .lengthMismatch = _
    rw [trailClosed_trail, trailClosed_lead, hl, Panel.flagIf]
    simp only [Option.getD_some, decide_eq_true_eq]
    split
    · rw [Panel.flag, trailClosed_flags]
    · rw [← trailClosed_flags r x]

/-- Settles O44: without an open trail the edge is ignored, else it closes the one there is. -/
theorem gateFallingEdge : Obligations.GateFallingEdge := by
  intro s hlive
  refine ⟨_, exec_falling hlive, ?_⟩
  rw [gateAt_eq]
  generalize hi : { s.inputs with pgate := { level := !gateActiveLevel s, agree := 0 } } = inputs
  have pin := gateFalling_inputs { s with inputs := inputs }
  refine ⟨pin, fun h => ?_, fun m before r closed rest lead hm hline hq ho hl h hclosed => ?_⟩
  · rw [gateFalling_closed (s := { s with inputs := inputs }) h]
    exact ⟨rfl, portsRaise_raise _ _⟩
  · have hopen := openRecord_of_one (s := { s with inputs := inputs }) hq ho fun q hq => (h q hq).1
    have hc : closed = (trailClosed r s.pos.xPrint).compareLength m :=
      hclosed.trans (compareLength_trailClosed hl).symm
    obtain ⟨stays, gone⟩ := closeOpenTrail_of_one (f := Panel.compareLength m) (s := { s with inputs := inputs }) hq ho h hc
      (hc ▸ alike_compareLength m _)
    rw [gateFalling_open (s := { s with inputs := inputs }) hm hline hopen]
    have keep (hst : r.state ≠ .transferring ∨ s.pos.xNip < s.pos.xPrint + 10 * m.arcLen) :=
      nominal_of_closed (s := { s with inputs := inputs }) hm (stays hst)
    have complete (hst : r.state = .transferring) (hle : s.pos.xPrint + 10 * m.arcLen ≤ s.pos.xNip) :=
      nominal_of_completed (s := { s with inputs := inputs }) hm (gone hst hle)
    refine ⟨?_, fun hst => ?_, fun hst hle => ?_⟩
    · by_cases hst : r.state ≠ .transferring ∨ s.pos.xNip < s.pos.xPrint + 10 * m.arcLen
      · rw [keep hst]
      · rw [not_or, not_not, Nat.not_lt] at hst
        obtain ⟨raised, hframe, -⟩ := complete hst.1 hst.2
        rw [hframe]
    · rw [keep hst]
    · obtain ⟨raised, hframe, hcomp, hports⟩ := complete hst hle
      have lead' : closed.lead.getD 0 = lead := by
        rw [hclosed]
        exact congrArg (·.getD 0) ((trailClosed_lead r _).trans hl)
      have trail' : closed.trail.getD 0 = s.pos.xPrint := by
        rw [hclosed]
        exact congrArg (·.getD 0) (trailClosed_trail r _)
      rw [lead', trail'] at hcomp
      refine ⟨raised, ?_, hcomp, hports⟩
      generalize paceNominal (closeOpenTrail m (Panel.compareLength m) { s with inputs := inputs }) = t at hframe ⊢
      rw [congrArg State.inputs hframe, congrArg State.pace hframe]
      exact hframe

end Sys2Proof.Proofs
end

