-- ==== Sys2Proof/Proofs/CalenderCount.lean ====
section
/-!
O41: a calender count over one printed record, and what a stop cause at the end of an event does.
-/
namespace Sys2Proof.Proofs

open Sys2Proof.Machine Sys2Proof.Safety

/-! ## One stop cause at the end of an event (R160 to R162, R170) -/

/-- LINE_HALTED where the cause latches. -/
def latchKind (s : State) : AttnSet :=
  if s.line.state = .tracking then Attn.lineHalted.bit else 0

theorem causeTaken_raiseCause (s : State) (c : StopCause) : CauseTaken s (raiseCause s c) c := by
  have flagged : ∀ q : State, (q.mapPanels (·.openTrail) (·.flag .stoppedDuringPrint)).queue =
      q.queue.map fun r => if r.openTrail then r.flag .stoppedDuringPrint else r := fun _ => rfl
  cases h : s.line.state with
  | unset =>
    rw [raiseCause_unset c h]
    exact ⟨rfl, rfl, rfl, fun _ => ⟨rfl, rfl⟩, fun hne => absurd h hne, by simp [h], by simp [h]⟩
  | tracking =>
    simp only [CauseTaken, raiseCause, h]
    exact ⟨rfl, rfl, rfl, nofun, fun _ => ⟨rfl, flagged _⟩, fun _ => rfl, nofun⟩
  | halted =>
    simp only [CauseTaken, raiseCause, h]
    exact ⟨rfl, rfl, rfl, nofun, fun _ => ⟨rfl, flagged _⟩, nofun, fun _ => rfl⟩

theorem raiseCause_frame (s : State) (c : StopCause) :
    raiseCause s c =
      { s with line := (raiseCause s c).line, queue := (raiseCause s c).queue, ports := (raiseCause s c).ports } := by
  unfold raiseCause
  split <;> rfl

theorem portsRaise_raiseCause (s : State) (c : StopCause) : PortsRaise s (raiseCause s c) (latchKind s) := by
  unfold latchKind
  cases h : s.line.state with
  | unset =>
    rw [raiseCause_unset c h]
    exact portsRaise_refl s
  | tracking =>
    simp only [raiseCause, h]
    exact portsRaise_raise _ .lineHalted
  | halted =>
    simp only [raiseCause, h]
    exact portsRaise_refl s

theorem orderCauses_one (c : StopCause) : orderCauses [c] = [c] := by
  cases c <;> rfl

theorem closeEvent_one_eq (b s : State) (c : StopCause) : closeEvent b s [c] = closeEvent b (raiseCause s c) [] := by
  rw [closeEvent, orderCauses_one]
  rfl

/-- An event that ends with one cause: the cause taken, nothing else changed, LINE_HALTED and HOLD_CHANGED raised. -/
theorem closeEvent_one (b s : State) (c : StopCause) :
    CauseTaken s (closeEvent b s [c]) c ∧
      closeEvent b s [c] =
        { s with
          line := (closeEvent b s [c]).line
          queue := (closeEvent b s [c]).queue
          ports := (closeEvent b s [c]).ports } ∧
      PortsRaise s (closeEvent b s [c]) (latchKind s ||| holdKind b (closeEvent b s [c])) := by
  rw [closeEvent_one_eq]
  have frame := closeEvent_nil_frame b (raiseCause s c)
  have raised := portsRaise_trans (portsRaise_raiseCause s c) (portsRaise_closeEvent_nil b (raiseCause s c))
  have taken := causeTaken_raiseCause s c
  have cause := raiseCause_frame s c
  generalize closeEvent b (raiseCause s c) [] = t at *
  have line := congrArg State.line frame
  have queue := congrArg State.queue frame
  refine ⟨?_, ?_, ?_⟩
  · unfold CauseTaken at *
    rw [line, queue]
    exact taken
  · rw [line, queue, frame]
    rw [cause]
  · rwa [holdKind_of_line line]

/-- An event that leaves line control alone and raises no cause ends as it stands. -/
theorem closeEvent_nil_of_line {b s : State} (h : s.line = b.line) : closeEvent b s [] = s := by
  have same : holdAsserted b = holdAsserted s := by simp [holdAsserted, h]
  rw [closeEvent_nil, same, bne_self_eq_false]
  rfl

/-! ## A calender count (R25, R28, R32) -/

/-- Where no threshold lies between the fills, the fill alone is noted (R32, R33). -/
theorem evaluateFill_quiet {m : MachineRecord} {s : State} (h : NoCrossing m s.pos.lastFill s.fill) :
    evaluateFill m s = ({ s with pos := { s.pos with lastFill := s.fill } }, []) := by
  have down : ∀ th ∈ [m.stopLow, m.warnLow, m.resume, m.holdHigh, m.stopHigh],
      crossesDown s.pos.lastFill s.fill th = false := fun th hth => decide_eq_false fun ⟨h1, h2⟩ => by
    have := (h th hth).2.mp h1
    omega
  have up : ∀ th ∈ [m.stopLow, m.warnLow, m.resume, m.holdHigh, m.stopHigh],
      crossesUp s.pos.lastFill s.fill th = false := fun th hth => decide_eq_false fun ⟨h1, h2⟩ => by
    have := (h th hth).1.mp h1
    omega
  simp only [evaluateFill, fillCauses, down m.stopLow (by simp), up m.stopHigh (by simp), down m.warnLow (by simp)]
  have kept : ∀ hs, fillHighAfter m s.pos.lastFill s.fill hs = hs := fun hs => by
    rw [fillHighAfter, up m.holdHigh (by simp), down m.resume (by simp)]
    rfl
  rw [show fillHighAfter m s.pos.lastFill s.fill = id from funext kept]
  rfl

/-- The coordinates after a forward count that carries x_nip on by whole WU, over the thresholds of no fill. -/
def countedPos (s : State) (x rem : Nat) : Position :=
  { s.pos with xNip := x, remNip := rem, lastFill := s.pos.xPrint - x, netCal := s.pos.netCal + 1 }

/-- Such a count is the arrivals, completions and missed marks at its x_nip, with NIP_OVERRUN where they bring it. -/
theorem exec_cencForward {s : State} {m : MachineRecord} {carry rem x : Nat} (hrun : s.running = true)
    (hm : s.line.active = some m) (hl : s.line.state ≠ .unset)
    (hc : s.pos.remNip + m.cencRes = carry * 100000 + rem) (hrem : rem < 100000) (hcarry : 1 ≤ carry)
    (hx : x = s.pos.xNip + carry) (hle : x ≤ s.pos.xPrint) (hno : NoCrossing m s.pos.lastFill (s.pos.xPrint - x)) :
    exec (.cencCount .forward) s =
      .next (closeEvent s
        (missByPosition m (completeRecords m (nipArrival { s with pos := countedPos s x rem }).1))
        (nipArrival { s with pos := countedPos s x rem }).2) := by
  have quot : (s.pos.remNip + m.cencRes) / wuNm = carry := by
    rw [hc, wuNm]
    omega
  have mod : (s.pos.remNip + m.cencRes) % wuNm = rem := by
    rw [hc, wuNm]
    omega
  have counted : nipCount .forward (s.updatePos fun p => { p with netCal := p.netCal + countStep .forward }) =
      nipForward m (s.updatePos fun p => { p with netCal := p.netCal + countStep .forward }) := by
    rw [nipCount]
    simp only [State.updatePos_line, hm]
    exact if_pos (onLine_iff.mpr hl)
  have moved : nipForward m (s.updatePos fun p => { p with netCal := p.netCal + countStep .forward }) =
      nipChanged m { s with pos := { s.pos with xNip := x, remNip := rem, netCal := s.pos.netCal + 1 } } := by
    simp only [nipForward, State.updatePos, quot, mod]
    rw [if_neg (by omega), if_neg (by omega), hx]
    rfl
  have filled : evaluateFill m { s with pos := { s.pos with xNip := x, remNip := rem, netCal := s.pos.netCal + 1 } } =
      ({ s with pos := countedPos s x rem }, []) := evaluateFill_quiet hno
  have run : exec (.cencCount .forward) s = .next (closeEvent s
      (nipCount .forward (s.updatePos fun p => { p with netCal := p.netCal + countStep .forward })).1
      (nipCount .forward (s.updatePos fun p => { p with netCal := p.netCal + countStep .forward })).2) :=
    congrArg Host.Outcome.next (if_pos hrun)
  rw [run, counted, moved, nipChanged, filled]
  rfl

/-! ## Arrival and the missed mark of one record (R15, R16, R46) -/

theorem nipArrival_one {s : State} {r : Panel} (hq : s.queue = [r]) :
    nipArrival s =
      ({ s with queue := [if r.reached s.pos.xNip then r.arrive else r] },
        if r.reached s.pos.xNip && decide (r.state = .printing) then [.nipOverrun] else []) := by
  simp [nipArrival, State.mapPanels, hq]

theorem missByPosition_one (m : MachineRecord) {s : State} {q : Panel} (hq : s.queue = [q]) :
    missByPosition m s = { s with queue := [if markPassed m s.pos.xNip q then q.missMark else q] } := by
  simp [missByPosition, State.mapPanels, hq]

/-- A mark still "none yet" past its window is missed (R46). -/
theorem missed_eq {m : MachineRecord} {x lead : Nat} {q : Panel} (hl : q.lead = some lead) :
    (if markPassed m x q then q.missMark else q) =
      if q.mark = some .noneYet ∧ (lead : Int) - m.markLead + m.syncLimit ≤ x then
        { q with mark := some .missed, flags := addFlag q.flags .markMissed }
      else q := by
  have passed : markPassed m x q = true ↔ q.mark = some .noneYet ∧ (lead : Int) - m.markLead + m.syncLimit ≤ x := by
    rw [markPassed, hl]
    split
    · rename_i hmark hlead
      cases hlead
      simp [hmark]
    · rename_i hno
      exact ⟨nofun, fun ⟨hmark, _⟩ => absurd rfl (hno lead hmark)⟩
  simp only [passed]
  rfl

theorem completes_of_state {m : MachineRecord} {x : Nat} {r : Panel} (h : r.state ≠ .transferring) :
    completes m x r = false :=
  completes_eq_false fun _ hst => absurd hst h

/-! ## The count -/

/-- Settles O41: the count's arrivals and completions case by case of the one record's state. -/
theorem arrivalAndCompletion : Obligations.ArrivalAndCompletion := by
  intro s m r lead carry rem x passed hrun hm hline hq hlead hc hrem hcarry hx hle hno hpassed
  have arrived := nipArrival_one (s := { s with pos := countedPos s x rem }) hq
  have stays (q : Panel) (hql : q.lead = some lead) (hqc : completes m x q = false) :
      missByPosition m (completeRecords m { s with pos := countedPos s x rem, queue := [q] }) =
        { s with pos := countedPos s x rem, queue := [passed q] } := by
    rw [completeRecords_of_none fun a ha => List.mem_singleton.mp ha ▸ hqc, missByPosition_one m rfl, hpassed]
    exact congrArg (fun a => { s with pos := countedPos s x rem, queue := [a] }) (missed_eq hql)
  have event {q : Panel} {causes : List StopCause}
      (h : nipArrival { s with pos := countedPos s x rem } = ({ s with pos := countedPos s x rem, queue := [q] }, causes))
      (hql : q.lead = some lead) (hqc : completes m x q = false) :
      closeEvent s (missByPosition m (completeRecords m (nipArrival { s with pos := countedPos s x rem }).1))
        (nipArrival { s with pos := countedPos s x rem }).2 =
      closeEvent s { s with pos := countedPos s x rem, queue := [passed q] } causes := by
    rw [h, stays q hql hqc]
  have ended (q : Panel) : closeEvent s { s with pos := countedPos s x rem, queue := [passed q] } [] =
      { s with pos := countedPos s x rem, queue := [passed q] } := closeEvent_nil_of_line rfl
  have away (h : r.reached x = false) :
      nipArrival { s with pos := countedPos s x rem } = ({ s with pos := countedPos s x rem, queue := [r] }, []) := by
    rw [arrived, show r.reached (countedPos s x rem).xNip = false from h]
    rfl
  have reached (h : r.reached x = true) :
      nipArrival { s with pos := countedPos s x rem } =
        ({ s with pos := countedPos s x rem, queue := [r.arrive] }, if r.state = .printing then [.nipOverrun] else []) := by
    rw [arrived, show r.reached (countedPos s x rem).xNip = true from h]
    simp only [reduceIte, Bool.true_and, decide_eq_true_eq]
  refine ⟨_, exec_cencForward hrun hm hline hc hrem hcarry hx hle hno, ?_, fun hst hlt => ?_, fun hst ht hreach => ?_,
    fun trail hst ht hreach hfar => ?_, fun hst hfar => ?_, fun trail hst ht hfar => ?_⟩
  · rw [closeEvent_pos]
    change (completeRecords m _).pos = _
    rw [completeRecords, foldl_completeOne_frame]
    rfl
  · have short : r.reached x = false := by simp [Panel.reached, hlead, Nat.not_le.mpr hlt]
    rw [event (away short) hlead (completes_of_state (by rcases hst with h | h <;> simp [h])), ended]
  · have there : r.reached x = true := by simp [Panel.reached, hst, hlead, hreach]
    obtain ⟨q, hq⟩ : ∃ q : Panel, q = { r with
        state := .transferring
        probes := [{ position := lead, accumulator := 0, inArc := false }]
        flags := addFlag r.flags .overrun } := ⟨_, rfl⟩
    have arrive : r.arrive = q := by
      rw [hq, Panel.arrive, hst, hlead]
      rfl
    have form := reached there
    rw [arrive, if_pos hst] at form
    rw [event form (by rw [hq]; exact hlead) (completes_eq_false fun trail _ htr => by
      rw [hq] at htr
      exact nomatch ht.symm.trans htr), ← hq]
    obtain ⟨htaken, hframe, hraise⟩ := closeEvent_one s { s with pos := countedPos s x rem, queue := [passed q] } .nipOverrun
    rw [closeEvent_pos]
    exact ⟨htaken, hframe, hraise⟩
  · have there : r.reached x = true := by simp [Panel.reached, hst, hlead, hreach]
    obtain ⟨q, hq⟩ : ∃ q : Panel, q = { r with
        state := .transferring
        probes :=
          [{ position := lead, accumulator := 0, inArc := false },
            { position := lead + (trail - lead) / 2, accumulator := 0, inArc := false },
            { position := trail, accumulator := 0, inArc := false }] } := ⟨_, rfl⟩
    have arrive : r.arrive = q := by
      rw [hq, Panel.arrive, hst, hlead, ht]
      rfl
    have form := reached there
    rw [arrive, if_neg (by simp [hst])] at form
    rw [event form (by rw [hq]; exact hlead) (completes_eq_false fun t _ htr => by
      rw [hq] at htr
      obtain rfl : trail = t := Option.some.inj (ht.symm.trans htr)
      exact hfar), ended, ← hq]
  · have short : r.reached x = false := by simp [Panel.reached, hst]
    rw [event (away short) hlead (completes_eq_false fun trail _ htr => hfar trail htr), ended]
  · have short : r.reached x = false := by simp [Panel.reached, hst]
    obtain ⟨raised, hcomp, hraise⟩ := completes_completeOne { s with pos := countedPos s x rem, queue := [] } r
    have frame := completeOne_frame { s with pos := countedPos s x rem, queue := [] } r
    have gone : completeRecords m { s with pos := countedPos s x rem, queue := [r] } =
        completeOne { s with pos := countedPos s x rem, queue := [] } r :=
      completeRecords_of_one (before := []) (rest := []) rfl (completes_eq_true hst ht hfar) nofun
    rw [away short, gone]
    rw [hlead, ht] at hcomp
    generalize completeOne { s with pos := countedPos s x rem, queue := [] } r = c at *
    have queue : c.queue = [] := by rw [frame]
    have line : c.line = s.line := by rw [frame]
    have noMark : missByPosition m c = c := by
      rw [frame]
      rfl
    rw [noMark, closeEvent_nil_of_line line]
    refine ⟨raised, ?_, completes_congr rfl rfl rfl rfl hcomp, hraise⟩
    rw [congrArg State.pos frame]
    exact frame

end Sys2Proof.Proofs
end

