-- ==== Sys2Proof/Proofs/EdgeEnd.lean ====
section
/-!
O43: a gate rising edge: the open trail closed, the next record started, and what the edge ends with.
-/
namespace Sys2Proof.Proofs

open Sys2Proof.Machine Sys2Proof.Safety

/-! ## Queues without an unprinted record (R80, R86) -/

theorem filter_unprinted_of_printed {l : List Panel} (h : ∀ q ∈ l, q.printed = true) : l.filter (·.unprinted) = [] :=
  List.filter_eq_nil_iff.mpr fun q hq => by simpa [Panel.printed] using h q hq

/-- With no unprinted record the scheduler has nothing to start (R78, R80). -/
theorem reevaluate_of_printed {s : State} (h : ∀ q ∈ s.queue, q.printed = true) : reevaluate s = s := by
  have none : ∀ m, eligibleRecords m s = [] := fun m => by
    rw [eligibleRecords, lookahead, filter_unprinted_of_printed h]
    rfl
  have idle : ∀ m, startComputation m [] s = s := fun m => by
    unfold startComputation
    split
    · rename_i hsome
      cases hsome
    · rfl
  unfold reevaluate
  split
  · rename_i m _
    rw [none m, idle m]
    rfl
  · rfl

theorem unreadyHolds_of_printed {s : State} (h : ∀ q ∈ s.queue, q.printed = true) : unreadyHolds s = false := by
  have none : firstUnprinted s = none := List.find?_eq_none.mpr fun q hq => by simpa [Panel.printed] using h q hq
  unfold unreadyHolds
  rw [none]
  split
  · rename_i hnone
    cases hnone
  · rfl

theorem openTrail_of_unprinted {r : Panel} (h : r.unprinted = true) : r.openTrail = false := by
  simp [Panel.openTrail, Panel.printed, h]

/-- A flag on the record with an open trail leaves UNREADY's condition as it is (R86). -/
theorem unreadyHolds_flagOpen {s t : State} {f : Flag} (hl : t.line.active = s.line.active)
    (hq : t.queue = s.queue.map fun r => if r.openTrail then r.flag f else r) : unreadyHolds t = unreadyHolds s := by
  have first : firstUnprinted t = firstUnprinted s := by
    have same : ∀ r : Panel, (if r.openTrail then r.flag f else r).unprinted = r.unprinted := fun r => by
      split <;> rfl
    rw [firstUnprinted, firstUnprinted, hq, List.find?_map]
    rw [show ((·.unprinted) ∘ fun r : Panel => if r.openTrail then r.flag f else r) = (·.unprinted) from funext same]
    cases hf : s.queue.find? (·.unprinted) with
    | none => rfl
    | some r =>
      have hr : r.openTrail = false := openTrail_of_unprinted (by simpa using List.find?_some hf)
      simp [hr]
  rw [unreadyHolds, unreadyHolds, hl, first]

/-! ## The edge's own steps -/

/-- No record that is unprinted, or whose lead x_nip has not reached, or that is TRANSFERRING already, arrives. -/
theorem reached_eq_false {r : Panel} {x : Nat}
    (h : r.unprinted = true ∨ r.state = .transferring ∨ ∃ lead, r.lead = some lead ∧ x < lead) : r.reached x = false := by
  rcases h with h | h | ⟨lead, hl, hlt⟩
  · cases hst : r.state <;> simp_all [Panel.reached, Panel.unprinted]
  · simp [Panel.reached, h]
  · simp [Panel.reached, hl, Nat.not_le.mpr hlt]

/-- The record that the edge starts, where it stands at x_nip: TRANSFERRING with its lead probe and OVERRUN (R16). -/
def overrunAtEdge (new : Panel) (x : Nat) : Panel :=
  { new with
    state := .transferring
    probes := [{ position := x, accumulator := 0, inArc := false }]
    flags := addFlag new.flags .overrun }

/-- A started record among records that do not arrive: it arrives itself exactly where its lead is x_nip (R16). -/
theorem nipArrival_started {v : State} {kept unprinted : List Panel} {new : Panel} (hq : v.queue = kept ++ new :: unprinted)
    (hk : ∀ q ∈ kept ++ unprinted, q.reached v.pos.xNip = false) (hst : new.state = .printing)
    (hl : new.lead = some v.pos.xPrint) :
    (v.pos.xNip < v.pos.xPrint → nipArrival v = (v, [])) ∧
      (v.pos.xNip = v.pos.xPrint →
        nipArrival v =
          ({ v with queue := kept ++ overrunAtEdge new v.pos.xPrint :: unprinted }, [.nipOverrun])) := by
  have same : ∀ l : List Panel, (∀ q ∈ l, q ∈ kept ++ unprinted) →
      l.map (fun q => if q.reached v.pos.xNip then q.arrive else q) = l := fun l hl => by
    refine (List.map_congr_left fun q hq => ?_).trans (List.map_id l)
    rw [hk q (hl q hq)]
    rfl
  have quiet : ∀ l : List Panel, (∀ q ∈ l, q ∈ kept ++ unprinted) →
      l.any (fun q => q.reached v.pos.xNip && decide (q.state = .printing)) = false := fun l hl => by
    refine List.any_eq_false.mpr fun q hq => ?_
    rw [hk q (hl q hq)]
    exact Bool.false_ne_true
  have map : (v.mapPanels (·.reached v.pos.xNip) Panel.arrive).queue =
      kept ++ (if new.reached v.pos.xNip then new.arrive else new) :: unprinted := by
    change v.queue.map (fun q => if q.reached v.pos.xNip then q.arrive else q) = _
    rw [hq, List.map_append, List.map_cons, same kept fun q => List.mem_append_left unprinted,
      same unprinted fun q => List.mem_append_right kept]
  have any : v.queue.any (fun q => q.reached v.pos.xNip && decide (q.state = .printing)) = new.reached v.pos.xNip := by
    rw [hq, List.any_append, List.any_cons, quiet kept fun q => List.mem_append_left unprinted,
      quiet unprinted fun q => List.mem_append_right kept, hst]
    simp
  have form : nipArrival v =
      ({ v with queue := kept ++ (if new.reached v.pos.xNip then new.arrive else new) :: unprinted },
        if new.reached v.pos.xNip then [.nipOverrun] else []) := by
    rw [← map, nipArrival, any]
    rfl
  refine ⟨fun hlt => ?_, fun heq => ?_⟩
  · rw [form, reached_eq_false (.inr (.inr ⟨_, hl, hlt⟩)), if_neg Bool.false_ne_true, if_neg Bool.false_ne_true, ← hq]
  · have there : new.reached v.pos.xNip = true := by simp [Panel.reached, hst, hl, heq]
    have arrive : new.arrive = overrunAtEdge new v.pos.xPrint := by
      rw [Panel.arrive, overrunAtEdge, hst, hl]
      rfl
    rw [form, there, if_pos rfl, if_pos rfl, arrive]

/-- The pace at an edge that leaves a record with an open trail: its correction's scale, else nominal (R94). -/
theorem paceAtEdge_open {s : State} {m : MachineRecord} {r : Panel} (hm : s.line.active = some m)
    (ho : openRecord s = some r) :
    paceAtEdge s =
      { s with
        pace :=
          { s.pace with
            panel := 0
            threshold := some (paceThreshold m ((r.correction.map (·.along)).getD 1000000))
            source := r.correction.map fun c => { panel := r.id, along := c.along } } } := by
  cases hc : r.correction with
  | none =>
    simp only [paceAtEdge, hm, ho, Option.bind_some, hc, Option.map_none, paceNominal_eq hm]
    rfl
  | some c =>
    simp only [paceAtEdge, hm, ho, Option.bind_some, hc, Option.map_some]
    rfl

/-- The pace at an edge that leaves none: nominal (R94). -/
theorem paceAtEdge_none {s : State} {m : MachineRecord} (hm : s.line.active = some m) (ho : openRecord s = none) :
    paceAtEdge s =
      { s with pace := { s.pace with panel := 0, threshold := some (paceThreshold m 1000000), source := none } } := by
  simp only [paceAtEdge, hm, ho, Option.bind_none, paceNominal_eq hm]
  rfl

/-! ## The end of an edge (R12, R16, R80, R86, R94) -/

/-- The edge as it ends, from its arrivals on: the pace, UNREADY and the scheduler. -/
def edgeSettled (w : State) : State :=
  reevaluate (syncUnready (paceAtEdge w))

theorem paceAtEdge_frame (s : State) : ∃ g, paceAtEdge s = { s with pace := g } := by
  unfold paceAtEdge paceNominal
  split
  · exact ⟨_, rfl⟩
  · split <;> exact ⟨_, rfl⟩

theorem edgeSettled_changes (w : State) :
    ∃ (e : Option Computation) (n : Fin 8) (h : Option StoreOp) (f : Option SlotId),
      edgeSettled w =
        { w with
          pace := (paceAtEdge w).pace
          line := { w.line with hold := { w.line.hold with unready := unreadyHolds w } }
          engine := e
          cache := { w.cache with nlu := n }
          store := { w.store with holder := h, fillWaiting := f } } := by
  obtain ⟨g, hg⟩ := paceAtEdge_frame w
  obtain ⟨e, n, o, f, h⟩ := reevaluate_changes (syncUnready (paceAtEdge w))
  refine ⟨e, n, o, f, ?_⟩
  rw [hg] at h
  rw [edgeSettled, hg, h]
  rfl

theorem edgeSettled_line (w : State) :
    (edgeSettled w).line = { w.line with hold := { w.line.hold with unready := unreadyHolds w } } := by
  obtain ⟨e, n, o, f, h⟩ := edgeSettled_changes w
  rw [h]

theorem edgeSettled_pace (w : State) : (edgeSettled w).pace = (paceAtEdge w).pace := by
  obtain ⟨e, n, o, f, h⟩ := edgeSettled_changes w
  rw [h]

theorem edgeSettled_queue (w : State) : (edgeSettled w).queue = w.queue := by
  obtain ⟨e, n, o, f, h⟩ := edgeSettled_changes w
  rw [h]

theorem edgeSettled_ports (w : State) : (edgeSettled w).ports = w.ports := by
  obtain ⟨e, n, o, f, h⟩ := edgeSettled_changes w
  rw [h]

theorem edgeSettled_pos (w : State) : (edgeSettled w).pos = w.pos := by
  obtain ⟨e, n, o, f, h⟩ := edgeSettled_changes w
  rw [h]

/-- Over a queue all printed the scheduler starts nothing. -/
theorem edgeSettled_idle {w : State} (h : ∀ q ∈ w.queue, q.printed = true) :
    (edgeSettled w).engine = w.engine ∧ (edgeSettled w).cache = w.cache ∧ (edgeSettled w).store = w.store := by
  obtain ⟨g, hg⟩ := paceAtEdge_frame w
  rw [edgeSettled, hg, reevaluate_of_printed (by exact h)]
  exact ⟨rfl, rfl, rfl⟩

/-- The end of the event changes line, queue and ports beside what the edge has settled. -/
theorem closeEvent_edge {v w t : State} (hw : w = { v with queue := w.queue })
    (h : t = { edgeSettled w with line := t.line, queue := t.queue, ports := t.ports }) :
    t = withScheduling { v with queue := t.queue, pace := t.pace, line := t.line, ports := t.ports } t := by
  obtain ⟨e, n, o, f, form⟩ := edgeSettled_changes w
  rw [form] at h
  generalize w.queue = q at hw
  generalize t.line = l at h ⊢
  generalize t.queue = k at h ⊢
  generalize t.ports = p at h ⊢
  rw [h, hw]
  rfl

theorem causeTaken_congr {s s' t : State} {c : StopCause} (hl : s'.line = s.line) (hq : s'.queue = s.queue)
    (hp : s'.pos = s.pos) (h : CauseTaken s t c) : CauseTaken s' t c := by
  unfold CauseTaken openRecord at *
  rw [hl, hq, hp]
  exact h

/-- An edge that ends with one cause takes it over the state with UNREADY brought to its condition. -/
theorem causeTaken_edge {s w t : State} {c : StopCause} (hline : w.line = s.line) (hpos : w.pos = s.pos)
    (hon : s.line.state ≠ .unset) (hend : t = closeEvent s (edgeSettled w) [c]) :
    t.line.hold = { s.line.hold with unready := unreadyHolds w } ∧ unreadyHolds t = unreadyHolds w ∧
      t.pace = (paceAtEdge w).pace ∧
      CauseTaken { s with line := { s.line with hold := t.line.hold }, queue := w.queue } t c ∧
      t = { edgeSettled w with line := t.line, queue := t.queue, ports := t.ports } ∧
      PortsRaise w t (causeKinds s t) := by
  obtain ⟨taken, frame, raise⟩ := closeEvent_one s (edgeSettled w) c
  rw [← hend] at taken frame raise
  have line := edgeSettled_line w
  rw [hline] at line
  have hold : t.line.hold = { s.line.hold with unready := unreadyHolds w } := by rw [taken.1, line]
  obtain ⟨-, flagged⟩ := taken.2.2.2.2.1 (by rw [line]; exact hon)
  rw [edgeSettled_queue] at flagged
  refine ⟨hold, unreadyHolds_flagOpen ?_ flagged, ?_, ?_, frame, ?_⟩
  · rw [taken.2.1, line, hline]
  · rw [congrArg State.pace frame, ← edgeSettled_pace]
  · refine causeTaken_congr ?_ (edgeSettled_queue w).symm ?_ taken
    · rw [hold, line]
    · rw [edgeSettled_pos, hpos]
  · have latch : latchKind (edgeSettled w) = latchKind s := by rw [latchKind, line]; rfl
    rw [latch] at raise
    exact fun q => (edgeSettled_ports w) ▸ raise q

/-- An edge that starts a record ends as `StartsRecord` says, and changes no more than the scheduler may. -/
theorem startsRecord_of_started {s v t : State} {m : MachineRecord} {kept unprinted : List Panel} {new : Panel}
    {raised : AttnSet} (hm : s.line.active = some m) (hon : s.line.state ≠ .unset) (hline : v.line = s.line)
    (hpos : v.pos = s.pos) (hpace : v.pace = s.pace) (hports : PortsRaise s v raised)
    (hq : v.queue = kept ++ new :: unprinted) (hk : ∀ q ∈ kept ++ unprinted, q.reached s.pos.xNip = false ∧ q.openTrail = false)
    (hst : new.state = .printing) (hl : new.lead = some s.pos.xPrint) (ht : new.trail = none)
    (hle : s.pos.xNip ≤ s.pos.xPrint)
    (hend : t = closeEvent s (edgeSettled (nipArrival v).1) (nipArrival v).2) :
    StartsRecord s t m kept new unprinted raised ∧
      t = withScheduling { v with queue := t.queue, pace := t.pace, line := t.line, ports := t.ports } t := by
  obtain ⟨away, there⟩ := nipArrival_started hq (fun q hq => by rw [hpos]; exact (hk q hq).1) hst (by rw [hpos]; exact hl)
  rw [hpos] at away there
  have active : v.line.active = some m := by rw [hline]; exact hm
  rcases Nat.lt_or_eq_of_le hle with hlt | heq
  · have hopen : openRecord v = some new :=
      openRecord_of_one hq (openTrail_iff.mpr ⟨printed_of_printing hst, ht⟩) fun q hq => (hk q hq).2
    have line := edgeSettled_line v
    have pace := edgeSettled_pace v
    rw [paceAtEdge_open active hopen] at pace
    rw [away hlt] at hend
    have frame := closeEvent_nil_frame s (edgeSettled v)
    have raise := portsRaise_closeEvent_nil s (edgeSettled v)
    rw [← hend] at frame raise
    have tline := congrArg State.line frame
    have tqueue := (congrArg State.queue frame).trans (edgeSettled_queue v)
    have unready : unreadyHolds t = unreadyHolds v := unreadyHolds_congr (by rw [frame, line]) tqueue
    rw [line, hline, ← unready] at tline
    refine ⟨⟨?_, ?_, fun _ => ⟨tqueue.trans hq, ?_, ?_⟩, fun h => absurd h hlt.ne⟩, ?_⟩
    · rw [congrArg State.pace frame, pace, hpace]
    · rw [tline]
    · rw [tline]
    · have same : holdKind s t = holdKind s (edgeSettled v) := holdKind_of_line (by rw [frame])
      rw [same]
      exact portsRaise_trans hports fun q => (edgeSettled_ports v) ▸ raise q
    · refine closeEvent_edge (w := v) rfl ?_
      rw [congrArg State.line frame, congrArg State.queue frame]
      exact frame
  · rw [there heq] at hend
    obtain ⟨w, hw⟩ : ∃ w, w = { v with pos := s.pos, queue := kept ++ overrunAtEdge new s.pos.xPrint :: unprinted } :=
      ⟨_, rfl⟩
    rw [← hw] at hend
    obtain ⟨hold, unready, pace, taken, frame, raise⟩ :=
      causeTaken_edge (by rw [hw]; exact hline) (by rw [hw]) hon hend
    have hopen : openRecord w = some (overrunAtEdge new s.pos.xPrint) :=
      openRecord_of_one (by rw [hw]) (openTrail_iff.mpr ⟨rfl, ht⟩) fun q hq => (hk q hq).2
    rw [paceAtEdge_open (by rw [hw]; exact active) hopen] at pace
    refine ⟨⟨?_, ?_, fun h => absurd heq h.ne, fun _ => ⟨?_, ?_⟩⟩, ?_⟩
    · rw [pace, hw, hpace]
      rfl
    · rw [hold, unready]
    · rw [hw] at taken
      exact taken
    · rw [hw] at raise
      exact portsRaise_trans hports raise
    · exact closeEvent_edge (by rw [hw, ← hpos]) frame

end Sys2Proof.Proofs
end

