-- ==== Sys2Proof/Proofs/GateRising.lean ====
section
/-!
O43: a gate rising edge, from the record it closes to the record it starts.
-/
namespace Sys2Proof.Proofs

open Sys2Proof.Machine Sys2Proof.Safety

theorem exec_rising {s : State} (h : s.live = true) :
    exec .pgateRisingEdge s = .next (gateRising (gateAt (gateActiveLevel s) s)) :=
  congrArg Host.Outcome.next (if_pos h)

/-! ## The edge ignored (R37, R38) -/

theorem gateRising_ignored {s : State} (h : s.line.state = .unset ∨ risingIgnored s = true) :
    gateRising s = s.raise .gateFault := by
  have stays : ¬ (s.onLine && !risingIgnored s) = true := by
    rcases h with h | h
    · simp [State.onLine, h]
    · simp [h]
  unfold gateRising
  split
  · exact if_neg stays
  · rfl

theorem risingIgnored_eq_true {s : State}
    (h : s.pos.vPrint.reverse = true ∨ ∃ r, newestPrinted s = some r ∧ s.pos.xPrint ≤ r.lead.getD 0) :
    risingIgnored s = true := by
  rcases h with h | ⟨r, hr, hle⟩
  · simp [risingIgnored, h]
  · simp [risingIgnored, hr, hle]

theorem gateRising_taken {s : State} {m : MachineRecord} (hm : s.line.active = some m) (hon : s.line.state ≠ .unset)
    (hi : risingIgnored s = false) : gateRising s = takeRisingEdge m s := by
  rw [gateRising, hm, hi]
  exact if_pos (by simpa using onLine_iff.mpr hon)

/-- The edge is not ignored where x_print is past every printed lead (R14, R38). -/
theorem risingIgnored_eq_false {s : State} {front rest : List Panel} (hq : s.queue = front ++ rest)
    (hrev : s.pos.vPrint.reverse = false) (hf : ∀ q ∈ front, ∃ lead, q.lead = some lead ∧ lead < s.pos.xPrint)
    (hr : ∀ q ∈ rest, q.unprinted = true) : risingIgnored s = false := by
  rw [risingIgnored, hrev, Bool.false_or]
  split
  · rename_i r hnew
    obtain ⟨hmem, hp⟩ := List.mem_filter.mp (List.mem_of_getLast? hnew)
    rw [hq] at hmem
    rcases List.mem_append.mp hmem with hmem | hmem
    · obtain ⟨lead, hl, hlt⟩ := hf r hmem
      simp [hl, hlt]
    · simp [Panel.printed, hr r hmem] at hp
  · rfl

/-! ## The open trail closed with GATE_FAULT (R10, R16) -/

/-- A record that the edge closes. -/
def closedAtEdge (x : Nat) (q : Panel) : Panel :=
  { trailClosed q x with flags := addFlag q.flags .gateFault }

theorem closedAtEdge_eq (x : Nat) (q : Panel) : (q.closeTrail x).flag .gateFault = closedAtEdge x q := by
  rw [closeTrail_eq, Panel.flag, trailClosed_flags]
  rfl

/-- What the edge asks of the web about it (R14, R15): printed records in front, of which some have their trail open, each
TRANSFERRING or with its lead beyond x_nip, none about to complete; unprinted records behind. -/
structure WebAtEdge (s : State) (m : MachineRecord) (before opened rest : List Panel) : Prop where
  arc : 1 ≤ m.arcLen
  nip : s.pos.xNip ≤ s.pos.xPrint
  queue : s.queue = before ++ opened ++ rest
  settled : ∀ q ∈ before, q.printed = true ∧ q.openTrail = false ∧
    ∀ trail, q.state = .transferring → q.trail = some trail → s.pos.xNip < trail + 10 * m.arcLen
  opens : ∀ q ∈ opened, q.openTrail = true
  leads : ∀ q ∈ before ++ opened, ∃ lead, q.lead = some lead ∧ lead < s.pos.xPrint ∧
    (q.state = .transferring ∨ s.pos.xNip < lead)
  waiting : ∀ q ∈ rest, q.unprinted = true

/-- The records kept on the web are printed, their trails closed, and none arrives. -/
theorem WebAtEdge.kept {s : State} {m : MachineRecord} {before opened rest : List Panel} (h : WebAtEdge s m before opened rest) :
    ∀ q ∈ before ++ opened.map (closedAtEdge s.pos.xPrint),
      q.printed = true ∧ q.openTrail = false ∧ q.reached s.pos.xNip = false ∧
        ∀ trail, q.state = .transferring → q.trail = some trail → s.pos.xNip < trail + 10 * m.arcLen := by
  intro q hq
  rcases List.mem_append.mp hq with hq | hq
  · obtain ⟨hp, ho, hfar⟩ := h.settled q hq
    obtain ⟨lead, hl, -, hst⟩ := h.leads q (List.mem_append_left _ hq)
    exact ⟨hp, ho, reached_eq_false (.inr (hst.imp_right fun hlt => ⟨lead, hl, hlt⟩)), hfar⟩
  · obtain ⟨r, hr, rfl⟩ := List.mem_map.mp hq
    obtain ⟨lead, hl, -, hst⟩ := h.leads r (List.mem_append_right _ hr)
    have trail : (closedAtEdge s.pos.xPrint r).trail = some s.pos.xPrint := trailClosed_trail r _
    have printed : (closedAtEdge s.pos.xPrint r).printed = true := by
      rw [← closedAtEdge_eq]
      exact (closeTrail_fields r _).1
    refine ⟨printed, by simp [Panel.openTrail, trail], reached_eq_false (.inr (hst.imp (trailClosed_state r _).1 fun hlt =>
      ⟨lead, (trailClosed_lead r _).trans hl, hlt⟩)), fun t _ ht => ?_⟩
    obtain rfl : s.pos.xPrint = t := Option.some.inj (trail.symm.trans ht)
    have := h.arc
    have := h.nip
    omega

/-- The edge closes what is open, and no record completes. -/
theorem WebAtEdge.closed {s : State} {m : MachineRecord} {before opened rest : List Panel}
    (h : WebAtEdge s m before opened rest) :
    closeOpenTrail m (·.flag .gateFault) s =
      { s with queue := before ++ opened.map (closedAtEdge s.pos.xPrint) ++ rest } := by
  have same : ∀ l : List Panel, (∀ q ∈ l, q.openTrail = false) →
      l.map (fun q => if q.openTrail then (q.closeTrail s.pos.xPrint).flag .gateFault else q) = l := fun l hl => by
    refine (List.map_congr_left fun q hq => ?_).trans (List.map_id l)
    rw [hl q hq]
    rfl
  have trails : (trailsClosed (·.flag .gateFault) s).queue =
      before ++ opened.map (closedAtEdge s.pos.xPrint) ++ rest := by
    change s.queue.map (fun q => if q.openTrail then (q.closeTrail s.pos.xPrint).flag .gateFault else q) = _
    rw [h.queue, List.map_append, List.map_append, same before fun q hq => (h.settled q hq).2.1,
      same rest fun q hq => openTrail_of_unprinted (h.waiting q hq)]
    congr 2
    refine List.map_congr_left fun q hq => ?_
    rw [if_pos (h.opens q hq), closedAtEdge_eq]
  have form : closeOpenTrail m (·.flag .gateFault) s =
      completeRecords m { s with queue := before ++ opened.map (closedAtEdge s.pos.xPrint) ++ rest } := by
    rw [← trails]
    rfl
  rw [form]
  refine completeRecords_of_none fun q hq => ?_
  rcases List.mem_append.mp hq with hq | hq
  · exact completes_eq_false (h.kept q hq).2.2.2
  · refine completes_of_state fun hst => ?_
    have := h.waiting q hq
    simp [Panel.unprinted, hst] at this

/-! ## The edge's three starts (R11, R12) -/

/-- The record that the edge starts from the unprinted ones, its fields written out (R11). -/
theorem start_eq (r : Panel) (x : Nat) (held : Bool) :
    r.start x held =
      { r with
        state := .printing
        lead := some x
        trail := none
        mark := if r.normal = none then none else some .noneYet
        flags :=
          r.flags ||| (if held = true then Flag.heldStart.bit else 0) |||
            (if r.isReady = true then 0 else Flag.uncorrected.bit) } := by
  have mark : (r.normal.map fun _ => MarkState.noneYet) = if r.normal = none then none else some .noneYet := by
    cases r.normal <;> rfl
  rw [Panel.start, mark]
  cases held <;> cases r.isReady <;> simp [Panel.flagIf, Panel.flag, addFlag]

theorem gateRising_inputs (s : State) : (gateRising s).inputs = s.inputs := by
  have started (held : Bool) (u : State) : (startNext held u).1.inputs = u.inputs := by
    unfold startNext
    split
    · rfl
    · split <;> rfl
  have settled (w : State) : (edgeSettled w).inputs = w.inputs := by
    obtain ⟨e, n, o, f, h⟩ := edgeSettled_changes w
    rw [h]
  have taken (m : MachineRecord) : (takeRisingEdge m s).inputs = s.inputs := by
    refine (closeEvent_inputs _ _ _).trans ((settled _).trans ?_)
    exact (started _ _).trans (closeOpenTrail_inputs m _ s)
  unfold gateRising
  split
  · split
    · exact taken _
    · rfl
  · rfl

/-- An edge over a web in order, from the closed trail on. -/
theorem takeRisingEdge_closed {s v w : State} {m : MachineRecord} {before opened kept rest : List Panel}
    {causes : List StopCause} (h : WebAtEdge s m before opened rest)
    (hk : kept = before ++ opened.map (closedAtEdge s.pos.xPrint)) (hw : w = { s with queue := kept ++ rest })
    (hv : startNext (holdAsserted s) w = (v, causes)) :
    takeRisingEdge m s = closeEvent s (edgeSettled (nipArrival v).1) (causes ++ (nipArrival v).2) := by
  rw [takeRisingEdge, h.closed, ← hk, ← hw, hv]
  rfl

/-- Where no record is reached none arrives. -/
theorem nipArrival_none {w : State} (h : ∀ q ∈ w.queue, q.reached w.pos.xNip = false) : nipArrival w = (w, []) := by
  have same : w.queue.map (fun q => if q.reached w.pos.xNip then q.arrive else q) = w.queue := by
    refine (List.map_congr_left fun q hq => ?_).trans (List.map_id _)
    rw [h q hq]
    rfl
  have quiet : w.queue.any (fun q => q.reached w.pos.xNip && decide (q.state = .printing)) = false :=
    List.any_eq_false.mpr fun q hq => by simp [h q hq]
  rw [nipArrival, State.mapPanels, same, quiet]
  rfl

/-- A state that what the scheduler may change leaves as another is that other. -/
theorem eq_of_withScheduling {a t : State} (h : t = withScheduling a t) (he : t.engine = a.engine)
    (hc : t.cache = a.cache) (hs : t.store = a.store) : t = a := by
  rw [withScheduling, he, hc, hs] at h
  exact h

/-- Over a queue all printed an edge starts neither a computation nor a fill. -/
theorem edge_idle {b w t : State} {causes : List StopCause} (hp : ∀ q ∈ w.queue, q.printed = true)
    (h : t = closeEvent b (edgeSettled w) causes) : t.engine = w.engine ∧ t.cache = w.cache ∧ t.store = w.store := by
  obtain ⟨he, hc, hs⟩ := edgeSettled_idle hp
  rw [h, closeEvent_engine, closeEvent_cache, closeEvent_store]
  exact ⟨he, hc, hs⟩

theorem printed_nipArrival {v : State} (h : ∀ q ∈ v.queue, q.printed = true) :
    ∀ q ∈ (nipArrival v).1.queue, q.printed = true := by
  intro q hq
  obtain ⟨r, hr, rfl⟩ := List.mem_map.mp hq
  split
  · exact (samePlace_arrive r).1.trans (h r hr)
  · exact h r hr

/-- The records the edge closes keep their ids, and so does the next id. -/
theorem nextId_atEdge {s w : State} {before opened : List Panel} {x : Nat} (hq : s.queue = before ++ opened)
    (hw : w.queue = before ++ opened.map (closedAtEdge x)) (hc : w.idCounter = s.idCounter) (hr : w.records = s.records) :
    nextId w = nextId s := by
  have ids : w.queue.map (·.id) = s.queue.map (·.id) := by
    rw [hw, hq, List.map_append, List.map_append, List.map_map]
    congr 1
    refine List.map_congr_left fun q _ => ?_
    rw [Function.comp, ← closedAtEdge_eq]
    exact (closeTrail_fields q x).2.2.2
  rw [nextId, nextId, idsInUse, idsInUse, ids, hc, hr]

section Starts

variable {s t : State} {m : MachineRecord} {before opened kept : List Panel}

/-- An edge with an unprinted record next starts it (R11). -/
theorem rising_unprinted {r : Panel} {unprinted : List Panel} (web : WebAtEdge s m before opened (r :: unprinted))
    (hk : kept = before ++ opened.map (closedAtEdge s.pos.xPrint)) (hm : s.line.active = some m)
    (hon : s.line.state ≠ .unset) (ht : t = takeRisingEdge m s) :
    StartsRecord s t m kept (r.start s.pos.xPrint (holdAsserted s)) unprinted 0 ∧
      t = withScheduling { s with queue := t.queue, pace := t.pace, line := t.line, ports := t.ports } t := by
  have still := web.kept
  rw [← hk] at still
  obtain ⟨-, hst, hl, htr⟩ := start_fields r s.pos.xPrint (holdAsserted s)
  obtain ⟨v, hv⟩ : ∃ v, v = { s with queue := kept ++ r.start s.pos.xPrint (holdAsserted s) :: unprinted } := ⟨_, rfl⟩
  obtain ⟨w, hw⟩ : ∃ w, w = { s with queue := kept ++ r :: unprinted } := ⟨_, rfl⟩
  have start : startNext (holdAsserted s) w = (v, []) := by
    rw [hv, hw]
    exact startNext_unprinted _ rfl (fun q hq => (still q hq).1) (web.waiting r List.mem_cons_self)
  have behind : ∀ q ∈ kept ++ unprinted, q.reached s.pos.xNip = false ∧ q.openTrail = false := fun q hq => by
    rcases List.mem_append.mp hq with hq | hq
    · exact ⟨(still q hq).2.2.1, (still q hq).2.1⟩
    · have hu := web.waiting q (List.mem_cons_of_mem r hq)
      exact ⟨reached_eq_false (.inl hu), openTrail_of_unprinted hu⟩
  rw [takeRisingEdge_closed web hk hw start] at ht
  obtain ⟨starts, frame⟩ := startsRecord_of_started (raised := 0) hm hon (by rw [hv]) (by rw [hv]) (by rw [hv])
    (portsRaise_of_ports (by rw [hv])) (by rw [hv]) behind hst hl htr web.nip ht
  rw [hv] at frame
  exact ⟨starts, frame⟩

/-- An edge with no unprinted record and room in the queue starts an anonymous one (R12). -/
theorem rising_anonymous (web : WebAtEdge s m before opened [])
    (hk : kept = before ++ opened.map (closedAtEdge s.pos.xPrint)) (hm : s.line.active = some m)
    (hon : s.line.state ≠ .unset) (hlen : s.queue.length < 64) (ht : t = takeRisingEdge m s) :
    StartsRecord s t m kept (anonymousPanel (nextId s) s.pos.xPrint) [] Attn.gateFault.bit ∧
      t =
        { s with
          queue := t.queue, idCounter := idAfter (nextId s), pace := t.pace, line := t.line, ports := t.ports } := by
  have still := web.kept
  rw [← hk] at still
  have printed : ∀ q ∈ kept, q.printed = true := fun q hq => (still q hq).1
  have length : kept.length = s.queue.length := by simp [hk, web.queue]
  obtain ⟨w, hw⟩ : ∃ w, w = { s with queue := kept } := ⟨_, rfl⟩
  have queue : w.queue = kept := by rw [hw]
  have id : nextId w = nextId s :=
    nextId_atEdge (by simpa using web.queue) (queue.trans hk) (by rw [hw]) (by rw [hw])
  obtain ⟨v, hv⟩ : ∃ v, v = (appendPanel (anonymousPanel (nextId s) s.pos.xPrint) w).raise .gateFault := ⟨_, rfl⟩
  have start : startNext (holdAsserted s) w = (v, []) := by
    rw [startNext_anonymous _ (queue ▸ printed) (by rw [queue, length]; exact hlen), id, hv, hw]
  have behind : ∀ q ∈ kept ++ [], q.reached s.pos.xNip = false ∧ q.openTrail = false := fun q hq => by
    rw [List.append_nil] at hq
    exact ⟨(still q hq).2.2.1, (still q hq).2.1⟩
  rw [takeRisingEdge_closed web hk (by rw [hw, List.append_nil]) start] at ht
  obtain ⟨starts, frame⟩ := startsRecord_of_started (raised := Attn.gateFault.bit) hm hon (by rw [hv, hw]; rfl)
    (by rw [hv, hw]; rfl) (by rw [hv, hw]; rfl) (by rw [hv, hw]; exact portsRaise_raise _ _) (by rw [hv, hw]; rfl) behind
    rfl rfl rfl web.nip ht
  have all : ∀ q ∈ v.queue, q.printed = true := by
    intro q hq
    rw [hv, hw] at hq
    rcases List.mem_append.mp hq with hq | hq
    · exact printed q hq
    · rw [List.mem_singleton.mp hq]
      rfl
  obtain ⟨he, hc, hs⟩ := edge_idle (printed_nipArrival all) ht
  refine ⟨starts, (eq_of_withScheduling frame he hc hs).trans ?_⟩
  rw [hv, hw]
  rfl

/-- An edge with 64 records, none unprinted, starts none and loses the tracking (R12). -/
theorem rising_full (web : WebAtEdge s m before opened [])
    (hk : kept = before ++ opened.map (closedAtEdge s.pos.xPrint)) (hm : s.line.active = some m)
    (hon : s.line.state ≠ .unset) (hlen : 64 ≤ s.queue.length) (ht : t = takeRisingEdge m s) :
    t.pace = { s.pace with panel := 0, threshold := some (paceThreshold m 1000000), source := none } ∧
      t.line.hold = { s.line.hold with unready := false } ∧
      CauseTaken { s with line := { s.line with hold := t.line.hold }, queue := kept } t .trackingLost ∧
      t = { s with queue := t.queue, pace := t.pace, line := t.line, ports := t.ports } ∧
      PortsRaise s t (causeKinds s t) := by
  have still := web.kept
  rw [← hk] at still
  have printed : ∀ q ∈ kept, q.printed = true := fun q hq => (still q hq).1
  have length : kept.length = s.queue.length := by simp [hk, web.queue]
  obtain ⟨w, hw⟩ : ∃ w, w = { s with queue := kept } := ⟨_, rfl⟩
  have queue : w.queue = kept := by rw [hw]
  have start : startNext (holdAsserted s) w = (w, [.trackingLost]) :=
    startNext_full _ (queue ▸ printed) (by rw [queue, length]; exact hlen)
  have arrive : nipArrival w = (w, []) := nipArrival_none fun q hq => by
    rw [hw] at hq ⊢
    exact (still q hq).2.2.1
  rw [takeRisingEdge_closed web hk (by rw [hw, List.append_nil]) start, arrive] at ht
  obtain ⟨hold, -, pace, taken, frame, raise⟩ := causeTaken_edge (by rw [hw]) (by rw [hw]) hon ht
  have hopen : openRecord w = none := List.find?_eq_none.mpr fun q hq => by simp [(still q (queue ▸ hq)).2.1]
  rw [paceAtEdge_none (by rw [hw]; exact hm) hopen] at pace
  rw [unreadyHolds_of_printed (queue ▸ printed)] at hold
  obtain ⟨he, hc, hs⟩ := edge_idle (queue ▸ printed) ht
  refine ⟨by rw [pace, hw], hold, by rw [queue] at taken; exact taken, ?_, by rw [hw] at raise; exact raise⟩
  refine (eq_of_withScheduling (closeEvent_edge rfl frame) he hc hs).trans ?_
  rw [hw]

end Starts

/-- Settles O43: the edge ignored, or its trail closed and the record started that the queue gives. -/
theorem gateRisingEdge : Obligations.GateRisingEdge := by
  intro s hlive
  refine ⟨_, exec_rising hlive, ?_⟩
  rw [gateAt_eq]
  obtain ⟨u, hu⟩ : ∃ u, u = { s with inputs := { s.inputs with pgate := { level := gateActiveLevel s, agree := 0 } } } :=
    ⟨_, rfl⟩
  rw [← hu]
  have pin : (gateRising u).inputs = { s.inputs with pgate := { level := gateActiveLevel s, agree := 0 } } := by
    rw [gateRising_inputs, hu]
  refine ⟨pin, fun h => ?_, fun m before opened kept rest hm hon hrev hnip harc hq hbefore _ hopened hfront hrest hk => ?_⟩
  · have ignored : u.line.state = .unset ∨ risingIgnored u = true := by
      rw [hu]
      exact h.imp_right (risingIgnored_eq_true (s := { s with inputs := _ }))
    rw [pin, gateRising_ignored ignored, hu]
    exact ⟨rfl, portsRaise_raise _ _⟩
  · have web : WebAtEdge u m before opened rest := by
      rw [hu]
      exact ⟨harc, hnip, hq, hbefore, hopened, hfront, hrest⟩
    have kept' : kept = before ++ opened.map (closedAtEdge u.pos.xPrint) := by
      rw [hu]
      exact hk
    have hm' : u.line.active = some m := by rw [hu]; exact hm
    have hon' : u.line.state ≠ .unset := by rw [hu]; exact hon
    have past : ∀ q ∈ before ++ opened, ∃ lead, q.lead = some lead ∧ lead < u.pos.xPrint := fun q hq =>
      (web.leads q hq).imp fun lead h => ⟨h.1, h.2.1⟩
    have taken : gateRising u = takeRisingEdge m u :=
      gateRising_taken hm' hon' (risingIgnored_eq_false web.queue (by rw [hu]; exact hrev) past web.waiting)
    rw [pin]
    generalize gateRising u = t at taken ⊢
    refine ⟨fun r unprinted hr => ?_, fun hr hlen => ?_, fun hr hlen => ?_⟩
    · subst hr
      obtain ⟨starts, frame⟩ := rising_unprinted web kept' hm' hon' taken
      rw [start_eq] at starts
      rw [hu] at starts frame
      exact ⟨starts, frame⟩
    · subst hr
      obtain ⟨starts, frame⟩ := rising_anonymous web kept' hm' hon' (by rw [hu]; exact hlen) taken
      rw [hu] at starts frame
      exact ⟨starts, frame⟩
    · subst hr
      obtain ⟨pace, hold, cause, frame, raise⟩ := rising_full web kept' hm' hon' (by rw [hu]; exact hlen) taken
      rw [hu] at pace hold cause frame raise
      exact ⟨pace, hold, cause, frame, raise⟩

end Sys2Proof.Proofs
end

