-- ==== Sys2Proof/Proofs/LineClear.lean ====
section
/-!
O32: the line clear, block by block.
-/
namespace Sys2Proof.Proofs

open Sys2Proof.Machine Sys2Proof.Safety

/-! ## The checks (R49, R157) -/

theorem readPasses_of_state {s : State} {slot : SlotId}
    (h : (dirEntry s slot).state = .locked ∨ (dirEntry s slot).state = .valid ∧ slotCrcHolds s.store.array slot = true) :
    readPasses s slot = true := by
  rcases h with h | ⟨-, h⟩ <;> simp [readPasses, h]

theorem lineClearRefusal_none {m : MachineRecord} {span : Nat} {s : State} (hb : s.inputs.breakn.level = true)
    (hs : s.inputs.stopinn.level = true) (hcal : s.pos.keptCal.natAbs * m.cencRes / 100000 < m.vMin)
    (hprint : s.pos.keptPrint.natAbs * m.pencRes / 100000 < m.vMin) (hlow : m.stopLow < span) (hhigh : span < m.stopHigh) :
    lineClearRefusal m span s = none := by
  have chain : stopChainOpen s = false := by simp [stopChainOpen, hb, hs]
  have still : stillMoves m s.pos = false := by
    rw [stillMoves, Bool.or_eq_false_iff]
    exact ⟨decide_eq_false (Nat.not_le.mpr hcal), decide_eq_false (Nat.not_le.mpr hprint)⟩
  rw [lineClearRefusal, chain, still, if_neg (by simp), if_neg (by simp), if_pos ⟨hlow, hhigh⟩]

/-! ## The blocks (R50) -/

theorem raiseIf_form (s : State) (c : Bool) (k : Attn) :
    ∃ ports, s.raiseIf c k = { s with ports := ports } ∧
      PortsRaise s { s with ports := ports } (if c then k.bit else 0) := by
  have raised := portsRaise_raiseIf s c k
  cases c
  · exact ⟨_, rfl, raised⟩
  · exact ⟨_, rfl, raised⟩

/-- The temperature table after a line clear (R101, R121). -/
def zonesCleared (m : MachineRecord) (s : State) : List Zone :=
  if m.zoneCount = s.dose.zones.length then s.dose.zones.map (Zone.expire m.tempStaleMs s.now)
  else List.replicate m.zoneCount (Zone.new s.now)

/-- Whether a temperature zone falls stale at a line clear (R101, R131). -/
def zoneFallsStale (m : MachineRecord) (s : State) : Bool :=
  if m.zoneCount = s.dose.zones.length then s.dose.zones.any (Zone.expires m.tempStaleMs) else s.dose.zones.any (·.isFresh)

theorem clearTemperatures_form (m : MachineRecord) (s : State) :
    ∃ ports,
      clearTemperatures m s =
        { s with
          dose := { s.dose with zones := zonesCleared m s }
          tension :=
            { s.tension with
              lostTemperature := if m.zoneCount = s.dose.zones.length then s.tension.lostTemperature else false }
          ports := ports } ∧
      PortsRaise s { s with ports := ports } (if zoneFallsStale m s then Attn.measureStale.bit else 0) := by
  have form : clearTemperatures m s =
      ({ s with
        dose := { s.dose with zones := zonesCleared m s }
        tension :=
          { s.tension with
            lostTemperature := if m.zoneCount = s.dose.zones.length then s.tension.lostTemperature else false } } :
        State).raiseIf (zoneFallsStale m s) .measureStale := by
    unfold clearTemperatures zonesCleared zoneFallsStale
    split <;> rfl
  rw [form]
  exact raiseIf_form _ _ _

theorem clearTensions_form (m : MachineRecord) (s : State) :
    ∃ ports,
      clearTensions m s =
        { s with
          tension :=
            { s.tension with
              paperIn := s.tension.paperIn.expire m.tensionStaleMs s.now
              fabricUnwind := s.tension.fabricUnwind.expire m.tensionStaleMs s.now
              calIn := s.tension.calIn.expire m.tensionStaleMs s.now
              fabricRewind := s.tension.fabricRewind.expire m.tensionStaleMs s.now
              governed := false
              bias := 0 }
          ports := ports } ∧
      PortsRaise s { s with ports := ports }
        (if s.tension.zones.any (Zone.expires m.tensionStaleMs) then Attn.measureStale.bit else 0) :=
  raiseIf_form _ _ _

theorem clearLineControl_form (m : MachineRecord) (span : Nat) (s : State) :
    ∃ ports,
      clearLineControl m span s =
        { s with
          line :=
            { state := .tracking
              hold := { s.line.hold with fillHigh := decide (m.holdHigh ≤ span) }
              stop := none
              active := some m
              recordPending := false }
          ports := ports } ∧
      PortsRaise s { s with ports := ports } (if s.line.state = .halted then Attn.lineReleased.bit else 0) := by
  obtain ⟨ports, form, raised⟩ := raiseIf_form
    { s with line :=
      { state := .tracking
        hold := { s.line.hold with fillHigh := decide (m.holdHigh ≤ span) }
        stop := none
        active := some m
        recordPending := false } } (stopoutAsserted s) .lineReleased
  simp only [stopoutAsserted, decide_eq_true_eq] at raised
  exact ⟨ports, form, raised⟩

/-- A line clear's blocks before the scheduler re-evaluates. -/
def blocksCleared (m : MachineRecord) (span : Nat) (s : State) : State :=
  clearTensions m (clearTemperatures m (clearQueue
    (((((clearLineControl m span s).updatePos fun x => x.clear span).updateMark fun k => k.clear).updatePace
      fun g => g.clear m).updateInputs fun i =>
        i.restartIf (decide (filterIntervalOf s.line.active ≠ m.filterInterval)))))

theorem clearLine_eq (m : MachineRecord) (span : Nat) (s : State) :
    clearLine m span s = syncStale (syncUnready (reevaluate (blocksCleared m span s))) := rfl

/-- The kinds that the blocks raise (R131, R159). -/
def kindsCleared (m : MachineRecord) (s : State) : AttnSet :=
  (if s.line.state = .halted then Attn.lineReleased.bit else 0) |||
    (if zoneFallsStale m s = true ∨ s.tension.zones.any (Zone.expires m.tensionStaleMs) = true
      then Attn.measureStale.bit else 0)

theorem blocksCleared_eq (m : MachineRecord) (span : Nat) (s : State) :
    ∃ ports,
      blocksCleared m span s =
        { s with
          line :=
            { state := .tracking
              hold := { s.line.hold with fillHigh := decide (m.holdHigh ≤ span) }
              stop := none
              active := some m
              recordPending := false }
          pos := s.pos.clear span
          queue := (s.queue.filter (·.unprinted)).map Panel.dueAfterClear
          mark := { partialWord := none, accepted := none, streak := 0, unmatched := none }
          pace := s.pace.clear m
          inputs := s.inputs.restartIf (decide (filterIntervalOf s.line.active ≠ m.filterInterval))
          dose := { s.dose with zones := zonesCleared m s }
          tension :=
            { s.tension with
              paperIn := s.tension.paperIn.expire m.tensionStaleMs s.now
              fabricUnwind := s.tension.fabricUnwind.expire m.tensionStaleMs s.now
              calIn := s.tension.calIn.expire m.tensionStaleMs s.now
              fabricRewind := s.tension.fabricRewind.expire m.tensionStaleMs s.now
              governed := false
              bias := 0
              lostTemperature := if m.zoneCount = s.dose.zones.length then s.tension.lostTemperature else false }
          ports := ports } ∧
      PortsRaise s { s with ports := ports } (kindsCleared m s) := by
  obtain ⟨ports1, control, raised1⟩ := clearLineControl_form m span s
  unfold blocksCleared
  rw [control]
  generalize hq : clearQueue _ = q
  have zones : zonesCleared m q = zonesCleared m s := by rw [← hq]; rfl
  have falls : zoneFallsStale m q = zoneFallsStale m s := by rw [← hq]; rfl
  obtain ⟨ports2, temperatures, raised2⟩ := clearTemperatures_form m q
  rw [zones] at temperatures
  rw [falls] at raised2
  rw [temperatures]
  generalize hw : State.mk _ _ _ _ _ _ _ _ _ _ _ _ _ _ _ _ _ _ = w
  obtain ⟨ports3, tensions, raised3⟩ := clearTensions_form m w
  have tight : w.tension.zones.any (Zone.expires m.tensionStaleMs) = s.tension.zones.any (Zone.expires m.tensionStaleMs) := by
    rw [← hw, ← hq]
    rfl
  rw [tight] at raised3
  refine ⟨ports3, ?_, ?_⟩
  · rw [tensions, ← hw, ← hq]
    rfl
  · have ports12 : PortsRaise s { s with ports := ports2 } _ :=
      portsRaise_trans raised1 (u := { s with ports := ports2 }) (by rw [← hq] at raised2; exact raised2)
    have ports123 : PortsRaise s { s with ports := ports3 } _ :=
      portsRaise_trans ports12 (u := { s with ports := ports3 }) (by rw [← hw] at raised3; exact raised3)
    have kinds (a b : Bool) (c k : AttnSet) :
        c ||| (if a then k else 0) ||| (if b then k else 0) = c ||| (if a = true ∨ b = true then k else 0) := by
      cases a <;> cases b <;> simp [BitVec.or_assoc]
    rw [kinds] at ports123
    exact ports123

end Sys2Proof.Proofs
end

