-- ==== Sys2Proof/Proofs/LineClearEnd.lean ====
section
/-!
O32: the end of a line clear, with the re-evaluation and the answer.
-/
namespace Sys2Proof.Proofs

open Sys2Proof.Machine Sys2Proof.Safety

/-! ## Re-evaluation and grants on a free store (R80, R142) -/

/-- On a free store a re-evaluation may start a computation and may be granted a fill; no fill is left waiting. -/
theorem reevaluate_of_free {s : State} (free : s.store.holder = none) :
    ∃ e n h, reevaluate s =
      { s with engine := e, cache := { s.cache with nlu := n }, store := { s.store with holder := h } } := by
  have missing (l : List Panel) (u : State) (hu : u.store.holder = none) :
      ∃ h, requestMissing l u = { u with store := { u.store with holder := h } } := by
    have same : u = { u with store := { u.store with holder := none } } := by rw [← hu]
    unfold requestMissing
    split
    · split
      · rw [requestFill, hu]
        exact ⟨_, rfl⟩
      · exact ⟨none, same⟩
    · exact ⟨none, same⟩
  have start (m : MachineRecord) (l : List Panel) :
      ∃ e n, startComputation m l s = { s with engine := e, cache := { s.cache with nlu := n } } := by
    unfold startComputation
    split
    · exact ⟨_, _, rfl⟩
    · exact ⟨s.engine, s.cache.nlu, rfl⟩
  unfold reevaluate
  split
  · rename_i m _
    obtain ⟨e, n, started⟩ := start m (eligibleRecords m s)
    rw [started]
    obtain ⟨h, requested⟩ := missing (eligibleRecords m s)
      { s with engine := e, cache := { s.cache with nlu := n } } free
    exact ⟨e, n, h, requested⟩
  · exact ⟨s.engine, s.cache.nlu, none, by rw [← free]⟩

theorem grantWaiting_idle {s : State} (hf : s.store.fillWaiting = none) (hr : s.store.requestWaiting = none) :
    grantWaiting s = s := by
  have fill : grantFill s = s := by
    unfold grantFill
    rw [hf]
    split
    · rename_i h
      cases h
    · rfl
  unfold grantWaiting grantRequest
  rw [fill, hr]
  split
  · rename_i h
    cases h
  · rfl

/-! ## The end of the event (R142, R143) -/

/-- A completed line clear beside its ports, and its answer. -/
theorem endLineClear_form {b u t : State} {p : PortId} {raised : AttnSet} (hf : u.store.fillWaiting = none)
    (hr : u.store.requestWaiting = none) (hu : PortsRaise b u raised) (ht : t = endLineClear b p (.done []) u) :
    t = { u with ports := t.ports } ∧ PortsAnswer b t p (doneFrame 0x23 []) (raised ||| holdKind b t) := by
  rw [endLineClear, grantWaiting_idle (by exact hf) (by exact hr)] at ht
  have form : t = { u with ports := t.ports } := by
    rw [ht]
    exact closeEvent_nil_frame b (u.answer p 0x23 (.done []))
  refine ⟨form, ?_⟩
  have answered : PortsAnswer b (u.answer p 0x23 (.done [])) p (doneFrame 0x23 []) raised := fun q => by
    rw [State.answer, updatePort_port, hu q]
    by_cases h : q = p
    · simp [h, Port.place, Reply.frame, doneFrame]
    · simp [h]
  have line : t.line = (u.answer p 0x23 (.done [])).line := by rw [form]; rfl
  rw [holdKind_of_line line, ht]
  exact portsAnswer_raise answered (portsRaise_closeEvent_nil _ _)

theorem exec_lineClearRead {s : State} {p : PortId} {span : Nat} {m : MachineRecord}
    (hh : s.store.holder = some (.lineClear p span)) (hp : readPasses s 0 = true)
    (hm : m = parseMachineRecord s.store.array 0) (hc : lineClearRefusal m span s = none) :
    exec .lineClearReadCompletion s = .next (endLineClear s p (.done []) (clearLine m span (freeStore s))) := by
  change execLineClearReadCompletion s = _
  rw [execLineClearReadCompletion, hh]
  simp only [judgeLineClear, hp, if_true, ← hm, hc]

/-! ## What each block's form says in the statement's words -/

theorem expire_eq {limit now : Nat} {z : Zone} :
    z.expire limit now = if z.isFresh = true ∧ limit < z.age then { z with standing := .stale now } else z := by
  simp [Zone.expire, Zone.expires]

theorem dueAfterClear_ready {r : Panel} {time : Nat} {due : Bool} (h : r.state = .ready false time due) :
    r.dueAfterClear = { r with state := .ready false time true } := by
  simp [Panel.dueAfterClear, h]

theorem dueAfterClear_other {r : Panel} (h : ∀ time due, r.state ≠ .ready false time due) : r.dueAfterClear = r := by
  unfold Panel.dueAfterClear
  split
  · rename_i time due hr
    exact absurd hr (h time due)
  · rfl

theorem restartIf_filterInterval (i : Inputs) (active : Option MachineRecord) (m : MachineRecord) :
    i.restartIf (decide (filterIntervalOf active ≠ m.filterInterval)) =
      if (active.map (·.filterInterval)).getD 1 = m.filterInterval then i
      else
        { pgate := { i.pgate with agree := 0 }
          breakn := { i.breakn with agree := 0 }
          stopinn := { i.stopinn with agree := 0 }
          mkclk := { i.mkclk with agree := 0 } } := by
  have interval : filterIntervalOf active = (active.map (·.filterInterval)).getD 1 := by
    cases active <;> rfl
  rw [Inputs.restartIf, interval]
  by_cases h : (active.map (·.filterInterval)).getD 1 = m.filterInterval
  · simp [h]
  · simp only [h, ne_eq, not_false_eq_true, decide_true, if_true, if_false]
    rfl

theorem paceClear_eq (g : Pace) (m : MachineRecord) :
    g.clear m =
      { accumulator := 0
        threshold := some (paceThreshold m 1000000)
        source := none
        pulse :=
          match g.pulse with
          | .idle => .idle
          | .high => .high
          | .highPending => .high
          | .gap => .gap
          | .gapPending => .gap
        total := 0
        panel := 0
        lost := 0 } := by
  rw [Pace.clear, nominalThreshold]
  cases g.pulse <;> rfl

theorem anyExpires_iff {limit : Nat} {zones : List Zone} :
    zones.any (Zone.expires limit) = true ↔ ∃ z ∈ zones, z.isFresh = true ∧ limit < z.age := by
  simp [List.any_eq_true, Zone.expires]

theorem zoneFallsStale_iff {m : MachineRecord} {s : State} :
    zoneFallsStale m s = true ↔
      (m.zoneCount ≠ s.dose.zones.length ∧ ∃ z ∈ s.dose.zones, z.isFresh = true) ∨
        (m.zoneCount = s.dose.zones.length ∧ ∃ z ∈ s.dose.zones, z.isFresh = true ∧ m.tempStaleMs < z.age) := by
  unfold zoneFallsStale
  by_cases h : m.zoneCount = s.dose.zones.length
  · simp [h, Zone.expires]
  · simp [h]

/-- The refresh of a READY record that is alone in the queue and whose slot hits (R52, R73, R79, R80). -/
theorem reevaluate_refresh {s : State} {m : MachineRecord} {r : Panel} {a : Announced} {time : Nat} {k : Fin 8}
    {e : CacheEntry} (hm : s.line.active = some m) (hq : s.queue = [r]) (hr : r.state = .ready false time true)
    (ha : r.normal = some a) (hi : s.engine = none) (hu : slotUsable s a.slot = true)
    (hc : (dirEntry s a.slot).channels = some a.coverage.length) (hl : lookup s.cache a.slot = some (k, e))
    (hp : e.profile.channels.length = a.coverage.length) :
    reevaluate s =
      { s with
        engine := some { panel := r.id, snapshot := takeSnapshot m s a e }
        cache := { s.cache with nlu := nextEntry k } } := by
  have unprinted : r.unprinted = true := by simp [Panel.unprinted, hr]
  have one : lookahead s = [r] := by simp [lookahead, hq, unprinted]
  have wants : eligible m s r = true := by simp [eligible, ha, wantsCorrection, hr, hu, hc, hi]
  have eligibles : eligibleRecords m s = [r] := by simp [eligibleRecords, one, wants]
  have hits : startable s r = some (r, a, k, e) := by simp [startable, ha, hl, hp]
  have slot : r.slot = some a.slot := by simp [Panel.slot, ha]
  have started : startComputation m [r] s =
      { s with
        engine := some { panel := r.id, snapshot := takeSnapshot m s a e }
        cache := { s.cache with nlu := nextEntry k } } := by
    simp [startComputation, hi, hits]
  have stays : lookup ({ s.cache with nlu := nextEntry k } : Cache) a.slot = some (k, e) := hl
  rw [reevaluate, hm]
  simp only [eligibles, started]
  simp [requestMissing, slot, stays]

/-- Beside its ports, a state with UNREADY and STALE brought to their conditions differs in these two alone. -/
theorem of_synced {x t : State} (h : t = { syncStale (syncUnready x) with ports := t.ports }) :
    t = { x with
      line := { x.line with hold := { x.line.hold with unready := unreadyHolds t, stale := staleHolds t } }
      ports := t.ports } := by
  have active : t.line.active = x.line.active := by rw [h]; rfl
  have unready : unreadyHolds t = unreadyHolds x := unreadyHolds_congr active (by rw [h]; rfl)
  have stale : staleHolds t = staleHolds x := by rw [h]; rfl
  rw [unready, stale]
  exact h

/-- The state after a completed line clear: its blocks with UNREADY and STALE brought to their conditions, what the
re-evaluation has started, and the ports. -/
theorem lineClear_form {s t : State} {p : PortId} {span : Nat} {m : MachineRecord} (hf : s.store.fillWaiting = none)
    (hr : s.store.requestWaiting = none) (ht : t = endLineClear s p (.done []) (clearLine m span (freeStore s))) :
    t = { reevaluate (blocksCleared m span (freeStore s)) with
          line :=
            { state := .tracking
              hold :=
                { fillHigh := decide (m.holdHigh ≤ span)
                  unready := unreadyHolds t
                  stale := staleHolds t
                  requested := s.line.hold.requested }
              stop := none
              active := some m
              recordPending := false }
          ports := t.ports } ∧
      PortsAnswer s t p (doneFrame 0x23 []) (kindsCleared m s ||| holdKind s t) := by
  obtain ⟨ports, form, raised⟩ := blocksCleared_eq m span (freeStore s)
  rw [clearLine_eq] at ht
  have holder : (blocksCleared m span (freeStore s)).store.holder = none := by rw [form]; rfl
  have fillWaits : (blocksCleared m span (freeStore s)).store.fillWaiting = none := by rw [form]; exact hf
  have requestWaits : (blocksCleared m span (freeStore s)).store.requestWaiting = none := by rw [form]; exact hr
  have line : (blocksCleared m span (freeStore s)).line =
      { state := .tracking
        hold := { s.line.hold with fillHigh := decide (m.holdHigh ≤ span) }
        stop := none
        active := some m
        recordPending := false } := by rw [form]; rfl
  have portsRaised : PortsRaise s (blocksCleared m span (freeStore s)) (kindsCleared m s) := fun q => by
    rw [form]
    exact raised q
  clear form
  generalize blocksCleared m span (freeStore s) = w at *
  obtain ⟨e, n, h, started⟩ := reevaluate_of_free holder
  have lineOf := reevaluate_line w
  have portsOf := reevaluate_ports w
  have fillOf : (reevaluate w).store.fillWaiting = none := by rw [started]; exact fillWaits
  have requestOf : (reevaluate w).store.requestWaiting = none := by rw [started]; exact requestWaits
  clear started
  generalize reevaluate w = x at *
  have kinds : PortsRaise s (syncStale (syncUnready x)) (kindsCleared m s) := fun q => by
    rw [← portsRaised q, ← portsOf]
    rfl
  obtain ⟨answered, ports⟩ := endLineClear_form (by exact fillOf) (by exact requestOf) kinds ht
  have synced := of_synced answered
  rw [lineOf, line] at synced
  exact ⟨synced, ports⟩

theorem kindsCleared_eq (m : MachineRecord) (s : State) :
    kindsCleared m s =
      (if s.line.state = .halted then Attn.lineReleased.bit else 0) |||
        (if (m.zoneCount ≠ s.dose.zones.length ∧ ∃ z ∈ s.dose.zones, z.isFresh = true) ∨
            (m.zoneCount = s.dose.zones.length ∧ ∃ z ∈ s.dose.zones, z.isFresh = true ∧ m.tempStaleMs < z.age) ∨
            (∃ z ∈ s.tension.zones, z.isFresh = true ∧ m.tensionStaleMs < z.age)
          then Attn.measureStale.bit else 0) := by
  simp only [kindsCleared, zoneFallsStale_iff, anyExpires_iff, or_assoc]

theorem val_nextEntry (k : Fin 8) : (nextEntry k).val = (k.val + 1) % 8 := Fin.val_add k 1

/-- What a cleared line's re-evaluation changes beside the blocks is what the scheduler may start (R80). -/
theorem scheduling_of_reevaluated {s w t : State} (hn : w.store.holder = none)
    (hw : w = { s with
      line := w.line, pos := w.pos, queue := w.queue, mark := w.mark, pace := w.pace, inputs := w.inputs, dose := w.dose
      tension := w.tension, ports := w.ports, store := { s.store with holder := none } })
    (ht : t = { reevaluate w with line := t.line, ports := t.ports }) :
    t = withScheduling
      { s with
        line := t.line, pos := t.pos, queue := t.queue, mark := t.mark, pace := t.pace, inputs := t.inputs, dose := t.dose
        tension := t.tension, ports := t.ports } t := by
  obtain ⟨e, n, h, started⟩ := reevaluate_of_free hn
  rw [started] at ht
  generalize t.line = l at *
  generalize t.ports = ps at *
  rw [hw] at ht
  rw [ht]
  rfl

/-- Settles O32: the read passes R49's checks, the blocks are cleared one by one, and the event ends with the re-evaluation
and the answer. -/
theorem lineClearCompletes : Obligations.LineClearCompletes := by
  intro s p span m expired kept hh hfill hrequest hslot hm hb hstop hcal hprint hlow hhigh hexpired hdue hkept
  have expiry (limit : Nat) : expired limit = Zone.expire limit s.now := funext fun z => (hexpired limit z).trans expire_eq.symm
  have keeps : kept = Panel.dueAfterClear := funext fun r => by
    by_cases ready : ∃ time due, r.state = .ready false time due
    · obtain ⟨time, due, hr⟩ := ready
      rw [hdue r time due hr, dueAfterClear_ready hr]
    · have other : ∀ time due, r.state ≠ .ready false time due := fun time due hr => ready ⟨time, due, hr⟩
      rw [hkept r other, dueAfterClear_other other]
  obtain ⟨t, ht⟩ : ∃ t, t = endLineClear s p (.done []) (clearLine m span (freeStore s)) := ⟨_, rfl⟩
  refine ⟨t, ?_, ?_⟩
  · rw [ht]
    exact exec_lineClearRead hh (readPasses_of_state hslot) hm (lineClearRefusal_none hb hstop hcal hprint hlow hhigh)
  obtain ⟨form, answer⟩ := lineClear_form hfill hrequest ht
  obtain ⟨ports, blocks, -⟩ := blocksCleared_eq m span (freeStore s)
  rw [kindsCleared_eq] at answer
  generalize blocksCleared m span (freeStore s) = w at form blocks
  have holder : w.store.holder = none := by rw [blocks]; rfl
  have active : w.line.active = some m := by rw [blocks]
  have store : w.store = { s.store with holder := none } := by rw [blocks]; rfl
  have queue : w.queue = (s.queue.filter (·.unprinted)).map Panel.dueAfterClear := by rw [blocks]; rfl
  have engine : w.engine = s.engine := by rw [blocks]; rfl
  have cache : w.cache = s.cache := by rw [blocks]; rfl
  have vCal : w.pos.vCal = s.pos.vCal := by rw [blocks]; rfl
  have trim : w.dose.trim = s.dose.trim := by rw [blocks]; rfl
  have bias : w.tension.bias = 0 := by rw [blocks]
  have zones : t.dose.zones = zonesCleared m s :=
    (congrArg (·.dose.zones) form).trans ((congrArg Dose.zones (reevaluate_dose w)).trans (congrArg (·.dose.zones) blocks))
  have lost : t.tension.lostTemperature = if m.zoneCount = s.dose.zones.length then s.tension.lostTemperature else false :=
    (congrArg (·.tension.lostTemperature) form).trans
      ((congrArg Tension.lostTemperature (reevaluate_tension w)).trans (congrArg (·.tension.lostTemperature) blocks))
  rw [keeps]
  simp only [expiry]
  refine ⟨congrArg State.line form,
    (congrArg State.pos form).trans ((reevaluate_pos w).trans (congrArg State.pos blocks)),
    (congrArg State.queue form).trans ((reevaluate_queue w).trans queue), ?_, ?_,
    (congrArg State.mark form).trans ((reevaluate_mark w).trans (congrArg State.mark blocks)),
    ((congrArg State.pace form).trans ((reevaluate_pace w).trans (congrArg State.pace blocks))).trans (paceClear_eq _ _),
    ((congrArg State.inputs form).trans ((reevaluate_inputs w).trans (congrArg State.inputs blocks))).trans
      (restartIf_filterInterval _ _ _),
    ?_, ?_, ?_, ?_, ?_, answer⟩
  · intro none
    have empty : w.queue = [] := by
      rw [queue, List.filter_eq_nil_iff.mpr fun r hr => by simp [none r hr]]
      rfl
    rw [reevaluate_of_printed fun r hr => absurd (empty ▸ hr) List.not_mem_nil] at form
    exact ⟨(congrArg State.engine form).trans engine, (congrArg State.cache form).trans cache,
      (congrArg State.store form).trans store⟩
  · intro r a time due k e alone ready normal idle usable channels hits width
    have due : r.dueAfterClear.state = .ready false time true := by rw [dueAfterClear_ready ready]
    have same : r.dueAfterClear.normal = some a := by rw [dueAfterClear_ready ready, normal]
    have entry (i : SlotId) : dirEntry w i = dirEntry s i := by rw [dirEntry, store]; rfl
    have started := reevaluate_refresh (s := w) active (by rw [queue, alone]; rfl) due same (engine.trans idle)
      (by rw [slotUsable, entry]; exact usable) (by rw [entry]; exact channels) (by rw [cache]; exact hits) width
    have wzones : w.dose.zones = t.dose.zones := by rw [zones, blocks]; rfl
    rw [started] at form
    refine ⟨(congrArg State.engine form).trans ?_, ?_, (congrArg State.store form).trans store⟩
    · simp only [takeSnapshot, zoneReadings, vCal, trim, bias, wzones, dueAfterClear_id]
    · rw [form]
      exact val_nextEntry k
  · rw [zones]
    exact (congrArg State.dose form).trans ((reevaluate_dose w).trans (congrArg State.dose blocks))
  · intro h
    rw [zones, lost, zonesCleared, if_pos h, if_pos h]
    exact ⟨rfl, rfl⟩
  · intro h
    rw [zones, lost, zonesCleared, if_neg h, if_neg h]
    exact ⟨rfl, rfl⟩
  · rw [lost]
    exact (congrArg State.tension form).trans ((reevaluate_tension w).trans (congrArg State.tension blocks))
  · refine scheduling_of_reevaluated holder ?_ ?_
    · rw [blocks]
      rfl
    · rw [form]

end Sys2Proof.Proofs
end

