-- ==== Sys2Proof/Proofs/PlainEvents.lean ====
section
/-!
O2, O42 and O45: the millisecond of an empty queue, the events of one unit, and the stop inputs.
-/
namespace Sys2Proof.Proofs

open Sys2Proof.Machine Sys2Proof.Safety

/-! ## A millisecond without a command (R34, R98, R119, R185) -/

theorem step_of_empty {s : State} (h : s.pending = []) : step s = .next (idle s) := by
  rw [step, h]

theorem idle_live {s : State} (h : s.live = true) :
    idle s = olderTables (sampleInputs { s with now := s.now + 1 }) :=
  if_pos h

theorem idle_held {s : State} (h : s.live = false) :
    idle s = { s with resetUnit := { s.resetUnit with beginning := false } } :=
  if_neg (by simp [h])

/-- The samples of a millisecond, filter by filter; MKCLK's are left as `sampleInputs_inputs` gives them. -/
theorem sampleInputs_eq (s : State) :
    (sampleInputs s).inputs =
      { pgate := { s.inputs.pgate with agree := 0 }
        breakn := { s.inputs.breakn with agree := 0 }
        stopinn := { s.inputs.stopinn with agree := 0 }
        mkclk := (sampleInputs s).inputs.mkclk } := by
  simp only [sampleInputs, InputFilter.sample_same]

/-- Settles O2: the tables age, the filters sample, and the rest stays. -/
theorem idleStepAgesAndSamples : Obligations.IdleStepAgesAndSamples := by
  refine ⟨fun s hp hl => ?_, fun s hp hl => by rw [step_of_empty hp, idle_held hl]⟩
  obtain ⟨-, -, -, mkclk⟩ := sampleInputs_inputs { s with now := s.now + 1 }
  exact ⟨_, (step_of_empty hp).trans (congrArg _ (idle_live hl)), rfl, rfl, rfl, sampleInputs_eq _, mkclk, rfl⟩

/-! ## Events of one unit (R25, R36, R41, R93) -/

/-- A count that stops at its limit, from one at or below it. -/
theorem saturatingSucc_eq_min {limit n : Nat} (h : n ≤ limit) : saturatingSucc limit n = min limit (n + 1) := by
  unfold saturatingSucc
  split <;> omega

theorem exec_fencCount {s : State} (d : Direction) (h : s.running = true) :
    exec (.fencCount d) s = .next { s with pos := { s.pos with netFab := s.pos.netFab + countStep d } } :=
  congrArg Host.Outcome.next (if_pos h)

/-- A transition error is taken once reset has ended, into the count of its encoder (R25). -/
theorem exec_transitionError {s : State} (h : s.live = true) :
    exec (.quadratureTransitionError .penc) s =
        .next { s with pos := { s.pos with errPrint := saturatingSucc 65535 s.pos.errPrint } } ∧
      exec (.quadratureTransitionError .cenc) s =
        .next { s with pos := { s.pos with errCal := saturatingSucc 65535 s.pos.errCal } } ∧
      exec (.quadratureTransitionError .fenc) s =
        .next { s with pos := { s.pos with errFab := saturatingSucc 65535 s.pos.errFab } } :=
  ⟨congrArg Host.Outcome.next (if_pos h), congrArg Host.Outcome.next (if_pos h), congrArg Host.Outcome.next (if_pos h)⟩

theorem exec_pacePulseTimer (s : State) :
    exec .pacePulseTimer s = .next { s with pace := { s.pace with pulse := pulseElapse s.pace.pulse } } := rfl

/-- The release of a stop input gives its filter the high level and does nothing else (R36). -/
theorem exec_stopRelease {s : State} (h : s.live = true) :
    exec .breaknRelease s = .next { s with inputs := { s.inputs with breakn := { level := true, agree := 0 } } } ∧
      exec .stopinnRelease s = .next { s with inputs := { s.inputs with stopinn := { level := true, agree := 0 } } } := by
  constructor
  · change Host.Outcome.next (if s.live then _ else s) = _
    rw [if_pos h, State.updateInputs, InputFilter.settle_eq]
  · change Host.Outcome.next (if s.live then _ else s) = _
    rw [if_pos h, State.updateInputs, InputFilter.settle_eq]

/-- The state at a rising edge of MKCLK with the word it leaves. -/
def clocked (s : State) (word : Option PartialMark) : State :=
  { s with
    inputs := { s.inputs with mkclk := { level := true, agree := 0 } }
    mark := { s.mark with partialWord := word } }

/-- An edge of MKCLK that brings a bit short of the sixteenth keeps it (R41). -/
theorem exec_mkclk_short {s : State} {bit : Bool} (h : s.live = true)
    (hw : (takeBit s.mark.partialWord s.pos.xNip bit).bits.length < 16) :
    exec (.mkclkRisingEdge bit) s = .next (clocked s (some (takeBit s.mark.partialWord s.pos.xNip bit))) := by
  change Host.Outcome.next (if s.live then markEdge bit s else s) = _
  rw [if_pos h, markEdge, if_pos hw, State.updateInputs, InputFilter.rise_eq]
  rfl

theorem exec_markWordTimeout {s : State} {w : PartialMark} (h : s.mark.partialWord = some w) :
    exec .markWordTimeout s =
      .next (({ s with mark := { s.mark with partialWord := none } } : State).raise .markFault) := by
  change execMarkWordTimeout s = _
  rw [execMarkWordTimeout, h]
  rfl

/-- Settles O42, event by event. -/
theorem plainInputs : Obligations.PlainInputs := by
  intro s
  refine ⟨fun hr => ⟨exec_fencCount .forward hr, exec_fencCount .reverse hr⟩, fun hl => ?_, ?_, exec_stopRelease,
    fun bit hl hw => ?_, fun bit w hl hw hlen => ?_, fun w hw => ?_⟩
  · obtain ⟨penc, cenc, fenc⟩ := exec_transitionError hl
    exact ⟨⟨_, penc, rfl, saturatingSucc_eq_min⟩, ⟨_, cenc, rfl, saturatingSucc_eq_min⟩,
      ⟨_, fenc, rfl, saturatingSucc_eq_min⟩⟩
  · refine ⟨_, exec_pacePulseTimer s, rfl, ?_⟩
    refine ⟨fun h => ?_, fun h => ?_, fun h => ?_, fun h => ?_, fun h => ?_⟩
    all_goals
      change pulseElapse s.pace.pulse = _
      rw [h]
      rfl
  · rw [exec_mkclk_short hl (by rw [hw]; exact Nat.succ_lt_succ (Nat.zero_lt_succ 14)), hw]
    rfl
  · rw [exec_mkclk_short hl (by rw [hw, takeBit, List.length_append]; exact Nat.succ_lt_succ hlen), hw]
    rfl
  · exact ⟨_, exec_markWordTimeout hw, rfl, portsRaise_raise _ .markFault⟩

/-! ## The stop inputs (R36, R160 to R162) -/

/-- An event that changes the filters and raises one cause. -/
theorem inputs_cause {s : State} (i : Inputs) (c : StopCause) :
    let t := closeEvent s { s with inputs := i } [c]
    t.inputs = i ∧ CauseTaken s t c ∧ t = { s with inputs := t.inputs, line := t.line, queue := t.queue, ports := t.ports } ∧
      PortsRaise s t (causeKinds s t) := by
  intro t
  obtain ⟨taken, frame, raised⟩ := closeEvent_one s { s with inputs := i } c
  have inputs : t.inputs = i := closeEvent_inputs _ _ _
  refine ⟨inputs, taken, ?_, raised⟩
  rw [inputs]
  exact frame

theorem exec_stopAssertion {s : State} (h : s.live = true) :
    exec .breaknAssertion s =
        .next (closeEvent s { s with inputs := { s.inputs with breakn := { level := false, agree := 0 } } } [.break]) ∧
      exec .stopinnAssertion s =
        .next (closeEvent s { s with inputs := { s.inputs with stopinn := { level := false, agree := 0 } } } [.external]) := by
  constructor
  · change Host.Outcome.next (if s.live then _ else s) = _
    rw [if_pos h, State.updateInputs, InputFilter.settle_eq]
  · change Host.Outcome.next (if s.live then _ else s) = _
    rw [if_pos h, State.updateInputs, InputFilter.settle_eq]

/-- Settles O45: each assertion is a change of its filter and one cause. -/
theorem stopInputs : Obligations.StopInputs := fun _ h =>
  ⟨⟨_, (exec_stopAssertion h).1, inputs_cause _ .break⟩, ⟨_, (exec_stopAssertion h).2, inputs_cause _ .external⟩⟩

end Sys2Proof.Proofs
end

