-- ==== Sys2Proof/Proofs/StoreRequests.lean ====
section
/-!
O21 and O33: requests that the store grants or lets wait, and a line clear refused at its read.
-/
namespace Sys2Proof.Proofs

open Sys2Proof.Machine Sys2Proof.Safety

/-! ## A request that is answered later (R142, R191) -/

/-- A request whose owner answers later and leaves line control alone: its owner's state but for the ports, and its port
executing. -/
theorem takeRequest_later {s t u : State} {p : PortId} {code : Byte} {allowed : Role → Bool} {owner : State → Served}
    (hs : Serves s p allowed) (ht : t = takeRequest p code allowed owner s)
    (ho : owner (s.updatePort p Port.accept) = Served.of u .later) (hu : u.ports = (s.updatePort p Port.accept).ports)
    (hl : u.line = s.line) : t = { u with ports := t.ports } ∧ PortsWait s t p 0 := by
  rw [takeRequest_served code owner (portFree_of_serves hs) hs.2.2, ho] at ht
  have event : t = u.answer p code .later := ht.trans (closeEvent_nil_of_line hl)
  refine ⟨by rw [event]; rfl, fun q => ?_⟩
  have placed : (u.ports[q]).place code .later = u.ports[q] := rfl
  rw [event, State.answer, updatePort_port, placed, ite_self, hu, updatePort_port]
  by_cases h : q = p
  · simp [h, Port.accept]
  · simp [h]

/-- What a request that the store takes or lets wait leaves: the store changed, its port executing, all else as it was. -/
def StoreTakes (s : State) (p : PortId) (o : Host.Outcome State Fault Refusal) (store : Store) : Prop :=
  ∃ t, o = .next t ∧ t.store = store ∧ t = { s with ports := t.ports, store := t.store } ∧ PortsWait s t p 0

theorem storeTakes_of_owner {s : State} {p : PortId} {code : Byte} {owner : State → Served} {store : Store}
    (hs : Serves s p onlyProduction)
    (ho : owner (s.updatePort p Port.accept) = Served.of { s.updatePort p Port.accept with store := store } .later) :
    StoreTakes s p (.next (takeRequest p code onlyProduction owner s)) store := by
  obtain ⟨t, ht⟩ : ∃ t, t = takeRequest p code onlyProduction owner s := ⟨_, rfl⟩
  obtain ⟨frame, waits⟩ := takeRequest_later hs ht ho rfl rfl
  have held : t.store = store := by rw [frame]
  refine ⟨t, by rw [ht], held, ?_, waits⟩
  rw [held]
  exact frame

/-! ## The arbiter asked (R142) -/

theorem grantWaiting_held {s : State} (h : s.store.holder.isSome = true) : grantWaiting s = s := by
  obtain ⟨op, hop⟩ := Option.isSome_iff_exists.mp h
  have fill : grantFill s = s := by rw [grantFill, hop]
  have request : grantRequest s = s := by rw [grantRequest, hop]
  rw [grantWaiting, fill, request]

theorem askStore_held {s : State} (r : StoreRequest) (h : s.store.holder.isSome = true) :
    askStore r s = Served.of { s with store := { s.store with requestWaiting := some r } } .later :=
  congrArg (Served.of · .later) (grantWaiting_held (by exact h))

theorem askStore_idle {s : State} (r : StoreRequest) (h : StoreIdle s) :
    askStore r s = Served.of (startRequest r s) .later := by
  obtain ⟨hh, hf, hr⟩ := h
  have back : ({ s with store := { s.store with requestWaiting := none } } : State) = s := by
    rw [← hr]
  simp only [askStore, grantWaiting, grantFill, grantRequest, State.updateStore_store, hh, hf]
  change Served.of (startRequest r { s with store := { s.store with requestWaiting := none } }) .later = _
  rw [back]

/-- A store request whose checks pass, on a held store: it waits. -/
theorem storeTakes_held {s : State} {p : PortId} {code : Byte} {owner : State → Served} {r : StoreRequest}
    (hs : Serves s p onlyProduction) (h : s.store.holder.isSome = true)
    (ho : owner (s.updatePort p Port.accept) = askStore r (s.updatePort p Port.accept)) :
    StoreTakes s p (.next (takeRequest p code onlyProduction owner s)) { s.store with requestWaiting := some r } :=
  storeTakes_of_owner hs (ho.trans (askStore_held r h))

/-- A store request whose checks pass, on an idle store: it starts. -/
theorem storeTakes_idle {s : State} {p : PortId} {code : Byte} {owner : State → Served} {r : StoreRequest} {store : Store}
    (hs : Serves s p onlyProduction) (h : StoreIdle s)
    (ho : owner (s.updatePort p Port.accept) = askStore r (s.updatePort p Port.accept))
    (hr : startRequest r (s.updatePort p Port.accept) = { s.updatePort p Port.accept with store := store }) :
    StoreTakes s p (.next (takeRequest p code onlyProduction owner s)) store :=
  storeTakes_of_owner hs (ho.trans ((askStore_idle (s := s.updatePort p Port.accept) r h).trans (by rw [hr])))

/-! ## The requests whose checks pass (R48, R144, R147, R150, R154 to R156) -/

section Asks

variable {s : State} {p : PortId} {slot : Byte} {i : SlotId}

theorem eraseOwner_asks (hi : slot.toNat = i.val) (hl : (dirEntry s i).state ≠ .locked)
    (hf : ∀ r ∈ s.queue, r.isFetched = true → r.slot ≠ some i) : eraseOwner p slot s = askStore (.erase p i) s := by
  have unnamed : fetchedNames s i = false := List.any_eq_false.mpr fun r hr => by
    simpa using hf r hr
  rw [eraseOwner, slotOf_eq_some hi]
  simp only [if_neg hl, unnamed, Bool.false_eq_true, if_false]

theorem commitOwner_asks (hi : slot.toNat = i.val) (h : (dirEntry s i).state = .writing) :
    commitOwner p slot s = askStore (.commit p i) s := by
  rw [commitOwner, slotOf_eq_some hi]
  exact if_neg (not_not_intro h)

theorem lockOwner_asks (hi : slot.toNat = i.val) (h : (dirEntry s i).state = .valid) :
    lockOwner p slot s = askStore (.lock p i) s := by
  rw [lockOwner, slotOf_eq_some hi]
  simp [h]

theorem readSlotOwner_asks {offset : BitVec 16} {n : Byte} (hi : slot.toNat = i.val) (h1 : 1 ≤ n.toNat)
    (h32 : n.toNat ≤ 32) (hend : offset.toNat + n.toNat ≤ 1024) :
    readSlotOwner p slot offset n s = askStore (.read p i offset.toNat n.toNat) s := by
  rw [readSlotOwner, slotOf_eq_some hi]
  exact if_neg (by omega)

theorem lineClearOwner_asks {span : BitVec 32} (hu : slotUsable s 0 = true) (hb : s.inputs.breakn.level = true)
    (hs : s.inputs.stopinn.level = true) : lineClearOwner p span s = askStore (.lineClear p span.toNat) s := by
  have chain : stopChainOpen s = false := by simp [stopChainOpen, hb, hs]
  rw [lineClearOwner, chain, hu]
  rfl

theorem storeClearOwner_asks (hm : s.resetUnit.maint = true) (hq : ∀ r ∈ s.queue, r.unprinted = false) :
    storeClearOwner p s = askStore (.clear p) s := by
  have none : s.queue.any (·.unprinted) = false := List.any_eq_false.mpr fun r hr => by simp [hq r hr]
  rw [storeClearOwner, hm, none]
  rfl

/-! ### A write that must program (R147 to R149) -/

theorem touchedRows_one {offset len : Nat} (h1 : 1 ≤ len) (h : offset % 32 + len ≤ 32) :
    touchedRows offset len = [offset / 32] :=
  if_pos (by omega)

/-- A write to a WRITING slot with no row programmed and no byte of it staged passes R147's checks. -/
theorem writeRefusal_none {offset len : Nat} (hw : (dirEntry s i).state = .writing) (hp : (dirEntry s i).programmed = 0)
    (h2 : 2 ≤ offset) (hend : offset + len ≤ 1024) (hst : ∀ r ∈ s.store.staging, r.slot ≠ i) :
    writeRefusal s i offset len = none := by
  have rows : rowsProgrammed s i (touchedRows offset len) = false := by simp [rowsProgrammed, hp]
  have staged : bytesStaged s i offset len = false := List.any_eq_false.mpr fun r hr => by simp [hst r hr]
  rw [writeRefusal, if_neg (not_not_intro hw), if_neg (by omega), rows, staged]
  rfl

theorem writeOwner_asks {offset : BitVec 16} {data : List Byte} (hi : slot.toNat = i.val) (h1 : 1 ≤ data.length)
    (h32 : data.length ≤ 32) (hc : writeRefusal s i offset.toNat data.length = none)
    (hp : (planWrite s.store.staging i offset.toNat data).programs ≠ []) :
    writeOwner p slot offset data s = askStore (.write p i offset.toNat data) s := by
  rw [writeOwner, if_neg (by omega), slotOf_eq_some hi]
  simp only [hc, List.isEmpty_iff, if_neg hp]

/-- A whole row written at once is completed (R148). -/
theorem merge_complete {r : StagingRow} {data : List Byte} (hr : r.row ≠ 0) (hlen : r.bytes.length = 32)
    (hd : data.length = 32) : (r.merge (32 * r.row) data).complete = true := by
  rw [StagingRow.complete, show (r.merge (32 * r.row) data).row = r.row from rfl, if_neg hr, List.drop_zero,
    List.all_eq_true]
  intro b hb
  obtain ⟨k, hk, rfl⟩ := List.mem_mapIdx.mp hb
  have here : 32 * r.row + k - 32 * r.row = k := by omega
  have there : k < data.length := by omega
  simp [here, there]

theorem isFor_merge (r : StagingRow) (offset : Nat) (data : List Byte) (row : Nat) :
    (r.merge offset data).isFor i row = r.isFor i row := rfl

theorem isFor_emptyRow (row : Nat) : (emptyRow i row).isFor i row = true := by
  rw [StagingRow.isFor, decide_eq_true_eq]
  exact ⟨rfl, rfl⟩

theorem programs_of_whole_row {offset : Nat} {data : List Byte} (hd : data.length = 32) (hal : offset % 32 = 0)
    (hlow : 32 ≤ offset) : (planWrite [] i offset data).programs ≠ [] := by
  obtain ⟨row, rfl⟩ : ∃ row, offset = 32 * row := ⟨offset / 32, by omega⟩
  have touched : touchedRows (32 * row) data.length = [row] := by
    rw [touchedRows_one (by omega) (by omega), Nat.mul_div_cancel_left _ (by decide)]
  have own := isFor_emptyRow (i := i) row
  have complete : ((emptyRow i row).merge (32 * row) data).complete = true :=
    merge_complete (r := emptyRow i row) (show row ≠ 0 by omega) List.length_replicate hd
  have missing : missingRows [] i [row] = [row] := rfl
  have plan : (planWrite [] i (32 * row) data).completed = [(emptyRow i row).merge (32 * row) data] := by
    rw [planWrite, touched, missing]
    simp only [List.filter_nil, List.nil_append, List.map_cons, List.map_nil, List.any_cons, List.any_nil, Bool.or_false, own,
      if_true, List.flatMap_cons, List.flatMap_nil, List.append_nil]
    rw [List.filter_cons, isFor_merge, own, complete]
    rfl
  rw [WritePlan.programs, plan]
  exact List.append_ne_nil_of_right_ne_nil _ (List.cons_ne_nil _ _)

theorem programs_of_displaced {held : List StagingRow} {offset : Nat} {data : List Byte} (hh : held.length = 4)
    (hs : ∀ r ∈ held, r.slot ≠ i) (h1 : 1 ≤ data.length) (hrow : offset % 32 + data.length ≤ 32) :
    (planWrite held i offset data).programs ≠ [] := by
  have other : ∀ r ∈ held, r.isFor i (offset / 32) = false := fun r hr => by simp [StagingRow.isFor, hs r hr]
  have untouched : (held.filter fun r => !([offset / 32].any (r.isFor i))) = held :=
    List.filter_eq_self.mpr fun r hr => by simp [other r hr]
  have missing : missingRows held i [offset / 32] = [offset / 32] :=
    List.filter_eq_self.mpr fun row hr => by
      rw [List.mem_singleton.mp hr, List.any_eq_false.mpr fun r hm => by simp [other r hm]]
      rfl
  have displaced : displacedRows held i [offset / 32] = held.take 1 := by
    rw [displacedRows, untouched, missing, hh]
    rfl
  have some : held.take 1 ≠ [] := by
    rw [ne_eq, List.take_eq_nil_iff, not_or]
    exact ⟨by decide, List.ne_nil_of_length_pos (by omega)⟩
  rw [WritePlan.programs, planWrite, touchedRows_one h1 hrow]
  change displacedRows held i [offset / 32] ++ _ ≠ []
  rw [displaced]
  exact fun h => some (List.append_eq_nil_iff.mp h).1

end Asks

/-- Settles O21: each request passes its owner's checks and asks the arbiter, which grants it on an idle store and lets it wait
on a held one. -/
theorem storeRequestsTakeOrWait : Obligations.StoreRequestsTakeOrWait := by
  refine ⟨fun s p slot i hs idle hi => ⟨fun hw => ?_, fun hv => ?_, fun offset n h1 h32 hend => ?_, fun span hu hb hst => ?_⟩,
    fun s p slot i hs held hi => ⟨fun hl hf => ?_, fun hw => ?_, fun hv => ?_, fun offset n h1 h32 hend => ?_,
      fun offset data hw hprog hcase => ?_, fun span hu hb hst => ?_, fun hm hq => ?_⟩⟩
  · exact storeTakes_idle hs idle (commitOwner_asks hi hw) rfl
  · exact storeTakes_idle hs idle (lockOwner_asks hi hv) rfl
  · exact storeTakes_idle hs idle (readSlotOwner_asks hi h1 h32 hend) rfl
  · exact storeTakes_idle hs idle (lineClearOwner_asks hu hb hst) rfl
  · exact storeTakes_held hs held (eraseOwner_asks hi hl hf)
  · exact storeTakes_held hs held (commitOwner_asks hi hw)
  · exact storeTakes_held hs held (lockOwner_asks hi hv)
  · exact storeTakes_held hs held (readSlotOwner_asks hi h1 h32 hend)
  · refine storeTakes_held hs held (r := .write p i offset.toNat data) ?_
    rcases hcase with ⟨hnone, hlen, hal, hlow, hhigh⟩ | ⟨hfour, hslot, h1, h2, hrow, hhigh⟩
    · refine writeOwner_asks hi (by omega) (by omega)
        (writeRefusal_none hw hprog (by omega) (by omega) fun r hr => absurd (hnone ▸ hr) List.not_mem_nil) ?_
      rw [State.updatePort_store, hnone]
      exact programs_of_whole_row hlen hal hlow
    · exact writeOwner_asks hi h1 (by omega) (writeRefusal_none hw hprog h2 (by omega) hslot)
        (programs_of_displaced hfour hslot h1 hrow)
  · exact storeTakes_held hs held (lineClearOwner_asks hu hb hst)
  · exact storeTakes_held hs held (storeClearOwner_asks hm hq)

/-! ## A line clear refused at its read (R49, R157) -/

/-- R49's checks that fail, in their order. -/
theorem lineClearRefusal_some {m : MachineRecord} {span : Nat} {s : State} :
    (s.inputs.breakn.level = false ∨ s.inputs.stopinn.level = false → lineClearRefusal m span s = some .stillActive) ∧
    (s.inputs.breakn.level = true → s.inputs.stopinn.level = true →
      m.vMin ≤ s.pos.keptCal.natAbs * m.cencRes / 100000 ∨ m.vMin ≤ s.pos.keptPrint.natAbs * m.pencRes / 100000 →
      lineClearRefusal m span s = some .wrongState) ∧
    (s.inputs.breakn.level = true → s.inputs.stopinn.level = true →
      s.pos.keptCal.natAbs * m.cencRes / 100000 < m.vMin → s.pos.keptPrint.natAbs * m.pencRes / 100000 < m.vMin →
      span ≤ m.stopLow ∨ m.stopHigh ≤ span → lineClearRefusal m span s = some .badArg) := by
  refine ⟨fun h => ?_, fun hb hs hv => ?_, fun hb hs hcal hprint hspan => ?_⟩
  · have chain : stopChainOpen s = true := by rcases h with h | h <;> simp [stopChainOpen, h]
    rw [lineClearRefusal, if_pos chain]
  · have chain : stopChainOpen s = false := by simp [stopChainOpen, hb, hs]
    have moves : stillMoves m s.pos = true := by
      rw [stillMoves, Bool.or_eq_true, decide_eq_true_eq, decide_eq_true_eq]
      exact hv
    rw [lineClearRefusal, chain, if_neg Bool.false_ne_true, if_pos moves]
  · have chain : stopChainOpen s = false := by simp [stopChainOpen, hb, hs]
    have still : stillMoves m s.pos = false := by
      rw [stillMoves, Bool.or_eq_false_iff]
      exact ⟨decide_eq_false (Nat.not_le.mpr hcal), decide_eq_false (Nat.not_le.mpr hprint)⟩
    rw [lineClearRefusal, chain, still, if_neg Bool.false_ne_true, if_neg Bool.false_ne_true, if_neg (by omega)]

/-- A refused line clear: the state it is refused on but for the ports, and the answer. -/
theorem endLineClear_refused {b u : State} {p : PortId} {reason : Reason} {raised : AttnSet}
    (hf : u.store.fillWaiting = none) (hr : u.store.requestWaiting = none) (hl : u.line = b.line)
    (hu : PortsRaise b u raised) :
    let t := endLineClear b p (.refused reason) u
    t = { u with ports := t.ports } ∧ PortsAnswer b t p (refusedFrame 0x23 reason) raised := by
  intro t
  have event : t = u.answer p 0x23 (.refused reason) := by
    change closeEvent b (grantWaiting (u.answer p 0x23 (.refused reason))) [] = _
    rw [grantWaiting_idle (by exact hf) (by exact hr)]
    exact closeEvent_nil_of_line hl
  rw [event]
  refine ⟨rfl, fun q => ?_⟩
  rw [State.answer, updatePort_port, hu q]
  by_cases h : q = p
  · simp [h, Port.place, Reply.frame, refusedFrame]
  · simp [h]

theorem dirEntry_markDamaged (s : State) :
    dirEntry (markDamaged 0 s) 0 =
        { state := .damaged, generation := (dirEntry s 0).generation, channels := none, name := none, programmed := 0 } ∧
      ∀ j : SlotId, j ≠ 0 → dirEntry (markDamaged 0 s) j = dirEntry s j := by
  constructor
  · simp [dirEntry, markDamaged, DirEntry.without]
  · intro j hj
    have ne : (0 : SlotId).val ≠ j.val := fun h => hj (Fin.ext h.symm)
    exact Vector.getElem_set_ne (Fin.isLt 0) j.isLt ne

/-- Settles O33: the read's judgement is a refusal on the freed store, with slot 0 DAMAGED first where its CRC fails. -/
theorem lineClearRefusals : Obligations.LineClearRefusals := by
  intro s p span m hh hf hr hm
  have run : exec .lineClearReadCompletion s = .next (judgeLineClear p span s) := by
    change execLineClearReadCompletion s = _
    rw [execLineClearReadCompletion, hh]
  refine ⟨judgeLineClear p span s, run, fun hslot => ?_, fun hv hcrc => ?_⟩
  · have refused {reason : Reason} (h : lineClearRefusal m span s = some reason) :
        judgeLineClear p span s =
            { s with ports := (judgeLineClear p span s).ports, store := { s.store with holder := none } } ∧
          PortsAnswer s (judgeLineClear p span s) p (refusedFrame 0x23 reason) 0 := by
      have judged : judgeLineClear p span s = endLineClear s p (.refused reason) (freeStore s) := by
        simp only [judgeLineClear, readPasses_of_state hslot, if_true, ← hm, h]
      rw [judged]
      exact endLineClear_refused hf hr rfl (portsRaise_of_ports rfl)
    obtain ⟨active, moves, span⟩ := lineClearRefusal_some (m := m) (span := span) (s := s)
    exact ⟨fun h => refused (active h), fun hb hst h => refused (moves hb hst h),
      fun hb hst hcal hprint h => refused (span hb hst hcal hprint h)⟩
  · have fails : readPasses s 0 = false := by simp [readPasses, hv, hcrc]
    have judged : judgeLineClear p span s = endLineClear s p (.refused .noMachineRecord) (markDamaged 0 (freeStore s)) := by
      rw [judgeLineClear, fails]
      rfl
    obtain ⟨frame, answer⟩ := endLineClear_refused (b := s) (u := markDamaged 0 (freeStore s)) (p := p)
      (reason := .noMachineRecord) hf hr rfl (portsRaise_raise _ .profileDamaged)
    rw [← judged] at frame answer
    obtain ⟨damaged, others⟩ := dirEntry_markDamaged (freeStore s)
    have entries (j : SlotId) : dirEntry (judgeLineClear p span s) j = dirEntry (markDamaged 0 (freeStore s)) j := by
      rw [frame]
      rfl
    refine ⟨(entries 0).trans damaged, fun j hj => (entries j).trans (others j hj), ?_, answer⟩
    have dir : (judgeLineClear p span s).store.dir = (markDamaged 0 (freeStore s)).store.dir := by rw [frame]
    rw [dir]
    exact frame

end Sys2Proof.Proofs
end

