-- ==== Sys2Proof/Proofs/PrintCounts.lean ====
section
/-!
O39: the counts of the print encoder, with the fill they change.
-/
namespace Sys2Proof.Proofs

open Sys2Proof.Machine Sys2Proof.Safety

/-! ## Carry and borrow (R26 to R28) -/

theorem carry_eq {total carry rem : Nat} (h : total = carry * 100000 + rem) (hr : rem < 100000) :
    total / wuNm = carry ∧ total % wuNm = rem := by
  rw [wuNm]
  omega

theorem carry_zero {total : Nat} (h : total < 100000) : total / wuNm = 0 ∧ total % wuNm = total :=
  carry_eq (by omega) h

/-- What a reverse count borrows, and the remainder it leaves. -/
theorem borrow_eq {old res borrow rem : Nat} (h : res + rem = borrow * 100000 + old) (hr : rem < 100000)
    (hb : 1 ≤ borrow) : borrowOf old res = borrow ∧ old + borrow * wuNm - res = rem := by
  rw [borrowOf, wuNm]
  omega

theorem borrow_zero {old res : Nat} (h : res ≤ old) : borrowOf old res = 0 := by
  rw [borrowOf, wuNm]
  omega

/-! ## A change of fill (R32, R33) -/

theorem evaluateFill_line (m : MachineRecord) (s : State) :
    (evaluateFill m s).1.line = { s.line with hold := fillHighAfter m s.pos.lastFill s.fill s.line.hold } := by
  simp [evaluateFill]

theorem fillHighAfter_up {m : MachineRecord} {last new : Nat} (h : HoldSet) (h1 : last < m.holdHigh) (h2 : m.holdHigh ≤ new) :
    (fillHighAfter m last new h).fillHigh = true := by
  have up : crossesUp last new m.holdHigh = true := decide_eq_true ⟨h1, h2⟩
  rw [fillHighAfter, if_pos up]

/-- A crossing up to stop_high is none down to stop_low (R33). -/
theorem fillCauses_up {m : MachineRecord} {last new : Nat} (h1 : last < m.stopHigh) (h2 : m.stopHigh ≤ new) :
    fillCauses m last new = [.fillHighLimit] := by
  have down : crossesDown last new m.stopLow = false := decide_eq_false (by omega)
  have up : crossesUp last new m.stopHigh = true := decide_eq_true ⟨h1, h2⟩
  rw [fillCauses, down, up]
  rfl

/-! ## A stop cause in TRACKING (R161) -/

theorem closeEvent_latches {b s : State} {c : StopCause} (h : s.line.state = .tracking) :
    (closeEvent b s [c]).line.state = .halted ∧ (closeEvent b s [c]).line.stop.map (·.firstCause) = some c := by
  obtain ⟨⟨-, -, -, -, halts, latches, -⟩, -⟩ := closeEvent_one b s c
  rw [latches h]
  exact ⟨(halts (by simp [h])).1, rfl⟩

/-! ## The pace at a count (R91 to R93) -/

theorem pace_forward {g : Pace} {th : Nat} (res : Nat) (h : g.threshold = some th) :
    g.forward res = paceForward g th res := by
  rw [Pace.forward, paceForward, h]
  by_cases due : th ≤ g.accumulator + res
  · simp only [if_pos due]
    cases hp : g.pulse with
    | idle => simp [Pace.due, hp, pulseDue, h, saturatingSucc]
    | high => simp [Pace.due, hp, pulseDue, h, saturatingSucc]
    | highPending => simp [Pace.due, hp, pulseDue, h, saturatingSucc]
    | gap => simp [Pace.due, hp, pulseDue, h, saturatingSucc]
    | gapPending => simp [Pace.due, hp, pulseDue, h, saturatingSucc]
  · simp only [if_neg due]

/-! ## The count (R25, R30) -/

/-- A PENC count in the speed window, before the coordinates. -/
def printCounted (d : Direction) (s : State) : State :=
  { s with pos := { s.pos with netPrint := s.pos.netPrint + countStep d } }

theorem exec_penc {s : State} {m : MachineRecord} (hrun : s.running = true) (hm : s.line.active = some m)
    (hl : s.line.state ≠ .unset) :
    exec (.pencCount .forward) s =
        .next (closeEvent s (printForward m (printCounted .forward s)).1 (printForward m (printCounted .forward s)).2) ∧
      exec (.pencCount .reverse) s =
        .next (closeEvent s (printReverse m (printCounted .reverse s)).1 (printReverse m (printCounted .reverse s)).2) := by
  have run (d : Direction) : exec (.pencCount d) s =
      .next (closeEvent s (printCount d (printCounted d s)).1 (printCount d (printCounted d s)).2) :=
    congrArg Host.Outcome.next (if_pos hrun)
  have active (d : Direction) : (printCounted d s).line.active = some m := hm
  have online (d : Direction) : (printCounted d s).onLine = true := onLine_iff.mpr hl
  rw [run, run]
  simp only [printCount, active, online, if_true, and_self]

/-! ### Forward (R26, R91) -/

section Forward

variable {s : State} {m : MachineRecord} {carry rem : Nat}

theorem printForward_short (h : s.pos.remPrint + m.pencRes < 100000) (hx : s.pos.xPrint ≤ 4294967295) :
    printForward m s =
      ({ s with
          pos := { s.pos with remPrint := s.pos.remPrint + m.pencRes }
          pace := s.pace.forward m.pencRes }, []) := by
  obtain ⟨quot, mod⟩ := carry_zero h
  have within : ¬ maxU32 < s.pos.xPrint + 0 := Nat.not_lt.mpr hx
  simp only [printForward, quot, mod, if_neg within]
  rfl

theorem printForward_beyond (h : s.pos.remPrint + m.pencRes = carry * 100000 + rem) (hr : rem < 100000)
    (hx : 4294967295 < s.pos.xPrint + carry) : printForward m s = (s, []) := by
  obtain ⟨quot, -⟩ := carry_eq h hr
  simp only [printForward, quot]
  exact if_pos hx

/-- The coordinates carried on, before the fill is evaluated. -/
def printCarried (s : State) (carry rem : Nat) : State :=
  { s with pos := { s.pos with xPrint := s.pos.xPrint + carry, remPrint := rem } }

theorem printForward_carried (h : s.pos.remPrint + m.pencRes = carry * 100000 + rem) (hr : rem < 100000) (hc : 1 ≤ carry)
    (hx : s.pos.xPrint + carry ≤ 4294967295) :
    printForward m s =
      ((evaluateFill m (printCarried s carry rem)).1.updatePace fun g => g.forward m.pencRes,
        fillCauses m s.pos.lastFill (s.pos.xPrint + carry - s.pos.xNip) ++
          if s.pos.xPrint + carry = 4294967295 then [.coordLimit] else []) := by
  obtain ⟨quot, mod⟩ := carry_eq h hr
  have within : ¬ maxU32 < s.pos.xPrint + carry := Nat.not_lt.mpr hx
  have some : carry ≠ 0 := Nat.ne_of_gt hc
  simp only [printForward, quot, mod, if_neg within, some, ne_eq, not_false_eq_true, true_and]
  rfl

/-- Where the carry crosses no threshold, the fill alone is noted. -/
theorem printForward_quiet {x : Nat} (h : s.pos.remPrint + m.pencRes = carry * 100000 + rem) (hr : rem < 100000)
    (hc : 1 ≤ carry) (hx : s.pos.xPrint + carry = x) (hle : x ≤ 4294967295)
    (hno : NoCrossing m s.pos.lastFill (x - s.pos.xNip)) :
    printForward m s =
      ({ s with
          pos := { s.pos with xPrint := x, remPrint := rem, lastFill := x - s.pos.xNip }
          pace := s.pace.forward m.pencRes },
        if x = 4294967295 then [.coordLimit] else []) := by
  subst hx
  have filled := evaluateFill_quiet (s := printCarried s carry rem) hno
  have quiet : fillCauses m s.pos.lastFill (s.pos.xPrint + carry - s.pos.xNip) = [] := congrArg Prod.snd filled
  rw [printForward_carried h hr hc hle, filled, quiet]
  rfl

end Forward

/-! ### In reverse (R27, R92) -/

section Reverse

variable {s : State} {m : MachineRecord} {borrow rem : Nat}

theorem printReverse_short (h : m.pencRes ≤ s.pos.remPrint) :
    printReverse m s =
      ({ s with
          pos := { s.pos with remPrint := s.pos.remPrint - m.pencRes }
          pace := { s.pace with accumulator := s.pace.accumulator - m.pencRes } }, []) := by
  simp only [printReverse, borrow_zero h]
  rfl

theorem printReverse_below (h : m.pencRes + rem = borrow * 100000 + s.pos.remPrint) (hr : rem < 100000) (hb : 1 ≤ borrow)
    (hx : s.pos.xPrint < printFloor s + borrow) : printReverse m s = (s, []) := by
  obtain ⟨quot, -⟩ := borrow_eq h hr hb
  simp only [printReverse, quot]
  rw [if_neg (Nat.ne_of_gt hb), if_pos hx]

/-- The coordinates borrowed back, before the fill is evaluated. -/
def printBorrowed (s : State) (borrow rem : Nat) : State :=
  { s with pos := { s.pos with xPrint := s.pos.xPrint - borrow, remPrint := rem } }

theorem printReverse_quiet (h : m.pencRes + rem = borrow * 100000 + s.pos.remPrint) (hr : rem < 100000) (hb : 1 ≤ borrow)
    (hx : printFloor s + borrow ≤ s.pos.xPrint)
    (hno : NoCrossing m s.pos.lastFill (s.pos.xPrint - borrow - s.pos.xNip)) :
    printReverse m s =
      ({ s with
          pos :=
            { s.pos with
              xPrint := s.pos.xPrint - borrow
              remPrint := rem
              lastFill := s.pos.xPrint - borrow - s.pos.xNip }
          pace := { s.pace with accumulator := s.pace.accumulator - m.pencRes } }, []) := by
  obtain ⟨quot, left⟩ := borrow_eq h hr hb
  have moved : (s.updatePos fun x =>
      { x with xPrint := x.xPrint - borrow, remPrint := x.remPrint + borrow * wuNm - m.pencRes }) =
        printBorrowed s borrow rem := by
    rw [← left]
    rfl
  have filled := evaluateFill_quiet (s := printBorrowed s borrow rem) hno
  simp only [printReverse, quot]
  rw [if_neg (Nat.ne_of_gt hb), if_neg (Nat.not_lt.mpr hx), moved, filled]
  rfl

end Reverse

/-- Settles O39: the count's carry or borrow, case by case, and the end of its event. -/
theorem printCounts : Obligations.PrintCounts := by
  intro s m th hrun hm hl hth
  obtain ⟨forward, reverse⟩ := exec_penc hrun hm hl
  have pace : (printCounted .forward s).pace.forward m.pencRes = paceForward s.pace th m.pencRes := pace_forward _ hth
  have ended {r : State × List StopCause} {v : State} (h : r = (v, [])) (hv : v.line = s.line) : closeEvent s r.1 r.2 = v := by
    rw [h]
    exact closeEvent_nil_of_line hv
  refine ⟨_, _, forward, reverse, fun hshort hx => ?_, fun carry rem hc hr h1 => ⟨fun hx => ?_, fun hx hno => ?_,
    fun hx hno => ?_, fun hx hlast hnew => ?_, fun hx htr hlast hnew => ?_⟩, fun hshort => ?_,
    fun borrow rem hb hr h1 => ⟨fun hx => ?_, fun hx hno => ?_⟩⟩
  · have form := printForward_short (s := printCounted .forward s) hshort hx
    rw [pace] at form
    exact ended form rfl
  · exact ended (printForward_beyond (s := printCounted .forward s) hc hr hx) rfl
  · have form := printForward_quiet (s := printCounted .forward s) hc hr h1 rfl (Nat.le_of_lt hx) hno
    have below : ¬ (printCounted .forward s).pos.xPrint + carry = 4294967295 := Nat.ne_of_lt hx
    rw [pace, if_neg below] at form
    exact ended form rfl
  · have form := printForward_quiet (s := printCounted .forward s) hc hr h1 hx le_rfl hno
    rw [pace, if_pos rfl] at form
    rw [form]
    obtain ⟨taken, frame, raised⟩ := closeEvent_one s
      { s with
        pos :=
          { s.pos with
            xPrint := 4294967295
            remPrint := rem
            lastFill := 4294967295 - s.pos.xNip
            netPrint := s.pos.netPrint + 1 }
        pace := paceForward s.pace th m.pencRes } .coordLimit
    rw [closeEvent_pos, closeEvent_pace]
    exact ⟨rfl, rfl, taken, frame, raised⟩
  · have form := printForward_carried (s := printCounted .forward s) hc hr h1 (Nat.le_of_lt hx)
    rw [form, closeEvent_line_hold, State.updatePace_line, evaluateFill_line]
    exact fillHighAfter_up _ hlast hnew
  · have form := printForward_carried (s := printCounted .forward s) hc hr h1 (Nat.le_of_lt hx)
    have below : ¬ (printCounted .forward s).pos.xPrint + carry = 4294967295 := Nat.ne_of_lt hx
    have causes : (printForward m (printCounted .forward s)).2 = [.fillHighLimit] := by
      rw [form, if_neg below, List.append_nil]
      exact fillCauses_up hlast hnew
    have tracks : (printForward m (printCounted .forward s)).1.line.state = .tracking := by
      rw [form, State.updatePace_line, evaluateFill_line]
      exact htr
    rw [causes]
    exact closeEvent_latches tracks
  · exact ended (printReverse_short (s := printCounted .reverse s) hshort) rfl
  · exact ended (printReverse_below (s := printCounted .reverse s) hb hr h1 hx) rfl
  · exact ended (printReverse_quiet (s := printCounted .reverse s) hb hr h1 hx hno) rfl

end Sys2Proof.Proofs
end

