-- ==== Sys2Proof/Proofs/NipCounts.lean ====
section
/-!
O40: the counts of the calender encoder, forward on a line without records and in reverse over any queue.
-/
namespace Sys2Proof.Proofs

open Sys2Proof.Machine Sys2Proof.Safety

/-! ## Marks missed by position (R46) -/

theorem markPassed_iff {m : MachineRecord} {x : Nat} {q : Panel} :
    markPassed m x q = true ↔ q.mark = some .noneYet ∧ ∃ l, q.lead = some l ∧ (l : Int) - m.markLead + m.syncLimit ≤ x := by
  unfold markPassed
  split
  · rename_i lead hmark hlead
    simp [hmark, hlead]
  · rename_i hno
    exact ⟨nofun, fun ⟨hmark, l, hlead, _⟩ => absurd hlead (hno l hmark)⟩

theorem missByPosition_eq (m : MachineRecord) (s : State) :
    missByPosition m s =
      { s with
        queue := s.queue.map fun q =>
          if q.mark = some .noneYet ∧ ∃ l, q.lead = some l ∧ (l : Int) - m.markLead + m.syncLimit ≤ s.pos.xNip then
            { q with mark := some .missed, flags := addFlag q.flags .markMissed }
          else q } := by
  refine congrArg (fun l => { s with queue := l }) (List.map_congr_left fun q _ => ?_)
  refine if_congr (markPassed_iff.trans ?_) rfl rfl
  cases q.lead with
  | none => simp
  | some l => simp

theorem missByPosition_empty (m : MachineRecord) {s : State} (h : s.queue = []) : missByPosition m s = s := by
  rw [missByPosition, State.mapPanels, h, List.map_nil, ← h]

/-! ## A change of x_nip at which no record arrives or completes (R28, R40, R44) -/

/-- A record that stays in its place at a coordinate: x_nip short of its lead, or TRANSFERRING and short of its completion. -/
def StaysAt (m : MachineRecord) (x : Nat) (q : Panel) : Prop :=
  (q.state = .inTransit ∨ q.state = .printing → ∃ l, q.lead = some l ∧ x < l) ∧
  (q.state = .transferring → ∀ trail, q.trail = some trail → x < trail + 10 * m.arcLen)

theorem StaysAt.not_reached {m : MachineRecord} {x : Nat} {q : Panel} (h : StaysAt m x q) : q.reached x = false := by
  obtain ⟨short, -⟩ := h
  cases hst : q.state with
  | queued => exact reached_eq_false (.inl (by simp [Panel.unprinted, hst]))
  | ready _ _ _ => exact reached_eq_false (.inl (by simp [Panel.unprinted, hst]))
  | printing => exact reached_eq_false (.inr (.inr (short (.inr hst))))
  | inTransit => exact reached_eq_false (.inr (.inr (short (.inl hst))))
  | transferring => exact reached_eq_false (.inr (.inl hst))

theorem StaysAt.not_completes {m : MachineRecord} {x : Nat} {q : Panel} (h : StaysAt m x q) : completes m x q = false :=
  completes_eq_false fun trail hst htr => h.2 hst trail htr

theorem evaluateFill_keeps (m : MachineRecord) (s : State) :
    (evaluateFill m s).1.queue = s.queue ∧ (evaluateFill m s).1.pos = { s.pos with lastFill := s.fill } ∧
      (evaluateFill m s).1.mark = s.mark := by
  simp [evaluateFill]

theorem nipChanged_stays {m : MachineRecord} {s : State} (h : ∀ q ∈ s.queue, StaysAt m s.pos.xNip q) :
    nipChanged m s = (missByPosition m (evaluateFill m s).1, (evaluateFill m s).2) := by
  obtain ⟨queue, pos, -⟩ := evaluateFill_keeps m s
  have nip : (evaluateFill m s).1.pos.xNip = s.pos.xNip := by rw [pos]
  have arrived : nipArrival (evaluateFill m s).1 = ((evaluateFill m s).1, []) := nipArrival_none fun q hq => by
    rw [nip]
    exact (h q (queue ▸ hq)).not_reached
  have completed : completeRecords m (evaluateFill m s).1 = (evaluateFill m s).1 := completeRecords_of_none fun q hq => by
    rw [nip]
    exact (h q (queue ▸ hq)).not_completes
  simp only [nipChanged, arrived, completed, List.append_nil]

/-- Without records a change of x_nip is a change of the fill. -/
theorem nipChanged_empty (m : MachineRecord) {s : State} (h : s.queue = []) : nipChanged m s = evaluateFill m s := by
  have none : ∀ q ∈ s.queue, StaysAt m s.pos.xNip q := fun q hq => absurd (h ▸ hq) List.not_mem_nil
  rw [nipChanged_stays none, missByPosition_empty m ((evaluateFill_keeps m s).1.trans h)]

/-! ## A fill that falls (R32, R33) -/

/-- Line control's hold set after a fall of the fill: FILL_HIGH ends at a crossing down to resume. -/
theorem fillHighAfter_down {m : MachineRecord} {last new : Nat} (h : HoldSet) (hle : new ≤ last) :
    fillHighAfter m last new h = { h with fillHigh := h.fillHigh && !decide (m.resume < last ∧ new ≤ m.resume) } := by
  have up : crossesUp last new m.holdHigh = false := decide_eq_false (by omega)
  rw [fillHighAfter, up, crossesDown]
  by_cases down : m.resume < last ∧ new ≤ m.resume
  · simp [down]
  · simp [down]

theorem fillCauses_down {m : MachineRecord} {last new : Nat} (hle : new ≤ last) :
    fillCauses m last new = if m.stopLow < last ∧ new ≤ m.stopLow then [.fillLowLimit] else [] := by
  have up : crossesUp last new m.stopHigh = false := decide_eq_false (by omega)
  rw [fillCauses, up, crossesDown]
  by_cases down : m.stopLow < last ∧ new ≤ m.stopLow
  · simp [down]
  · simp [down]

/-- The state after a fall of the fill, before FILL_WARNING. -/
def fillFallen (m : MachineRecord) (s : State) : State :=
  { s with
    pos := { s.pos with lastFill := s.fill }
    line :=
      { s.line with
        hold :=
          { s.line.hold with
            fillHigh := s.line.hold.fillHigh && !decide (m.resume < s.pos.lastFill ∧ s.fill ≤ m.resume) } } }

theorem evaluateFill_down {m : MachineRecord} {s : State} (hle : s.fill ≤ s.pos.lastFill) :
    evaluateFill m s =
      ((fillFallen m s).raiseIf (decide (m.warnLow < s.pos.lastFill ∧ s.fill ≤ m.warnLow)) .fillWarning,
        if m.stopLow < s.pos.lastFill ∧ s.fill ≤ m.stopLow then [.fillLowLimit] else []) := by
  have hold : fillHighAfter m s.pos.lastFill s.fill s.line.hold = (fillFallen m s).line.hold := fillHighAfter_down _ hle
  have fallen : (s.updatePos fun x => { x with lastFill := s.fill }).updateHold (fillHighAfter m s.pos.lastFill s.fill) =
      fillFallen m s := by
    rw [State.updateHold, State.updatePos_line, hold]
    rfl
  simp only [evaluateFill, fallen, fillCauses_down hle]
  rfl

/-! ## The count (R25, R30) -/

/-- A CENC count in the speed window, before the coordinates. -/
def nipCounted (d : Direction) (s : State) : State :=
  { s with pos := { s.pos with netCal := s.pos.netCal + countStep d } }

theorem exec_cenc {s : State} (hrun : s.running = true) (d : Direction) :
    exec (.cencCount d) s = .next (closeEvent s (nipCount d (nipCounted d s)).1 (nipCount d (nipCounted d s)).2) :=
  congrArg Host.Outcome.next (if_pos hrun)

theorem nipCount_onLine {s : State} {m : MachineRecord} (hm : s.line.active = some m) (hl : s.line.state ≠ .unset) :
    nipCount .forward s = nipForward m s ∧ nipCount .reverse s = nipReverse m s := by
  have online : s.onLine = true := onLine_iff.mpr hl
  simp only [nipCount, hm, online, if_true, and_self]

theorem nipCount_unset {s : State} (d : Direction) (h : s.line.state = .unset) : nipCount d s = (s, []) := by
  have offline : s.onLine = false := by simp [State.onLine, h]
  unfold nipCount
  split
  · rw [offline]
    rfl
  · rfl

/-! ### Forward (R28) -/

/-- The coordinates of the calender moved, before the fill is evaluated. -/
def nipPlaced (s : State) (x rem : Nat) : State :=
  { s with pos := { s.pos with xNip := x, remNip := rem } }

section Forward

variable {s : State} {m : MachineRecord} {carry rem : Nat}

theorem nipForward_short (h : s.pos.remNip + m.cencRes < 100000) :
    nipForward m s = ({ s with pos := { s.pos with remNip := s.pos.remNip + m.cencRes } }, []) := by
  obtain ⟨quot, -⟩ := carry_zero h
  simp only [nipForward, quot]
  rfl

/-- At x_print a carry leaves x_nip and takes the remainder (R28). -/
theorem nipForward_end (h : 100000 ≤ s.pos.remNip + m.cencRes) (hx : s.pos.xNip = s.pos.xPrint) :
    nipForward m s = ({ s with pos := { s.pos with remNip := 0 } }, []) := by
  have carries : 0 < (s.pos.remNip + m.cencRes) / wuNm := Nat.div_pos h (by decide)
  simp only [nipForward]
  rw [if_neg (Nat.ne_of_gt carries), if_pos (by omega), if_pos hx, State.updatePos, ← hx]

/-- A carry short of x_print, or one cut to it (R28). -/
theorem nipForward_moved {x rest : Nat} (h : s.pos.remNip + m.cencRes = carry * 100000 + rem) (hr : rem < 100000)
    (hc : 1 ≤ carry) (hlt : s.pos.xNip < s.pos.xPrint)
    (hx : (s.pos.xNip + carry ≤ s.pos.xPrint ∧ x = s.pos.xNip + carry ∧ rest = rem) ∨
      (s.pos.xPrint < s.pos.xNip + carry ∧ x = s.pos.xPrint ∧ rest = 0)) :
    nipForward m s = nipChanged m (nipPlaced s x rest) := by
  obtain ⟨quot, mod⟩ := carry_eq h hr
  simp only [nipForward, quot, mod]
  rw [if_neg (Nat.ne_of_gt hc)]
  rcases hx with ⟨hle, rfl, rfl⟩ | ⟨hgt, rfl, rfl⟩
  · rw [if_neg (Nat.not_lt.mpr hle)]
    rfl
  · rw [if_pos hgt, if_neg (Nat.ne_of_lt hlt)]
    rfl

end Forward

/-- The end of a count whose fill falls on a line without records: FILL_LOW_LIMIT where it crosses stop_low, and FILL_WARNING
where it crosses warn_low. -/
theorem fallEnds {s v t : State} {warn stop : Prop} [Decidable warn] [Decidable stop]
    (hl : s.line.state ≠ .unset) (hq : s.queue = []) (hv : v = { s with pos := v.pos, line := v.line })
    (hline : v.line = { s.line with hold := v.line.hold })
    (ht : t = closeEvent s (v.raiseIf (decide warn) .fillWarning) (if stop then [.fillLowLimit] else [])) :
    t.pos = v.pos ∧ t.line.hold = v.line.hold ∧
    (stop → CauseTaken { s with pos := t.pos, line := { s.line with hold := t.line.hold } } t .fillLowLimit) ∧
    (¬ stop → t.line = { s.line with hold := t.line.hold }) ∧
    t = { s with pos := t.pos, line := t.line, ports := t.ports } ∧
    PortsRaise s t
      ((if warn then Attn.fillWarning.bit else 0) |||
        (if stop ∧ s.line.state = .tracking then Attn.lineHalted.bit else 0) ||| holdKind s t) := by
  obtain ⟨ports, warned, raised⟩ := raiseIf_form v (decide warn) .fillWarning
  have queue : v.queue = [] := by rw [hv]; exact hq
  have pos : t.pos = v.pos := by rw [ht, closeEvent_pos, State.raiseIf_pos]
  have hold : t.line.hold = v.line.hold := by rw [ht, closeEvent_line_hold, State.raiseIf_line]
  have start : PortsRaise s { v with ports := ports } (if warn then Attn.fillWarning.bit else 0) := fun q => by
    rw [raised q, hv]
    simp only [decide_eq_true_eq]
  rw [warned] at ht
  refine ⟨pos, hold, ?_⟩
  by_cases stops : stop
  · rw [if_pos stops] at ht
    obtain ⟨taken, frame, kinds⟩ := closeEvent_one s { v with ports := ports } .fillLowLimit
    rw [← ht] at taken frame kinds
    obtain ⟨-, -, -, -, halts, -⟩ := id taken
    have empty : t.queue = [] := by
      rw [(halts (by rw [hline]; exact hl)).2]
      exact congrArg _ queue
    have all := portsRaise_trans start kinds
    refine ⟨fun _ => causeTaken_congr ?_ ?_ pos taken, fun h => absurd stops h, ?_, ?_⟩
    · rw [hold]
      exact hline.symm
    · exact hq.trans queue.symm
    · rw [pos, frame, hv, empty, ← hq]
    · have latch : latchKind { v with ports := ports } =
          if stop ∧ s.line.state = .tracking then Attn.lineHalted.bit else 0 := by
        rw [latchKind, hline]
        simp [stops]
      rw [← latch, BitVec.or_assoc]
      exact all
  · rw [if_neg stops] at ht
    have frame := closeEvent_nil_frame s { v with ports := ports }
    have kinds := portsRaise_closeEvent_nil s { v with ports := ports }
    rw [← ht] at frame kinds
    have line : t.line = v.line := by rw [frame]
    refine ⟨fun h => absurd h stops, fun _ => ?_, ?_, ?_⟩
    · rw [line]
      exact hline
    · rw [line, pos, frame, hv]
    · have latch : (if stop ∧ s.line.state = .tracking then Attn.lineHalted.bit else (0 : AttnSet)) = 0 :=
        if_neg fun h => stops h.1
      rw [latch, holdKind_of_line (u := { v with ports := ports }) line]
      exact portsRaise_trans (portsRaise_trans start (portsRaise_refl _)) kinds

/-! ### In reverse (R28) -/

theorem nipFloor_eq {s : State} {floor : Nat}
    (h : ((∀ r ∈ s.queue, r.state ≠ .transferring) ∧ floor = 0) ∨
      (∃ before r after, s.queue = before ++ r :: after ∧ r.state = .transferring ∧ r.lead = some floor ∧
        ∀ q ∈ after, q.state ≠ .transferring)) : nipFloor s = floor := by
  have away {l : List Panel} (hl : ∀ q ∈ l, q.state ≠ .transferring) : l.filter (·.isTransferring) = [] :=
    List.filter_eq_nil_iff.mpr fun q hq => by simp [Panel.isTransferring, hl q hq]
  rcases h with ⟨hnone, rfl⟩ | ⟨before, r, after, hq, hr, hlead, hafter⟩
  · rw [nipFloor, newestTransferring, away hnone]
    rfl
  · have picked : r.isTransferring = true := decide_eq_true hr
    have newest : newestTransferring s = some r := by
      rw [newestTransferring, hq, List.filter_append, List.filter_cons, if_pos picked, away hafter]
      exact List.getLast?_concat
    rw [nipFloor, newest]
    simp [hlead]

section Reverse

variable {s : State} {m : MachineRecord} {borrow rem : Nat}

theorem nipReverse_short (h : m.cencRes ≤ s.pos.remNip) :
    nipReverse m s = ({ s with pos := { s.pos with remNip := s.pos.remNip - m.cencRes } }, []) := by
  simp only [nipReverse, borrow_zero h]
  rfl

theorem nipReverse_below (h : m.cencRes + rem = borrow * 100000 + s.pos.remNip) (hr : rem < 100000) (hb : 1 ≤ borrow)
    (hx : s.pos.xNip < nipFloor s + borrow) : nipReverse m s = (s, []) := by
  obtain ⟨quot, -⟩ := borrow_eq h hr hb
  simp only [nipReverse, quot]
  rw [if_neg (Nat.ne_of_gt hb), if_pos hx]

theorem nipReverse_moved {x : Nat} (h : m.cencRes + rem = borrow * 100000 + s.pos.remNip) (hr : rem < 100000)
    (hb : 1 ≤ borrow) (hx : x + borrow = s.pos.xNip) (hfloor : nipFloor s ≤ x) :
    nipReverse m s = nipChanged m (nipPlaced s x rem) := by
  obtain ⟨quot, left⟩ := borrow_eq h hr hb
  have moved : (s.updatePos fun p =>
      { p with xNip := p.xNip - borrow, remNip := p.remNip + borrow * wuNm - m.cencRes }) = nipPlaced s x rem := by
    rw [← left, ← Nat.add_sub_cancel x borrow, hx]
    rfl
  simp only [nipReverse, quot]
  rw [if_neg (Nat.ne_of_gt hb), if_neg (by omega), moved]

end Reverse

/-- A change of x_nip at which no threshold is crossed and no record arrives or completes misses marks alone. -/
theorem nipChanged_quiet {m : MachineRecord} {s : State} (hno : NoCrossing m s.pos.lastFill s.fill)
    (h : ∀ q ∈ s.queue, StaysAt m s.pos.xNip q) :
    nipChanged m s = (missByPosition m { s with pos := { s.pos with lastFill := s.fill } }, []) := by
  rw [nipChanged_stays h, evaluateFill_quiet hno]

/-- Settles O40: the forward count over an empty queue is a change of the fill; the reverse count meets the nip floor, and
past it misses marks alone. -/
theorem nipCounts : Obligations.NipCounts := by
  refine ⟨fun s m hrun hm hq => ?_, fun s m floor hrun hm hfloor => ?_⟩
  · have forward (hl : s.line.state ≠ .unset) := (nipCount_onLine (s := nipCounted .forward s) hm hl).1
    have ended {v : State} (hl : s.line.state ≠ .unset) (h : nipForward m (nipCounted .forward s) = (v, []))
        (hv : v.line = s.line) :
        closeEvent s (nipCount .forward (nipCounted .forward s)).1 (nipCount .forward (nipCounted .forward s)).2 = v := by
      rw [forward hl, h]
      exact closeEvent_nil_of_line hv
    refine ⟨_, exec_cenc hrun .forward, fun hl hshort => ?_, fun hl hlong hx => ?_,
      fun carry rem hl hc hr h1 hx hno => ?_, fun carry rem x rest new hl hc hr h1 hlt hx hnew hle => ?_⟩
    · exact ended hl (nipForward_short (s := nipCounted .forward s) hshort) rfl
    · exact ended hl (nipForward_end (s := nipCounted .forward s) hlong hx) rfl
    · have moved := nipForward_moved (s := nipCounted .forward s) hc hr h1 (show s.pos.xNip < s.pos.xPrint by omega)
        (x := s.pos.xNip + carry) (.inl ⟨hx, rfl, rfl⟩)
      rw [nipChanged_empty m (s := nipPlaced (nipCounted .forward s) (s.pos.xNip + carry) rem) hq,
        evaluateFill_quiet (s := nipPlaced (nipCounted .forward s) (s.pos.xNip + carry) rem) hno] at moved
      exact ended hl moved rfl
    · have moved := nipForward_moved (s := nipCounted .forward s) hc hr h1 hlt hx
      subst hnew
      rw [nipChanged_empty m (s := nipPlaced (nipCounted .forward s) x rest) hq,
        evaluateFill_down (s := nipPlaced (nipCounted .forward s) x rest) hle] at moved
      rw [forward hl, moved]
      obtain ⟨pos, hold, stops, stays, frame, raised⟩ :=
        fallEnds (warn := m.warnLow < s.pos.lastFill ∧ s.pos.xPrint - x ≤ m.warnLow)
          (stop := m.stopLow < s.pos.lastFill ∧ s.pos.xPrint - x ≤ m.stopLow)
          (v := fillFallen m (nipPlaced (nipCounted .forward s) x rest)) hl hq rfl rfl rfl
      refine ⟨pos, hold, fun h1 h2 => stops ⟨h1, h2⟩, fun h => stays fun ⟨h1, h2⟩ => ?_, frame, ?_⟩
      · exact h.elim (Nat.not_le.mpr h1) (Nat.not_lt.mpr h2)
      · simp only [and_assoc] at raised
        exact raised
  · have reverse (hl : s.line.state ≠ .unset) := (nipCount_onLine (s := nipCounted .reverse s) hm hl).2
    have floorOf : nipFloor (nipCounted .reverse s) = floor := nipFloor_eq hfloor
    have ended {v : State} (hl : s.line.state ≠ .unset) (h : nipReverse m (nipCounted .reverse s) = (v, []))
        (hv : v.line = s.line) :
        closeEvent s (nipCount .reverse (nipCounted .reverse s)).1 (nipCount .reverse (nipCounted .reverse s)).2 = v := by
      rw [reverse hl, h]
      exact closeEvent_nil_of_line hv
    have unmoved (d : Direction) (hl : s.line.state = .unset) :
        closeEvent s (nipCount d (nipCounted d s)).1 (nipCount d (nipCounted d s)).2 = nipCounted d s := by
      rw [nipCount_unset (s := nipCounted d s) d hl]
      exact closeEvent_nil_of_line rfl
    refine ⟨_, _, exec_cenc hrun .forward, exec_cenc hrun .reverse, fun hl => ⟨unmoved .forward hl, unmoved .reverse hl⟩,
      fun hl hshort => ?_, fun borrow rem hl hb hr h1 => ⟨fun hx => ?_, fun x hx hle hno hshort hlong => ?_⟩⟩
    · exact ended hl (nipReverse_short (s := nipCounted .reverse s) hshort) rfl
    · exact ended hl (nipReverse_below (s := nipCounted .reverse s) hb hr h1 (floorOf.symm ▸ hx)) rfl
    · have moved := nipReverse_moved (s := nipCounted .reverse s) hb hr h1 hx (floorOf.symm ▸ hle)
      rw [nipChanged_quiet (s := nipPlaced (nipCounted .reverse s) x rem) hno fun q hq => ⟨hshort q hq, hlong q hq⟩,
        missByPosition_eq] at moved
      exact ended hl moved rfl

end Sys2Proof.Proofs
end

