-- ==== Sys2Proof/Proofs/MarkWords.lean ====
section
/-!
O46: the sixteenth bit of a mark word: its checks, its candidates, and what a match does.
-/
namespace Sys2Proof.Proofs

open Sys2Proof.Machine Sys2Proof.Safety

/-! ## The word judged (R41, R42) -/

/-- MARK_WORD and the MKCLK edge that brings the sixteenth bit are one event: the word judged on the clocked state. -/
theorem exec_markWord {s : State} {bit : Bool} {w : PartialMark} (h : s.live = true) (hw : s.mark.partialWord = some w)
    (hlen : w.bits.length = 15) :
    let r := judgeMark w.stamp (w.bits ++ [bit]) (clocked s none)
    exec (.markWord bit) s = .next (closeEvent s r.1 r.2) ∧ exec (.mkclkRisingEdge bit) s = .next (closeEvent s r.1 r.2) := by
  intro r
  have full : ¬ (takeBit (some w) s.pos.xNip bit).bits.length < 16 := by
    rw [takeBit, List.length_append, hlen]
    exact Nat.lt_irrefl 16
  have edge : markEdge bit s = closeEvent s r.1 r.2 := by
    rw [markEdge, hw, if_neg full, State.updateInputs, InputFilter.rise_eq]
    rfl
  have run : (if s.live then markEdge bit s else s) = closeEvent s r.1 r.2 := (if_pos h).trans edge
  exact ⟨congrArg Host.Outcome.next run, congrArg Host.Outcome.next run⟩

/-- The first twelve of sixteen bits are the code, whatever the last bit is. -/
theorem markCode_concat {bits : List Bool} {bit : Bool} (hlen : bits.length = 15) :
    markCode (bits ++ [bit]) = bitsValue (bits.take 12) := by
  rw [markCode, List.take_append_of_le_length (by omega)]

theorem judgeMark_unset (stamp : Nat) (bits : List Bool) {s : State} (h : s.line.state = .unset) :
    judgeMark stamp bits s = (s, []) := by
  have offline : s.onLine = false := by simp [State.onLine, h]
  unfold judgeMark
  split
  · rw [offline]
    rfl
  · rfl

section Judged

variable {s : State} {m : MachineRecord} {stamp : Nat} {bits : List Bool}

theorem judgeMark_bad (hm : s.line.active = some m) (hl : s.line.state ≠ .unset) (hc : checkHolds bits = false) :
    judgeMark stamp bits s = (s.raise .markFault, []) := by
  simp [judgeMark, hm, onLine_iff.mpr hl, hc]

theorem judgeMark_blanked {a : AcceptedMark} (hm : s.line.active = some m) (hl : s.line.state ≠ .unset)
    (hc : checkHolds bits = true) (ha : s.mark.accepted = some a) (hb : stamp < a.blankingEnd) :
    judgeMark stamp bits s = (s, []) := by
  have blank : blanked s.mark stamp = true := by simp [blanked, ha, hb]
  simp [judgeMark, hm, onLine_iff.mpr hl, hc, blank]

theorem judgeMark_matched (hm : s.line.active = some m) (hl : s.line.state ≠ .unset) (hc : checkHolds bits = true)
    (hb : ∀ a, s.mark.accepted = some a → a.blankingEnd ≤ stamp) :
    judgeMark stamp bits s = matchMark m (markCode bits) stamp s := by
  have clear : blanked s.mark stamp = false := by
    unfold blanked
    split
    · rename_i a ha
      exact decide_eq_false (Nat.not_lt.mpr (hb a ha))
    · rfl
  simp [judgeMark, hm, onLine_iff.mpr hl, hc, clear]

end Judged

/-! ## What a judgement leaves alone -/

/-- A change of x_nip notes the fill, and leaves the mark unit and the filters. -/
theorem nipChanged_keeps (m : MachineRecord) (s : State) :
    (nipChanged m s).1.pos = { s.pos with lastFill := s.fill } ∧ (nipChanged m s).1.mark = s.mark ∧
      (nipChanged m s).1.inputs = s.inputs := by
  have filled : (evaluateFill m s).1.pos = { s.pos with lastFill := s.fill } ∧ (evaluateFill m s).1.mark = s.mark ∧
      (evaluateFill m s).1.inputs = s.inputs := by simp [evaluateFill]
  have handed (v : State) : (missByPosition m (completeRecords m (nipArrival v).1)).pos = v.pos ∧
      (missByPosition m (completeRecords m (nipArrival v).1)).mark = v.mark ∧
      (missByPosition m (completeRecords m (nipArrival v).1)).inputs = v.inputs := by
    rw [completeRecords, foldl_completeOne_frame]
    exact ⟨rfl, rfl, rfl⟩
  obtain ⟨pos, mark, inputs⟩ := handed (evaluateFill m s).1
  exact ⟨pos.trans filled.1, mark.trans filled.2.1, inputs.trans filled.2.2⟩

theorem judgeMark_keeps (stamp : Nat) (bits : List Bool) (s : State) :
    (judgeMark stamp bits s).1.mark.partialWord = s.mark.partialWord ∧ (judgeMark stamp bits s).1.inputs = s.inputs := by
  have seen {m : MachineRecord} (id : Nat) (e : Int) (v : State) :
      (markSeen m id stamp e v).1.mark.partialWord = v.mark.partialWord ∧ (markSeen m id stamp e v).1.inputs = v.inputs := by
    have mark (u : State) : (nipChanged m u).1.mark = u.mark := (nipChanged_keeps m u).2.1
    have inputs (u : State) : (nipChanged m u).1.inputs = u.inputs := (nipChanged_keeps m u).2.2
    simp only [markSeen, mark, inputs]
    exact ⟨rfl, rfl⟩
  have matched (m : MachineRecord) (code : Nat) : (matchMark m code stamp s).1.mark.partialWord = s.mark.partialWord ∧
      (matchMark m code stamp s).1.inputs = s.inputs := by
    unfold matchMark
    split
    · exact ⟨rfl, rfl⟩
    · dsimp only
      split
      · exact seen _ _ _
      · exact ⟨rfl, rfl⟩
  unfold judgeMark
  split
  · split
    · exact ⟨rfl, rfl⟩
    · split
      · exact ⟨rfl, rfl⟩
      · split
        · exact ⟨rfl, rfl⟩
        · exact matched _ _
  · exact ⟨rfl, rfl⟩

/-! ## The candidates (R43) -/

theorem markOpen_iff {q : Panel} :
    q.markOpen = true ↔ q.printed = true ∧ q.normal.isSome = true ∧ q.mark = some .noneYet := by
  simp [Panel.markOpen, and_assoc]

theorem matchMark_none {m : MachineRecord} {code stamp : Nat} {s : State}
    (h : ∀ q ∈ (s.queue.filter (·.markOpen)).take 4, q.id % 4096 ≠ code) :
    matchMark m code stamp s = markUnmatched m code stamp s := by
  have none : (markCandidates s).find? (codeMatches code) = none :=
    List.find?_eq_none.mpr fun q hq => by simp [codeMatches, h q hq]
  rw [matchMark, none]

/-- The records before a matched one, with the candidates among them missed (R43). -/
def passedOver (before : List Panel) : List Panel :=
  before.map fun q => if q.markOpen then q.missMark else q

/-- The record that a word's code names: the first candidate it matches, behind at most three others (R43). -/
structure Named (s : State) (code : Nat) (before : List Panel) (r : Panel) (rest : List Panel) : Prop where
  queue : s.queue = before ++ r :: rest
  few : (before.filter (·.markOpen)).length ≤ 3
  ids : (s.queue.map (·.id)).Nodup
  others : ∀ q ∈ before, q.markOpen = true → q.id % 4096 ≠ code
  isOpen : r.markOpen = true
  names : r.id % 4096 = code

section NamedRecord

variable {s : State} {code : Nat} {before rest : List Panel} {r : Panel}

theorem Named.candidates (h : Named s code before r rest) :
    ∃ later, markCandidates s = before.filter (·.markOpen) ++ r :: later := by
  refine ⟨(rest.filter (·.markOpen)).take (3 - (before.filter (·.markOpen)).length), ?_⟩
  obtain ⟨n, hn⟩ : ∃ n, 4 - (before.filter (·.markOpen)).length = n + 1 :=
    ⟨3 - (before.filter (·.markOpen)).length, by have := h.few; omega⟩
  rw [markCandidates, h.queue, List.filter_append, List.filter_cons, if_pos h.isOpen, List.take_append,
    List.take_of_length_le (by have := h.few; omega), hn, List.take_succ_cons]
  congr 3
  omega

theorem Named.unmatched (h : Named s code before r rest) : ∀ q ∈ before.filter (·.markOpen), codeMatches code q = false :=
  fun q hq => decide_eq_false (h.others q (List.mem_filter.mp hq).1 (List.mem_filter.mp hq).2)

/-- The records about the named one have other ids, and those behind it other ids than those before it. -/
theorem Named.distinct (h : Named s code before r rest) :
    (∀ q ∈ before ++ rest, q.id ≠ r.id) ∧ ∀ q ∈ r :: rest, q.id ∉ (before.filter (·.markOpen)).map (·.id) := by
  have ids := h.ids
  rw [h.queue, List.map_append, List.map_cons, List.nodup_append] at ids
  obtain ⟨-, tail, apart⟩ := ids
  have notIn : r.id ∉ rest.map (·.id) := (List.nodup_cons.mp tail).1
  refine ⟨fun q hq same => ?_, fun q hq hin => ?_⟩
  · rcases List.mem_append.mp hq with hq | hq
    · exact apart q.id (List.mem_map_of_mem hq) r.id List.mem_cons_self same
    · exact notIn (same ▸ List.mem_map_of_mem hq)
  · obtain ⟨a, ha, same⟩ := List.mem_map.mp hin
    exact apart a.id (List.mem_map_of_mem (List.mem_filter.mp ha).1) q.id
      (show q.id ∈ (r :: rest).map (·.id) from List.mem_map_of_mem hq) same

theorem Named.skipped (h : Named s code before r rest) :
    missSkipped (skippedCandidates code (markCandidates s)) s = { s with queue := passedOver before ++ r :: rest } := by
  obtain ⟨later, candidates⟩ := h.candidates
  have matching : codeMatches code r = true := decide_eq_true h.names
  have skipped : skippedCandidates code (markCandidates s) = (before.filter (·.markOpen)).map (·.id) := by
    rw [skippedCandidates, candidates, List.takeWhile_append_of_pos fun q hq => by simp [h.unmatched q hq],
      List.takeWhile_cons_of_neg (by simp [matching]), List.append_nil]
  have missed (q : Panel) (hq : q ∈ before) : q.id ∈ (before.filter (·.markOpen)).map (·.id) ↔ q.markOpen = true := by
    refine ⟨fun hin => ?_, fun ho => List.mem_map_of_mem (List.mem_filter.mpr ⟨hq, ho⟩)⟩
    obtain ⟨a, ha, same⟩ := List.mem_map.mp hin
    have inQueue (b : Panel) (hb : b ∈ before) : b ∈ s.queue := h.queue ▸ List.mem_append_left _ hb
    obtain ⟨hmem, ho⟩ := List.mem_filter.mp ha
    rwa [← List.inj_on_of_nodup_map h.ids (inQueue a hmem) (inQueue q hq) same]
  have behind : (r :: rest).map (fun q => if decide (q.id ∈ (before.filter (·.markOpen)).map (·.id)) then q.missMark else q) =
      r :: rest := by
    refine (List.map_congr_left fun q hq => ?_).trans (List.map_id _)
    rw [if_neg (by rw [decide_eq_true_eq]; exact h.distinct.2 q hq)]
    rfl
  have front : before.map (fun q => if decide (q.id ∈ (before.filter (·.markOpen)).map (·.id)) then q.missMark else q) =
      passedOver before :=
    List.map_congr_left fun q hq => if_congr (by rw [decide_eq_true_eq]; exact missed q hq) rfl rfl
  rw [missSkipped, skipped, State.mapPanels, h.queue, List.map_append, behind, front]

/-- A change of the named record alone. -/
theorem Named.mapPanels (h : Named s code before r rest) (f : Panel → Panel) {t : State}
    (ht : t.queue = passedOver before ++ r :: rest) :
    t.mapPanels (fun q => decide (q.id = r.id)) f = { t with queue := passedOver before ++ f r :: rest } := by
  have others := h.distinct.1
  have same (l : List Panel) (hl : ∀ q ∈ l, q.id ≠ r.id) : l.map (fun q => if decide (q.id = r.id) then f q else q) = l := by
    refine (List.map_congr_left fun q hq => ?_).trans (List.map_id l)
    rw [if_neg (by rw [decide_eq_true_eq]; exact hl q hq)]
    rfl
  have front : ∀ q ∈ passedOver before, q.id ≠ r.id := fun q hq => by
    obtain ⟨a, ha, rfl⟩ := List.mem_map.mp hq
    have ida : (if a.markOpen then a.missMark else a).id = a.id := by split <;> rfl
    rw [ida]
    exact others a (List.mem_append_left _ ha)
  rw [State.mapPanels, ht, List.map_append, List.map_cons, same _ front,
    same rest fun q hq => others q (List.mem_append_right _ hq), if_pos (decide_eq_true rfl)]

theorem Named.matchMark (h : Named s code before r rest) (m : MachineRecord) (stamp : Nat) :
    matchMark m code stamp s =
      if (syncErrorOf m r stamp).natAbs ≤ m.syncLimit then
        markSeen m r.id stamp (syncErrorOf m r stamp) { s with queue := passedOver before ++ r :: rest }
      else markRejected r.id { s with queue := passedOver before ++ r :: rest } := by
  obtain ⟨later, candidates⟩ := h.candidates
  have found : (markCandidates s).find? (codeMatches code) = some r := by
    rw [candidates, List.find?_append, List.find?_eq_none.mpr fun q hq => by simp [h.unmatched q hq], Option.none_or]
    exact List.find?_cons_of_pos (decide_eq_true h.names)
  rw [Machine.matchMark, found]
  simp only [h.skipped]

/-- Missed marks leave the nip floor. -/
theorem Named.nipFloor (h : Named s code before r rest) :
    nipFloor { s with queue := passedOver before ++ r :: rest } = nipFloor s := by
  have newest : newestTransferring { s with queue := passedOver before ++ r :: rest } =
      (newestTransferring s).map fun q => if decide (q.id ∈ skippedCandidates code (markCandidates s)) then q.missMark else q := by
    rw [← h.skipped, newestTransferring, missSkipped, State.mapPanels_queue, List.filter_map, List.getLast?_map]
    congr 3
    funext q
    rw [Function.comp]
    split <;> rfl
  rw [Machine.nipFloor, Machine.nipFloor, newest]
  cases newestTransferring s with
  | none => rfl
  | some q =>
    rw [Option.map_some]
    dsimp only
    split <;> rfl

/-! ### A match within the sync limit (R44) -/

/-- The state at a seen match, x_nip placed, before the coordinate change is handed on. -/
def seenAt (s : State) (m : MachineRecord) (stamp x : Nat) (queue : List Panel) : State :=
  { s with
    queue := queue
    mark := { s.mark with accepted := some { stamp := stamp, blankingEnd := stamp + m.blankLen }, streak := 0 }
    pos := { s.pos with xNip := x, remNip := if x = s.pos.xPrint then 0 else s.pos.remNip } }

/-- The named record seen, its applied value stored. -/
def seenPanel (r : Panel) (applied : Int) : Panel :=
  { r with mark := some (.seen applied) }

theorem Named.matchMark_seen (h : Named s code before r rest) {m : MachineRecord} {stamp lead x : Nat} {e : Int}
    (hl : r.lead = some lead) (he : e = (lead : Int) - m.markLead - stamp) (hle : e.natAbs ≤ m.syncLimit)
    (hx : (x : Int) = min (s.pos.xPrint : Int) (max (Machine.nipFloor s) (max 0 ((s.pos.xNip : Int) + e)))) :
    Machine.matchMark m code stamp s =
      nipChanged m (seenAt s m stamp x (passedOver before ++ seenPanel r ((x : Int) - s.pos.xNip) :: rest)) := by
  have error : syncErrorOf m r stamp = e := by rw [syncErrorOf, hl, he]; rfl
  have target : correctedNip { s with queue := passedOver before ++ r :: rest } e = x := by
    rw [correctedNip, h.nipFloor]
    change min s.pos.xPrint (max (Machine.nipFloor s) ((s.pos.xNip : Int) + e).toNat) = x
    omega
  rw [h.matchMark, error, if_pos hle, markSeen, target, h.mapPanels _ rfl]
  rfl

/-- A seen match leaves every record's place as it was. -/
theorem StaysAt.of_seen {m : MachineRecord} {x : Nat} {applied : Int} (h : ∀ q ∈ before ++ r :: rest, StaysAt m x q) :
    ∀ q ∈ passedOver before ++ seenPanel r applied :: rest, StaysAt m x q := by
  intro q hq
  rcases List.mem_append.mp hq with hq | hq
  · obtain ⟨a, ha, rfl⟩ := List.mem_map.mp hq
    have stays := h a (List.mem_append_left _ ha)
    split
    · exact stays
    · exact stays
  · rcases List.mem_cons.mp hq with rfl | hq
    · exact h r (by simp)
    · exact h q (by simp [hq])

/-- A change of x_nip at which the one record, its mark seen, arrives. -/
theorem nipChanged_arrives {m : MachineRecord} {lead trail : Nat} {applied : Int} (hno : NoCrossing m s.pos.lastFill s.fill)
    (hq : s.queue = [r]) (hst : r.state = .inTransit) (hl : r.lead = some lead) (ht : r.trail = some trail)
    (hk : r.mark = some (.seen applied)) (hle : lead ≤ s.pos.xNip) (hlt : s.pos.xNip < trail + 10 * m.arcLen) :
    nipChanged m s =
      ({ s with
          pos := { s.pos with lastFill := s.fill }
          queue :=
            [{ r with
              state := .transferring
              probes :=
                [{ position := lead, accumulator := 0, inArc := false },
                  { position := lead + (trail - lead) / 2, accumulator := 0, inArc := false },
                  { position := trail, accumulator := 0, inArc := false }] }] }, []) := by
  obtain ⟨q, hqd⟩ : ∃ q : Panel, q = { r with
      state := .transferring
      probes :=
        [{ position := lead, accumulator := 0, inArc := false },
          { position := lead + (trail - lead) / 2, accumulator := 0, inArc := false },
          { position := trail, accumulator := 0, inArc := false }] } := ⟨_, rfl⟩
  have there : r.reached s.pos.xNip = true := by simp [Panel.reached, hst, hl, hle]
  have arrive : r.arrive = q := by
    rw [hqd, Panel.arrive, hst, hl, ht]
    rfl
  have arrived : nipArrival { s with pos := { s.pos with lastFill := s.fill } } =
      ({ s with pos := { s.pos with lastFill := s.fill }, queue := [q] }, []) := by
    rw [nipArrival_one (s := { s with pos := { s.pos with lastFill := s.fill } }) hq, if_pos there, arrive, hst]
    simp
  have early : completes m s.pos.xNip q = false := completes_eq_false fun tr _ htr => by
    rw [hqd] at htr
    obtain rfl : trail = tr := Option.some.inj (ht.symm.trans htr)
    exact hlt
  have settled : markPassed m s.pos.xNip q = false := by
    rw [hqd]
    simp [markPassed, hk]
  rw [nipChanged, evaluateFill_quiet hno]
  simp only [arrived, List.append_nil]
  rw [completeRecords_of_none fun a ha => List.mem_singleton.mp ha ▸ early, missByPosition_one m rfl]
  simp only [settled, Bool.false_eq_true, if_false, ← hqd]

/-! ### A match beyond the sync limit (R45) -/

/-- The state after a rejected match, before its stop cause. -/
def rejectedAt (s : State) (queue : List Panel) : State :=
  { s with queue := queue, mark := { s.mark with streak := saturatingSucc 255 s.mark.streak } }

/-- The named record rejected. -/
def rejectedPanel (r : Panel) : Panel :=
  { r with mark := some .rejected, flags := addFlag r.flags .markRejected }

theorem Named.matchMark_rejected (h : Named s code before r rest) {m : MachineRecord} {stamp lead : Nat} {e : Int}
    (hl : r.lead = some lead) (he : e = (lead : Int) - m.markLead - stamp) (hlt : m.syncLimit < e.natAbs) :
    Machine.matchMark m code stamp s =
      (rejectedAt s (passedOver before ++ rejectedPanel r :: rest), if s.mark.streak = 2 then [.registrationLost] else []) := by
  have error : syncErrorOf m r stamp = e := by rw [syncErrorOf, hl, he]; rfl
  rw [h.matchMark, error, if_neg (Nat.not_le.mpr hlt), markRejected, h.mapPanels _ rfl]
  rfl

end NamedRecord

/-! ## The ends of the event (R43 to R45) -/

section Ends

variable {s t : State} {m : MachineRecord} {code stamp : Nat}

theorem markUnmatched_ends
    (ht : t = closeEvent s (markUnmatched m code stamp (clocked s none)).1 (markUnmatched m code stamp (clocked s none)).2) :
    t.mark = { s.mark with partialWord := none, unmatched := some { code := code, stamp := stamp } } ∧ t.pos = s.pos ∧
    (m.haltOnNonMatch = false →
      t = { s with inputs := t.inputs, mark := t.mark, ports := t.ports } ∧ PortsRaise s t Attn.markFault.bit) ∧
    (m.haltOnNonMatch = true → s.line.state = .tracking →
      t.line.state = .halted ∧ t.line.stop.map (·.firstCause) = some .registrationLost) := by
  refine ⟨by rw [ht, closeEvent_mark]; rfl, by rw [ht, closeEvent_pos]; rfl, fun hno => ?_, fun hhalt htr => ?_⟩
  · have raised : t = State.raise { clocked s none with
        mark := { s.mark with partialWord := none, unmatched := some { code := code, stamp := stamp } } } .markFault := by
      rw [ht]
      simp only [markUnmatched, hno]
      exact closeEvent_nil_of_line rfl
    rw [raised]
    exact ⟨rfl, portsRaise_raise { clocked s none with
      mark := { s.mark with partialWord := none, unmatched := some { code := code, stamp := stamp } } } .markFault⟩
  · rw [ht]
    simp only [markUnmatched, hhalt, if_true]
    exact closeEvent_latches htr

variable {before rest : List Panel} {r : Panel} {lead : Nat} {e : Int}

theorem Named.seen_ends {x : Nat} (h : Named (clocked s none) code before r rest)
    (hl : r.lead = some lead) (he : e = (lead : Int) - m.markLead - stamp) (hle : e.natAbs ≤ m.syncLimit)
    (hx : (x : Int) = min (s.pos.xPrint : Int) (max (Machine.nipFloor s) (max 0 ((s.pos.xNip : Int) + e))))
    (ht : t = closeEvent s (Machine.matchMark m code stamp (clocked s none)).1
      (Machine.matchMark m code stamp (clocked s none)).2) :
    t.mark =
      { partialWord := none
        accepted := some { stamp := stamp, blankingEnd := stamp + m.blankLen }
        streak := 0
        unmatched := s.mark.unmatched } ∧
    t.pos =
      { s.pos with
        xNip := x
        remNip := if x = s.pos.xPrint then 0 else s.pos.remNip
        lastFill := s.pos.xPrint - x } ∧
    (NoCrossing m s.pos.lastFill (s.pos.xPrint - x) →
      (∀ q ∈ s.queue, q.state = .transferring → ∀ trail, q.trail = some trail → x < trail + 10 * m.arcLen) →
      ((∀ q ∈ s.queue, q.state = .inTransit ∨ q.state = .printing → ∃ l, q.lead = some l ∧ x < l) →
        t =
          { s with
            inputs := t.inputs
            mark := t.mark
            pos := t.pos
            queue :=
              (before.map (fun q => if q.markOpen = true then q.missMark else q) ++
                { r with mark := some (.seen ((x : Int) - s.pos.xNip)) } :: rest).map fun q =>
                  if q.mark = some .noneYet ∧ ∃ l, q.lead = some l ∧ (l : Int) - m.markLead + m.syncLimit ≤ x then
                    q.missMark
                  else q }) ∧
      (∀ trail, before = [] → rest = [] → r.state = .inTransit → r.trail = some trail → lead ≤ x →
        x < trail + 10 * m.arcLen →
        t =
          { s with
            inputs := t.inputs
            mark := t.mark
            pos := t.pos
            queue :=
              [{ r with
                mark := some (.seen ((x : Int) - s.pos.xNip))
                state := .transferring
                probes :=
                  [{ position := lead, accumulator := 0, inArc := false },
                    { position := lead + (trail - lead) / 2, accumulator := 0, inArc := false },
                    { position := trail, accumulator := 0, inArc := false }] }] })) := by
  have placed : Machine.matchMark m code stamp (clocked s none) =
      nipChanged m (seenAt (clocked s none) m stamp x (passedOver before ++ seenPanel r ((x : Int) - s.pos.xNip) :: rest)) :=
    h.matchMark_seen hl he hle hx
  rw [placed] at ht
  obtain ⟨pos, mark, -⟩ := nipChanged_keeps m
    (seenAt (clocked s none) m stamp x (passedOver before ++ seenPanel r ((x : Int) - s.pos.xNip) :: rest))
  refine ⟨by rw [ht, closeEvent_mark]; exact mark, by rw [ht, closeEvent_pos]; exact pos, fun hno hfar => ⟨fun hshort => ?_,
    fun trail hbefore hrest hst htr hreach hlt => ?_⟩⟩
  · have stays : ∀ q ∈ before ++ r :: rest, StaysAt m x q := fun q hq =>
      have mem : q ∈ s.queue := (show s.queue = _ from h.queue) ▸ hq
      ⟨hshort q mem, hfar q mem⟩
    rw [nipChanged_quiet (s := seenAt (clocked s none) m stamp x
        (passedOver before ++ seenPanel r ((x : Int) - s.pos.xNip) :: rest)) hno (StaysAt.of_seen stays),
      missByPosition_eq] at ht
    rw [ht.trans (closeEvent_nil_of_line rfl)]
    rfl
  · subst hbefore hrest
    change t = closeEvent s (nipChanged m (seenAt (clocked s none) m stamp x [seenPanel r ((x : Int) - s.pos.xNip)])).1
      (nipChanged m (seenAt (clocked s none) m stamp x [seenPanel r ((x : Int) - s.pos.xNip)])).2 at ht
    rw [nipChanged_arrives (s := seenAt (clocked s none) m stamp x [seenPanel r ((x : Int) - s.pos.xNip)])
        (r := seenPanel r ((x : Int) - s.pos.xNip)) hno rfl hst hl htr rfl hreach hlt]
      at ht
    rw [ht.trans (closeEvent_nil_of_line rfl)]
    rfl

theorem Named.rejected_ends (h : Named (clocked s none) code before r rest) (hline : s.line.state ≠ .unset)
    (hl : r.lead = some lead) (he : e = (lead : Int) - m.markLead - stamp) (hlt : m.syncLimit < e.natAbs)
    (ht : t = closeEvent s (Machine.matchMark m code stamp (clocked s none)).1
      (Machine.matchMark m code stamp (clocked s none)).2) :
    t.mark =
      { s.mark with
        partialWord := none
        streak := if s.mark.streak < 255 then s.mark.streak + 1 else s.mark.streak } ∧
    t.pos = s.pos ∧
    (s.mark.streak ≠ 2 →
      t =
        { s with
          inputs := t.inputs
          mark := t.mark
          queue := before.map (fun q => if q.markOpen = true then q.missMark else q) ++
            { r with mark := some .rejected, flags := addFlag r.flags .markRejected } :: rest }) ∧
    (s.mark.streak = 2 → s.line.state = .tracking →
      t.queue.map (·.mark) =
        before.map (fun q => if q.markOpen = true then some .missed else q.mark) ++ some .rejected :: rest.map (·.mark) ∧
      t.line.state = .halted ∧ t.line.stop.map (·.firstCause) = some .registrationLost) := by
  rw [h.matchMark_rejected hl he hlt] at ht
  refine ⟨by rw [ht, closeEvent_mark]; rfl, by rw [ht, closeEvent_pos]; rfl, fun hstreak => ?_, fun hstreak htr => ?_⟩
  · have none : (clocked s none).mark.streak ≠ 2 := hstreak
    rw [if_neg none] at ht
    rw [ht.trans (closeEvent_nil_of_line rfl)]
    rfl
  · have lost : (clocked s none).mark.streak = 2 := hstreak
    rw [if_pos lost] at ht
    obtain ⟨⟨-, -, -, -, halts, -⟩, -⟩ :=
      closeEvent_one s (rejectedAt (clocked s none) (passedOver before ++ rejectedPanel r :: rest)) .registrationLost
    obtain ⟨-, queue⟩ := halts hline
    rw [← ht] at queue
    refine ⟨?_, ht ▸ closeEvent_latches htr⟩
    have marks : (fun q : Panel => (if q.openTrail then q.flag .stoppedDuringPrint else q).mark) = (·.mark) := by
      funext q
      split <;> rfl
    have missed : (fun q : Panel => (if q.markOpen then q.missMark else q).mark) =
        fun q => if q.markOpen = true then some .missed else q.mark := by
      funext q
      split <;> rfl
    rw [queue, List.map_map]
    change List.map (fun q : Panel => (if q.openTrail then q.flag .stoppedDuringPrint else q).mark)
      (passedOver before ++ rejectedPanel r :: rest) = _
    rw [marks, List.map_append, passedOver, List.map_map]
    change List.map (fun q : Panel => (if q.markOpen then q.missMark else q).mark) before ++ _ = _
    rw [missed]
    rfl

end Ends

/-- Settles O46: the word's judgement, branch by branch, at the one event of the MKCLK edge. -/
theorem markWords : Obligations.MarkWords := by
  intro s bit w code good miss candidate hlive hw hlen hcode hgood hmiss hcand
  obtain rfl : candidate = (·.markOpen) := funext fun q => Bool.eq_iff_iff.mpr ((hcand q).trans markOpen_iff.symm)
  obtain rfl : miss = Panel.missMark := funext hmiss
  have word : markCode (w.bits ++ [bit]) = code := (markCode_concat hlen).trans hcode.symm
  have check : checkHolds (w.bits ++ [bit]) = true ↔ good := by
    rw [hgood, checkHolds, decide_eq_true_eq, word]
    rfl
  obtain ⟨t, ht⟩ : ∃ t, t = closeEvent s (judgeMark w.stamp (w.bits ++ [bit]) (clocked s none)).1
    (judgeMark w.stamp (w.bits ++ [bit]) (clocked s none)).2 := ⟨_, rfl⟩
  obtain ⟨bitEvent, edgeEvent⟩ := exec_markWord (bit := bit) hlive hw hlen
  obtain ⟨noWord, inputs⟩ := judgeMark_keeps w.stamp (w.bits ++ [bit]) (clocked s none)
  refine ⟨t, ht ▸ bitEvent, ht ▸ edgeEvent, ?_, ?_, fun hunset => ?_, fun m hm hl hbad => ?_, fun m hm hl hok =>
    ⟨fun a ha hblank => ?_, fun hclear => ?_⟩⟩
  · rw [ht, closeEvent_mark]
    exact noWord
  · rw [ht, closeEvent_inputs]
    exact inputs
  · rw [judgeMark_unset (s := clocked s none) _ _ hunset] at ht
    rw [ht.trans (closeEvent_nil_of_line rfl)]
    rfl
  · have wrong : checkHolds (w.bits ++ [bit]) = false := Bool.eq_false_iff.mpr fun h => hbad (check.mp h)
    rw [judgeMark_bad (s := clocked s none) hm hl wrong] at ht
    rw [ht.trans (closeEvent_nil_of_line rfl)]
    exact ⟨rfl, portsRaise_raise (clocked s none) .markFault⟩
  · rw [judgeMark_blanked (s := clocked s none) hm hl (check.mpr hok) ha hblank] at ht
    rw [ht.trans (closeEvent_nil_of_line rfl)]
    rfl
  · rw [judgeMark_matched (s := clocked s none) hm hl (check.mpr hok) hclear, word] at ht
    refine ⟨fun hnone => ?_, fun before r rest lead e x hq hfew hids hothers hopen hlead hnames he hx => ?_⟩
    · rw [matchMark_none (s := clocked s none) hnone] at ht
      exact markUnmatched_ends ht
    · have named : Named (clocked s none) code before r rest := ⟨hq, hfew, hids, hothers, hopen, hnames⟩
      exact ⟨fun hle => named.seen_ends hlead he hle hx ht, fun hlt => named.rejected_ends hl hlead he hlt ht⟩

end Sys2Proof.Proofs
end

