-- ==== Sys2Proof/Proofs/HeatAdvice.lean ====
section
/-!
The heat advice as it is recomputed: the governing record, the rate table run backwards, and the reference (R113 to R115).
-/
namespace Sys2Proof.Proofs

open Sys2Proof.Machine Sys2Proof.Safety

/-! ## The governing record (R113) -/

/-- The records of a queue that have profile copies, each with its correction. -/
def withCopies (queue : List Panel) : List (Panel × Correction) :=
  queue.filterMap fun r => r.correction.map fun c => (r, c)

theorem governing_eq_copies (s : State) :
    governing s = (((withCopies s.queue).filter fun rc => rc.1.isTransferring).getLast?).or
      ((withCopies s.queue).filter fun rc => decide (rc.1.state = PanelState.inTransit)).head? := by
  rw [List.head?_filter, governing]
  change (match ((withCopies s.queue).filter fun rc => rc.1.isTransferring).getLast? with
    | some rc => some rc
    | none => (withCopies s.queue).find? fun rc => decide (rc.1.state = PanelState.inTransit)) = _
  cases ((withCopies s.queue).filter fun rc => rc.1.isTransferring).getLast? <;> rfl

/-- No copies among the records of a kind. -/
theorem withCopies_filter_nil {p : Panel → Bool} {l : List Panel} (h : ∀ q ∈ l, p q = true → q.correction = none) :
    (withCopies l).filter (fun rc => p rc.1) = [] := by
  refine List.filter_eq_nil_iff.mpr fun rc hrc hp => ?_
  obtain ⟨q, hq, hmap⟩ := List.mem_filterMap.mp hrc
  obtain ⟨c, hc, rfl⟩ := Option.map_eq_some_iff.mp hmap
  exact nomatch hc.symm.trans (h q hq hp)

theorem withCopies_split {before after : List Panel} {r : Panel} {c : Correction} (hc : r.correction = some c) :
    withCopies (before ++ r :: after) = withCopies before ++ (r, c) :: withCopies after := by
  simp [withCopies, hc]

theorem isTransferring_iff {q : Panel} : q.isTransferring = true ↔ q.state = .transferring := by
  cases h : q.state <;> simp [Panel.isTransferring, h]

theorem governing_of_governs {s : State} {r : Panel} {c : Correction} (h : Governs s.queue r c) :
    governing s = some (r, c) := by
  obtain ⟨hc, before, after, hq, ⟨hst, hafter⟩ | ⟨hst, hnone, hbefore⟩⟩ := h
  · have newest : (withCopies after).filter (fun rc => rc.1.isTransferring) = [] :=
      withCopies_filter_nil fun q hm ht => hafter q hm (isTransferring_iff.mp ht)
    rw [governing_eq_copies, hq, withCopies_split hc, List.filter_append,
      List.filter_cons_of_pos (by exact isTransferring_iff.mpr hst), newest, List.getLast?_append]
    rfl
  · have none : (withCopies s.queue).filter (fun rc => rc.1.isTransferring) = [] :=
      withCopies_filter_nil fun q hm ht => hnone q hm (isTransferring_iff.mp ht)
    have oldest : (withCopies before).filter (fun rc => decide (rc.1.state = .inTransit)) = [] :=
      withCopies_filter_nil (p := fun q => decide (q.state = .inTransit)) fun q hm ht => hbefore q hm (of_decide_eq_true ht)
    rw [governing_eq_copies, none, hq, withCopies_split hc, List.filter_append, oldest,
      List.filter_cons_of_pos (by exact decide_eq_true hst)]
    rfl

theorem governing_none {s : State} (h : NoneGoverns s.queue) : governing s = none := by
  have transferring : (withCopies s.queue).filter (fun rc => rc.1.isTransferring) = [] :=
    withCopies_filter_nil fun q hm ht => h q hm (.inl (isTransferring_iff.mp ht))
  have inTransit : (withCopies s.queue).filter (fun rc => decide (rc.1.state = .inTransit)) = [] :=
    withCopies_filter_nil (p := fun q => decide (q.state = .inTransit)) fun q hm ht => h q hm (.inr (of_decide_eq_true ht))
  rw [governing_eq_copies, transferring, inTransit]
  rfl

/-- A change of the records that keeps their states and corrections keeps which of them governs. -/
theorem governing_map {s u : State} {g : Panel → Panel} (hq : u.queue = s.queue.map g)
    (hg : ∀ q, (g q).state = q.state ∧ (g q).correction = q.correction) :
    governing u = (governing s).map fun rc => (g rc.1, rc.2) := by
  have copies : withCopies u.queue = (withCopies s.queue).map fun rc => (g rc.1, rc.2) := by
    rw [hq, withCopies, withCopies, List.filterMap_map, List.map_filterMap]
    refine List.filterMap_congr fun q _ => ?_
    rw [Function.comp_apply, (hg q).2, Option.map_map]
    rfl
  have transferring (q : Panel) : (g q).isTransferring = q.isTransferring := by
    simp only [Panel.isTransferring, (hg q).1]
  rw [governing_eq_copies, governing_eq_copies, copies, List.filter_map, List.filter_map, List.getLast?_map, List.head?_map,
    Option.map_or]
  simp only [Function.comp_def, transferring, fun q => (hg q).1]

/-! ## The advice of a record (R113, R114) -/

theorem isRounded_unique {n d p q : Nat} (hp : IsRounded n d p) (hq : IsRounded n d q) : p = q := by
  have below {a b : Nat} (ha : IsRounded n d a) (hb : IsRounded n d b) : a ≤ b := by
    have := Nat.lt_of_mul_lt_mul_right (lt_of_le_of_lt ha.1 hb.2)
    omega
  exact Nat.le_antisymm (below hp hq) (below hq hp)

theorem stageDwell_pos (m : MachineRecord) (v : Speed) : 0 < stageDwell m v := by
  unfold stageDwell clampNat
  split_ifs <;> omega

theorem isRounded_targetDose (dRef : Nat) {trim : Int} (h : trim ≤ 1000) :
    IsRounded (dRef * (1000 - trim).toNat) 1000 (targetDose dRef trim) := by
  have product : (dRef : Int) * (1000 - trim) = ((dRef * (1000 - trim).toNat : Nat) : Int) := by
    rw [Nat.cast_mul, Int.toNat_of_nonneg (by omega)]
  rw [targetDose, product, roundInt, if_pos (Int.natCast_nonneg _), Int.toNat_natCast, Int.toNat_natCast]
  exact isRounded_roundNat _ (by decide)

/-- The step of a rising rate table that holds a rate (R114). -/
theorem rateStep_eq {m : MachineRecord} {rReq k : Nat} (hk : k < 15) (hinc : ∀ i j, i < j → j ≤ 15 → rateAt m i < rateAt m j)
    (hle : rateAt m k ≤ rReq) (hlt : rReq < rateAt m (k + 1)) :
    (((List.range 15).filter fun i => decide (rateAt m i ≤ rReq)).getLast?).getD 0 = k := by
  have upTo : (List.range (k + 1)).filter (fun i => decide (rateAt m i ≤ rReq)) = List.range (k + 1) :=
    List.filter_eq_self.mpr fun i hi => decide_eq_true <| by
      rcases Nat.lt_succ_iff_lt_or_eq.mp (List.mem_range.mp hi) with hik | rfl
      · exact Nat.le_trans (Nat.le_of_lt (hinc i k hik (by omega))) hle
      · exact hle
  have beyond : ((List.range (14 - k)).map (k + 1 + ·)).filter (fun i => decide (rateAt m i ≤ rReq)) = [] :=
    List.filter_eq_nil_iff.mpr fun i hi => by
      obtain ⟨j, hj, rfl⟩ := List.mem_map.mp hi
      have hj := List.mem_range.mp hj
      have above : rateAt m (k + 1) ≤ rateAt m (k + 1 + j) := by
        rcases Nat.eq_zero_or_pos j with rfl | hpos
        · exact Nat.le_refl _
        · exact Nat.le_of_lt (hinc _ _ (by omega) (by omega))
      rw [decide_eq_true_eq]
      omega
  rw [show 15 = k + 1 + (14 - k) by omega, List.range_add, List.filter_append, upTo, beyond, List.append_nil,
    List.range_succ, List.getLast?_append]
  rfl

theorem adviceGiven_adviceFor {m : MachineRecord} {v : Speed} {trim : Int} {r : Panel} {c : Correction} (h : trim ≤ 1000) :
    AdviceGiven m v trim r c (adviceFor m v trim r.id c) := by
  refine ⟨rfl, rfl, isRounded_targetDose c.copies.dRef h, isRounded_roundNat _ (stageDwell_pos m v), fun hlow => ?_,
    fun hlow hhigh => ?_, fun k part hk hinc hlow hle hlt hpart => ?_⟩
  · simp only [adviceFor] at hlow ⊢
    rw [adviseTemperature, if_pos hlow]
    exact ⟨rfl, rfl⟩
  · simp only [adviceFor] at hlow hhigh ⊢
    rw [adviseTemperature, if_neg (Nat.not_le.mpr hlow), if_pos hhigh]
    exact ⟨rfl, rfl⟩
  · simp only [adviceFor] at hlow hle hlt hpart ⊢
    have short : ¬ rateAt m 15 ≤ roundNat (targetDose c.copies.dRef trim * 1000) (stageDwell m v) := by
      rcases Nat.lt_or_ge (k + 1) 15 with h | h
      · have := hinc (k + 1) 15 h (Nat.le_refl _)
        omega
      · rw [show 15 = k + 1 by omega]
        omega
    have width : 0 < rateAt m (k + 1) - rateAt m k := by
      have := hinc k (k + 1) (by omega) (by omega)
      omega
    rw [adviseTemperature, if_neg (Nat.not_le.mpr hlow), if_neg short]
    simp only [rateStep_eq hk hinc hle hlt, isRounded_unique hpart (isRounded_roundNat _ width)]
    exact ⟨trivial, trivial⟩

/-! ## The advice recomputed (R115) -/

/-- HEAT_ADVICE_CHANGED where an advice has moved from the reference. -/
def adviceKind (reference : Option AdviceReference) (advice : Option HeatAdvice) : AttnSet :=
  if adviceMoved reference advice then Attn.heatAdviceChanged.bit else 0

/-- The dose unit with an advice in force. -/
def advisedDose (d : Dose) (a : Option HeatAdvice) : Dose :=
  { d with advice := a, reference := if adviceMoved d.reference a then referenceOf a else d.reference }

theorem recomputeAdvice_eq (s : State) :
    ∃ ports, recomputeAdvice s = { s with dose := advisedDose s.dose (currentAdvice s), ports := ports } ∧
      PortsRaise s (recomputeAdvice s) (adviceKind s.dose.reference (currentAdvice s)) := by
  obtain ⟨ports, form, raised⟩ := raiseIf_form { s with dose := advisedDose s.dose (currentAdvice s) }
    (adviceMoved s.dose.reference (currentAdvice s)) .heatAdviceChanged
  refine ⟨ports, form, fun q => ?_⟩
  rw [show recomputeAdvice s = _ from form, raised q]
  rfl

/-- An advice in force, as the reference judges it. -/
theorem adviceRecomputed_advised {s : State} {v : Speed} {a : Option HeatAdvice}
    (hnone : s.line.active = none ∨ NoneGoverns s.queue → a = none)
    (hgiven : ∀ m r c, s.line.active = some m → Governs s.queue r c → s.dose.trim ≤ 1000 →
      ∃ b, a = some b ∧ AdviceGiven m v s.dose.trim r c b) :
    AdviceRecomputed s v (advisedDose s.dose a) (adviceKind s.dose.reference a) := by
  refine ⟨rfl, hnone, hgiven, fun ha href => ?_, fun ha href => ?_, fun b ha href => ?_, fun b r ha href hmoved => ?_,
    fun b r ha href hrange habove hbelow => ?_⟩
  all_goals
    replace ha : a = _ := ha
    subst ha
  · simp [adviceKind, advisedDose, href, adviceMoved]
  · obtain ⟨r, hr⟩ := Option.isSome_iff_exists.mp href
    simp [adviceKind, advisedDose, hr, adviceMoved, referenceOf]
  · simp [adviceKind, advisedDose, href, adviceMoved, referenceOf]
  · have moved : adviceMoved (some r) (some b) = true := by
      simp only [adviceMoved, Bool.or_eq_true, decide_eq_true_eq]
      rcases hmoved with h | h | h
      · exact .inr h
      · exact .inl (by omega)
      · exact .inl (by omega)
    simp [adviceKind, advisedDose, href, moved, referenceOf]
  · have still : adviceMoved (some r) (some b) = false := by
      simp only [adviceMoved, Bool.or_eq_false_iff, decide_eq_false_iff_not]
      exact ⟨by omega, not_not.mpr hrange⟩
    simp [adviceKind, advisedDose, href, still]

/-- The advice recomputed on a state that another's records, flagged, and its own speeds make up. -/
theorem adviceRecomputed_current {s u : State} {g : Panel → Panel} (active : u.line.active = s.line.active)
    (dose : u.dose = s.dose) (hq : u.queue = s.queue.map g)
    (hg : ∀ q, (g q).id = q.id ∧ (g q).state = q.state ∧ (g q).correction = q.correction) :
    AdviceRecomputed s u.pos.vCal (advisedDose s.dose (currentAdvice u)) (adviceKind s.dose.reference (currentAdvice u)) := by
  have governs := governing_map hq fun q => (hg q).2
  refine adviceRecomputed_advised (fun h => ?_) fun m r c hm hr htrim => ?_
  · rcases h with h | h
    · simp [currentAdvice, active, h]
    · rw [governing_none h] at governs
      simp [currentAdvice, governs]
  · rw [governing_of_governs hr] at governs
    refine ⟨adviceFor m u.pos.vCal s.dose.trim r.id c, ?_, adviceGiven_adviceFor htrim⟩
    simp [currentAdvice, active, hm, governs, dose, (hg r).1]

end Sys2Proof.Proofs
end

