-- ==== Sys2Proof/Proofs/SpeedWindow.lean ====
section
/-!
O47: the expiry of a speed window: slip, speeds, heat advice, STALE and MEASURE_LOST.
-/
namespace Sys2Proof.Proofs

open Sys2Proof.Machine Sys2Proof.Safety

/-! ## Slip (R31) -/

/-- Whether a window's slip lies above the limit. -/
def slips (m : MachineRecord) (s : State) : Bool :=
  decide (0 < s.pos.netCal) && decide (m.slipLimit < slipOf m s.pos.netCal s.pos.netFab)

/-- The slip as stored. -/
def storedSlip (m : MachineRecord) (s : State) : Nat :=
  if 0 < s.pos.netCal then min (slipOf m s.pos.netCal s.pos.netFab) 1000000 else 0

/-- A record of the queue at a window's expiry. -/
def slipMarked (exceeds : Bool) (q : Panel) : Panel :=
  q.flagIf (exceeds && q.isTransferring) .slip

/-- The state with a stored slip, and its TRANSFERRING records marked where the slip exceeds the limit. -/
def slipped (s : State) (stored : Nat) (exceeds : Bool) : State :=
  { s with pos := { s.pos with slip := stored }, queue := s.queue.map (slipMarked exceeds) }

theorem flagTransferring_slip (s : State) (stored : Nat) :
    (s.updatePos fun x => { x with slip := stored }).flagTransferring .slip = slipped s stored true := rfl

theorem updatePos_slip (s : State) (stored : Nat) : (s.updatePos fun x => { x with slip := stored }) = slipped s stored false := by
  have same : s.queue.map (slipMarked false) = s.queue := (List.map_congr_left fun _ _ => rfl).trans (List.map_id _)
  rw [slipped, same]
  rfl

theorem evaluateSlip_eq {m : MachineRecord} {s : State} (hm : s.line.active = some m) :
    evaluateSlip s = slipped s (storedSlip m s) (slips m s) := by
  unfold evaluateSlip
  split
  · rename_i rec hrec
    obtain rfl : rec = m := Option.some.inj (hrec.symm.trans hm)
    rw [storedSlip, slips]
    by_cases forward : 0 < s.pos.netCal
    · rw [if_pos forward, if_pos forward, decide_eq_true forward, Bool.true_and]
      by_cases exceeds : rec.slipLimit < slipOf rec s.pos.netCal s.pos.netFab
      · rw [decide_eq_true exceeds]
        exact (if_pos exceeds).trans (flagTransferring_slip s _)
      · rw [decide_eq_false exceeds]
        exact (if_neg exceeds).trans (updatePos_slip s _)
    · rw [if_neg forward, if_neg forward, decide_eq_false forward]
      exact updatePos_slip s 0
  · rename_i hnone
    exact nomatch hnone.symm.trans hm

/-- slip_ppm is the floor of the quotient (R31). -/
theorem slipOf_eq {m : MachineRecord} {netCal netFab : Int} {ppm : Nat} (hpos : 0 < netCal)
    (hle : ppm * (netCal.toNat * m.cencRes) ≤ (netCal * m.cencRes - netFab * m.fencRes).natAbs * 1000000)
    (hlt : (netCal * m.cencRes - netFab * m.fencRes).natAbs * 1000000 < (ppm + 1) * (netCal.toNat * m.cencRes)) :
    slipOf m netCal netFab = ppm := by
  have divisor : (netCal * m.cencRes).toNat = netCal.toNat * m.cencRes := by
    obtain ⟨n, rfl⟩ := Int.eq_ofNat_of_zero_le (Int.le_of_lt hpos)
    rw [← Nat.cast_mul, Int.toNat_natCast, Int.toNat_natCast]
  rw [slipOf, divisor]
  exact Nat.div_eq_of_lt_le hle hlt

theorem slipMarked_keeps (exceeds : Bool) (q : Panel) :
    (slipMarked exceeds q).id = q.id ∧ (slipMarked exceeds q).state = q.state ∧
      (slipMarked exceeds q).correction = q.correction := by
  rw [slipMarked, Panel.flagIf]
  split
  · exact ⟨rfl, rfl, rfl⟩
  · exact ⟨rfl, rfl, rfl⟩

theorem slip_mem_slipMarked (exceeds : Bool) (q : Panel) :
    hasFlag (slipMarked exceeds q).flags .slip = true ↔
      hasFlag q.flags .slip = true ∨ exceeds = true ∧ q.state = .transferring := by
  have gained (f : FlagSet) : hasFlag (addFlag f .slip) .slip = true := by
    simp [hasFlag, addFlag, Flag.bit, Flag.index]
  rw [slipMarked, Panel.flagIf, ← isTransferring_iff, ← Bool.and_eq_true]
  by_cases marks : (exceeds && q.isTransferring) = true
  · simp [marks, Panel.flag, gained]
  · simp [marks]

/-! ## Stale tables (R131, R132) -/

theorem mem_staleStarts {zones : List Zone} {since : Nat} :
    since ∈ zones.filterMap Zone.staleSince ↔ ∃ z ∈ zones, z.standing = .stale since := by
  rw [List.mem_filterMap]
  refine exists_congr fun z => and_congr_right fun _ => ?_
  unfold Zone.staleSince
  split
  · rename_i h
    simp [h]
  · rename_i h
    simp [h]

theorem isFresh_eq_false_iff {z : Zone} : z.isFresh = false ↔ ∃ since, z.standing = .stale since := by
  cases h : z.standing <;> simp [Zone.isFresh, h]

theorem tableStaleSince_isSome {zones : List Zone} :
    (tableStaleSince zones).isSome = true ↔ ∃ z ∈ zones, z.isFresh = false := by
  have stale : (∃ z ∈ zones, z.isFresh = false) ↔ ∃ since, since ∈ zones.filterMap Zone.staleSince := by
    simp only [mem_staleStarts, isFresh_eq_false_iff]
    exact ⟨fun ⟨z, hz, since, h⟩ => ⟨since, z, hz, h⟩, fun ⟨since, z, hz, h⟩ => ⟨z, hz, since, h⟩⟩
  rw [stale, tableStaleSince, Option.isSome_iff_ne_none, Ne, List.min?_eq_none_iff, List.eq_nil_iff_forall_not_mem,
    not_forall_not]

theorem staleHolds_iff {s : State} {m : MachineRecord} (hm : s.line.active = some m) :
    staleHolds s = true ↔
      m.vMin ≤ s.pos.vCal.magnitude ∧
        ((∃ z ∈ s.dose.zones, z.isFresh = false) ∨ ∃ z ∈ s.tension.zones, z.isFresh = false) := by
  simp only [staleHolds, calenderMoving, hm, Bool.and_eq_true, Bool.or_eq_true, decide_eq_true_eq, tableStaleSince_isSome]

theorem tableLost_iff {s : State} {m : MachineRecord} {zones : List Zone} {lost : Bool} (hm : s.line.active = some m) :
    tableLost m s (tableStaleSince zones) lost = true ↔ RaisesMeasureLost m s.pos.vCal s.now zones lost := by
  have starts : (∃ z ∈ zones, ∃ since, z.standing = .stale since ∧ since + m.hardStaleMs < s.now) ↔
      ∃ since ∈ zones.filterMap Zone.staleSince, since + m.hardStaleMs < s.now := by
    simp only [mem_staleStarts]
    exact ⟨fun ⟨z, hz, since, hst, h⟩ => ⟨since, ⟨z, hz, hst⟩, h⟩, fun ⟨since, ⟨z, hz, hst⟩, h⟩ => ⟨z, hz, since, hst, h⟩⟩
  rw [RaisesMeasureLost, starts]
  cases hsince : tableStaleSince zones with
  | none =>
    rw [List.min?_eq_none_iff.mp hsince]
    simp [tableLost]
  | some first =>
    obtain ⟨hmem, hfirst⟩ := List.min?_eq_some_iff.mp hsince
    have oldest : (∃ since ∈ zones.filterMap Zone.staleSince, since + m.hardStaleMs < s.now) ↔ m.hardStaleMs < s.now - first :=
      ⟨fun ⟨since, hs, h⟩ => by have := hfirst since hs; omega, fun h => ⟨first, hmem, by omega⟩⟩
    rw [oldest]
    simp only [tableLost, calenderMoving, hm, Bool.and_eq_true, decide_eq_true_eq, Bool.not_eq_true', and_assoc]
    exact and_congr_right fun _ => and_comm

/-! ## Any number of causes in one event (R160 to R162) -/

theorem raiseCauses_frame (cs : List StopCause) (s : State) :
    cs.foldl raiseCause s =
      { s with
        line := { (cs.foldl raiseCause s).line with
          hold := s.line.hold, active := s.line.active, recordPending := s.line.recordPending }
        queue := (cs.foldl raiseCause s).queue
        ports := (cs.foldl raiseCause s).ports } := by
  induction cs generalizing s with
  | nil => rfl
  | cons c cs ih =>
    have once := raiseCause_frame s c
    have tail := ih (raiseCause s c)
    rw [raiseCause_line_hold, raiseCause_line_active, raiseCause_line_recordPending] at tail
    rw [List.foldl_cons]
    rw [once] at tail ⊢
    exact tail

/-- Stop causes leave every record but for STOPPED_DURING_PRINT. -/
theorem raiseCauses_queue (cs : List StopCause) (s : State) {k : Nat} {r : Panel} (h : s.queue[k]? = some r) :
    ∃ r', (cs.foldl raiseCause s).queue[k]? = some r' ∧ r'.id = r.id ∧ r'.state = r.state ∧
      hasFlag r'.flags .slip = hasFlag r.flags .slip := by
  induction cs generalizing s r with
  | nil => exact ⟨r, h, rfl, rfl, rfl⟩
  | cons c cs ih =>
    obtain ⟨-, -, -, unset, online, -⟩ := causeTaken_raiseCause s c
    rw [List.foldl_cons]
    by_cases hl : s.line.state = .unset
    · exact ih _ ((unset hl).2 ▸ h)
    · have flagged : (raiseCause s c).queue[k]? = some (if r.openTrail then r.flag .stoppedDuringPrint else r) := by
        rw [(online hl).2, List.getElem?_map, h]
        rfl
      obtain ⟨r', hr', hid, hstate, hslip⟩ := ih _ flagged
      have kept (f : FlagSet) : hasFlag (addFlag f .stoppedDuringPrint) .slip = hasFlag f .slip := by
        simp [hasFlag, addFlag, Flag.bit, Flag.index]
      refine ⟨r', hr', hid.trans ?_, hstate.trans ?_, hslip.trans ?_⟩
      · split <;> rfl
      · split <;> rfl
      · split
        · exact kept r.flags
        · rfl

/-- Further causes of a halted line keep the first one, and raise nothing (R162). -/
theorem raiseCauses_halted (cs : List StopCause) {s : State} (h : s.line.state = .halted) :
    (cs.foldl raiseCause s).line.state = .halted ∧
      (cs.foldl raiseCause s).line.stop.map (·.firstCause) = s.line.stop.map (·.firstCause) ∧
      PortsRaise s (cs.foldl raiseCause s) 0 := by
  induction cs generalizing s with
  | nil => exact ⟨h, rfl, portsRaise_refl s⟩
  | cons c cs ih =>
    obtain ⟨-, -, -, -, online, -, further⟩ := causeTaken_raiseCause s c
    obtain ⟨hstate, hfirst, hports⟩ := ih (online (by simp [h])).1
    have quiet : PortsRaise s (raiseCause s c) 0 := by
      have raised := portsRaise_raiseCause s c
      rwa [latchKind, if_neg (by simp [h])] at raised
    refine ⟨hstate, hfirst.trans ?_, portsRaise_trans quiet hports⟩
    rw [further h, Option.map_map]
    rfl

/-- The causes of a tracking line latch the first (R161). -/
theorem raiseCauses_tracking (c : StopCause) (cs : List StopCause) {s : State} (h : s.line.state = .tracking) :
    ((c :: cs).foldl raiseCause s).line.state = .halted ∧
      ((c :: cs).foldl raiseCause s).line.stop.map (·.firstCause) = some c ∧
      PortsRaise s ((c :: cs).foldl raiseCause s) Attn.lineHalted.bit := by
  obtain ⟨-, -, -, -, online, latched, -⟩ := causeTaken_raiseCause s c
  have latch : PortsRaise s (raiseCause s c) Attn.lineHalted.bit := by
    have raised := portsRaise_raiseCause s c
    rwa [latchKind, if_pos h] at raised
  obtain ⟨hstate, hfirst, hports⟩ := raiseCauses_halted cs (online (by simp [h])).1
  refine ⟨hstate, hfirst.trans ?_, ?_⟩
  · rw [latched h]
    rfl
  · simpa using portsRaise_trans latch hports

/-- LINE_HALTED is raised where there is a cause in TRACKING. -/
theorem portsRaise_raiseCauses (cs : List StopCause) (s : State) :
    PortsRaise s (cs.foldl raiseCause s) (if cs ≠ [] ∧ s.line.state = .tracking then Attn.lineHalted.bit else 0) := by
  cases cs with
  | nil => exact portsRaise_refl s
  | cons c cs =>
    cases hst : s.line.state with
    | tracking => simpa using (raiseCauses_tracking c cs hst).2.2
    | halted => simpa using (raiseCauses_halted (c :: cs) hst).2.2
    | unset =>
      have idle (l : List StopCause) : l.foldl raiseCause s = s := by
        induction l with
        | nil => rfl
        | cons a l ih => rw [List.foldl_cons, raiseCause_unset a hst, ih]
      simpa [idle (c :: cs)] using portsRaise_refl s

/-- The causes of MEASURE_LOST of the two tables. -/
def lostCauses (hot tight : Bool) : List StopCause :=
  lostCause hot ++ lostCause tight

theorem closeEvent_lostCauses (b s : State) (hot tight : Bool) :
    closeEvent b s (lostCauses hot tight) = closeEvent b ((lostCauses hot tight).foldl raiseCause s) [] := by
  have ordered : orderCauses (lostCauses hot tight) = lostCauses hot tight := by
    cases hot <;> cases tight <;> rfl
  rw [closeEvent, ordered]
  rfl

theorem lostCauses_cons {hot tight : Bool} (h : hot = true ∨ tight = true) :
    ∃ cs, lostCauses hot tight = .measureLost :: cs := by
  cases hot with
  | true => exact ⟨_, rfl⟩
  | false =>
    obtain rfl : tight = true := by simpa using h
    exact ⟨_, rfl⟩

theorem lostCauses_ne_nil {hot tight : Bool} : lostCauses hot tight ≠ [] ↔ hot = true ∨ tight = true := by
  cases hot <;> cases tight <;> simp [lostCauses, lostCause]

/-! ## The expiry (R30) -/

/-- The state with the window's slip and speeds, before the heat advice. -/
def measuredAt (m : MachineRecord) (s : State) : State :=
  { s with
    pos := { s.pos.endWindow (some m) with slip := storedSlip m s }
    queue := s.queue.map (slipMarked (slips m s)) }

/-- The state with the advice recomputed, STALE brought to its condition and the tables judged, before the stop causes. -/
def judgedAt (m : MachineRecord) (s : State) (stale hot tight : Bool) (ports : Vector Port 4) : State :=
  { measuredAt m s with
    dose := advisedDose s.dose (currentAdvice (measuredAt m s))
    line := { s.line with hold := { s.line.hold with stale := stale } }
    tension :=
      { s.tension with
        lostTemperature := s.tension.lostTemperature || hot
        lostTension := s.tension.lostTension || tight }
    ports := ports }

/-- The expiry: the state judged, and its causes taken. -/
theorem exec_speedWindow {s : State} {m : MachineRecord} {hot tight : Bool} (hrun : s.running = true)
    (hm : s.line.active = some m)
    (hhot : hot = true ↔
      RaisesMeasureLost m (measuredAt m s).pos.vCal s.now s.dose.zones s.tension.lostTemperature)
    (htight : tight = true ↔
      RaisesMeasureLost m (measuredAt m s).pos.vCal s.now s.tension.zones s.tension.lostTension) :
    ∃ ports, exec .speedWindowExpiry s =
        .next (closeEvent s (judgedAt m s (staleHolds (measuredAt m s)) hot tight ports) (lostCauses hot tight)) ∧
      PortsRaise s (judgedAt m s (staleHolds (measuredAt m s)) hot tight ports)
        (adviceKind s.dose.reference (currentAdvice (measuredAt m s))) := by
  obtain ⟨ports, advised, raised⟩ := recomputeAdvice_eq (measuredAt m s)
  have measured : (evaluateSlip s).updatePos (fun x => x.endWindow s.line.active) = measuredAt m s := by
    rw [evaluateSlip_eq hm, hm]
    rfl
  have hotEq : tableLost m (syncStale (recomputeAdvice (measuredAt m s))) (tableStaleSince s.dose.zones)
      s.tension.lostTemperature = hot := by
    rw [Bool.eq_iff_iff, tableLost_iff (by rw [advised]; exact hm), hhot, advised]
    rfl
  have tightEq : tableLost m (syncStale (recomputeAdvice (measuredAt m s))) (tableStaleSince s.tension.zones)
      s.tension.lostTension = tight := by
    rw [Bool.eq_iff_iff, tableLost_iff (by rw [advised]; exact hm), htight, advised]
    rfl
  have judged : judgeLost (syncStale (recomputeAdvice (measuredAt m s))) =
      (judgedAt m s (staleHolds (measuredAt m s)) hot tight ports, lostCauses hot tight) := by
    have form : judgeLost (syncStale (recomputeAdvice (measuredAt m s))) =
        ((syncStale (recomputeAdvice (measuredAt m s))).updateTension fun x =>
          { x with lostTemperature := x.lostTemperature || hot, lostTension := x.lostTension || tight },
          lostCauses hot tight) := by
      have active : (syncStale (recomputeAdvice (measuredAt m s))).line.active = some m := by
        rw [advised]
        exact hm
      have zones : (syncStale (recomputeAdvice (measuredAt m s))).dose.zones = s.dose.zones ∧
          (syncStale (recomputeAdvice (measuredAt m s))).tension = s.tension := by
        rw [advised]
        exact ⟨rfl, rfl⟩
      simp only [judgeLost, active, zones.1, zones.2, hotEq, tightEq]
      rfl
    rw [form, advised]
    rfl
  refine ⟨ports, ?_, fun q => ?_⟩
  · have run : (if s.running then speedWindow s else s) = speedWindow s := if_pos hrun
    refine congrArg Host.Outcome.next (run.trans ?_)
    simp only [speedWindow, measured, judged]
  · have := raised q
    rw [advised] at this
    exact this

/-- Settles O47: the window's slip and speeds are the measured state's, the advice and STALE follow them, and the causes of
MEASURE_LOST end the event. -/
theorem speedWindow : Obligations.SpeedWindow := by
  intro s m hrun hm
  classical
  obtain ⟨hot, hhot⟩ : ∃ b : Bool, b = true ↔
      RaisesMeasureLost m (measuredAt m s).pos.vCal s.now s.dose.zones s.tension.lostTemperature :=
    ⟨decide _, decide_eq_true_iff⟩
  obtain ⟨tight, htight⟩ : ∃ b : Bool, b = true ↔
      RaisesMeasureLost m (measuredAt m s).pos.vCal s.now s.tension.zones s.tension.lostTension :=
    ⟨decide _, decide_eq_true_iff⟩
  obtain ⟨ports, event, raised⟩ := exec_speedWindow hrun hm hhot htight
  obtain ⟨v, hv⟩ : ∃ v, v = judgedAt m s (staleHolds (measuredAt m s)) hot tight ports := ⟨_, rfl⟩
  obtain ⟨t, ht⟩ : ∃ t, t = closeEvent s v (lostCauses hot tight) := ⟨_, rfl⟩
  rw [← hv] at event raised
  rw [← ht] at event
  rw [closeEvent_lostCauses] at ht
  have caused := raiseCauses_frame (lostCauses hot tight) v
  have ended := closeEvent_nil_frame s ((lostCauses hot tight).foldl raiseCause v)
  rw [← ht] at ended
  have pos : t.pos = (measuredAt m s).pos := by rw [ended, caused, hv]; rfl
  have hold : t.line.hold = { s.line.hold with stale := staleHolds (measuredAt m s) } := by rw [ended, caused, hv]; rfl
  have active : t.line.active = some m := by rw [ended, caused, hv]; exact hm
  have dose : t.dose = advisedDose s.dose (currentAdvice (measuredAt m s)) := by rw [ended, caused, hv]; rfl
  have tension : t.tension =
      { s.tension with
        lostTemperature := s.tension.lostTemperature || hot
        lostTension := s.tension.lostTension || tight } := by rw [ended, caused, hv]; rfl
  have line : t.line = ((lostCauses hot tight).foldl raiseCause v).line := by rw [ended]
  have queue : t.queue = ((lostCauses hot tight).foldl raiseCause v).queue := by rw [ended]
  have stale : staleHolds t = staleHolds (measuredAt m s) := by
    simp only [staleHolds, calenderMoving, active, show (measuredAt m s).line.active = some m from hm, pos, dose, tension]
    rfl
  have staleIff := staleHolds_iff active
  rw [dose, tension] at staleIff
  refine ⟨t, event, ?_, ?_, ?_, ?_, ?_, ?_, ?_, ?_, ?_, ?_, fun hback => ?_, fun ppm hpos hres hle hlt => ?_, ?_, staleIff,
    fun hot' tight' hhot' htight' => ?_, ?_⟩
  iterate 10 rw [pos]; rfl
  · rw [pos]
    exact if_neg (Int.not_lt.mpr hback)
  · have slip := slipOf_eq hpos hle hlt
    refine ⟨?_, fun k r hr => ?_⟩
    · rw [pos]
      change storedSlip m s = _
      rw [storedSlip, if_pos hpos, slip]
    · have marked : v.queue[k]? = some (slipMarked (slips m s) r) := by
        rw [hv]
        change (s.queue.map (slipMarked (slips m s)))[k]? = _
        rw [List.getElem?_map, hr]
        rfl
      have exceeds : slips m s = true ↔ m.slipLimit < ppm := by
        rw [slips, slip, decide_eq_true hpos, Bool.true_and, decide_eq_true_eq]
      obtain ⟨r', hr', hid, hstate, hflag⟩ := raiseCauses_queue (lostCauses hot tight) v marked
      obtain ⟨sameId, sameState, -⟩ := slipMarked_keeps (slips m s) r
      refine ⟨r', queue ▸ hr', hid.trans sameId, hstate.trans sameState, ?_⟩
      rw [hflag, slip_mem_slipMarked, exceeds]
  · rw [hold, stale]
  · rw [pos] at hhot' htight'
    obtain rfl : hot' = hot := Bool.eq_iff_iff.mpr (hhot'.trans hhot.symm)
    obtain rfl : tight' = tight := Bool.eq_iff_iff.mpr (htight'.trans htight.symm)
    have state : v.line.state = s.line.state := by rw [hv]; rfl
    refine ⟨tension, fun hcold hslack => ?_, fun hlost htr => ?_, adviceKind s.dose.reference (currentAdvice (measuredAt m s)),
      ?_, ?_⟩
    · subst hcold hslack
      rw [hold, line, hv]
      rfl
    · obtain ⟨cs, hcs⟩ := lostCauses_cons hlost
      obtain ⟨halted, first, -⟩ := raiseCauses_tracking .measureLost cs (state.trans htr)
      rw [line, hcs]
      exact ⟨halted, first⟩
    · rw [pos, dose]
      exact adviceRecomputed_current (u := measuredAt m s) rfl rfl rfl (slipMarked_keeps (slips m s))
    · have halts := portsRaise_raiseCauses (lostCauses hot' tight') v
      simp only [lostCauses_ne_nil, state] at halts
      have changed := portsRaise_closeEvent_nil s ((lostCauses hot' tight').foldl raiseCause v)
      rw [← ht, holdKind_of_line line.symm] at changed
      exact portsRaise_trans (portsRaise_trans (u := (lostCauses hot' tight').foldl raiseCause v) raised halts) changed
  · rw [ended, caused, hv]
    rfl

end Sys2Proof.Proofs
end

