-- ==== Sys2Proof/Proofs/StoreView.lean ====
section
/-!
What the promises of the cache, of the corrections and of READY records speak of: the store's clients, the slots' states and
generations, the cache's entries, the ports' roles, and the panel queue; and what leaves them as they are.
-/
namespace Sys2Proof.Proofs

open Sys2Proof.Machine Sys2Proof.Safety

/-! ## The part of the state beside the panel queue -/

/-- The phase, whether a machine record is active, roles and execution of the ports, states and generations of the slots, the
cache's entries and the store's clients. -/
structure StoreView where
  phase : Phase
  active : Bool
  ports : PortId → Role × Bool
  slots : SlotId → SlotState × Nat
  entries : Vector (Option CacheEntry) 8
  holder : Option StoreOp
  fillWaiting : Option SlotId
  requestWaiting : Option StoreRequest

/-- That part of a state. -/
def storeView (s : State) : StoreView where
  phase := s.resetUnit.phase
  active := s.line.active.isSome
  ports := fun p => (s.ports[p].role, s.ports[p].executing)
  slots := fun i => ((dirEntry s i).state, (dirEntry s i).generation)
  entries := s.cache.entries
  holder := s.store.holder
  fillWaiting := s.store.fillWaiting
  requestWaiting := s.store.requestWaiting

@[simp] theorem storeView_updateHold (s : State) (f : HoldSet → HoldSet) : storeView (s.updateHold f) = storeView s := rfl
@[simp] theorem storeView_updateMark (s : State) (f : MarkUnit → MarkUnit) : storeView (s.updateMark f) = storeView s := rfl
@[simp] theorem storeView_updatePace (s : State) (f : Pace → Pace) : storeView (s.updatePace f) = storeView s := rfl
@[simp] theorem storeView_updateDose (s : State) (f : Dose → Dose) : storeView (s.updateDose f) = storeView s := rfl
@[simp] theorem storeView_updateTension (s : State) (f : Tension → Tension) : storeView (s.updateTension f) = storeView s := rfl
@[simp] theorem storeView_updatePos (s : State) (f : Position → Position) : storeView (s.updatePos f) = storeView s := rfl
@[simp] theorem storeView_updateRecords (s : State) (f : RecordQueue → RecordQueue) :
    storeView (s.updateRecords f) = storeView s := rfl
@[simp] theorem storeView_mapPanels (s : State) (c : Panel → Bool) (f : Panel → Panel) :
    storeView (s.mapPanels c f) = storeView s := rfl
@[simp] theorem storeView_syncUnready (s : State) : storeView (syncUnready s) = storeView s := rfl

/-- A change of a port that leaves its role and its execution. -/
theorem storeView_updatePort (s : State) (p : PortId) {f : Port → Port}
    (h : ∀ q, (f q).role = q.role ∧ (f q).executing = q.executing) : storeView (s.updatePort p f) = storeView s := by
  have port (q : PortId) : ((s.updatePort p f).ports[q].role, (s.updatePort p f).ports[q].executing) =
      (s.ports[q].role, s.ports[q].executing) := by
    rw [updatePort_port]
    split
    · rw [(h _).1, (h _).2]
    · rfl
  simp only [storeView, port]
  rfl

@[simp] theorem storeView_raise (s : State) (k : Attn) : storeView (s.raise k) = storeView s := by
  simp only [storeView, raise_port]
  rfl

@[simp] theorem storeView_raiseIf (s : State) (c : Bool) (k : Attn) : storeView (s.raiseIf c k) = storeView s := by
  cases c
  · rfl
  · exact storeView_raise s k

@[simp] theorem storeView_raiseCause (s : State) (c : StopCause) : storeView (raiseCause s c) = storeView s := by
  unfold raiseCause
  split
  · rfl
  · exact storeView_raise _ _
  · rfl

@[simp] theorem storeView_paceNominal (s : State) : storeView (paceNominal s) = storeView s := by
  unfold paceNominal
  split <;> rfl

@[simp] theorem storeView_paceAtEdge (s : State) : storeView (paceAtEdge s) = storeView s := by
  unfold paceAtEdge
  split <;> simp

@[simp] theorem storeView_setRecordPending (i : SlotId) (s : State) : storeView (setRecordPending i s) = storeView s := rfl

/-- A directory line after a change of one. -/
theorem dirEntry_updateDir (s : State) (i : SlotId) (f : DirEntry → DirEntry) (j : SlotId) :
    dirEntry (s.updateDir i f) j = if j = i then f (dirEntry s i) else dirEntry s j := by
  by_cases h : j = i
  · subst h
    simp [dirEntry]
  · have ne : ¬ i.val = j.val := fun hv => h (Fin.ext hv.symm)
    simp [dirEntry, h, ne]

theorem storeView_setEntry (s : State) (i : SlotId) (d : DirEntry) :
    storeView (s.updateDir i fun _ => d) =
      { storeView s with slots := fun j => if j = i then (d.state, d.generation) else (storeView s).slots j } := by
  have slot (j : SlotId) : ((dirEntry (s.updateDir i fun _ => d) j).state, (dirEntry (s.updateDir i fun _ => d) j).generation) =
      if j = i then (d.state, d.generation) else (storeView s).slots j := by
    rw [dirEntry_updateDir]
    split <;> rfl
  simp only [storeView, slot]
  rfl

theorem storeView_updateCache (s : State) (f : Cache → Cache) :
    storeView (s.updateCache f) = { storeView s with entries := (f s.cache).entries } := rfl

/-- A change of a directory line that leaves the slot's state and generation. -/
theorem storeView_updateDir (s : State) (i : SlotId) {f : DirEntry → DirEntry}
    (h : ∀ d, (f d).state = d.state ∧ (f d).generation = d.generation) : storeView (s.updateDir i f) = storeView s := by
  have slot (j : SlotId) : ((dirEntry (s.updateDir i f) j).state, (dirEntry (s.updateDir i f) j).generation) =
      ((dirEntry s j).state, (dirEntry s j).generation) := by
    rw [dirEntry_updateDir]
    split
    · rename_i hj
      rw [(h _).1, (h _).2, hj]
    · rfl
  simp only [storeView, slot]
  rfl

/-- Programming rows changes the array and the programmed rows of slots alone. -/
@[simp] theorem storeView_programRows (rows : List StagingRow) (s : State) : storeView (programRows rows s) = storeView s := by
  unfold programRows
  induction rows generalizing s with
  | nil => rfl
  | cons r rest ih =>
    rw [List.foldl_cons, ih]
    exact storeView_updateDir _ _ (f := fun d => { d with programmed := _ }) fun _ => ⟨rfl, rfl⟩

@[simp] theorem storeView_offerRecord (s : State) (k : TransferRecord) : storeView (offerRecord s k) = storeView s := by
  unfold offerRecord offerToFull appendRecord
  split
  · split
    · simp
    · split <;> simp
  · rfl

@[simp] theorem storeView_completeOne (s : State) (r : Panel) : storeView (completeOne s r) = storeView s := by
  simp [completeOne]

@[simp] theorem storeView_completeRecords (m : MachineRecord) (s : State) :
    storeView (completeRecords m s) = storeView s := by
  have fold (l : List Panel) : ∀ t, storeView (l.foldl completeOne t) = storeView t := by
    induction l with
    | nil => exact fun _ => rfl
    | cons r rest ih => exact fun t => (ih _).trans (storeView_completeOne t r)
  exact fold _ _

/-! ## The records of the panel queue -/

/-- A record that an event leaves of another: the same announcement, no correction it did not hold, READY and unprinted only as
it was. -/
structure Stems (new old : Panel) : Prop where
  normal : new.normal = old.normal
  correction : ∀ c, new.correction = some c → old.correction = some c
  ready : new.isReady = true → old.isReady = true ∧ new.correction = old.correction
  unprinted : new.unprinted = true → old.unprinted = true

/-- An anonymous record, which is printed from the start (R12). -/
def Anonymous (r : Panel) : Prop :=
  r.normal = none ∧ r.correction = none ∧ r.unprinted = false

theorem Stems.refl (r : Panel) : Stems r r := ⟨rfl, fun _ => id, fun h => ⟨h, rfl⟩, id⟩

theorem Stems.trans {a b c : Panel} (h : Stems a b) (g : Stems b c) : Stems a c where
  normal := h.normal.trans g.normal
  correction k hk := g.correction k (h.correction k hk)
  ready ha := ⟨(g.ready (h.ready ha).1).1, (h.ready ha).2.trans (g.ready (h.ready ha).1).2⟩
  unprinted ha := g.unprinted (h.unprinted ha)

theorem Stems.of_state {a b : Panel} (hn : a.normal = b.normal) (hc : a.correction = b.correction)
    (hs : a.state = b.state) : Stems a b where
  normal := hn
  correction _ := (hc ▸ ·)
  ready ha := ⟨by rwa [Panel.isReady, hs] at ha, hc⟩
  unprinted ha := by rwa [Panel.unprinted, hs] at ha

theorem Stems.of_printed {a b : Panel} (hn : a.normal = b.normal) (hc : a.correction = b.correction)
    (hp : a.unprinted = false) : Stems a b where
  normal := hn
  correction _ := (hc ▸ ·)
  ready ha := absurd (unprinted_of_isReady ha) (by simp [hp])
  unprinted ha := absurd ha (by simp [hp])

theorem Anonymous.of_stems {a b : Panel} (h : Stems a b) (hb : Anonymous b) : Anonymous a := by
  obtain ⟨normal, correction, printed⟩ := hb
  refine ⟨h.normal.trans normal, ?_, ?_⟩
  · cases hc : a.correction with
    | none => rfl
    | some c => exact absurd (h.correction c hc) (by simp [correction])
  · cases hu : a.unprinted with
    | false => rfl
    | true => exact absurd (h.unprinted hu) (by simp [printed])

theorem stems_flag (r : Panel) (f : Flag) : Stems (r.flag f) r := .of_state rfl rfl rfl

theorem stems_flagIf (r : Panel) (c : Bool) (f : Flag) : Stems (r.flagIf c f) r := by
  cases c
  · exact .refl r
  · exact stems_flag r f

theorem stems_missMark (r : Panel) : Stems r.missMark r := .of_state rfl rfl rfl

theorem stems_compareLength (m : MachineRecord) (r : Panel) : Stems (r.compareLength m) r := by
  unfold Panel.compareLength
  split
  · exact stems_flagIf _ _ _
  · exact .refl r

theorem stems_closeTrail (r : Panel) (x : Nat) : Stems (r.closeTrail x) r := by
  unfold Panel.closeTrail
  split
  · exact .of_state rfl rfl rfl
  · exact .of_printed rfl rfl rfl

theorem stems_arrive (r : Panel) : Stems r.arrive r := by
  unfold Panel.arrive
  split
  · exact .of_printed rfl rfl rfl
  · exact .of_printed rfl rfl rfl
  · exact .refl r

theorem stems_tickPanel (m : MachineRecord) (zs : List (Nat × Bool)) (x : Nat) (v : Speed) (halted : Bool) (r : Panel) :
    Stems (tickPanel m zs x v halted r) r := by
  unfold tickPanel
  exact (stems_flagIf _ _ _).trans <| (stems_flagIf _ _ _).trans <| (stems_flagIf _ _ _).trans <|
    (stems_flagIf _ _ _).trans <| (stems_flagIf _ _ _).trans <| .of_state rfl rfl rfl

theorem stems_fetch (r : Panel) : Stems r.fetch r := by
  unfold Panel.fetch
  split
  · rename_i h
    exact ⟨rfl, fun _ => id, fun _ => ⟨by simp [Panel.isReady, h], rfl⟩, fun _ => by simp [Panel.unprinted, h]⟩
  · exact .refl r

theorem stems_dueAfterClear (r : Panel) : Stems r.dueAfterClear r := by
  unfold Panel.dueAfterClear
  split
  · rename_i h
    exact ⟨rfl, fun _ => id, fun _ => ⟨by simp [Panel.isReady, h], rfl⟩, fun _ => by simp [Panel.unprinted, h]⟩
  · exact .refl r

theorem stems_start (r : Panel) (x : Nat) (held : Bool) : Stems (r.start x held) r :=
  (stems_flagIf _ _ _).trans ((stems_flagIf _ _ _).trans (.of_printed rfl rfl rfl))

theorem stems_returnToQueued {i : SlotId} {r : Panel} (h : unfetchedNames i r = true) : Stems r.returnToQueued r where
  normal := rfl
  correction := nofun
  ready := nofun
  unprinted _ := by
    simp only [unfetchedNames, Bool.and_eq_true] at h
    exact unprinted_of_isReady h.1.1

/-! ## Tame changes -/

/-- A change that leaves the view beside the queue, and of the queue records that stem from its own; under an active machine
record it may bring anonymous ones (R12). -/
structure Tame (s t : State) : Prop where
  view : storeView t = storeView s
  queue : ∀ r ∈ t.queue, (∃ q ∈ s.queue, Stems r q) ∨ Anonymous r ∧ s.line.active.isSome = true

theorem Tame.of_stems {s t : State} (hv : storeView t = storeView s) (hq : ∀ r ∈ t.queue, ∃ q ∈ s.queue, Stems r q) :
    Tame s t := ⟨hv, fun r hr => .inl (hq r hr)⟩

theorem Tame.of_queue {s t : State} (hv : storeView t = storeView s) (hq : t.queue = s.queue) : Tame s t :=
  .of_stems hv fun r hr => ⟨r, hq ▸ hr, .refl r⟩

theorem Tame.refl (s : State) : Tame s s := .of_queue rfl rfl

theorem Tame.active {s t : State} (h : Tame s t) : t.line.active.isSome = s.line.active.isSome :=
  congrArg StoreView.active h.view

theorem Tame.trans {s t u : State} (h : Tame s t) (g : Tame t u) : Tame s u where
  view := g.view.trans h.view
  queue r hr := by
    rcases g.queue r hr with ⟨q, hq, hrq⟩ | ⟨hr, ha⟩
    · rcases h.queue q hq with ⟨o, ho, hqo⟩ | ⟨hq, ha⟩
      · exact .inl ⟨o, ho, hrq.trans hqo⟩
      · exact .inr ⟨hq.of_stems hrq, ha⟩
    · exact .inr ⟨hr, h.active ▸ ha⟩

theorem tame_mapPanels (s : State) {c : Panel → Bool} {f : Panel → Panel} (hf : ∀ r, c r = true → Stems (f r) r) :
    Tame s (s.mapPanels c f) :=
  .of_stems rfl fun r hr => by
    obtain ⟨q, hq, rfl⟩ := List.mem_map.mp hr
    refine ⟨q, hq, ?_⟩
    split
    · exact hf q ‹_›
    · exact .refl q

theorem tame_updatePos (s : State) (f : Position → Position) : Tame s (s.updatePos f) := .of_queue rfl rfl
theorem tame_updatePace (s : State) (f : Pace → Pace) : Tame s (s.updatePace f) := .of_queue rfl rfl
theorem tame_updateMark (s : State) (f : MarkUnit → MarkUnit) : Tame s (s.updateMark f) := .of_queue rfl rfl
theorem tame_updateInputs (s : State) (f : Inputs → Inputs) : Tame s (s.updateInputs f) := .of_queue rfl rfl
theorem tame_updateDose (s : State) (f : Dose → Dose) : Tame s (s.updateDose f) := .of_queue rfl rfl
theorem tame_updateTension (s : State) (f : Tension → Tension) : Tame s (s.updateTension f) := .of_queue rfl rfl
theorem tame_updateHold (s : State) (f : HoldSet → HoldSet) : Tame s (s.updateHold f) := .of_queue rfl rfl

theorem tame_filter (s : State) (c : Panel → Bool) : Tame s { s with queue := s.queue.filter c } :=
  .of_stems rfl fun r hr => ⟨r, (List.mem_filter.mp hr).1, .refl r⟩

theorem tame_raise (s : State) (k : Attn) : Tame s (s.raise k) := .of_queue (storeView_raise s k) rfl

theorem tame_raiseIf (s : State) (c : Bool) (k : Attn) : Tame s (s.raiseIf c k) :=
  .of_queue (storeView_raiseIf s c k) (State.raiseIf_queue s c k)

theorem tame_raiseCause (s : State) (c : StopCause) : Tame s (raiseCause s c) := by
  refine .of_stems (storeView_raiseCause s c) ?_
  unfold raiseCause
  split
  · exact fun r hr => ⟨r, hr, .refl r⟩
  all_goals
    intro r hr
    obtain ⟨q, hq, rfl⟩ := List.mem_map.mp hr
    refine ⟨q, hq, ?_⟩
    split
    · exact stems_flag q _
    · exact .refl q

theorem tame_closeEvent (b s : State) (cs : List StopCause) : Tame s (closeEvent b s cs) := by
  have fold : ∀ (cs : List StopCause) (s : State), Tame s (cs.foldl raiseCause s) := by
    intro cs
    induction cs with
    | nil => exact Tame.refl
    | cons c rest ih => exact fun s => (tame_raiseCause s c).trans (ih _)
  exact (fold _ s).trans (tame_raiseIf _ _ _)

theorem tame_completeRecords (m : MachineRecord) (s : State) : Tame s (completeRecords m s) := by
  refine .of_stems (storeView_completeRecords m s) fun r hr => ?_
  rw [completeRecords, (foldl_completeOne_keeps _ _).1.1] at hr
  exact ⟨r, (List.mem_filter.mp hr).1, .refl r⟩

theorem tame_closeOpenTrail (m : MachineRecord) {f : Panel → Panel} (hf : ∀ r, Stems (f r) r) (s : State) :
    Tame s (closeOpenTrail m f s) :=
  (tame_mapPanels s fun r _ => (hf _).trans (stems_closeTrail r _)).trans (tame_completeRecords m _)

/-! ### Coordinates and marks -/

theorem tame_evaluateFill (m : MachineRecord) (s : State) : Tame s (evaluateFill m s).1 :=
  .of_queue (by simp [evaluateFill]) (by simp [evaluateFill])

theorem tame_nipChanged (m : MachineRecord) (s : State) : Tame s (nipChanged m s).1 :=
  (tame_evaluateFill m s).trans <| (tame_mapPanels _ fun r _ => stems_arrive r).trans <|
    (tame_completeRecords m _).trans (tame_mapPanels _ fun r _ => stems_missMark r)

theorem tame_printCount (d : Direction) (s : State) : Tame s (printCount d s).1 := by
  have filled (m : MachineRecord) (f : Position → Position) (g : Pace → Pace) :
      Tame s ((evaluateFill m (s.updatePos f)).1.updatePace g) :=
    (tame_updatePos s f).trans ((tame_evaluateFill m _).trans (tame_updatePace _ g))
  unfold printCount
  split
  · rename_i m _
    split
    · cases d with
      | forward =>
        simp only [printForward]
        split
        · exact .refl s
        · split
          · exact .of_queue rfl rfl
          · exact filled m _ fun g => g.forward m.pencRes
      | reverse =>
        simp only [printReverse]
        split
        · exact .of_queue rfl rfl
        · split
          · exact .refl s
          · exact filled m _ fun g => g.backward m.pencRes
    · exact .refl s
  · exact .refl s

theorem tame_nipCount (d : Direction) (s : State) : Tame s (nipCount d s).1 := by
  have moved (m : MachineRecord) (f : Position → Position) : Tame s (nipChanged m (s.updatePos f)).1 :=
    (tame_updatePos s f).trans (tame_nipChanged m _)
  unfold nipCount
  split
  · split
    · cases d with
      | forward =>
        simp only [nipForward]
        split
        · exact .of_queue rfl rfl
        · split
          · split
            · exact .of_queue rfl rfl
            · exact moved _ _
          · exact moved _ _
      | reverse =>
        simp only [nipReverse]
        split
        · exact .of_queue rfl rfl
        · split
          · exact .refl s
          · exact moved _ _
    · exact .refl s
  · exact .refl s

theorem tame_markSeen (m : MachineRecord) (id stamp : Nat) (e : Int) (s : State) : Tame s (markSeen m id stamp e s).1 :=
  (tame_mapPanels s (f := fun r => { r with mark := some (.seen ((correctedNip s e : Int) - s.pos.xNip)) })
    fun _ _ => .of_state rfl rfl rfl).trans <| (tame_updateMark _ _).trans <|
    (tame_updatePos _ fun x => x.correctNip (correctedNip s e)).trans (tame_nipChanged m _)

theorem tame_markRejected (id : Nat) (s : State) : Tame s (markRejected id s).1 := by
  unfold markRejected
  dsimp only
  exact (tame_mapPanels s (f := fun r => { r with mark := some .rejected, flags := addFlag r.flags .markRejected })
    fun _ _ => .of_state rfl rfl rfl).trans (tame_updateMark _ _)

theorem tame_matchMark (m : MachineRecord) (code stamp : Nat) (s : State) : Tame s (matchMark m code stamp s).1 := by
  have missed (ids : List Nat) : Tame s (missSkipped ids s) := tame_mapPanels s fun r _ => stems_missMark r
  unfold matchMark
  split
  · exact .of_queue (by simp [markUnmatched]) rfl
  · dsimp only
    split
    · exact (missed _).trans (tame_markSeen m _ _ _ _)
    · exact (missed _).trans (tame_markRejected _ _)

theorem tame_markEdge (bit : Bool) (s : State) : Tame s (markEdge bit s) := by
  have judged (stamp : Nat) (bits : List Bool) (t : State) : Tame t (judgeMark stamp bits t).1 := by
    unfold judgeMark
    split
    · split
      · exact .refl t
      · split
        · exact tame_raise t _
        · split
          · exact .refl t
          · exact tame_matchMark _ _ _ t
    · exact .refl t
  unfold markEdge
  dsimp only
  split
  · exact .of_queue rfl rfl
  · exact (tame_updateInputs s _).trans <| (tame_updateMark _ _).trans <| (judged _ _ _).trans (tame_closeEvent _ _ _)

/-! ### The print gate -/

/-- Under an active machine record a rising edge starts a record of the queue, or an anonymous one (R11, R12). -/
theorem tame_startNext (held : Bool) {s : State} (hm : s.line.active.isSome = true) : Tame s (startNext held s).1 := by
  rcases startNext_cases held s with ⟨pre, q, post, hq, -, -, h⟩ | ⟨-, -, h⟩ | ⟨-, -, h⟩ <;> rw [h]
  · refine .of_stems rfl fun r hr => ?_
    have hr : r ∈ pre ∨ r = q.start s.pos.xPrint held ∨ r ∈ post := by simpa using hr
    rw [hq]
    rcases hr with hr | rfl | hr
    · exact ⟨r, by simp [hr], .refl r⟩
    · exact ⟨q, by simp, stems_start q _ held⟩
    · exact ⟨r, by simp [hr], .refl r⟩
  · refine ⟨(storeView_raise _ _).trans rfl, fun r hr => ?_⟩
    rcases List.mem_append.mp hr with hr | hr
    · exact .inl ⟨r, hr, .refl r⟩
    · rw [List.mem_singleton.mp hr]
      exact .inr ⟨⟨rfl, rfl, rfl⟩, hm⟩
  · exact .refl s

theorem tame_paceNominal (s : State) : Tame s (paceNominal s) :=
  .of_queue (storeView_paceNominal s) (by unfold paceNominal; split <;> rfl)

theorem tame_takeFallingEdge (m : MachineRecord) (s : State) : Tame s (takeFallingEdge m s) :=
  (tame_closeOpenTrail m (stems_compareLength m) s).trans (tame_paceNominal _)

theorem tame_gateFalling (s : State) : Tame s (gateFalling s) := by
  unfold gateFalling
  split
  · split
    · exact tame_takeFallingEdge _ s
    · exact tame_raise s _
  · exact tame_raise s _

/-! ### Ticks and windows -/

theorem tame_evaluateSlip (s : State) : Tame s (evaluateSlip s) := by
  unfold evaluateSlip
  split
  · split
    · dsimp only
      split
      · exact (tame_updatePos s _).trans (tame_mapPanels _ fun r _ => stems_flag r _)
      · exact tame_updatePos s _
    · exact tame_updatePos s _
  · exact tame_updatePos s _

theorem tame_recomputeAdvice (s : State) : Tame s (recomputeAdvice s) := (tame_updateDose s _).trans (tame_raiseIf _ _ _)

theorem tame_judgeLost (s : State) : Tame s (judgeLost s).1 := by
  unfold judgeLost
  split
  · exact .of_queue rfl rfl
  · exact .refl s

theorem tame_speedWindow (s : State) : Tame s (Machine.speedWindow s) :=
  (tame_evaluateSlip s).trans <| (tame_updatePos _ _).trans <| (tame_recomputeAdvice _).trans <|
    (tame_updateHold _ _).trans <| (tame_judgeLost _).trans (tame_closeEvent _ _ _)

theorem tame_doseTick (s : State) : Tame s (doseTick s) := by
  have tick (m : MachineRecord) (t : State) : Tame t (tickQueue m t) :=
    (tame_mapPanels t fun r _ => stems_tickPanel _ _ _ _ _ r).trans (tame_raiseIf _ _ _)
  unfold doseTick
  dsimp only
  split
  · split
    · exact (tame_updateDose s _).trans (tick _ _)
    · exact tame_updateDose s _
  · exact tame_updateDose s _

end Sys2Proof.Proofs
end

