-- ==== Sys2Proof/Proofs/StoreChanges.lean ====
section
/-!
What a step can do to the cache, the corrections and the slots of READY records, said once: every step is a chain of the
changes listed here, behind at most one result written.
-/
namespace Sys2Proof.Proofs

open Sys2Proof.Machine Sys2Proof.Safety

/-! ## The changes -/

/-- A state within an event, with the port whose request is being served, or has just ended at the store, and is not yet
answered. -/
structure Moment where
  serving : Option PortId
  st : State

/-- What must hold of the state when a request is handed to the arbiter, and holds still when it is granted (R150, R156). -/
def RequestFits (s : State) : StoreRequest → Prop
  | .commit _ i => (dirEntry s i).state = .writing
  | .clear _ => ∀ r ∈ s.queue, r.unprinted = false
  | _ => True

/-- An operation that a granted request starts: on its port, and a commit of its slot (R142). -/
def Starts (r : StoreRequest) (op : StoreOp) : Prop :=
  holderPort op = some (waitingPort r) ∧ ∀ p i rows, op = .commit p i rows → r = .commit p i

/-- A request handed to the arbiter (R142). -/
def askFor (r : StoreRequest) (s : State) : State :=
  s.updateStore fun x => { x with requestWaiting := some r }

/-- No request waiting. -/
def dropRequest (s : State) : State :=
  s.updateStore fun x => { x with requestWaiting := none }

/-- No fill waiting. -/
def dropFill (s : State) : State :=
  s.updateStore fun x => { x with fillWaiting := none }

/-- The waiting request taken off the arbiter with its operation begun. -/
def startOp (op : StoreOp) (s : State) : State :=
  s.updateStore fun x => { x with holder := some op, requestWaiting := none }

/-- What the grant of an erase does to the queue, the cache and the directory (R145). -/
def slotErased (slot : SlotId) (s : State) : State :=
  ((s.mapPanels (unfetchedNames slot) Panel.returnToQueued).updateCache (·.invalidate slot)).updateDir slot (·.without .writing)

/-- What the grant of a store clear does to the cache and the directory (R156). -/
def storeErased (s : State) : State :=
  (s.updateStore fun x => { x with dir := x.dir.map fun d => d.without .erased }).updateCache Cache.clear

/-- The end of the start-up scan: slots classified and perhaps a machine record loaded, the part runs, all else as it was
(R139, R140, R186). -/
structure ScanEnds (s t : State) : Prop where
  running : t.running = true
  ports : (storeView t).ports = (storeView s).ports
  queue : t.queue = s.queue
  entries : t.cache.entries = s.cache.entries
  holder : t.store.holder = s.store.holder
  fillWaiting : t.store.fillWaiting = s.store.fillWaiting
  requestWaiting : t.store.requestWaiting = s.store.requestWaiting

/-- What can happen within an event to the cache, the store's clients, the slots, the ports and the queue. -/
inductive Change : Moment → Moment → Prop
  | tame {g s t} (h : Tame s t) : Change ⟨g, s⟩ ⟨g, t⟩
  | schedule (g s) : Change ⟨g, s⟩ ⟨g, reevaluate s⟩
  | accept {p s} (free : portFree s p = true) : Change ⟨none, s⟩ ⟨some p, s.updatePort p Port.accept⟩
  | answer (p s code reply) : Change ⟨some p, s⟩ ⟨none, s.answer p code reply⟩
  | ask {r s} (running : s.running = true) (role : s.ports[waitingPort r].role = .production) (fits : RequestFits s r) :
      Change ⟨some (waitingPort r), s⟩ ⟨none, askFor r s⟩
  | announce {p s r a} (running : s.running = true) (role : s.ports[p].role = .production) (normal : r.normal = some a)
      (slot : a.slot ≠ 0) (ready : r.isReady = false) (correction : r.correction = none) :
      Change ⟨some p, s⟩ ⟨some p, appendPanel r s⟩
  | forget (g s) : Change ⟨g, s⟩ ⟨g, s.updateCache Cache.clear⟩
  | finish {s op} (held : s.store.holder = some op) : Change ⟨none, s⟩ ⟨holderPort op, freeStore s⟩
  | filled {s slot e} (held : s.store.holder = some (.fill slot)) (named : e.slot = slot)
      (generation : e.generation = (dirEntry s slot).generation) :
      Change ⟨none, s⟩ ⟨none, (freeStore s).updateCache (·.fill e)⟩
  | damaged {s op slot} (held : s.store.holder = some op) (read : op = .fill slot ∨ slot = 0 ∧ holderPort op ≠ none) :
      Change ⟨none, s⟩ ⟨holderPort op, (freeStore s).updateDir slot (·.without .damaged)⟩
  | lockDamaged {s p slot} (held : s.store.holder = some (.lock p slot)) :
      Change ⟨none, s⟩
        ⟨some p, ((freeStore s).updateDir slot (·.without .damaged)).updateCache (·.invalidate slot)⟩
  | locked {s p slot} (held : s.store.holder = some (.lock p slot)) :
      Change ⟨none, s⟩ ⟨some p, (freeStore s).updateDir slot fun d => { d with state := .locked }⟩
  | committed {s p slot rows d} (held : s.store.holder = some (.commit p slot rows)) (valid : d.state = .valid) :
      Change ⟨none, s⟩ ⟨some p, ((freeStore s).updateDir slot fun _ => d).updateCache (·.invalidate slot)⟩
  | load {g s op} (m : MachineRecord) (held : s.store.holder = some op) :
      Change ⟨g, s⟩ ⟨g, { s with line := { s.line with active := some m } }⟩
  | grantFill {s slot} (free : s.store.holder = none) (waits : s.store.fillWaiting = some slot)
      (usable : slotUsable s slot = true) : Change ⟨none, s⟩ ⟨none, hold (.fill slot) (dropFill s)⟩
  | dropFill {s} (free : s.store.holder = none) : Change ⟨none, s⟩ ⟨none, dropFill s⟩
  | start {s r op} (free : s.store.holder = none) (waits : s.store.requestWaiting = some r) (starts : Starts r op) :
      Change ⟨none, s⟩ ⟨none, startOp op s⟩
  | refuse {s r} (free : s.store.holder = none) (waits : s.store.requestWaiting = some r) :
      Change ⟨none, s⟩ ⟨some (waitingPort r), dropRequest s⟩
  | erase {s p slot} (free : s.store.holder = none) (waits : s.store.requestWaiting = some (.erase p slot))
      (unfetched : fetchedNames s slot = false) : Change ⟨none, s⟩ ⟨none, slotErased slot s⟩
  | clear {s p} (free : s.store.holder = none) (waits : s.store.requestWaiting = some (.clear p)) :
      Change ⟨none, s⟩ ⟨none, storeErased s⟩
  | reset (cause s) : Change ⟨none, s⟩ ⟨none, beginReset cause s⟩
  | roles {s} (rolea roleb : BitVec 4) (maint : Bool) (held : s.live = false) :
      Change ⟨none, s⟩ ⟨none, endReset rolea roleb maint s⟩
  | scan {s t} (scanning : s.running = false) (ends : ScanEnds s t) : Change ⟨none, s⟩ ⟨none, t⟩

/-- A chain of changes from one moment to another. -/
def Reaches (g : Option PortId) (s : State) (g' : Option PortId) (t : State) : Prop :=
  Relation.ReflTransGen Change ⟨g, s⟩ ⟨g', t⟩

theorem Reaches.trans {g g' g'' : Option PortId} {s t u : State} (h : Reaches g s g' t) (k : Reaches g' t g'' u) :
    Reaches g s g'' u := Relation.ReflTransGen.trans h k

theorem Reaches.one {g g' : Option PortId} {s t : State} (h : Change ⟨g, s⟩ ⟨g', t⟩) : Reaches g s g' t :=
  Relation.ReflTransGen.single h

theorem Reaches.refl (g : Option PortId) (s : State) : Reaches g s g s := Relation.ReflTransGen.refl

theorem Reaches.tame {g g' : Option PortId} {s t u : State} (h : Reaches g s g' t) (k : Tame t u) : Reaches g s g' u :=
  Relation.ReflTransGen.tail h (.tame k)

theorem Reaches.schedule {g g' : Option PortId} {s t : State} (h : Reaches g s g' t) : Reaches g s g' (reevaluate t) :=
  Relation.ReflTransGen.tail h (.schedule _ _)

theorem Reaches.of_tame {g : Option PortId} {s t : State} (h : Tame s t) : Reaches g s g t := .one (.tame h)

/-- The answer of a served port, and what else an event ends with that is tame. -/
theorem Reaches.answer {s t : State} {p : PortId} (h : Reaches none s (some p) t) (code : Byte) (r : Reply) :
    Reaches none s none (t.answer p code r) :=
  h.trans (.one (.answer _ _ _ _))

/-! ## Grants (R142) -/

theorem reaches_grantFill (s : State) : Reaches none s none (grantFill s) := by
  unfold Machine.grantFill
  split
  · rename_i slot free waits
    dsimp only
    split
    · exact .one (.grantFill free waits ‹_›)
    · exact (Reaches.one (.dropFill free)).schedule
  · exact .refl _ s

/-- The grant of an erase: its effects, its operation begun, and a re-evaluation (R145). -/
theorem reaches_grantErase {s : State} {p : PortId} {slot : SlotId} (free : s.store.holder = none)
    (waits : s.store.requestWaiting = some (.erase p slot)) (unfetched : fetchedNames s slot = false) :
    Reaches none s none (grantErase p slot (dropRequest s)) := by
  have begun : Reaches none s none (startOp (.erase p slot) (slotErased slot s)) :=
    (Reaches.one (.erase free waits unfetched)).trans (.one (.start (by exact free) (by exact waits) ⟨rfl, nofun⟩))
  refine (begun.tame (.of_queue ?_ ?_)).schedule
  · rw [storeView_syncUnready, storeView_setRecordPending]
    rfl
  · rfl

/-- The grant of a store clear: its effects and its operation begun (R156). -/
theorem reaches_grantClear {s : State} {p : PortId} (free : s.store.holder = none)
    (waits : s.store.requestWaiting = some (.clear p)) : Reaches none s none (grantClear p (dropRequest s)) := by
  have begun : Reaches none s none (startOp (.clear p) (storeErased s)) :=
    (Reaches.one (.clear free waits)).trans (.one (.start (by exact free) (by exact waits) ⟨rfl, nofun⟩))
  exact begun.tame (.of_queue rfl rfl)

/-- A request that the arbiter grants, or refuses at its grant (R142, R144). -/
theorem reaches_startRequest {s : State} {r : StoreRequest} (free : s.store.holder = none)
    (waits : s.store.requestWaiting = some r) : Reaches none s none (startRequest r (dropRequest s)) := by
  have started {op : StoreOp} (h : Starts r op) : Reaches none s none (startOp op s) := .one (.start free waits h)
  cases r with
  | erase p slot =>
    rw [startRequest]
    split
    · exact ((Reaches.one (.refuse free waits)).answer 0x30 _).tame (tame_raise _ _)
    · exact reaches_grantErase free waits (Bool.eq_false_iff.mpr ‹_›)
  | write p slot offset data => exact (started (op := .write p _) ⟨rfl, nofun⟩).tame (.of_queue rfl rfl)
  | commit p slot =>
    exact (started (op := .commit p slot _) ⟨rfl, fun _ _ _ h => by cases h; rfl⟩).tame (.of_queue rfl rfl)
  | lock p slot => exact started ⟨rfl, nofun⟩
  | read p slot offset n => exact started ⟨rfl, nofun⟩
  | clear p => exact reaches_grantClear free waits
  | lineClear p span => exact started ⟨rfl, nofun⟩

theorem reaches_grantWaiting (s : State) : Reaches none s none (grantWaiting s) := by
  refine (reaches_grantFill s).trans ?_
  unfold Machine.grantWaiting grantRequest
  split
  · exact reaches_startRequest ‹_› ‹_›
  · exact .refl _ _

/-! ## Completions -/

/-- An operation of the PRODUCTION port ends: its answer, and what waits is granted (R142, R143). -/
theorem reaches_endOperation {s t : State} (b : State) {p : PortId} (code : Byte) (r : Reply)
    (h : Reaches none s (some p) t) : Reaches none s none (endOperation b p code r t) :=
  (((h.answer code r).tame (tame_raise _ _)).trans (reaches_grantWaiting _)).tame (tame_closeEvent _ _ _)

theorem reaches_finished {s t : State} {op : StoreOp} {p : PortId} (held : s.store.holder = some op)
    (hp : holderPort op = some p) (h : Tame (freeStore s) t) : Reaches none s (some p) t :=
  Reaches.tame (.one (hp ▸ Change.finish held)) h

theorem reaches_endFill {s : State} {slot : SlotId} (held : s.store.holder = some (.fill slot)) :
    Reaches none s none (endFill slot s) := by
  have judged : Reaches none s none
      (if readPasses s slot then
        (freeStore s).updateCache fun c =>
          c.fill { slot := slot, generation := (dirEntry s slot).generation, profile := parseProfile s.store.array slot }
      else markDamaged slot (freeStore s)) := by
    split
    · exact .one (.filled held rfl rfl)
    · exact (Reaches.one (.damaged held (.inl rfl))).tame (tame_raise _ _)
  exact (judged.schedule.trans (reaches_grantWaiting _)).tame (tame_closeEvent _ _ _)

/-- The effects of a commit: the slot VALID under its new generation and out of the cache, and a re-evaluation (R152). -/
theorem reaches_commitEffects {s u : State} {p : PortId} {slot : SlotId} {rows : List StagingRow}
    (held : s.store.holder = some (.commit p slot rows)) (view : storeView u = storeView (freeStore s))
    (queue : u.queue = s.queue) : Reaches none s (some p) (commitEffects slot u) := by
  have marked (m : Memory) (d : DirEntry) :
      storeView (((u.updateStore fun x => { x with array := m }).updateDir slot fun _ => d).updateCache (·.invalidate slot)) =
        storeView (((freeStore s).updateDir slot fun _ => d).updateCache (·.invalidate slot)) := by
    have entries : u.cache.entries = (freeStore s).cache.entries := congrArg StoreView.entries view
    rw [storeView_updateCache, storeView_updateCache, storeView_setEntry, storeView_setEntry,
      show storeView (u.updateStore fun x => { x with array := m }) = storeView u from rfl, view]
    simp only [Cache.invalidate, State.updateDir_cache, State.updateStore_cache, entries]
  refine Reaches.schedule (Reaches.tame (.one (.committed held rfl)) (.of_queue (marked _ _) queue))

theorem reaches_endCommit {s : State} {p : PortId} {slot : SlotId} {rows : List StagingRow}
    (held : s.store.holder = some (.commit p slot rows)) : Reaches none s none (endCommit p slot rows s) := by
  have view := storeView_programRows rows (freeStore s)
  have queue : (programRows rows (freeStore s)).queue = s.queue :=
    congrArg QueueView.queue (view_programRows rows (freeStore s))
  have free : Reaches none s (some p) (programRows rows (freeStore s)) :=
    reaches_finished held rfl (.of_queue view queue)
  unfold Machine.endCommit
  dsimp only
  split
  · split
    · exact reaches_endOperation s _ _ free
    · exact reaches_endOperation s _ _ (reaches_commitEffects held view queue)
  · exact reaches_endOperation s _ _ free

theorem reaches_endLock {s : State} {p : PortId} {slot : SlotId} (held : s.store.holder = some (.lock p slot)) :
    Reaches none s none (endLock p slot s) := by
  unfold Machine.endLock
  dsimp only
  split
  · exact reaches_endOperation s _ _ ((Reaches.one (.locked held)).tame (.of_queue rfl rfl))
  · refine reaches_endOperation s _ _ ((Reaches.one (.lockDamaged held)).tame (.of_queue ?_ rfl))
    rw [storeView_updateCache, storeView_updateCache, markDamaged, storeView_raise]
    rfl

theorem reaches_judgeLineClear {s : State} {p : PortId} {span : Nat} (held : s.store.holder = some (.lineClear p span)) :
    Reaches none s none (judgeLineClear p span s) := by
  have ended {t : State} (r : Reply) (h : Reaches none s (some p) t) : Reaches none s none (endLineClear s p r t) :=
    ((h.answer 0x23 r).trans (reaches_grantWaiting _)).tame (tame_closeEvent _ _ _)
  have cleared (m : MachineRecord) : Reaches none s (some p) (clearLine m span (freeStore s)) := by
    have loaded : Reaches none s (some p) (freeStore { s with line := { s.line with active := some m } }) :=
      (Reaches.one (.load m held)).trans (.one (Change.finish (op := .lineClear p span) held))
    rw [clearLine_eq]
    obtain ⟨ports, form, raised⟩ := blocksCleared_eq m span (freeStore s)
    refine (loaded.tame (.of_stems ?_ fun r hr => ?_)).schedule.tame (.of_queue rfl rfl)
    · have port (q : PortId) : (ports[q].role, ports[q].executing) = (s.ports[q].role, s.ports[q].executing) := by
        rw [show ports[q] = _ from raised q]
        rfl
      rw [form]
      simp only [storeView, port]
      rfl
    · rw [form] at hr
      obtain ⟨q, hq, rfl⟩ := List.mem_map.mp hr
      exact ⟨q, (List.mem_filter.mp hq).1, stems_dueAfterClear q⟩
  unfold Machine.judgeLineClear
  dsimp only
  split
  · split
    · exact ended _ (.one (.finish held))
    · exact ended _ (cleared _)
  · exact ended _ ((Reaches.one (.damaged held (.inr ⟨rfl, nofun⟩))).tame (tame_raise _ _))

/-! ## The edge that starts a record -/

theorem reaches_takeRisingEdge {s : State} {m : MachineRecord} (hm : s.line.active = some m) :
    Reaches none s none (takeRisingEdge m s) := by
  have closed := tame_closeOpenTrail m (fun r => stems_flag r .gateFault) s
  have active : (closeOpenTrail m (·.flag .gateFault) s).line.active.isSome = true := by rw [closed.active, hm]; rfl
  have started := closed.trans (tame_startNext (holdAsserted s) active)
  have arrived (t : State) : Tame t (nipArrival t).1 := tame_mapPanels t fun r _ => stems_arrive r
  have settled (t : State) : Tame t (syncUnready (paceAtEdge t)) :=
    (Tame.of_queue (storeView_paceAtEdge t) (congrArg QueueView.queue (view_paceAtEdge t))).trans (tame_updateHold _ _)
  exact (Reaches.of_tame (started.trans ((arrived _).trans (settled _)))).schedule.tame (tame_closeEvent _ _ _)

theorem reaches_gateRising (s : State) : Reaches none s none (gateRising s) := by
  unfold gateRising
  split
  · split
    · exact reaches_takeRisingEdge ‹_›
    · exact .of_tame (tame_raise s _)
  · exact .of_tame (tame_raise s _)

/-! ## Requests (R190 to R192) -/

/-- An owner whose effect is a chain of changes, behind which its port waits for an answer or has asked the store. -/
def OwnerChanges (p : PortId) (allowed : Role → Bool) (owner : State → Served) : Prop :=
  ∀ s, s.running = true → allowed s.ports[p].role = true →
    Reaches (some p) s (some p) (owner s).st ∨ (Reaches (some p) s none (owner s).st ∧ (owner s).reply = .later)

/-- An owner whose effect is tame. -/
def OwnerTame (owner : State → Served) : Prop :=
  ∀ s, Tame s (owner s).st

section Owners

variable {p : PortId} {allowed : Role → Bool}

theorem OwnerTame.changes {owner : State → Served} (h : OwnerTame owner) : OwnerChanges p allowed owner :=
  fun s _ _ => .inl (.of_tame (h s))

theorem ownerTame_refuse (r : Reason) : OwnerTame fun s => Served.refuse s r := Tame.refl

theorem ownerTame_readStatus : OwnerTame (readStatusOwner p) := Tame.refl

theorem ownerTame_readPanel (id : BitVec 16) : OwnerTame (readPanelOwner id) := by
  intro s
  unfold readPanelOwner
  split <;> exact .refl s

theorem ownerTame_readQueueSummary : OwnerTame readQueueSummaryOwner := Tame.refl

theorem ownerTame_readStopRecord : OwnerTame readStopRecordOwner := Tame.refl

theorem ownerTame_readMeasurements : OwnerTame readMeasurementsOwner := Tame.refl

theorem ownerTame_readSetpoints : OwnerTame readSetpointsOwner := Tame.refl

theorem ownerTame_readRecords (n : Byte) : OwnerTame (readRecordsOwner n) := by
  intro s
  unfold readRecordsOwner
  split <;> exact .refl s

theorem ownerTame_readAndClear : OwnerTame (readAndClearOwner p) := fun s =>
  .of_queue (storeView_updatePort s p (f := fun q => { q with pending := 0 }) fun _ => ⟨rfl, rfl⟩) rfl

theorem ownerTame_setAttentionMask (mask : BitVec 16) : OwnerTame (setAttentionMaskOwner p mask) := fun s =>
  .of_queue (storeView_updatePort s p (f := fun q => { q with mask := mask }) fun _ => ⟨rfl, rfl⟩) rfl

theorem ownerTame_stop : OwnerTame stopOwner := by
  intro s
  unfold stopOwner
  split <;> exact .refl s

theorem ownerTame_setTrim (trim : BitVec 16) : OwnerTame (setTrimOwner trim) := fun _ => .of_queue rfl rfl

theorem ownerTame_ackRecords (n : Byte) : OwnerTame (ackRecordsOwner n) := by
  intro s
  unfold ackRecordsOwner
  split <;> exact .of_queue rfl rfl

theorem ownerTame_setRecordQueue (mode watermark filter : Byte) : OwnerTame (setRecordQueueOwner mode watermark filter) := by
  intro s
  unfold setRecordQueueOwner
  split
  · split
    · exact .of_queue rfl rfl
    · exact .refl s
  · exact .refl s

theorem ownerTame_probeCache (slot : Byte) : OwnerTame (probeCacheOwner slot) := by
  intro s
  unfold probeCacheOwner
  split
  · split <;> exact .refl s
  · exact .refl s

theorem ownerTame_getCorrection (id : BitVec 16) : OwnerTame (getCorrectionOwner id) := by
  intro s
  unfold getCorrectionOwner
  split
  · exact .refl s
  · split
    · exact tame_mapPanels s fun r _ => stems_fetch r
    · exact .refl s

theorem ownerTame_printAbort (id : BitVec 16) : OwnerTame (printAbortOwner id) := by
  intro s
  unfold printAbortOwner
  split
  · split
    · exact (tame_closeOpenTrail _ (fun r => stems_flag r .scrapped) s).trans (tame_paceNominal _)
    · exact .refl s
  · exact .refl s

theorem ownerTame_reportTemperatures (values : List (BitVec 16)) : OwnerTame (reportTemperaturesOwner values) := by
  intro s
  unfold reportTemperaturesOwner
  split
  · exact .refl s
  · split
    · exact .of_queue rfl rfl
    · exact .refl s

theorem ownerTame_readHeatAdvice : OwnerTame readHeatAdviceOwner := fun s => tame_recomputeAdvice s

theorem ownerTame_reportTensions (v : Tensions) (diameter : Nat) : OwnerTame (reportTensionsOwner v diameter) := by
  have checked (m : MachineRecord) (reading : Bool) (s : State) : Tame s (checkExcursion m reading s) := by
    unfold checkExcursion
    split
    · exact tame_mapPanels s fun r _ => stems_flag r _
    · exact .refl s
  intro s
  unfold reportTensionsOwner
  split
  · exact .refl s
  · exact (tame_updateTension s _).trans ((checked _ _ _).trans (.of_queue rfl rfl))

theorem ownerTame_hold : OwnerTame holdOwner := fun _ => .of_queue rfl rfl

theorem ownerTame_unhold : OwnerTame unholdOwner := fun _ => .of_queue rfl rfl

theorem ownerTame_releaseStop : OwnerTame releaseStopOwner := by
  intro s
  unfold releaseStopOwner
  split
  · split
    · exact .refl s
    · exact .of_queue (storeView_raise _ _) rfl
  · exact .refl s

/-! ### Owners that re-evaluate -/

theorem reaches_removeUnprinted (g : Option PortId) (id : Nat) (s : State) : Reaches g s g (removeUnprinted id s) :=
  (Reaches.of_tame ((tame_filter s _).trans (tame_updateHold _ _))).schedule

theorem ownerChanges_withdraw (id : BitVec 16) : OwnerChanges p allowed (withdrawOwner id) := by
  intro s _ _
  unfold withdrawOwner
  split
  · exact .inl (.refl _ s)
  · split
    · exact .inl (reaches_removeUnprinted _ _ s)
    · exact .inl (.refl _ s)

theorem ownerChanges_scrap (id : BitVec 16) : OwnerChanges p allowed (scrapOwner id) := by
  intro s _ _
  unfold scrapOwner
  split
  · exact .inl (.refl _ s)
  · split
    · exact .inl (reaches_removeUnprinted _ _ s)
    · exact .inl (.of_tame (tame_mapPanels s fun r _ => stems_flag r _))

theorem ownerChanges_invalidateCache : OwnerChanges p allowed invalidateCacheOwner := fun _ _ _ =>
  .inl (Reaches.one (.forget _ _)).schedule

theorem onlyProduction_iff {r : Role} : onlyProduction r = true ↔ r = .production := by simp [onlyProduction]

theorem ownerChanges_announce (jobId : BitVec 32) (slot : Byte) (length : BitVec 32) (width : BitVec 16)
    (coverage : List Byte) : OwnerChanges p onlyProduction (announceOwner jobId slot length width coverage) := by
  intro s running role
  unfold announceOwner
  split
  · exact .inl (.refl _ s)
  · split
    · rename_i i accepted hi
      have nonzero : i ≠ 0 := by
        intro h
        simp [announceRefusal, hi, h] at accepted
      refine .inl (Reaches.schedule (Reaches.tame (.one ?_) (tame_updateHold _ _)))
      exact .announce running (onlyProduction_iff.mp role) rfl nonzero rfl rfl
    · exact .inl (.refl _ s)
    · exact .inl (.refl _ s)

/-! ### Owners that ask the store -/

/-- A request handed to the arbiter, and granted where it can be (R142). -/
theorem changes_askStore {s : State} {r : StoreRequest} (hp : waitingPort r = p) (running : s.running = true)
    (role : onlyProduction s.ports[p].role = true) (fits : RequestFits s r) :
    Reaches (some p) s (some p) (askStore r s).st ∨
      (Reaches (some p) s none (askStore r s).st ∧ (askStore r s).reply = .later) := by
  subst hp
  exact .inr ⟨(Reaches.one (.ask running (onlyProduction_iff.mp role) fits)).trans (reaches_grantWaiting _), rfl⟩

theorem ownerChanges_lineClear (span : BitVec 32) : OwnerChanges p onlyProduction (lineClearOwner p span) := by
  intro s running role
  unfold lineClearOwner
  split
  · exact .inl (.refl _ s)
  · split
    · exact .inl (.refl _ s)
    · exact changes_askStore rfl running role trivial

theorem ownerChanges_erase (slot : Byte) : OwnerChanges p onlyProduction (eraseOwner p slot) := by
  intro s running role
  unfold eraseOwner
  split
  · exact .inl (.refl _ s)
  · split
    · exact .inl (.refl _ s)
    · split
      · exact .inl (.refl _ s)
      · exact changes_askStore rfl running role trivial

theorem ownerChanges_write (slot : Byte) (offset : BitVec 16) (data : List Byte) :
    OwnerChanges p onlyProduction (writeOwner p slot offset data) := by
  intro s running role
  unfold writeOwner
  split
  · exact .inl (.refl _ s)
  · split
    · exact .inl (.refl _ s)
    · split
      · exact .inl (.refl _ s)
      · dsimp only
        split
        · exact .inl (.of_tame (.of_queue rfl rfl))
        · exact changes_askStore rfl running role trivial

theorem ownerChanges_commit (slot : Byte) : OwnerChanges p onlyProduction (commitOwner p slot) := by
  intro s running role
  unfold commitOwner
  split
  · exact .inl (.refl _ s)
  · split
    · exact .inl (.refl _ s)
    · rename_i i _ writing
      exact changes_askStore rfl running role (not_not.mp writing)

theorem ownerChanges_lock (slot : Byte) : OwnerChanges p onlyProduction (lockOwner p slot) := by
  intro s running role
  unfold lockOwner
  split
  · exact .inl (.refl _ s)
  · split
    · exact .inl (.refl _ s)
    · split
      · exact .inl (.refl _ s)
      · exact changes_askStore rfl running role trivial

theorem ownerChanges_readSlot (slot : Byte) (offset : BitVec 16) (n : Byte) :
    OwnerChanges p onlyProduction (readSlotOwner p slot offset n) := by
  intro s running role
  unfold readSlotOwner
  split
  · exact .inl (.refl _ s)
  · split
    · exact .inl (.refl _ s)
    · exact changes_askStore rfl running role trivial

theorem ownerChanges_storeClear : OwnerChanges p onlyProduction (storeClearOwner p) := by
  intro s running role
  unfold storeClearOwner
  split
  · exact .inl (.refl _ s)
  · split
    · exact .inl (.refl _ s)
    · rename_i printed
      refine changes_askStore rfl running role fun r hr => ?_
      simpa using List.any_eq_false.mp (Bool.eq_false_iff.mpr printed) r hr

/-! ### Requests in frames (Table 43) -/

theorem OwnerChanges.noArgs {owner : State → Served} (h : OwnerChanges p allowed owner) (a : List Byte) :
    OwnerChanges p allowed (Request.serveOwner ⟨allowed, Machine.noArgs a owner⟩) := by
  unfold Request.serveOwner Machine.noArgs
  split
  · exact h
  · exact (ownerTame_refuse _).changes

theorem OwnerChanges.withArgs {owner : State → Served} (h : OwnerChanges p allowed owner) (n : Nat) (a : List Byte) :
    OwnerChanges p allowed (Request.serveOwner ⟨allowed, Machine.withArgs n a owner⟩) := by
  unfold Request.serveOwner Machine.withArgs
  split
  · exact h
  · exact (ownerTame_refuse _).changes

theorem ownerChanges_generalRequest {code : Nat} {a : List Byte} {r : Request} (hr : generalRequest p code a = some r) :
    OwnerChanges p r.allowed r.serveOwner := by
  unfold generalRequest at hr
  split at hr
  next => cases hr; exact ownerTame_readStatus.changes.noArgs a
  next => cases hr; exact (ownerTame_readPanel _).changes.withArgs 2 a
  next => cases hr; exact ownerTame_readQueueSummary.changes.noArgs a
  next => cases hr; exact ownerTame_readStopRecord.changes.noArgs a
  next => cases hr; exact ownerTame_readMeasurements.changes.noArgs a
  next => cases hr; exact (ownerTame_readRecords _).changes.withArgs 1 a
  next => cases hr; exact ownerTame_readAndClear.changes.noArgs a
  next => cases hr; exact (ownerTame_setAttentionMask _).changes.withArgs 2 a
  next => cases hr; exact ownerTame_stop.changes.noArgs a
  next => cases hr

theorem ownerChanges_productionRequest {code : Nat} {a : List Byte} {r : Request}
    (hr : productionRequest p code a = some r) : OwnerChanges p r.allowed r.serveOwner := by
  unfold productionRequest at hr
  split at hr
  next =>
    cases hr
    unfold Request.serveOwner announceForm
    dsimp only
    split
    · exact ownerChanges_announce _ _ _ _ _
    · exact (ownerTame_refuse _).changes
  next => cases hr; exact (ownerChanges_withdraw _).withArgs 2 a
  next => cases hr; exact (ownerChanges_scrap _).withArgs 2 a
  next => cases hr; exact (ownerChanges_lineClear _).withArgs 4 a
  next => cases hr; exact (ownerTame_setTrim _).changes.withArgs 2 a
  next => cases hr; exact (ownerTame_ackRecords _).changes.withArgs 1 a
  next => cases hr; exact (ownerTame_setRecordQueue _ _ _).changes.withArgs 3 a
  next => cases hr

theorem ownerChanges_storeRequest {code : Nat} {a : List Byte} {r : Request} (hr : storeRequest p code a = some r) :
    OwnerChanges p r.allowed r.serveOwner := by
  unfold storeRequest at hr
  split at hr
  next => cases hr; exact (ownerChanges_erase _).withArgs 1 a
  next =>
    cases hr
    unfold Request.serveOwner writeForm
    dsimp only
    split
    · exact ownerChanges_write _ _ _
    · exact (ownerTame_refuse _).changes
  next => cases hr; exact (ownerChanges_commit _).withArgs 1 a
  next => cases hr; exact (ownerChanges_lock _).withArgs 1 a
  next => cases hr; exact (ownerChanges_readSlot _ _ _).withArgs 4 a
  next => cases hr; exact ownerChanges_storeClear.noArgs a
  next => cases hr; exact (ownerTame_probeCache _).changes.withArgs 1 a
  next => cases hr; exact ownerChanges_invalidateCache.noArgs a
  next => cases hr

theorem ownerChanges_stationRequest {code : Nat} {a : List Byte} {r : Request} (hr : stationRequest code a = some r) :
    OwnerChanges p r.allowed r.serveOwner := by
  unfold stationRequest at hr
  split at hr
  next => cases hr; exact (ownerTame_getCorrection _).changes.withArgs 2 a
  next => cases hr; exact (ownerTame_printAbort _).changes.withArgs 2 a
  next =>
    cases hr
    unfold Request.serveOwner temperaturesForm
    dsimp only
    split
    · exact (ownerTame_reportTemperatures _).changes
    · exact (ownerTame_refuse _).changes
  next => cases hr; exact ownerTame_readHeatAdvice.changes.noArgs a
  next => cases hr; exact (ownerTame_reportTensions _ _).changes.withArgs 10 a
  next => cases hr; exact ownerTame_readSetpoints.changes.noArgs a
  next => cases hr; exact ownerTame_hold.changes.noArgs a
  next => cases hr; exact ownerTame_unhold.changes.noArgs a
  next => cases hr; exact ownerTame_releaseStop.changes.noArgs a
  next => cases hr

/-- Whatever request a frame carries, its owner's effect is a chain of changes. -/
theorem ownerChanges_requestOf {code : Byte} {a : List Byte} {r : Request} (hr : requestOf p code a = some r) :
    OwnerChanges p r.allowed r.serveOwner := by
  simp only [requestOf, Option.or_eq_some_iff] at hr
  rcases hr with hr | ⟨-, hr | ⟨-, hr | ⟨-, hr⟩⟩⟩
  · exact ownerChanges_generalRequest hr
  · exact ownerChanges_productionRequest hr
  · exact ownerChanges_storeRequest hr
  · exact ownerChanges_stationRequest hr

/-! ### Requests served -/

/-- A refusal or a link error on a free port: it is accepted and answered at once. -/
theorem reaches_answered {s : State} (free : portFree s p = true) (code : Byte) (r : Reply) :
    Reaches none s none ((s.updatePort p Port.accept).answer p code r) :=
  (Reaches.one (.accept free)).answer code r

/-- A reply to come is not placed. -/
theorem tame_answerLater (s : State) (p : PortId) (code : Byte) : Tame s (s.answer p code .later) :=
  .of_queue (storeView_updatePort s p (f := fun q => q.place code .later) fun _ => ⟨rfl, rfl⟩) rfl

theorem reaches_serve {owner : State → Served} (h : OwnerChanges p allowed owner) (code : Byte) {s : State}
    (free : portFree s p = true) : Reaches none s none (serve p code allowed owner s) := by
  unfold Machine.serve
  split
  · rename_i role
    have running : s.running = true := (Bool.and_eq_true_iff.mp free).1
    have accepted : Reaches none s (some p) (s.updatePort p Port.accept) := .one (.accept free)
    have same : (s.updatePort p Port.accept).ports[p].role = s.ports[p].role := by
      rw [updatePort_port, if_pos rfl]
      rfl
    rcases h (s.updatePort p Port.accept) running (by rw [same]; exact role) with answered | ⟨later, reply⟩
    · exact ((accepted.trans answered).answer code _).tame (tame_closeEvent _ _ _)
    · dsimp only
      rw [reply]
      exact ((accepted.trans later).tame (tame_answerLater _ p code)).tame (tame_closeEvent _ _ _)
  · exact reaches_answered free _ _

theorem reaches_takeRequest {owner : State → Served} (h : OwnerChanges p allowed owner) (code : Byte) (s : State) :
    Reaches none s none (takeRequest p code allowed owner s) := by
  unfold Machine.takeRequest
  split
  · exact reaches_serve h code ‹_›
  · exact .refl _ s

theorem reaches_judgeFrame (stream : List Byte) {s : State} (free : portFree s p = true) :
    Reaches none s none (judgeFrame p stream s) := by
  unfold Machine.judgeFrame acceptFrame
  dsimp only
  split
  · exact reaches_answered free _ _
  · split
    · exact reaches_serve (ownerChanges_requestOf ‹_›) _ free
    · exact reaches_answered free _ _

/-- A frame in a transaction is taken on a port that shows no BUSY (R188, R190). -/
theorem portFree_of_not_busy {s : State} (live : s.live = true) (h : busyBit s p = false) : portFree s p = true := by
  obtain ⟨idle, scanning⟩ : s.ports[p].executing = false ∧ s.resetUnit.phase ≠ .scanning := by simpa [busyBit] using h
  have held : s.resetUnit.phase ≠ .held := by simpa [State.live] using live
  have running : s.resetUnit.phase = .running := by
    cases hp : s.resetUnit.phase <;> simp_all
  rw [portFree, idle, State.running, running]
  rfl

theorem reaches_spiTransaction (mosi : List Bool) (s : State) :
    ∃ t, execSpiTransaction p mosi s = .next t ∧ Reaches none s none t := by
  refine ⟨_, rfl, ?_⟩
  have shifted (bits : List Bool) : Tame s (s.updatePort p fun q => { q with miso := bits }) :=
    .of_queue (storeView_updatePort s p (f := fun q => { q with miso := bits }) fun _ => ⟨rfl, rfl⟩) rfl
  split
  · rename_i live
    unfold judgeStream
    split
    · exact .of_tame (shifted _)
    · rename_i taken
      refine (Reaches.of_tame (shifted _)).trans (reaches_judgeFrame _ ?_)
      rw [Bool.or_eq_true, not_or, Bool.not_eq_true (busyBit s p)] at taken
      have free := portFree_of_not_busy live taken.2
      rw [portFree, updatePort_port, if_pos rfl]
      exact free
  · exact .of_tame (shifted _)

end Owners

/-! ## Every step -/

/-- Loading slot 0 changes line control, the units a machine record feeds and slot 0's directory line (R140). -/
theorem loadSlotZero_keeps (s : State) :
    (loadSlotZero s).resetUnit = s.resetUnit ∧ (storeView (loadSlotZero s)).ports = (storeView s).ports ∧
      (loadSlotZero s).queue = s.queue ∧ (loadSlotZero s).cache = s.cache ∧
      (loadSlotZero s).store.holder = s.store.holder ∧ (loadSlotZero s).store.fillWaiting = s.store.fillWaiting ∧
      (loadSlotZero s).store.requestWaiting = s.store.requestWaiting := by
  unfold loadSlotZero
  split
  · split
    · exact ⟨rfl, rfl, rfl, rfl, rfl, rfl, rfl⟩
    · exact ⟨rfl, by rw [markDamaged, storeView_raise]; rfl, rfl, rfl, rfl, rfl, rfl⟩
  · exact ⟨rfl, rfl, rfl, rfl, rfl, rfl, rfl⟩

/-- The end of the start-up scan beside the tame end of its event (R139, R140, R186). -/
theorem reaches_endScan {s : State} (scanning : s.resetUnit.phase = .scanning) : Reaches none s none (endScan s) := by
  have notRunning : s.running = false := by simp [State.running, scanning]
  have scanned : ScanEnds s (scanSlots (startRunning s)) :=
    ⟨rfl, rfl, rfl, rfl, by simp [scanSlots, startRunning], by simp [scanSlots, startRunning],
      by simp [scanSlots, startRunning]⟩
  have ends : ScanEnds s (loadSlotZero (scanSlots (startRunning s))) := by
    generalize scanSlots (startRunning s) = t at scanned
    obtain ⟨phase, ports, queue, cache, holder, fill, request⟩ := loadSlotZero_keeps t
    exact ⟨(congrArg (fun u : ResetUnit => decide (u.phase = .running)) phase).trans scanned.running,
      ports.trans scanned.ports, queue.trans scanned.queue, (congrArg Cache.entries cache).trans scanned.entries,
      holder.trans scanned.holder, fill.trans scanned.fillWaiting, request.trans scanned.requestWaiting⟩
  unfold endScan
  generalize loadSlotZero (scanSlots (startRunning s)) = t at ends
  have synced : Tame t (syncStale (syncUnready t)) := .of_queue rfl rfl
  exact ((Reaches.one (.scan notRunning ends)).tame synced).tame (tame_closeEvent _ _ _)

theorem reaches_deviceReset (cause : ResetCause) (s : State) : Reaches none s none (deviceReset cause s) := by
  rcases deviceReset_cases cause s with ⟨-, e⟩ | ⟨-, -, e⟩ | ⟨-, -, e⟩ <;> rw [e]
  · exact .one (.reset cause s)
  · exact .of_tame (.of_queue rfl rfl)
  · exact .refl _ s

/-- A result is written (R81, R82): the state behind it, before the scheduler re-evaluates. -/
def ResultWritten (s t : State) : Prop :=
  ∃ k r, findPanel s k.panel = some r ∧ resultWritable s k.snapshot.generation r = true ∧
    t = writeResult k { s with engine := none }

/-- What a step can do: a chain of changes, behind one result written where a computation completes. -/
def StepChanges (s t : State) : Prop :=
  Reaches none s none t ∨ ∃ u, ResultWritten s u ∧ Reaches none u none t

theorem stepChanges_completeComputation (k : Computation) (s : State) : StepChanges s (completeComputation k s) := by
  have ended (u : State) : Reaches none u none (closeEvent s (reevaluate u) []) :=
    (Reaches.refl none u).schedule.tame (tame_closeEvent _ _ _)
  have emptied : Tame s { s with engine := none } := .of_queue rfl rfl
  have discarded := (Reaches.of_tame emptied).trans (ended _)
  unfold completeComputation
  dsimp only
  split
  · rename_i r found
    split
    · exact .inr ⟨_, ⟨k, r, found, ‹_›, rfl⟩, ended _⟩
    · exact .inl discarded
  · exact .inl discarded

/-- What any command can do. -/
theorem exec_stepChanges (i : Instr) (s : State) : ∃ t, exec i s = .next t ∧ StepChanges s t := by
  have request : ∀ {owner : State → Served} {allowed : Role → Bool} (p : PortId) (c : Byte), OwnerChanges p allowed owner →
      StepChanges s (takeRequest p c allowed owner s) := fun p c ho => .inl (reaches_takeRequest ho c s)
  have stays : Reaches none s none s := .refl none s
  have guarded : ∀ (c : Prop) [Decidable c] (t : State), Reaches none s none t → StepChanges s (if c then t else s) := by
    intro c _ t ht
    split
    · exact .inl ht
    · exact .inl stays
  have tamed : ∀ (c : Prop) [Decidable c] (t : State), Tame s t → StepChanges s (if c then t else s) :=
    fun c _ t ht => guarded c t (.of_tame ht)
  have granted : ∀ c : Prop, [Decidable c] → StepChanges s (if c then closeEvent s (grantWaiting s) [] else s) :=
    fun c _ => guarded c _ ((reaches_grantWaiting s).tame (tame_closeEvent _ _ _))
  cases i with
  | readStatus p => exact ⟨_, rfl, request _ _ ownerTame_readStatus.changes⟩
  | readPanel p id => exact ⟨_, rfl, request _ _ (ownerTame_readPanel id).changes⟩
  | readQueueSummary p => exact ⟨_, rfl, request _ _ ownerTame_readQueueSummary.changes⟩
  | readStopRecord p => exact ⟨_, rfl, request _ _ ownerTame_readStopRecord.changes⟩
  | readMeasurements p => exact ⟨_, rfl, request _ _ ownerTame_readMeasurements.changes⟩
  | readRecords p n => exact ⟨_, rfl, request _ _ (ownerTame_readRecords n).changes⟩
  | readAndClearAttention p => exact ⟨_, rfl, request _ _ ownerTame_readAndClear.changes⟩
  | setAttentionMask p mask => exact ⟨_, rfl, request _ _ (ownerTame_setAttentionMask mask).changes⟩
  | stop p => exact ⟨_, rfl, request _ _ ownerTame_stop.changes⟩
  | announcePanel p jobId slot length width coverage =>
    exact ⟨_, rfl, request _ _ (ownerChanges_announce _ _ _ _ _)⟩
  | withdrawPanel p id => exact ⟨_, rfl, request _ _ (ownerChanges_withdraw id)⟩
  | scrapPanel p id => exact ⟨_, rfl, request _ _ (ownerChanges_scrap id)⟩
  | lineClear p span => exact ⟨_, rfl, request _ _ (ownerChanges_lineClear span)⟩
  | setTrim p trim => exact ⟨_, rfl, request _ _ (ownerTame_setTrim trim).changes⟩
  | ackRecords p n => exact ⟨_, rfl, request _ _ (ownerTame_ackRecords n).changes⟩
  | setRecordQueue p mode watermark filter => exact ⟨_, rfl, request _ _ (ownerTame_setRecordQueue _ _ _).changes⟩
  | eraseSlot p slot => exact ⟨_, rfl, request _ _ (ownerChanges_erase slot)⟩
  | writeSlot p slot offset data => exact ⟨_, rfl, request _ _ (ownerChanges_write slot offset data)⟩
  | commitSlot p slot => exact ⟨_, rfl, request _ _ (ownerChanges_commit slot)⟩
  | lockSlot p slot => exact ⟨_, rfl, request _ _ (ownerChanges_lock slot)⟩
  | readSlot p slot offset n => exact ⟨_, rfl, request _ _ (ownerChanges_readSlot slot offset n)⟩
  | storeClear p => exact ⟨_, rfl, request _ _ ownerChanges_storeClear⟩
  | probeCache p slot => exact ⟨_, rfl, request _ _ (ownerTame_probeCache slot).changes⟩
  | invalidateCache p => exact ⟨_, rfl, request _ _ ownerChanges_invalidateCache⟩
  | getCorrection p id => exact ⟨_, rfl, request _ _ (ownerTame_getCorrection id).changes⟩
  | printAbort p id => exact ⟨_, rfl, request _ _ (ownerTame_printAbort id).changes⟩
  | reportTemperatures p values => exact ⟨_, rfl, request _ _ (ownerTame_reportTemperatures values).changes⟩
  | readHeatAdvice p => exact ⟨_, rfl, request _ _ ownerTame_readHeatAdvice.changes⟩
  | reportTensions p a b c d e => exact ⟨_, rfl, request _ _ (ownerTame_reportTensions _ _).changes⟩
  | readSetpoints p => exact ⟨_, rfl, request _ _ ownerTame_readSetpoints.changes⟩
  | hold p => exact ⟨_, rfl, request _ _ ownerTame_hold.changes⟩
  | unhold p => exact ⟨_, rfl, request _ _ ownerTame_unhold.changes⟩
  | releaseStop p => exact ⟨_, rfl, request _ _ ownerTame_releaseStop.changes⟩
  | spiTransaction p mosi =>
    obtain ⟨t, ht, reached⟩ := reaches_spiTransaction (p := p) mosi s
    exact ⟨t, ht, .inl reached⟩
  | powerOnReset => exact ⟨_, rfl, .inl (reaches_deviceReset _ s)⟩
  | supplyMonitorReset => exact ⟨_, rfl, .inl (reaches_deviceReset _ s)⟩
  | resetnReset => exact ⟨_, rfl, .inl (reaches_deviceReset _ s)⟩
  | resetEnd rolea roleb maint =>
    refine ⟨_, rfl, ?_⟩
    split
    · exact .inl stays
    · exact .inl (.one (.roles _ _ _ (Bool.eq_false_iff.mpr ‹_›)))
  | startUpScanEnd =>
    refine ⟨_, rfl, ?_⟩
    split
    · exact .inl (reaches_endScan ‹_›)
    · exact .inl stays
  | pencCount d =>
    exact ⟨_, rfl, tamed _ _ ((tame_updatePos s _).trans ((tame_printCount d _).trans (tame_closeEvent _ _ _)))⟩
  | cencCount d =>
    exact ⟨_, rfl, tamed _ _ ((tame_updatePos s _).trans ((tame_nipCount d _).trans (tame_closeEvent _ _ _)))⟩
  | fencCount d => exact ⟨_, rfl, tamed _ _ (tame_updatePos s _)⟩
  | pacePulseTimer => exact ⟨_, rfl, .inl (.of_tame (tame_updatePace s _))⟩
  | pgateRisingEdge =>
    exact ⟨_, rfl, guarded _ _ ((Reaches.of_tame (tame_updateInputs s _)).trans (reaches_gateRising _))⟩
  | pgateFallingEdge => exact ⟨_, rfl, tamed _ _ ((tame_updateInputs s _).trans (tame_gateFalling _))⟩
  | breaknAssertion => exact ⟨_, rfl, tamed _ _ ((tame_updateInputs s _).trans (tame_closeEvent _ _ _))⟩
  | breaknRelease => exact ⟨_, rfl, tamed _ _ (tame_updateInputs s _)⟩
  | stopinnAssertion => exact ⟨_, rfl, tamed _ _ ((tame_updateInputs s _).trans (tame_closeEvent _ _ _))⟩
  | stopinnRelease => exact ⟨_, rfl, tamed _ _ (tame_updateInputs s _)⟩
  | markWord bit => exact ⟨_, rfl, tamed _ _ (tame_markEdge bit s)⟩
  | markWordTimeout =>
    refine ⟨_, rfl, .inl ?_⟩
    split
    · exact .of_tame ((tame_updateMark s _).trans (tame_raise _ _))
    · exact stays
  | speedWindowExpiry => exact ⟨_, rfl, tamed _ _ (tame_speedWindow s)⟩
  | doseTick => exact ⟨_, rfl, tamed _ _ (tame_doseTick s)⟩
  | tensionTick =>
    refine ⟨_, rfl, .inl ?_⟩
    split
    · exact .of_tame ((tame_updateTension s _).trans (tame_raiseIf _ _ _))
    · exact stays
  | temperatureStaleExpiry =>
    refine ⟨_, rfl, ?_⟩
    split
    · exact tamed _ _ ((tame_updateDose s _).trans <| (tame_raiseIf _ _ _).trans <|
        (tame_updateHold _ _).trans (tame_closeEvent _ _ _))
    · exact .inl stays
  | tensionStaleExpiry =>
    refine ⟨_, rfl, ?_⟩
    split
    · exact tamed _ _ ((tame_updateTension s _).trans <| (tame_raiseIf _ _ _).trans <|
        (tame_updateHold _ _).trans (tame_closeEvent _ _ _))
    · exact .inl stays
  | hardStaleExpiry => exact ⟨_, rfl, .inl (.of_tame ((tame_judgeLost s).trans (tame_closeEvent _ _ _)))⟩
  | refreshExpiry =>
    refine ⟨_, rfl, ?_⟩
    split
    · exact guarded _ _ stays.schedule
    · exact .inl stays
  | correctionCompletion =>
    refine ⟨_, rfl, ?_⟩
    split
    · exact stepChanges_completeComputation _ s
    · exact .inl stays
  | cacheFillGrant => exact ⟨_, rfl, granted _⟩
  | cacheFillCompletion =>
    refine ⟨_, rfl, .inl ?_⟩
    split
    · exact reaches_endFill ‹_›
    · exact stays
  | eraseSlotGrant => exact ⟨_, rfl, granted _⟩
  | eraseSlotCompletion =>
    refine ⟨_, rfl, .inl ?_⟩
    split
    · exact reaches_endOperation s _ _ (reaches_finished ‹_› rfl (.of_queue rfl rfl))
    · exact stays
  | storeGrant => exact ⟨_, rfl, granted _⟩
  | writeSlotCompletion =>
    refine ⟨_, rfl, .inl ?_⟩
    split
    · exact reaches_endOperation s _ _ (reaches_finished ‹_› rfl
        (.of_queue (storeView_programRows _ _) (congrArg QueueView.queue (view_programRows _ _))))
    · exact stays
  | commitSlotCompletion =>
    refine ⟨_, rfl, .inl ?_⟩
    split
    · exact reaches_endCommit ‹_›
    · exact stays
  | lockSlotCompletion =>
    refine ⟨_, rfl, .inl ?_⟩
    split
    · exact reaches_endLock ‹_›
    · exact stays
  | readSlotCompletion =>
    refine ⟨_, rfl, .inl ?_⟩
    split
    · exact reaches_endOperation s _ _ (reaches_finished ‹_› rfl (.refl _))
    · exact stays
  | storeClearGrant => exact ⟨_, rfl, granted _⟩
  | storeClearCompletion =>
    refine ⟨_, rfl, .inl ?_⟩
    split
    · refine reaches_endOperation s _ _ (Reaches.schedule ?_)
      exact reaches_finished ‹_› rfl (.of_queue rfl rfl)
    · exact stays
  | lineClearReadCompletion =>
    refine ⟨_, rfl, .inl ?_⟩
    split
    · exact reaches_judgeLineClear ‹_›
    · exact stays
  | mkclkRisingEdge bit => exact ⟨_, rfl, tamed _ _ (tame_markEdge bit s)⟩
  | quadratureTransitionError e => exact ⟨_, rfl, tamed _ _ (tame_updatePos s _)⟩

/-- A result written and what comes behind it do not look at the commands that wait. -/
theorem stepChanges_of_pending {s t : State} {rest : List Instr} (h : StepChanges { s with pending := rest } t) :
    StepChanges s t := by
  have taken : Tame s { s with pending := rest } := .of_queue rfl rfl
  rcases h with h | ⟨u, ⟨k, r, found, writable, hu⟩, h⟩
  · exact .inl ((Reaches.of_tame taken).trans h)
  · refine .inr ⟨writeResult k { s with engine := none }, ⟨k, r, found, writable, rfl⟩, (Reaches.of_tame ?_).trans h⟩
    rw [hu]
    exact .of_queue ((storeView_raise _ _).trans (storeView_raise _ _).symm) rfl

/-- What any step can do. -/
theorem step_stepChanges {s t : State} (h : step s = .next t) : StepChanges s t := by
  unfold step at h
  split at h
  · rename_i c rest _
    obtain ⟨u, hu, changes⟩ := exec_stepChanges c { s with pending := rest }
    cases hu.symm.trans h
    exact stepChanges_of_pending changes
  · cases h
    refine .inl (.of_tame ?_)
    unfold idle
    split <;> exact .of_queue rfl rfl

end Sys2Proof.Proofs
end

