-- ==== Sys2Proof/Proofs/CacheCoherence.lean ====
section
/-!
O59, first part: the cache names usable slots at their generations, each once, and no fill is of a slot it holds.
-/
namespace Sys2Proof.Proofs

open Sys2Proof.Machine Sys2Proof.Safety

/-! ## Lookups and re-evaluations (R73, R80) -/

/-- A lookup misses exactly where no entry holds the slot (R73). -/
theorem lookup_eq_none_iff {c : Cache} {slot : SlotId} :
    lookup c slot = none ↔ ∀ (i : Fin 8) (e : CacheEntry), c.entries[i] = some e → e.slot ≠ slot := by
  unfold lookup findEntry
  constructor
  · intro h i e he hs
    cases hf : (List.finRange 8).find? fun i => decide ((c.entries[i]).map (·.slot) = some slot) with
    | none =>
      have := List.find?_eq_none.mp hf i (List.mem_finRange i)
      simp [he, hs] at this
    | some j =>
      have hj : (c.entries[j]).map (·.slot) = some slot := by simpa using List.find?_some hf
      obtain ⟨f, hf', -⟩ := Option.map_eq_some_iff.mp hj
      simp only [hf, Option.bind_some, hf', Option.map_some] at h
      cases h
  · intro h
    rw [List.find?_eq_none.mpr]
    · rfl
    · intro i _ hi
      obtain ⟨f, hf, hs⟩ := Option.map_eq_some_iff.mp (by simpa using hi)
      exact h i f hf hs

theorem fillInFlight_eq_none_iff {s : State} :
    fillInFlight s = none ↔ s.store.fillWaiting = none ∧ ∀ slot, s.store.holder ≠ some (.fill slot) := by
  unfold fillInFlight
  split
  · rename_i h
    simp [h]
  · rename_i h1 h2
    simp [h2]
  · rename_i h1 h2
    simp only [h1, true_iff, true_and]
    exact fun slot hs => h2 slot hs

/-- A slot that is VALID or LOCKED. -/
def StoreView.Usable (v : StoreView) (i : SlotId) : Prop :=
  (v.slots i).1 = .valid ∨ (v.slots i).1 = .locked

theorem slotUsable_iff {s : State} {i : SlotId} : slotUsable s i = true ↔ (storeView s).Usable i := by
  simp [slotUsable, StoreView.Usable, storeView]

/-- No entry holds a slot. -/
def StoreView.Misses (v : StoreView) (slot : SlotId) : Prop :=
  ∀ (i : Fin 8) (e : CacheEntry), v.entries[i] = some e → e.slot ≠ slot

/-- A fill that a re-evaluation may request, under an active machine record: of a record's slot that is usable and misses, with
no fill in flight (R74, R80). -/
structure FillWanted (s : State) (slot : SlotId) : Prop where
  active : s.line.active.isSome = true
  named : ∃ r ∈ s.queue, r.slot = some slot
  usable : (storeView s).Usable slot
  misses : (storeView s).Misses slot
  waiting : s.store.fillWaiting = none
  reading : ∀ i, s.store.holder ≠ some (.fill i)

theorem fillWanted_of_eligible {s : State} {m : MachineRecord} {slot : SlotId} (active : s.line.active = some m)
    (head : (eligibleRecords m s).head?.bind (·.slot) = some slot) (misses : lookup s.cache slot = none)
    (free : fillInFlight s = none) : FillWanted s slot := by
  obtain ⟨r, hr, slotOf⟩ := Option.bind_eq_some_iff.mp head
  obtain ⟨ahead, wanted⟩ := List.mem_filter.mp (List.mem_of_mem_head? hr)
  obtain ⟨queued, -⟩ := List.mem_filter.mp (List.mem_of_mem_take ahead)
  have usable : slotUsable s slot = true := by
    obtain ⟨a, normal, rfl⟩ := Option.map_eq_some_iff.mp slotOf
    simp only [eligible, normal, Bool.and_eq_true] at wanted
    exact wanted.1.1.2
  obtain ⟨waiting, reading⟩ := fillInFlight_eq_none_iff.mp free
  exact ⟨by rw [active]; rfl, ⟨r, queued, slotOf⟩, slotUsable_iff.mp usable, lookup_eq_none_iff.mp misses, waiting,
    reading⟩

/-- What a re-evaluation does to the view: nothing, or a fill that is wanted reads on a free store, or waits for it (R74). -/
theorem storeView_reevaluate (s : State) :
    storeView (reevaluate s) = storeView s ∨ ∃ slot, FillWanted s slot ∧
      (s.store.holder = none ∧ storeView (reevaluate s) = { storeView s with holder := some (.fill slot) } ∨
        s.store.holder ≠ none ∧ storeView (reevaluate s) = { storeView s with fillWaiting := some slot }) := by
  have start (m : MachineRecord) (l : List Panel) : ∃ e n,
      startComputation m l s = { s with engine := e, cache := { s.cache with nlu := n } } := by
    unfold startComputation
    split
    · exact ⟨_, _, rfl⟩
    · exact ⟨s.engine, s.cache.nlu, rfl⟩
  unfold reevaluate
  split
  · rename_i m active
    obtain ⟨e, n, started⟩ := start m (eligibleRecords m s)
    rw [started]
    unfold requestMissing
    split
    · rename_i slot head
      split
      · rename_i wanted
        have misses : lookup s.cache slot = none := Option.isNone_iff_eq_none.mp wanted.1
        have free : fillInFlight s = none := Option.isNone_iff_eq_none.mp wanted.2
        refine .inr ⟨slot, fillWanted_of_eligible active head misses free, ?_⟩
        unfold requestFill
        dsimp only
        split
        · exact .inl ⟨‹_›, rfl⟩
        · rename_i held
          exact .inr ⟨by rw [held]; exact nofun, rfl⟩
      · exact .inl rfl
    · exact .inl rfl
  · exact .inl rfl

/-! ## The views of the changes -/

theorem storeView_port (s : State) (p : PortId) (f : Port → Port) :
    storeView (s.updatePort p f) =
      { storeView s with ports := fun q =>
          if q = p then ((f s.ports[p]).role, (f s.ports[p]).executing) else (storeView s).ports q } := by
  have port (q : PortId) : ((s.updatePort p f).ports[q].role, (s.updatePort p f).ports[q].executing) =
      if q = p then ((f s.ports[p]).role, (f s.ports[p]).executing) else (storeView s).ports q := by
    rw [updatePort_port]
    split
    · rename_i h
      rw [h]
    · rfl
  simp only [storeView, port]
  rfl

/-- A directory line of another state and generation. -/
def StoreView.setSlot (v : StoreView) (slot : SlotId) (d : SlotState × Nat) : StoreView :=
  { v with slots := fun j => if j = slot then d else v.slots j }

/-- The entries without one for a slot. -/
def StoreView.invalidate (v : StoreView) (slot : SlotId) : StoreView :=
  { v with entries := v.entries.map fun e => if e.map (·.slot) = some slot then none else e }

theorem storeView_updateDir_set (s : State) (slot : SlotId) (f : DirEntry → DirEntry) :
    storeView (s.updateDir slot f) =
      (storeView s).setSlot slot ((f (dirEntry s slot)).state, (f (dirEntry s slot)).generation) :=
  storeView_setEntry s slot (f (dirEntry s slot))

theorem storeView_invalidate (s : State) (slot : SlotId) :
    storeView (s.updateCache (·.invalidate slot)) = (storeView s).invalidate slot := rfl

/-! ## What happens to the queue -/

/-- A record that a change leaves or brings: it stems from one before, or it is new, neither READY nor corrected, and not
of slot 0. -/
theorem change_queue {x y : Moment} (h : Change x y) : ∀ r ∈ y.st.queue, (∃ q ∈ x.st.queue, Stems r q) ∨
    (r.correction = none ∧ r.isReady = false ∧ ∀ a, r.normal = some a → a.slot ≠ 0) := by
  have same {s t : State} (hq : t.queue = s.queue) : ∀ r ∈ t.queue, (∃ q ∈ s.queue, Stems r q) ∨
      (r.correction = none ∧ r.isReady = false ∧ ∀ a, r.normal = some a → a.slot ≠ 0) :=
    fun r hr => .inl ⟨r, hq ▸ hr, .refl r⟩
  cases h with
  | tame h =>
    intro r hr
    rcases h.queue r hr with stems | ⟨⟨normal, correction, printed⟩, -⟩
    · exact .inl stems
    · refine .inr ⟨correction, ?_, fun a ha => absurd ha (by rw [normal]; exact nofun)⟩
      exact Bool.eq_false_iff.mpr fun ready => absurd (unprinted_of_isReady ready) (by rw [printed]; exact nofun)
  | schedule g s => exact same (reevaluate_queue s)
  | announce _ _ normal slot ready correction =>
    intro q hq
    rcases List.mem_append.mp hq with hq | hq
    · exact .inl ⟨q, hq, .refl q⟩
    · rw [List.mem_singleton.mp hq]
      refine .inr ⟨correction, ready, fun a ha => ?_⟩
      rw [normal] at ha
      exact Option.some.inj ha ▸ slot
  | erase =>
    intro r hr
    obtain ⟨q, hq, rfl⟩ := List.mem_map.mp hr
    refine .inl ⟨q, hq, ?_⟩
    split
    · exact stems_returnToQueued ‹_›
    · exact .refl q
  | reset cause s => exact fun r hr => absurd hr List.not_mem_nil
  | scan _ ends => exact same ends.queue
  | _ => exact same rfl

/-- No record names slot 0. -/
def NoneOfSlotZero (queue : List Panel) : Prop :=
  ∀ r ∈ queue, ∀ a, r.normal = some a → a.slot ≠ 0

theorem noneOfSlotZero_change {x y : Moment} (h : Change x y) (hx : NoneOfSlotZero x.st.queue) :
    NoneOfSlotZero y.st.queue := by
  intro r hr a ha
  rcases change_queue h r hr with ⟨q, hq, stems⟩ | ⟨-, -, fresh⟩
  · exact hx q hq a (stems.normal ▸ ha)
  · exact fresh a ha

/-! ## The cache's promises on the view -/

/-- The cache's promises, and what keeps them, said of the view (R71 to R76). -/
structure CacheHolds (v : StoreView) : Prop where
  entry : ∀ (i : Fin 8) (e : CacheEntry), v.entries[i] = some e → v.Usable e.slot ∧ (v.slots e.slot).2 = e.generation
  distinct : ∀ (i j : Fin 8) (e f : CacheEntry), v.entries[i] = some e → v.entries[j] = some f → e.slot = f.slot → i = j
  cached : v.Misses 0
  fills : ∀ slot, v.fillWaiting = some slot ∨ v.holder = some (.fill slot) → slot ≠ 0 ∧ v.Misses slot
  reads : ∀ slot, v.holder = some (.fill slot) → v.fillWaiting = none ∧ v.Usable slot
  quiet : v.phase ≠ .running →
    v.active = false ∧ v.holder = none ∧ v.fillWaiting = none ∧ v.requestWaiting = none ∧ ∀ i : Fin 8, v.entries[i] = none

theorem running_iff {s : State} : s.running = true ↔ (storeView s).phase = .running := by simp [State.running, storeView]

theorem not_running_iff {s : State} : s.running = false ↔ (storeView s).phase ≠ .running := by
  simp [State.running, storeView]

theorem fillInFlight_some {s : State} {f : SlotId × Bool} (h : fillInFlight s = some f) :
    s.store.fillWaiting = some f.1 ∨ s.store.holder = some (.fill f.1) := by
  unfold fillInFlight at h
  split at h
  · rename_i hw
    exact .inl (by rw [hw, ← Option.some.inj h])
  · rename_i hh
    exact .inr (by rw [hh, ← Option.some.inj h])
  · cases h

theorem cacheCoherent_iff {s : State} : CacheCoherent s ↔ CacheHolds (storeView s) ∧ NoneOfSlotZero s.queue := by
  constructor
  · rintro ⟨named, distinct, ⟨cached, queued, filled⟩, ⟨misses, reads⟩, quiet⟩
    refine ⟨⟨fun i e he => ?_, distinct, cached, fun slot hs => ?_, fun slot hs => ?_, fun h => ?_⟩, queued⟩
    · obtain ⟨usable, generation⟩ := named i e he
      exact ⟨slotUsable_iff.mp usable, generation⟩
    · obtain ⟨b, flight⟩ : ∃ b, fillInFlight s = some (slot, b) := by
        rcases hs with hs | hs
        · exact ⟨false, by simp only [fillInFlight, show s.store.fillWaiting = some slot from hs]⟩
        · refine ⟨true, ?_⟩
          simp only [fillInFlight, (reads slot hs).1, show s.store.holder = some (.fill slot) from hs]
      exact ⟨filled _ flight, lookup_eq_none_iff.mp (misses _ flight)⟩
    · exact ⟨(reads slot hs).1, slotUsable_iff.mp (reads slot hs).2⟩
    · obtain ⟨active, rest⟩ := quiet (not_running_iff.mpr h)
      exact ⟨by simp [storeView, active], rest⟩
  · rintro ⟨h, queued⟩
    refine ⟨fun i e he => ?_, h.distinct, ⟨h.cached, queued, fun f hf => (h.fills f.1 (fillInFlight_some hf)).1⟩,
      ⟨fun f hf => lookup_eq_none_iff.mpr (h.fills f.1 (fillInFlight_some hf)).2, fun slot hs => ?_⟩, fun hr => ?_⟩
    · obtain ⟨usable, generation⟩ := h.entry i e he
      exact ⟨slotUsable_iff.mpr usable, generation⟩
    · exact ⟨(h.reads slot hs).1, slotUsable_iff.mpr (h.reads slot hs).2⟩
    · obtain ⟨active, rest⟩ := h.quiet (not_running_iff.mp hr)
      exact ⟨by simpa [storeView] using active, rest⟩

/-- Before the roles are taken the part does not run (R183, R186). -/
theorem phase_of_not_live {s : State} (h : s.live = false) : (storeView s).phase ≠ .running := by
  have held : s.resetUnit.phase = .held := by simpa [State.live] using h
  intro running
  cases held.symm.trans running

/-! ## The cache's promises through every change -/

/-- Nothing at the arbiter and no active machine record. -/
def StoreView.Quiet (v : StoreView) : Prop :=
  v.active = false ∧ v.holder = none ∧ v.fillWaiting = none ∧ v.requestWaiting = none

/-- A view whose entries and fills are among those of another, their slots as they were. -/
structure Fewer (v w : StoreView) : Prop where
  phase : w.phase = v.phase
  quiet : v.phase ≠ .running → v.Quiet → w.Quiet
  entry : ∀ (i : Fin 8) (e : CacheEntry), w.entries[i] = some e →
    v.entries[i] = some e ∧ (v.Usable e.slot → w.Usable e.slot) ∧ (w.slots e.slot).2 = (v.slots e.slot).2
  waiting : ∀ slot, w.fillWaiting = some slot → v.fillWaiting = some slot
  reading : ∀ slot, w.holder = some (.fill slot) → v.holder = some (.fill slot) ∧ (v.Usable slot → w.Usable slot)

theorem CacheHolds.fewer {v w : StoreView} (h : CacheHolds v) (k : Fewer v w) : CacheHolds w where
  entry i e he := by
    obtain ⟨was, usable, generation⟩ := k.entry i e he
    exact ⟨usable (h.entry i e was).1, generation.trans (h.entry i e was).2⟩
  distinct i j e f he hf := h.distinct i j e f (k.entry i e he).1 (k.entry j f hf).1
  cached i e he := h.cached i e (k.entry i e he).1
  fills slot hs := by
    obtain ⟨nonzero, misses⟩ := h.fills slot (hs.imp (k.waiting slot) fun hr => (k.reading slot hr).1)
    exact ⟨nonzero, fun i e he => misses i e (k.entry i e he).1⟩
  reads slot hs := by
    obtain ⟨was, usable⟩ := k.reading slot hs
    refine ⟨Option.eq_none_iff_forall_ne_some.mpr fun other ho => ?_, usable (h.reads slot was).2⟩
    have none := (h.reads slot was).1
    rw [k.waiting other ho] at none
    cases none
  quiet hp := by
    rw [k.phase] at hp
    obtain ⟨active, holder, fill, request, entries⟩ := h.quiet hp
    obtain ⟨active', holder', fill', request'⟩ := k.quiet hp ⟨active, holder, fill, request⟩
    refine ⟨active', holder', fill', request', fun i => Option.eq_none_iff_forall_ne_some.mpr fun e he => ?_⟩
    exact absurd ((entries i).symm.trans (k.entry i e he).1) nofun

/-- Nothing cached and nothing at the arbiter: all the promises hold. -/
theorem cacheHolds_of_empty {v : StoreView} (entries : ∀ i : Fin 8, v.entries[i] = none) (holder : v.holder = none)
    (waiting : v.fillWaiting = none) (quiet : v.phase ≠ .running → v.Quiet) : CacheHolds v := by
  have empty {i : Fin 8} {e : CacheEntry} : v.entries[i] ≠ some e := by rw [entries i]; exact nofun
  refine ⟨fun i e he => absurd he empty, fun i _ e _ he => absurd he empty, fun i e he => absurd he empty, fun slot hs => ?_,
    fun slot hs => ?_, fun hp => ?_⟩
  · rw [holder, waiting] at hs
    exact hs.elim nofun nofun
  · rw [holder] at hs
    cases hs
  · obtain ⟨active, held, fill, request⟩ := quiet hp
    exact ⟨active, held, fill, request, entries⟩

/-- An entry that a slot's invalidation leaves is of another slot. -/
theorem invalidate_entry {v : StoreView} {slot : SlotId} {i : Fin 8} {e : CacheEntry}
    (h : (v.invalidate slot).entries[i] = some e) : v.entries[i] = some e ∧ e.slot ≠ slot := by
  simp only [StoreView.invalidate, Fin.getElem_fin, Vector.getElem_map] at h ⊢
  split at h
  · cases h
  · rename_i other
    refine ⟨h, fun hs => other ?_⟩
    rw [h, Option.map_some, hs]

/-- A view of the same entries and slots. -/
theorem fewer_of_slots {v w : StoreView} (phase : w.phase = v.phase) (entries : w.entries = v.entries)
    (slots : w.slots = v.slots) (quiet : v.phase ≠ .running → v.Quiet → w.Quiet)
    (waiting : ∀ slot, w.fillWaiting = some slot → v.fillWaiting = some slot)
    (reading : ∀ slot, w.holder = some (.fill slot) → v.holder = some (.fill slot)) : Fewer v w where
  phase := phase
  quiet := quiet
  entry i e he := by
    rw [entries] at he
    exact ⟨he, by rw [StoreView.Usable, StoreView.Usable, slots]; exact id, by rw [slots]⟩
  waiting := waiting
  reading slot h := ⟨reading slot h, by rw [StoreView.Usable, StoreView.Usable, slots]; exact id⟩

/-- A slot erased, committed or found damaged at its lock: no entry of it stays, so its line may become any (R76). -/
theorem fewer_invalidate {v : StoreView} {slot : SlotId} {d : SlotState × Nat} (waits : ∀ i, v.holder ≠ some (.fill i)) :
    Fewer v ((v.invalidate slot).setSlot slot d) where
  phase := rfl
  quiet _ h := h
  entry i e he := by
    obtain ⟨was, other⟩ := invalidate_entry (v := v) he
    refine ⟨was, ?_, ?_⟩
    · simp [StoreView.Usable, StoreView.setSlot, StoreView.invalidate, other]
    · simp [StoreView.setSlot, StoreView.invalidate, other]
  waiting _ h := h
  reading i h := absurd h (waits i)

/-- A slot that no entry names and that is not read changes its line. -/
theorem fewer_setSlot {v : StoreView} {slot : SlotId} {d : SlotState × Nat} (waits : ∀ i, v.holder ≠ some (.fill i))
    (misses : v.Misses slot) : Fewer v (v.setSlot slot d) where
  phase := rfl
  quiet _ h := h
  entry i e he := by
    have other : e.slot ≠ slot := misses i e he
    refine ⟨he, ?_, ?_⟩
    · simp [StoreView.Usable, StoreView.setSlot, other]
    · simp [StoreView.setSlot, other]
  waiting _ h := h
  reading i h := absurd h (waits i)

/-- A slot locked: what was usable stays usable, at its generation (R154). -/
theorem fewer_locked {v : StoreView} {slot : SlotId} (waits : ∀ i, v.holder ≠ some (.fill i)) :
    Fewer v (v.setSlot slot (.locked, (v.slots slot).2)) where
  phase := rfl
  quiet _ h := h
  entry i e he := by
    refine ⟨he, fun usable => ?_, ?_⟩
    · simp only [StoreView.Usable, StoreView.setSlot] at usable ⊢
      split
      · exact .inr rfl
      · exact usable
    · simp only [StoreView.setSlot]
      split
      · rename_i same
        rw [same]
      · rfl
  waiting _ h := h
  reading i h := absurd h (waits i)

/-- The operation in progress ends: the store is free. -/
def StoreView.free (v : StoreView) : StoreView :=
  { v with holder := none }

theorem storeView_freeStore (s : State) : storeView (freeStore s) = (storeView s).free := rfl

theorem fewer_free (v : StoreView) : Fewer v v.free :=
  fewer_of_slots rfl rfl rfl (fun _ ⟨active, _, fill, request⟩ => ⟨active, rfl, fill, request⟩) (fun _ => id) nofun

/-- The store free and an entry put in a place of the cache. -/
def StoreView.fill (v : StoreView) (place : Fin 8) (e : CacheEntry) : StoreView :=
  { v.free with entries := v.entries.set place (some e) }

/-- A fill that ends well: its entry takes the victim's place, its slot having missed (R75). -/
theorem cacheHolds_filled {v : StoreView} {e : CacheEntry} (h : CacheHolds v) (held : v.holder = some (.fill e.slot))
    (generation : e.generation = (v.slots e.slot).2) (place : Fin 8) :
    CacheHolds (v.fill place e) := by
  obtain ⟨nonzero, misses⟩ := h.fills e.slot (.inr held)
  obtain ⟨waiting, usable⟩ := h.reads e.slot held
  have at_ {i : Fin 8} {f : CacheEntry} (hf : (v.fill place e).entries[i] = some f) :
      i = place ∧ f = e ∨ i ≠ place ∧ v.entries[i] = some f := by
    simp only [StoreView.fill, Fin.getElem_fin, Vector.getElem_set] at hf
    split at hf
    · exact .inl ⟨Fin.ext (by omega), (Option.some.inj hf).symm⟩
    · exact .inr ⟨fun hi => ‹¬ _› (congrArg Fin.val hi.symm), hf⟩
  refine ⟨fun i f hf => ?_, fun i j f g hf hg hs => ?_, fun i f hf => ?_, fun slot hs => ?_, nofun, fun hp => ?_⟩
  · rcases at_ hf with ⟨-, rfl⟩ | ⟨-, was⟩
    · exact ⟨usable, generation.symm⟩
    · exact h.entry i f was
  · rcases at_ hf with ⟨hi, rfl⟩ | ⟨-, old⟩ <;> rcases at_ hg with ⟨hj, rfl⟩ | ⟨-, other⟩
    · exact hi.trans hj.symm
    · exact absurd hs.symm (misses j g other)
    · exact absurd hs (misses i f old)
    · exact h.distinct i j f g old other hs
  · rcases at_ hf with ⟨-, rfl⟩ | ⟨-, was⟩
    · exact nonzero
    · exact h.cached i f was
  · rcases hs with hs | hs
    · exact absurd (waiting.symm.trans hs) nofun
    · cases hs
  · rw [(h.quiet hp).2.1] at held
    cases held

/-- The waiting fill reads (R74). -/
theorem cacheHolds_granted {v : StoreView} {slot : SlotId} (h : CacheHolds v) (waits : v.fillWaiting = some slot)
    (usable : v.Usable slot) : CacheHolds { v with holder := some (.fill slot), fillWaiting := none } where
  entry := h.entry
  distinct := h.distinct
  cached := h.cached
  fills i hi := by
    rcases hi with hi | hi
    · cases hi
    · cases hi
      exact h.fills slot (.inl waits)
  reads i hi := by
    cases hi
    exact ⟨rfl, usable⟩
  quiet hp := absurd ((h.quiet hp).2.2.1.symm.trans waits) nofun

/-- A fill of a slot that misses begins or waits. -/
theorem cacheHolds_fill {s : State} {slot : SlotId} (h : CacheHolds (storeView s)) (slots : NoneOfSlotZero s.queue)
    (wanted : FillWanted s slot) :
    CacheHolds { storeView s with holder := some (.fill slot) } ∧
      CacheHolds { storeView s with fillWaiting := some slot } := by
  obtain ⟨r, hr, named⟩ := wanted.named
  obtain ⟨a, normal, rfl⟩ := Option.map_eq_some_iff.mp named
  have nonzero := slots r hr a normal
  have running (hp : (storeView s).phase ≠ .running) : False := by
    have active := (h.quiet hp).1
    exact absurd (wanted.active.symm.trans active) nofun
  constructor
  · refine { h with fills := fun i hi => ?_, reads := fun i hi => ?_, quiet := fun hp => (running hp).elim }
    · rcases hi with hi | hi
      · exact absurd (wanted.waiting.symm.trans hi) nofun
      · cases hi
        exact ⟨nonzero, wanted.misses⟩
    · cases hi
      exact ⟨wanted.waiting, wanted.usable⟩
  · refine { h with
      fills := fun i hi => ?_
      reads := fun i hi => absurd hi (wanted.reading i)
      quiet := fun hp => (running hp).elim }
    rcases hi with hi | hi
    · cases hi
      exact ⟨nonzero, wanted.misses⟩
    · exact absurd hi (wanted.reading i)

theorem cacheHolds_reevaluate {s : State} (h : CacheHolds (storeView s)) (slots : NoneOfSlotZero s.queue) :
    CacheHolds (storeView (reevaluate s)) := by
  rcases storeView_reevaluate s with same | ⟨slot, wanted, ⟨-, reads⟩ | ⟨-, waits⟩⟩
  · rwa [same]
  · rw [reads]
    exact (cacheHolds_fill h slots wanted).1
  · rw [waits]
    exact (cacheHolds_fill h slots wanted).2

/-- The start-up scan's end, and a device reset, find and leave the cache empty. -/
theorem cacheHolds_scanEnds {s t : State} (h : CacheHolds (storeView s)) (notRunning : s.running = false)
    (ends : ScanEnds s t) : CacheHolds (storeView t) := by
  obtain ⟨-, holder, fill, -, entries⟩ := h.quiet (not_running_iff.mp notRunning)
  refine cacheHolds_of_empty (fun i => ?_) (ends.holder.trans holder) (ends.fillWaiting.trans fill) fun hp => ?_
  · rw [show (storeView t).entries = (storeView s).entries from ends.entries, entries i]
  · exact absurd (running_iff.mp ends.running) hp

theorem cacheHolds_change {x y : Moment} (h : Change x y) (hx : CacheHolds (storeView x.st))
    (slots : NoneOfSlotZero x.st.queue) : CacheHolds (storeView y.st) := by
  cases h with
  | tame h => exact h.view ▸ hx
  | schedule g s => exact cacheHolds_reevaluate hx slots
  | accept =>
    rw [storeView_port]
    exact hx.fewer (fewer_of_slots rfl rfl rfl (fun _ => id) (fun _ => id) fun _ => id)
  | answer p s code reply =>
    rw [State.answer, storeView_port]
    exact hx.fewer (fewer_of_slots rfl rfl rfl (fun _ => id) (fun _ => id) fun _ => id)
  | ask running =>
    exact hx.fewer (fewer_of_slots rfl rfl rfl (fun hp => absurd (running_iff.mp running) hp) (fun _ => id) fun _ => id)
  | announce => exact hx
  | forget g s =>
    exact hx.fewer ⟨rfl, fun _ q => q, fun i e he => absurd he (by simp [storeView, Cache.clear]), fun _ h => h,
      fun _ h => ⟨h, id⟩⟩
  | finish => exact hx.fewer (fewer_free _)
  | filled held named generation =>
    subst named
    exact cacheHolds_filled hx held generation _
  | @damaged s op slot held read =>
    have misses : (storeView s).Misses slot := by
      rcases read with rfl | ⟨rfl, -⟩
      · exact (hx.fills slot (.inr held)).2
      · exact hx.cached
    rw [storeView_updateDir_set, storeView_freeStore]
    exact (hx.fewer (fewer_free _)).fewer (fewer_setSlot nofun misses)
  | lockDamaged =>
    rw [storeView_invalidate, storeView_updateDir_set, storeView_freeStore]
    exact (hx.fewer (fewer_free _)).fewer (fewer_invalidate nofun)
  | committed =>
    rw [storeView_invalidate, storeView_updateDir_set, storeView_freeStore]
    exact (hx.fewer (fewer_free _)).fewer (fewer_invalidate nofun)
  | locked =>
    rw [storeView_updateDir_set, storeView_freeStore]
    refine (hx.fewer (fewer_free _)).fewer (fewer_locked nofun)
  | load m held =>
    refine hx.fewer (fewer_of_slots rfl rfl rfl (fun _ q => ?_) (fun _ => id) fun _ => id)
    exact absurd (q.2.1.symm.trans held) nofun
  | grantFill free waits usable =>
    exact cacheHolds_granted hx waits (slotUsable_iff.mp usable)
  | dropFill free =>
    exact hx.fewer (fewer_of_slots rfl rfl rfl
      (fun _ ⟨active, holder, _, request⟩ => ⟨active, holder, rfl, request⟩) nofun fun _ => id)
  | @start s r op free waits starts =>
    refine hx.fewer (fewer_of_slots rfl rfl rfl (fun _ q => ?_) (fun _ => id) fun slot h => ?_)
    · exact absurd (q.2.2.2.symm.trans waits) nofun
    · have port := starts.1
      rw [Option.some.inj h] at port
      cases port
  | refuse free waits =>
    exact hx.fewer (fewer_of_slots rfl rfl rfl
      (fun _ ⟨active, holder, fill, _⟩ => ⟨active, holder, fill, rfl⟩) (fun _ => id) fun _ => id)
  | @erase s p slot free waits unfetched =>
    rw [slotErased, storeView_updateDir_set, storeView_invalidate, storeView_mapPanels]
    exact hx.fewer (fewer_invalidate fun i h => absurd (free.symm.trans h) nofun)
  | clear free waits =>
    exact hx.fewer ⟨rfl, fun _ q => q, fun i e he => absurd he (by simp [storeView, storeErased, Cache.clear]), fun _ h => h,
      fun _ h => absurd (free.symm.trans h) nofun⟩
  | reset cause s => exact cacheHolds_of_empty (beginReset_entry cause s) rfl rfl fun _ => ⟨rfl, rfl, rfl, rfl⟩
  | @roles s rolea roleb maint held =>
    obtain ⟨active, holder, fill, request, entries⟩ := hx.quiet (phase_of_not_live held)
    exact cacheHolds_of_empty entries holder fill fun _ => ⟨active, holder, fill, request⟩
  | scan notRunning ends => exact cacheHolds_scanEnds hx notRunning ends

end Sys2Proof.Proofs
end

