-- ==== Sys2Proof/Proofs/CorrectionStages.lean ====
section
/-!
O52, O55: the stages of a correction by their values, clamps and flags, and what every correction keeps to.
-/
namespace Sys2Proof.Proofs

open Sys2Proof.Machine Sys2Proof.Safety

/-! ## Clamps and roundings (3.2) -/

theorem clampNat_eq {lo hi : Nat} (h : lo ≤ hi) (x : Nat) : clampNat lo hi x = max lo (min hi x) := by
  unfold clampNat
  split
  · omega
  · split <;> omega

theorem clampInt_eq {lo hi : Int} (h : lo ≤ hi) (x : Int) : clampInt lo hi x = max lo (min hi x) := by
  unfold clampInt
  split
  · omega
  · split <;> omega

/-- A clamp to bounds at or above 0 that gives a natural number. -/
theorem toNat_clampInt {lo hi : Int} (h0 : 0 ≤ lo) (h : lo ≤ hi) (x : Int) :
    ((clampInt lo hi x).toNat : Int) = max lo (min hi x) := by
  rw [clampInt_eq h]
  omega

/-- The rounded value is the only one that rounds as 3.2 says. -/
theorem roundNat_of_isRounded {n d q : Nat} (hd : 0 < d) (h : IsRounded n d q) : roundNat n d = q :=
  isRounded_unique (isRounded_roundNat n hd) h

theorem roundInt_of_nonneg {n : Int} {m d q : Nat} (hd : 0 < d) (hn : n = m) (h : IsRounded m d q) : roundInt n d = q := by
  rw [roundInt, hn, if_pos (Int.natCast_nonneg m), Int.toNat_natCast, roundNat_of_isRounded hd h]

theorem roundInt_of_nonpos {n : Int} {m d q : Nat} (hd : 0 < d) (hn : n = -(m : Int)) (h : IsRounded m d q) :
    roundInt n d = -(q : Int) := by
  subst hn
  unfold roundInt
  split
  · have zero : m = 0 := by omega
    subst zero
    have q0 : q = 0 := isRounded_unique h ⟨by omega, by omega⟩
    subst q0
    simpa using roundNat_of_isRounded hd h
  · rw [neg_neg, Int.toNat_natCast, roundNat_of_isRounded hd h]

/-! ## Flags of a result (R66) -/

theorem hasFlag_addFlagIf (c : Bool) (f g : Flag) (fs : FlagSet) :
    hasFlag (addFlagIf c f fs) g = (hasFlag fs g || (c && decide (f.index = g.index))) := by
  have small : g.index < 21 := by cases g <;> decide
  have bit : f.bit.getLsbD g.index = decide (f.index = g.index) := by
    rw [Flag.bit, BitVec.getLsbD_ofNat, Nat.testBit_two_pow, decide_eq_true small, Bool.true_and]
  cases c
  · simp only [addFlagIf, Bool.false_and, Bool.or_false, Bool.false_eq_true, if_false]
  · simp only [addFlagIf, if_true, addFlag, hasFlag, BitVec.getLsbD_or, bit, Bool.true_and]

/-- The flags of a result are those of its stages (R57 to R65). -/
theorem hasFlag_computeFlags (k : Snapshot) :
    hasFlag (computeFlags k) .unverified = (snapshotFresh k).isEmpty ∧
    hasFlag (computeFlags k) .doseClamped = snapshotDoseClamped k ∧
    hasFlag (computeFlags k) .inkLimited = snapshotInkLimited k ∧
    hasFlag (computeFlags k) .inkScaled = snapshotInkScaled k ∧
    hasFlag (computeFlags k) .scaleClamped = snapshotScaleClamped k := by
  have empty (f : Flag) : hasFlag 0#21 f = false := BitVec.getLsbD_zero
  simp [computeFlags, hasFlag_addFlagIf, empty, Flag.index]

/-! ## Stage A (R55) -/

theorem rawDwell_of_isRounded {m : MachineRecord} {v : Speed} {speed dwell : Nat} (hs : speed = predictedSpeed m v)
    (pos : 1 ≤ speed) (h : IsRounded (m.arcLen * 1000) speed dwell) : rawDwell m v = dwell := by
  subst hs
  exact roundNat_of_isRounded pos h

theorem stageDwell_eq (m : MachineRecord) (v : Speed) : stageDwell m v = max 1000 (min 600000 (rawDwell m v)) :=
  clampNat_eq (by decide) _

/-! ## Stage B (R56, R57) -/

theorem isRounded_meanOf {values : List Nat} (h : values ≠ []) : IsRounded values.sum values.length (meanOf values) :=
  isRounded_roundNat _ (List.length_pos_iff.mpr h)

/-- Whether a zone is covered, with the panel's place written out (R56). -/
theorem zoneCovered_eq {m : MachineRecord} {width used left : Nat} (hu : used = min width m.drumWidth)
    (hl : left = (m.drumWidth - used) / 2) (i : Nat) :
    zoneCovered m width i = decide (i * (m.drumWidth / m.zoneCount) < left + used ∧
      left < (i + 1) * (m.drumWidth / m.zoneCount)) := by
  subst hl hu
  rfl

/-- The fresh covered values of a snapshot, zone by zone (R56, R57). -/
theorem snapshotFresh_eq {k : Snapshot} {used left : Nat} (hu : used = min k.width k.machine.drumWidth)
    (hl : left = (k.machine.drumWidth - used) / 2) :
    snapshotFresh k = (List.range k.machine.zoneCount).filterMap fun i =>
      if i * (k.machine.drumWidth / k.machine.zoneCount) < left + used ∧
          left < (i + 1) * (k.machine.drumWidth / k.machine.zoneCount) then
        (k.zones[i]?).bind fun z => if z.2 then some z.1 else none
      else none := by
  rw [snapshotFresh, freshValues, coveredZones, List.filterMap_filter]
  refine List.filterMap_congr fun i _ => ?_
  simp only [zoneCovered_eq hu hl, decide_eq_true_iff]

theorem snapshotTemperature_eq (k : Snapshot) :
    (computeCorrection k).tPred = if snapshotFresh k = [] then k.machine.fallbackTemp else meanOf (snapshotFresh k) := by
  change snapshotTemperature k = _
  simp only [snapshotTemperature, List.isEmpty_iff]

/-! ## Stage C (R58) -/

theorem stageRate_of_lt {m : MachineRecord} {t : Nat} (h : t < m.t0) : stageRate m t = m.rates.getD 0 0 := if_pos h

theorem stageRate_of_top {m : MachineRecord} {t : Nat} (h : m.t0 + 15 * m.tempStep ≤ t) :
    stageRate m t = m.rates.getD 15 0 := by
  rw [stageRate, if_neg (by omega), if_pos (show tableTop m ≤ t from h)]
  rfl

/-- Between two entries of the table the rate is interpolated (R58). -/
theorem stageRate_of_between {m : MachineRecord} {t k rest lo hi part : Nat} (hk : k < 15)
    (ht : t = m.t0 + k * m.tempStep + rest) (hr : rest < m.tempStep) (hlo : m.rates[k]? = some lo)
    (hhi : m.rates[k + 1]? = some hi) (order : lo ≤ hi) (h : IsRounded ((hi - lo) * rest) m.tempStep part) :
    stageRate m t = lo + part := by
  have below : k * m.tempStep + m.tempStep ≤ 15 * m.tempStep := by
    calc k * m.tempStep + m.tempStep = (k + 1) * m.tempStep := by ring
      _ ≤ 15 * m.tempStep := Nat.mul_le_mul_right _ hk
  have past : t - m.t0 = k * m.tempStep + rest := by omega
  have entry : (t - m.t0) / m.tempStep = k := by
    rw [past, Nat.add_comm, Nat.add_mul_div_right _ _ (by omega), Nat.div_eq_of_lt hr, Nat.zero_add]
  have low : rateAt m k = lo := by simp [rateAt, List.getD_eq_getElem?_getD, hlo]
  have high : rateAt m (k + 1) = hi := by simp [rateAt, List.getD_eq_getElem?_getD, hhi]
  rw [stageRate, if_neg (by omega), if_neg (by rw [tableTop]; omega)]
  simp only [entry, low, high, Nat.sub_eq_of_eq_add (past.trans (Nat.add_comm _ _))]
  rw [roundInt_of_nonneg (by omega) (by push_cast [Nat.cast_sub order]; rfl) h]
  omega

/-! ## Stages D and E (R59, R60) -/

theorem stageRatio_eq (dose dRef : Nat) (trim : Int) :
    (stageRatio dose dRef trim : Int) = max 500 (min 1500 (rawRatio dose dRef trim)) :=
  toNat_clampInt (by decide) (by decide) _

theorem doseClamped_iff (k : Snapshot) :
    hasFlag (computeFlags k) .doseClamped = true ↔
      (rawDwell k.machine k.vCal < 1000 ∨ 600000 < rawDwell k.machine k.vCal) ∨
        (snapshotTemperature k < k.machine.t0 ∨ tableTop k.machine < snapshotTemperature k) ∨
        (rawRatio (snapshotDose k) k.profile.copies.dRef k.trim < 500 ∨
          1500 < rawRatio (snapshotDose k) k.profile.copies.dRef k.trim) := by
  have ratio := stageRatio_eq (snapshotDose k) k.profile.copies.dRef k.trim
  obtain ⟨-, flag, -⟩ := hasFlag_computeFlags k
  rw [flag, snapshotDoseClamped, snapshotRatio, ratio, stageDwell_eq]
  simp only [rateClamps, Bool.or_eq_true, decide_eq_true_iff, or_assoc]
  omega

/-! ## Stage F (R61 to R63) -/

theorem curveAt_of_between {curve : List Nat} {q i left right : Nat} (hi : i < 4) (low : 600 + 200 * i ≤ q)
    (high : q < 800 + 200 * i) (hleft : curve.getD i 0 = left) (hright : curve.getD (i + 1) 0 = right) :
    curveAt curve q = (left + roundInt (((right : Int) - left) * (q - (600 + 200 * i) : Nat)) 200).toNat := by
  unfold curveAt
  split
  · have start : i = 0 ∧ q = 600 := by omega
    obtain ⟨rfl, rfl⟩ := start
    simp only [Nat.mul_zero, Nat.add_zero, Nat.sub_self, Nat.cast_zero, Int.mul_zero, hleft]
    rw [show roundInt 0 200 = 0 by decide]
    omega
  · have entry : (q - 600) / 200 = i := by omega
    rw [if_neg (by omega)]
    simp only [entry, hleft, hright]

/-- A segment that rises, and one that falls (R61). -/
theorem curveAt_segment {curve : List Nat} {q i left right part : Nat} (hi : i < 4) (low : 600 + 200 * i ≤ q)
    (high : q < 800 + 200 * i) (hleft : curve.getD i 0 = left) (hright : curve.getD (i + 1) 0 = right) :
    (left ≤ right → IsRounded ((right - left) * (q - (600 + 200 * i))) 200 part → curveAt curve q = left + part) ∧
      (right ≤ left → IsRounded ((left - right) * (q - (600 + 200 * i))) 200 part → curveAt curve q + part = left) := by
  rw [curveAt_of_between hi low high hleft hright]
  constructor
  · intro rises h
    rw [roundInt_of_nonneg (by decide) (by push_cast [Nat.cast_sub rises]; rfl) h]
    omega
  · intro falls h
    have bounded : part ≤ left := by
      have run : (left - right) * (q - (600 + 200 * i)) ≤ left * 200 := Nat.mul_le_mul (by omega) (by omega)
      have := h.1
      omega
    rw [roundInt_of_nonpos (by decide) (by push_cast [Nat.cast_sub falls]; ring) h]
    omega

theorem curveAt_spec (q y0 y1 y2 y3 y4 : Nat) :
    (q ≤ 600 → curveAt [y0, y1, y2, y3, y4] q = y0) ∧ (1400 ≤ q → curveAt [y0, y1, y2, y3, y4] q = y4) ∧
    (∀ x left right part, (x, left, right) ∈ [(600, y0, y1), (800, y1, y2), (1000, y2, y3), (1200, y3, y4)] →
      x ≤ q → q < x + 200 →
      (left ≤ right → IsRounded ((right - left) * (q - x)) 200 part → curveAt [y0, y1, y2, y3, y4] q = left + part) ∧
      (right ≤ left → IsRounded ((left - right) * (q - x)) 200 part → curveAt [y0, y1, y2, y3, y4] q + part = left)) := by
  refine ⟨fun h => if_pos h, fun h => ?_, fun x left right part segment low high => ?_⟩
  · rw [curveAt, if_neg (by omega), if_pos h]
    rfl
  · simp only [List.mem_cons, Prod.mk.injEq, List.not_mem_nil, or_false] at segment
    rcases segment with ⟨rfl, rfl, rfl⟩ | ⟨rfl, rfl, rfl⟩ | ⟨rfl, rfl, rfl⟩ | ⟨rfl, rfl, rfl⟩
    · exact curveAt_segment (i := 0) (by decide) low high rfl rfl
    · exact curveAt_segment (i := 1) (by decide) low high rfl rfl
    · exact curveAt_segment (i := 2) (by decide) low high rfl rfl
    · exact curveAt_segment (i := 3) (by decide) low high rfl rfl

/-- A gain before its channel limit is its rounded product (R62). -/
theorem rawGain_of_isRounded {c : Channel} {q g : Nat} (h : IsRounded (curveAt c.curve q * c.base) 4096 g) :
    rawGain c q = g := roundNat_of_isRounded (by decide) h

/-- Scaling by a floor keeps a weighted sum within the limit it scales to (R63). -/
theorem weightedSum_scaled (coverage gains : List Nat) {limit sum : Nat} :
    weightedSum coverage (gains.map fun g => g * limit * 4096 / sum) * sum ≤ limit * 4096 * weightedSum coverage gains := by
  unfold weightedSum
  induction coverage generalizing gains with
  | nil => simp
  | cons c cs ih =>
    cases gains with
    | nil => simp
    | cons g gs =>
      have one : g * limit * 4096 / sum * sum ≤ g * limit * 4096 := Nat.div_mul_le_self _ _
      simp only [List.map_cons, List.zipWith_cons_cons, List.sum_cons]
      calc (c * (g * limit * 4096 / sum) + (List.zipWith (· * ·) cs (gs.map fun g => g * limit * 4096 / sum)).sum) * sum
          = c * (g * limit * 4096 / sum * sum) +
              (List.zipWith (· * ·) cs (gs.map fun g => g * limit * 4096 / sum)).sum * sum := by ring
        _ ≤ c * (g * limit * 4096) + limit * 4096 * (List.zipWith (· * ·) cs gs).sum :=
            Nat.add_le_add (Nat.mul_le_mul_left c one) (ih gs)
        _ = limit * 4096 * (c * g + (List.zipWith (· * ·) cs gs).sum) := by ring

theorem weightedSum_inkScaled (coverage gains : List Nat) (limit : Nat) :
    weightedSum coverage (inkScaled coverage gains limit) ≤ limit * 4096 := by
  unfold inkScaled
  split
  · rename_i beyond
    refine Nat.le_of_mul_le_mul_right (weightedSum_scaled coverage gains) ?_
    omega
  · omega

/-- Scaling only lowers a gain (R63). -/
theorem inkScaled_le {coverage gains : List Nat} {limit i g : Nat} (h : (inkScaled coverage gains limit)[i]? = some g) :
    ∃ g1, gains[i]? = some g1 ∧ g ≤ g1 := by
  unfold inkScaled at h
  split at h
  · rename_i beyond
    rw [List.getElem?_map, Option.map_eq_some_iff] at h
    obtain ⟨g1, hg, rfl⟩ := h
    refine ⟨g1, hg, Nat.div_le_of_le_mul ?_⟩
    calc g1 * limit * 4096 = limit * 4096 * g1 := by ring
      _ ≤ weightedSum coverage gains * g1 := Nat.mul_le_mul_right _ beyond.le
  · exact ⟨g, h, le_rfl⟩

theorem length_inkScaled (coverage gains : List Nat) (limit : Nat) : (inkScaled coverage gains limit).length = gains.length := by
  unfold inkScaled
  split
  · exact List.length_map _
  · rfl

/-! ## Stage G (R64, R65) -/

theorem stageTension_eq (base : Nat) (bias : Int) :
    (stageTension base bias : Int) = max 0 (min 2000 ((base : Int) + bias)) := toNat_clampInt le_rfl (by decide) _

theorem clampScale_eq (x : Int) : (clampScale x : Int) = max 950000 (min 1050000 x) := toNat_clampInt (by decide) (by decide) x

theorem rawAlong_eq (k t : Nat) : rawAlong k t = 1000000 + (k : Int) * t := by rw [rawAlong, Nat.cast_mul]

theorem rawCross_eq (n t : Nat) : rawCross n t = 1000000 - (n : Int) * t := by rw [rawCross, Nat.cast_mul]

theorem scaleClamped_iff (k : Snapshot) :
    hasFlag (computeFlags k) .scaleClamped = true ↔
      1050000 < rawAlong k.profile.stretch (snapshotTension k) ∨ rawCross k.profile.neck (snapshotTension k) < 950000 := by
  obtain ⟨-, -, -, -, flag⟩ := hasFlag_computeFlags k
  rw [flag, snapshotScaleClamped, clampScale_eq, clampScale_eq, Bool.or_eq_true,
    decide_eq_true_iff, decide_eq_true_iff]
  simp only [rawAlong, rawCross]
  omega

/-- Settles O52: both scales are clamped sums, and the flag is present exactly where a clamp changed one. -/
theorem stageGGivesTheScales : Obligations.StageGGivesTheScales := by
  rintro s k n tt rfl rfl rfl
  have tension : snapshotTension s = (computeCorrection s).targetTension := rfl
  have along : ((computeCorrection s).along : Int) =
      max 950000 (min 1050000 (1000000 + (s.profile.stretch : Int) * (computeCorrection s).targetTension)) := by
    rw [← rawAlong_eq, ← tension, ← clampScale_eq, computeCorrection]
  have cross : ((computeCorrection s).cross : Int) =
      max 950000 (min 1050000 (1000000 - (s.profile.neck : Int) * (computeCorrection s).targetTension)) := by
    rw [← rawCross_eq, ← tension, ← clampScale_eq, computeCorrection]
  have flag : hasFlag (computeFlags s) .scaleClamped = true ↔
      1050000 < 1000000 + s.profile.stretch * (computeCorrection s).targetTension ∨
        1000000 - (s.profile.neck : Int) * (computeCorrection s).targetTension < 950000 := by
    rw [scaleClamped_iff, tension, rawAlong_eq, rawCross_eq]
    refine or_congr ?_ Iff.rfl
    exact_mod_cast Iff.rfl
  refine ⟨along, cross, flag, fun hk hn ht => ?_, fun hk ht => ?_⟩
  · rw [hk, ht] at along
    rw [hn, ht] at cross
    rw [hk, hn, ht] at flag
    refine ⟨by omega, by omega, Bool.eq_false_iff.mpr fun h => ?_⟩
    have := flag.mp h
    omega
  · rw [hk, ht] at along flag
    exact ⟨by omega, flag.mpr (.inl (by decide))⟩

/-! ## The whole computation (R67) -/

/-- Every correction keeps to R67's bounds. -/
theorem correctionAsComputed_computeCorrection (k : Snapshot) : CorrectionAsComputed (computeCorrection k) := by
  have along := clampScale_eq (rawAlong k.profile.stretch (snapshotTension k))
  have cross := clampScale_eq (rawCross k.profile.neck (snapshotTension k))
  refine ⟨k, rfl, ?_, fun i g ch hg hch => ?_, weightedSum_inkScaled _ _ _, ?_, ?_, ?_, ?_⟩
  · exact (length_inkScaled _ _ _).trans (List.length_map _)
  · obtain ⟨g1, h1, le⟩ := inkScaled_le hg
    rw [snapshotG1, List.getElem?_map, hch, Option.map_some, Option.some.injEq] at h1
    exact le.trans (h1 ▸ Nat.min_le_right _ _)
  all_goals
    simp only [computeCorrection]
    omega

/-- Stages A to E of a snapshot: q_pred and DOSE_CLAMPED by the dwell, the dose and the ratio (R55, R58 to R60). -/
theorem doseRatio_of_isRounded {k : Snapshot} {speed dwell dose ratio : Nat} (hs : speed = predictedSpeed k.machine k.vCal)
    (pos : 1 ≤ speed) (hdwell : IsRounded (k.machine.arcLen * 1000) speed dwell)
    (hdose : IsRounded ((computeCorrection k).dwell * stageRate k.machine (computeCorrection k).tPred) 1000 dose)
    (ref : 1 ≤ k.profile.copies.dRef) (hratio : IsRounded (dose * 1000) k.profile.copies.dRef ratio) :
    ((computeCorrection k).qPred : Int) = max 500 (min 1500 ((ratio : Int) + k.trim)) ∧
    (hasFlag (computeFlags k) .doseClamped = true ↔
      (dwell < 1000 ∨ 600000 < dwell) ∨
        ((computeCorrection k).tPred < k.machine.t0 ∨
          k.machine.t0 + 15 * k.machine.tempStep < (computeCorrection k).tPred) ∨
        ((ratio : Int) + k.trim < 500 ∨ 1500 < (ratio : Int) + k.trim)) := by
  have doseIs : snapshotDose k = dose := roundNat_of_isRounded (by decide) hdose
  have raw : rawRatio (snapshotDose k) k.profile.copies.dRef k.trim = (ratio : Int) + k.trim := by
    rw [rawRatio, doseIs, roundNat_of_isRounded ref hratio]
  constructor
  · rw [← raw]
    exact stageRatio_eq _ _ _
  · rw [doseClamped_iff, raw, rawDwell_of_isRounded hs pos hdwell]
    rfl

/-- The gains before their limits, where each is rounded as R62 says. -/
theorem rawGains_of_isRounded {channels : List Channel} {q : Nat} {raw : List Nat} (length : raw.length = channels.length)
    (rounded : ∀ (i : Nat) (c : Channel) (g : Nat), channels[i]? = some c → raw[i]? = some g →
      IsRounded (curveAt c.curve q * c.base) 4096 g) :
    raw = channels.map fun c => rawGain c q := by
  refine List.ext_getElem (by rw [length, List.length_map]) fun i hi hc => ?_
  rw [List.length_map] at hc
  rw [List.getElem_map]
  exact (rawGain_of_isRounded (rounded i _ _ (List.getElem?_eq_getElem hc) (List.getElem?_eq_getElem hi))).symm

/-- Stage F of a snapshot: the gains, and the flags of both limits (R62, R63). -/
theorem gains_of_isRounded {k : Snapshot} {raw limited : List Nat} {sum : Nat} (length : raw.length = k.profile.channels.length)
    (rounded : ∀ (i : Nat) (c : Channel) (g : Nat), k.profile.channels[i]? = some c → raw[i]? = some g →
      IsRounded (curveAt c.curve (computeCorrection k).qPred * c.base) 4096 g)
    (hl : limited = List.zipWith (fun g c => min g c.limit) raw k.profile.channels)
    (hs : sum = (List.zipWith (· * ·) k.coverage limited).sum) :
    (hasFlag (computeFlags k) .inkLimited = true ↔
      ∃ (i : Nat) (c : Channel) (g : Nat), k.profile.channels[i]? = some c ∧ raw[i]? = some g ∧ c.limit < g) ∧
    (hasFlag (computeFlags k) .inkScaled = true ↔ k.profile.inkLimit * 4096 < sum) ∧
    (sum ≤ k.profile.inkLimit * 4096 → (computeCorrection k).gains = limited) ∧
    (k.profile.inkLimit * 4096 < sum →
      (computeCorrection k).gains = limited.map fun g => g * k.profile.inkLimit * 4096 / sum) := by
  obtain ⟨-, -, inkLimited, inkScaledFlag, -⟩ := hasFlag_computeFlags k
  have rawIs := rawGains_of_isRounded length rounded
  have limitedIs : limited = snapshotG1 k := by
    rw [hl, rawIs, List.zipWith_map_left, List.zipWith_self]
    rfl
  have sumIs : sum = weightedSum k.coverage (snapshotG1 k) := by rw [hs, limitedIs, weightedSum]
  have gains : (computeCorrection k).gains = inkScaled k.coverage (snapshotG1 k) k.profile.inkLimit := rfl
  refine ⟨?_, ?_, fun within => ?_, fun beyond => ?_⟩
  · rw [inkLimited, snapshotInkLimited, List.any_eq_true]
    constructor
    · rintro ⟨c, hc, exceeds⟩
      obtain ⟨i, hi⟩ := List.mem_iff_getElem?.mp hc
      refine ⟨i, c, _, hi, ?_, of_decide_eq_true exceeds⟩
      rw [rawIs, List.getElem?_map, hi]
      rfl
    · rintro ⟨i, c, g, hc, hg, exceeds⟩
      refine ⟨c, List.mem_of_getElem? hc, decide_eq_true ?_⟩
      rw [rawIs, List.getElem?_map, hc] at hg
      cases hg
      exact exceeds
  · rw [inkScaledFlag, snapshotInkScaled, decide_eq_true_iff, sumIs]
  · rw [gains, inkScaled, if_neg (by omega), limitedIs]
  · rw [gains, inkScaled, if_pos (by omega), limitedIs, sumIs]

/-! ## The values and the limit of a dose tick (R104, R108) -/

/-- The fresh ones of listed zones, and all of them, by the zones themselves. -/
theorem freshValues_eq (zones : List (Nat × Bool)) (picked : List Nat) :
    freshValues zones picked = ((picked.filterMap fun i => zones[i]?).filter (·.2)).map (·.1) := by
  rw [freshValues, List.filter_filterMap, List.map_filterMap]
  refine List.filterMap_congr fun i _ => ?_
  rcases zones[i]? with _ | ⟨value, _ | _⟩ <;> rfl

theorem anyValues_eq (zones : List (Nat × Bool)) (picked : List Nat) :
    anyValues zones picked = (picked.filterMap fun i => zones[i]?).map (·.1) := by
  rw [anyValues, List.map_filterMap]

/-- The zones of a record: those Stage B covers, every zone for an ANONYMOUS record (R104). -/
theorem panelZones_eq {m : MachineRecord} {r : Panel} {lies : Nat → Bool}
    (h : ∀ i, lies i = true ↔ ∀ a used left, r.normal = some a → used = min a.width m.drumWidth →
      left = (m.drumWidth - used) / 2 →
      i * (m.drumWidth / m.zoneCount) < left + used ∧ left < (i + 1) * (m.drumWidth / m.zoneCount)) :
    panelZones m r = (List.range m.zoneCount).filter lies := by
  unfold panelZones
  split
  · rename_i a normal
    refine List.filter_congr fun i _ => Bool.eq_iff_iff.mpr ?_
    rw [h i, zoneCovered_eq rfl rfl, decide_eq_true_iff]
    constructor
    · rintro covered b used left hb rfl rfl
      cases normal.symm.trans hb
      exact covered
    · exact fun all => all a _ _ normal rfl rfl
  · rename_i normal
    refine (List.filter_eq_self.mpr fun i _ => (h i).mpr fun a _ _ ha => ?_).symm
    rw [normal] at ha
    cases ha

theorem valuesUsed_eq {m : MachineRecord} {zones : List (Nat × Bool)} {r : Panel} {lies : Nat → Bool}
    {across : List (Nat × Bool)} (hz : panelZones m r = (List.range m.zoneCount).filter lies)
    (ha : across = ((List.range m.zoneCount).filter lies).filterMap (fun i => zones[i]?)) :
    valuesUsed m zones r =
      if ∃ z ∈ across, z.2 = true then (across.filter (·.2)).map (·.1) else across.map (·.1) := by
  have stale : (freshValues zones (panelZones m r)).isEmpty = true ↔ ¬ ∃ z ∈ across, z.2 = true := by
    rw [freshValues_eq, hz, ← ha, List.isEmpty_iff, List.map_eq_nil_iff, List.filter_eq_nil_iff]
    push Not
    rfl
  by_cases fresh : ∃ z ∈ across, z.2 = true
  · rw [valuesUsed, if_neg fun empty => stale.mp empty fresh, if_pos fresh, freshValues_eq, hz, ← ha]
  · rw [valuesUsed, if_pos (stale.mpr fresh), if_neg fresh, anyValues_eq, hz, ← ha]

theorem isRounded_scorchDose (m : MachineRecord) (r : Panel) :
    IsRounded (((r.correction.map (·.copies.dRef)).getD m.fallbackDRef) * m.scorchLimit) 1000 (scorchDose m r) := by
  have ref : panelDRef m r = (r.correction.map (·.copies.dRef)).getD m.fallbackDRef := by
    unfold panelDRef
    split <;> simp [*]
  rw [← ref]
  exact isRounded_roundNat _ (by decide)

/-- Settles O55: each stage by the value its rounding has, with the clamps and flags it adds. -/
theorem stagesAToFGiveTheCorrection : Obligations.StagesAToFGiveTheCorrection := by
  refine ⟨fun m v speed dwell hs pos h => ?_, fun values h => isRounded_meanOf h, fun m t => ⟨stageRate_of_lt, stageRate_of_top,
      fun k rest lo hi part hk ht hr hlo hhi order h => stageRate_of_between hk ht hr hlo hhi order h⟩, curveAt_spec,
    fun k used left fresh hu hl hf => ?_,
    fun k speed dwell dose ratio hs pos hdwell hdose ref hratio => doseRatio_of_isRounded hs pos hdwell hdose ref hratio,
    fun k raw limited sum length rounded hl hs => gains_of_isRounded length rounded hl hs,
    fun k => ⟨stageTension_eq _ _, rfl, rfl, correctionAsComputed_computeCorrection k, weightedSum_inkScaled _ _ _⟩,
    fun m zones r lies across hlies hacross => ⟨valuesUsed_eq (panelZones_eq hlies) hacross, isRounded_scorchDose m r⟩⟩
  · rw [stageDwell_eq, rawDwell_of_isRounded hs pos h]
  · have freshIs : fresh = snapshotFresh k := by
      rw [hf, snapshotFresh_eq hu hl]
      refine List.filterMap_congr fun i _ => if_congr Iff.rfl ?_ rfl
      rcases k.zones[i]? with _ | ⟨value, _ | _⟩ <;> rfl
    subst freshIs
    refine ⟨rfl, fun some => ?_, fun none => ?_, ?_⟩
    · rw [snapshotTemperature_eq, if_neg some]
    · rw [snapshotTemperature_eq, if_pos none]
    · rw [(hasFlag_computeFlags k).1, List.isEmpty_iff]

end Sys2Proof.Proofs
end

