-- ==== Sys2Proof/Proofs/ReadySlots.lean ====
section
/-!
O59, second part: the store's clients are requests of the one PRODUCTION port, so while a READY record names a slot nothing
takes the slot from it.
-/
namespace Sys2Proof.Proofs

open Sys2Proof.Machine Sys2Proof.Safety

/-! ## The clients of the store (R142, R143, R150, R184) -/

/-- One port at most is PRODUCTION; what holds the store or waits for it was asked by that port, which executes, and while one
request waits nothing but a fill holds the store; a commit is of a WRITING slot; and a port being served has nothing at the
store (R142, R143, R150, R184). -/
structure ClientsHold (serving : Option PortId) (v : StoreView) : Prop where
  production : ∀ p q, (v.ports p).1 = .production → (v.ports q).1 = .production → p = q
  holds : ∀ op p, v.holder = some op → holderPort op = some p → v.ports p = (.production, true)
  waits : ∀ r, v.requestWaiting = some r →
    v.ports (waitingPort r) = (.production, true) ∧ ∀ op, v.holder = some op → holderPort op = none
  commits : ∀ p i rows, v.holder = some (.commit p i rows) → (v.slots i).1 = .writing
  asks : ∀ p i, v.requestWaiting = some (.commit p i) → (v.slots i).1 = .writing
  serving : ∀ p, serving = some p → (v.ports p).2 = true ∧ (∀ op, v.holder = some op → holderPort op ≠ some p) ∧
    ∀ r, v.requestWaiting = some r → waitingPort r ≠ p

/-- Nothing at the store. -/
theorem clientsHold_of_idle {v : StoreView}
    (production : ∀ p q, (v.ports p).1 = .production → (v.ports q).1 = .production → p = q) (holder : v.holder = none)
    (request : v.requestWaiting = none) : ClientsHold none v := by
  have noOp {op : StoreOp} : v.holder ≠ some op := by rw [holder]; exact nofun
  have noRequest {r : StoreRequest} : v.requestWaiting ≠ some r := by rw [request]; exact nofun
  exact ⟨production, fun _ _ h => absurd h noOp, fun _ h => absurd h noRequest, fun _ _ _ h => absurd h noOp,
    fun _ _ h => absurd h noRequest, nofun⟩

/-- The clients stay, but that a fill may take the store, and no slot being committed loses its state. -/
theorem ClientsHold.of_same {g : Option PortId} {v w : StoreView} (h : ClientsHold g v) (ports : w.ports = v.ports)
    (holder : ∀ op, w.holder = some op → v.holder = some op ∨ holderPort op = none)
    (request : w.requestWaiting = v.requestWaiting)
    (slots : ∀ i, (v.slots i).1 = .writing → (∃ p rows, v.holder = some (.commit p i rows)) ∨
      (∃ p, v.requestWaiting = some (.commit p i)) → (w.slots i).1 = .writing) : ClientsHold g w where
  production := by rw [ports]; exact h.production
  holds op p ho hp := by
    rw [ports]
    rcases holder op ho with was | fill
    · exact h.holds op p was hp
    · exact absurd (fill.symm.trans hp) nofun
  waits r hr := by
    rw [request] at hr
    rw [ports]
    exact ⟨(h.waits r hr).1, fun op ho => (holder op ho).elim ((h.waits r hr).2 op) id⟩
  commits p i rows ho := by
    rcases holder _ ho with was | fill
    · exact slots i (h.commits p i rows was) (.inl ⟨p, rows, was⟩)
    · cases fill
  asks p i hr := by
    rw [request] at hr
    exact slots i (h.asks p i hr) (.inr ⟨p, hr⟩)
  serving p hp := by
    obtain ⟨executing, held, waiting⟩ := h.serving p hp
    rw [ports, request]
    refine ⟨executing, fun op ho => ?_, waiting⟩
    rcases holder op ho with was | fill
    · exact held op was
    · rw [fill]
      exact nofun

/-- An operation ends: its port, which nothing else at the store is of, is being served. -/
theorem ClientsHold.released {v w : StoreView} {op : StoreOp} (h : ClientsHold none v) (held : v.holder = some op)
    (ports : w.ports = v.ports) (holder : w.holder = none) (request : w.requestWaiting = v.requestWaiting)
    (slots : ∀ i, holderPort op = none → (v.slots i).1 = .writing → (w.slots i).1 = .writing) :
    ClientsHold (holderPort op) w := by
  have noOp {op : StoreOp} : w.holder ≠ some op := by rw [holder]; exact nofun
  refine ⟨by rw [ports]; exact h.production, fun _ _ ho => absurd ho noOp, fun r hr => ?_, fun _ _ _ ho => absurd ho noOp,
    fun p i hr => ?_, fun p hp => ⟨?_, fun _ ho => absurd ho noOp, fun r hr => ?_⟩⟩
  · rw [request] at hr
    rw [ports]
    exact ⟨(h.waits r hr).1, fun _ ho => absurd ho noOp⟩
  · rw [request] at hr
    exact slots i ((h.waits _ hr).2 op held) (h.asks p i hr)
  · rw [ports, h.holds op p held hp]
  · rw [request] at hr
    exact absurd (((h.waits r hr).2 op held).symm.trans hp) nofun

/-- A port of no client comes to execute, or ends executing, in its role. -/
theorem ClientsHold.of_port {g g' : Option PortId} {v w : StoreView} {p : PortId} (h : ClientsHold g v)
    (role : ∀ q, (w.ports q).1 = (v.ports q).1) (others : ∀ q, q ≠ p → w.ports q = v.ports q)
    (holder : w.holder = v.holder) (request : w.requestWaiting = v.requestWaiting) (slots : w.slots = v.slots)
    (noOp : ∀ op, v.holder = some op → holderPort op ≠ some p)
    (noRequest : ∀ r, v.requestWaiting = some r → waitingPort r ≠ p)
    (serving : ∀ q, g' = some q → q = p ∧ (w.ports p).2 = true) : ClientsHold g' w := by
  refine ⟨fun q q' => by rw [role, role]; exact h.production q q', ?_, ?_, ?_, ?_, fun q hq => ?_⟩
  · rw [holder]
    intro op q ho hq
    rw [others q fun same => noOp op ho (same ▸ hq)]
    exact h.holds op q ho hq
  · rw [holder, request]
    intro r hr
    rw [others _ (noRequest r hr)]
    exact h.waits r hr
  · rw [holder, slots]
    exact h.commits
  · rw [request, slots]
    exact h.asks
  · obtain ⟨rfl, executing⟩ := serving q hq
    rw [holder, request]
    exact ⟨executing, noOp, noRequest⟩

/-- A request handed over by the port that is being served. -/
theorem ClientsHold.asked {v w : StoreView} {r : StoreRequest} (h : ClientsHold (some (waitingPort r)) v)
    (role : (v.ports (waitingPort r)).1 = .production) (fits : ∀ p i, r = .commit p i → (v.slots i).1 = .writing)
    (form : w = { v with requestWaiting := some r }) : ClientsHold none w := by
  obtain ⟨executing, noOp, -⟩ := h.serving _ rfl
  subst form
  refine ⟨h.production, h.holds, fun r' hr => ?_, h.commits, fun p i hr => fits p i (Option.some.inj hr), nofun⟩
  cases hr
  refine ⟨Prod.ext role executing, fun op ho => Option.eq_none_iff_forall_ne_some.mpr fun q hq => ?_⟩
  have same := h.production q (waitingPort r) (by rw [h.holds op q ho hq]) role
  exact noOp op ho (same ▸ hq)

/-- The waiting request begins its operation on a free store. -/
theorem ClientsHold.started {v w : StoreView} {r : StoreRequest} {op : StoreOp} (h : ClientsHold none v)
    (waits : v.requestWaiting = some r) (starts : Starts r op)
    (form : w = { v with holder := some op, requestWaiting := none }) : ClientsHold none w := by
  obtain ⟨port, commit⟩ := starts
  subst form
  refine ⟨h.production, fun op' p ho hp => ?_, nofun, fun p i rows ho => ?_, nofun, nofun⟩
  · cases ho
    cases port.symm.trans hp
    exact (h.waits r waits).1
  · have asked := commit p i rows (Option.some.inj ho)
    exact h.asks p i (waits.trans (congrArg some asked))

/-- The waiting request is refused at its grant: its port is to be answered. -/
theorem ClientsHold.refused {v w : StoreView} {r : StoreRequest} (h : ClientsHold none v) (free : v.holder = none)
    (waits : v.requestWaiting = some r) (form : w = { v with requestWaiting := none }) :
    ClientsHold (some (waitingPort r)) w := by
  subst form
  refine ⟨h.production, h.holds, nofun, h.commits, nofun, fun p hp => ⟨?_, fun op ho => ?_, nofun⟩⟩
  · cases hp
    exact congrArg Prod.snd (h.waits r waits).1
  · exact absurd (free.symm.trans ho) nofun

/-- Equal straps leave no port PRODUCTION (R184). -/
theorem roleTaken_production {rolea roleb : BitVec 4} {p q : PortId} (hp : roleTaken rolea roleb p = .production)
    (hq : roleTaken rolea roleb q = .production) : p = q := by
  have strapped {i : PortId} (h : roleTaken rolea roleb i = .production) :
      strapOf rolea roleb i = .production ∧ strapCount rolea roleb .production = 1 := by
    unfold roleTaken at h
    split at h
    · rename_i one
      exact ⟨h, h ▸ one⟩
    · cases h
  have member {i : PortId} (h : roleTaken rolea roleb i = .production) :
      i ∈ (List.finRange 4).filter fun p => decide (strapOf rolea roleb p = .production) :=
    List.mem_filter.mpr ⟨List.mem_finRange i, decide_eq_true (strapped h).1⟩
  obtain ⟨one, only⟩ := List.length_eq_one_iff.mp (strapped hp).2
  have hp' := member hp
  have hq' := member hq
  rw [only, List.mem_singleton] at hp' hq'
  exact hp'.trans hq'.symm

theorem clientsHold_reevaluate {g : Option PortId} {s : State} (h : ClientsHold g (storeView s)) :
    ClientsHold g (storeView (reevaluate s)) := by
  rcases storeView_reevaluate s with same | ⟨slot, -, ⟨-, reads⟩ | ⟨-, waits⟩⟩
  · rwa [same]
  · rw [reads]
    refine h.of_same rfl (fun op ho => .inr ?_) rfl fun _ hw _ => hw
    cases ho
    rfl
  · rw [waits]
    exact h.of_same rfl (fun _ => .inl) rfl fun _ hw _ => hw

theorem clientsHold_change {x y : Moment} (h : Change x y) (hx : ClientsHold x.serving (storeView x.st))
    (cache : CacheHolds (storeView x.st)) : ClientsHold y.serving (storeView y.st) := by
  have still {s : State} {op : StoreOp} (free : s.store.holder = none) : s.store.holder ≠ some op := by
    rw [free]
    exact nofun
  cases h with
  | tame h => exact h.view ▸ hx
  | schedule g s => exact clientsHold_reevaluate hx
  | @accept p s free =>
    have idle : ((storeView s).ports p).2 = false := by
      simp only [portFree, Bool.and_eq_true, Bool.not_eq_true'] at free
      exact free.2
    have busy {q : PortId} (h : (storeView s).ports q = (.production, true)) : q ≠ p := fun same => by
      rw [same] at h
      rw [h] at idle
      cases idle
    refine hx.of_port (p := p) (fun q => ?_) (fun q hq => ?_) rfl rfl rfl (fun op ho hp => busy (hx.holds op p ho hp) rfl)
      (fun r hr => busy (hx.waits r hr).1) fun q hq => ⟨(Option.some.inj hq).symm, ?_⟩
    · rw [storeView_port]
      dsimp only
      split
      · rename_i same
        rw [same]
        rfl
      · rfl
    · rw [storeView_port]
      exact if_neg hq
    · rw [storeView_port]
      dsimp only
      rw [if_pos rfl]
      rfl
  | answer p s code reply =>
    obtain ⟨-, noOp, noRequest⟩ := hx.serving p rfl
    refine hx.of_port (p := p) (fun q => ?_) (fun q hq => ?_) rfl rfl rfl noOp noRequest nofun
    · rw [State.answer, storeView_port]
      dsimp only
      split
      · rename_i same
        rw [same, Port.place]
        split <;> rfl
      · rfl
    · rw [State.answer, storeView_port]
      exact if_neg hq
  | ask running role fits =>
    refine hx.asked role (fun p i hr => ?_) rfl
    subst hr
    exact fits
  | announce => exact hx
  | forget g s => exact hx.of_same rfl (fun _ => .inl) rfl fun _ hw _ => hw
  | finish held => exact hx.released held rfl rfl rfl fun _ _ hw => hw
  | filled held => exact hx.released held rfl rfl rfl fun _ _ hw => hw
  | @damaged s op slot held read =>
    rw [storeView_updateDir_set, storeView_freeStore]
    refine hx.released held rfl rfl rfl fun i fill writing => ?_
    have other : i ≠ slot := by
      rintro rfl
      rcases read with rfl | ⟨-, port⟩
      · rcases (cache.reads i held).2 with h | h <;> exact absurd (h.symm.trans writing) nofun
      · exact port fill
    rw [StoreView.setSlot]
    simp only [if_neg other]
    exact writing
  | lockDamaged held =>
    rw [storeView_invalidate, storeView_updateDir_set, storeView_freeStore]
    exact hx.released held rfl rfl rfl nofun
  | committed held =>
    rw [storeView_invalidate, storeView_updateDir_set, storeView_freeStore]
    exact hx.released held rfl rfl rfl nofun
  | locked held =>
    rw [storeView_updateDir_set, storeView_freeStore]
    exact hx.released held rfl rfl rfl nofun
  | load m held => exact hx.of_same rfl (fun _ => .inl) rfl fun _ hw _ => hw
  | grantFill free waits usable =>
    refine hx.of_same rfl (fun op ho => .inr ?_) rfl fun _ hw _ => hw
    cases ho
    rfl
  | dropFill free => exact hx.of_same rfl (fun _ => .inl) rfl fun _ hw _ => hw
  | start free waits starts => exact hx.started waits starts rfl
  | refuse free waits => exact hx.refused free waits rfl
  | erase free waits unfetched =>
    rw [slotErased, storeView_updateDir_set, storeView_invalidate, storeView_mapPanels]
    refine hx.of_same rfl (fun _ => .inl) rfl fun i _ committing => ?_
    rcases committing with ⟨p, rows, holds⟩ | ⟨p, asks⟩
    · exact absurd holds (still free)
    · cases waits.symm.trans asks
  | clear free waits =>
    refine hx.of_same rfl (fun _ => .inl) rfl fun i _ committing => ?_
    rcases committing with ⟨p, rows, holds⟩ | ⟨p, asks⟩
    · exact absurd holds (still free)
    · cases waits.symm.trans asks
  | reset cause s =>
    refine clientsHold_of_idle (fun p q hp => ?_) rfl rfl
    rw [show ((storeView (beginReset cause s)).ports p).1 = (beginReset cause s).ports[p].role from rfl, beginReset_port] at hp
    cases hp
  | @roles s rolea roleb maint held =>
    obtain ⟨-, holder, -, request, -⟩ := cache.quiet (phase_of_not_live held)
    have role (p : PortId) : ((storeView (endReset rolea roleb maint s)).ports p).1 = roleTaken rolea roleb p := by
      simp [storeView, endReset]
    refine clientsHold_of_idle (fun p q hp hq => ?_) holder request
    rw [role] at hp hq
    exact roleTaken_production hp hq
  | scan notRunning ends =>
    obtain ⟨-, holder, -, request, -⟩ := cache.quiet (not_running_iff.mp notRunning)
    refine clientsHold_of_idle ?_ (ends.holder.trans holder) (ends.requestWaiting.trans request)
    rw [ends.ports]
    exact hx.production

/-! ## READY records and their slots (R81) -/

/-- A slot in one of the states that a READY record's slot can have (R81). -/
def Standing (st : SlotState) : Prop :=
  st = .valid ∨ st = .locked ∨ st = .damaged

/-- A record names a standing slot at the generation of the slot and of its correction (R81). -/
def NamesItsSlot (v : StoreView) (r : Panel) : Prop :=
  ∃ a c, r.normal = some a ∧ r.correction = some c ∧ c.generation = a.generation ∧
    (v.slots a.slot).2 = a.generation ∧ Standing (v.slots a.slot).1

/-- The queue beside the store: READY records name their slots, none is unprinted while a store clear waits, and before the scan's
end there is none (R24, R81, R156). -/
structure QueueHolds (v : StoreView) (queue : List Panel) : Prop where
  ready : ∀ r ∈ queue, r.isReady = true → NamesItsSlot v r
  clears : ∀ p, v.requestWaiting = some (.clear p) → ∀ r ∈ queue, r.unprinted = false
  empty : v.phase ≠ .running → queue = []

theorem queueHolds_nil (v : StoreView) : QueueHolds v [] := ⟨nofun, fun _ _ => nofun, fun _ => rfl⟩

/-- Records that stem from those of the queue, with the slots that READY ones name as they stood. -/
theorem QueueHolds.of_records {v w : StoreView} {old new : List Panel} (h : QueueHolds v old) (phase : w.phase = v.phase)
    (request : ∀ p, w.requestWaiting = some (.clear p) → v.requestWaiting = some (.clear p))
    (records : ∀ r ∈ new, ∃ q ∈ old, Stems r q)
    (slots : ∀ i, (∃ r ∈ new, r.isReady = true ∧ r.slot = some i) → Standing (v.slots i).1 →
      Standing (w.slots i).1 ∧ (w.slots i).2 = (v.slots i).2) : QueueHolds w new where
  ready r hr ready := by
    obtain ⟨q, hq, stems⟩ := records r hr
    obtain ⟨was, same⟩ := stems.ready ready
    obtain ⟨a, c, normal, correction, cg, generation, standing⟩ := h.ready q hq was
    have normal' := stems.normal.trans normal
    obtain ⟨stands, kept⟩ := slots a.slot ⟨r, hr, ready, by rw [Panel.slot, normal']; rfl⟩ standing
    exact ⟨a, c, normal', same.trans correction, cg, kept.trans generation, stands⟩
  clears p hp r hr := by
    obtain ⟨q, hq, stems⟩ := records r hr
    exact Bool.eq_false_iff.mpr fun unprinted =>
      absurd (h.clears p (request p hp) q hq) (by rw [stems.unprinted unprinted]; exact nofun)
  empty hp := by
    rw [phase] at hp
    refine List.eq_nil_iff_forall_not_mem.mpr fun r hr => ?_
    obtain ⟨q, hq, -⟩ := records r hr
    rw [h.empty hp] at hq
    cases hq

/-- The queue as it is. -/
theorem QueueHolds.of_slots {v w : StoreView} {queue : List Panel} (h : QueueHolds v queue) (phase : w.phase = v.phase)
    (request : ∀ p, w.requestWaiting = some (.clear p) → v.requestWaiting = some (.clear p))
    (slots : ∀ i, Standing (v.slots i).1 → Standing (w.slots i).1 ∧ (w.slots i).2 = (v.slots i).2) : QueueHolds w queue :=
  h.of_records phase request (fun r hr => ⟨r, hr, .refl r⟩) fun i _ => slots i

/-- A slot whose line changes to a standing one of the same generation. -/
theorem standing_setSlot {v : StoreView} {slot : SlotId} {st : SlotState} (stands : Standing st) (i : SlotId)
    (was : Standing (v.slots i).1) :
    Standing ((v.setSlot slot (st, (v.slots slot).2)).slots i).1 ∧
      ((v.setSlot slot (st, (v.slots slot).2)).slots i).2 = (v.slots i).2 := by
  unfold StoreView.setSlot
  dsimp only
  split
  · rename_i same
    rw [same]
    exact ⟨stands, rfl⟩
  · exact ⟨was, rfl⟩

/-- Another slot's line changes. -/
theorem standing_setSlot_of_ne {v : StoreView} {slot i : SlotId} {d : SlotState × Nat} (other : i ≠ slot)
    (was : Standing (v.slots i).1) :
    Standing ((v.setSlot slot d).slots i).1 ∧ ((v.setSlot slot d).slots i).2 = (v.slots i).2 := by
  simpa only [StoreView.setSlot, if_neg other, and_true] using was

/-- An erase is granted only where no fetched READY record names the slot, and it takes the unfetched ones back, so that none
is left (R144, R145). -/
theorem ready_after_erase {s : State} {slot : SlotId} (unfetched : fetchedNames s slot = false) {r : Panel}
    (hr : r ∈ (slotErased slot s).queue) (ready : r.isReady = true) : r.slot ≠ some slot := by
  intro named
  obtain ⟨q, hq, rfl⟩ := List.mem_map.mp hr
  have notFetched (hs : q.slot = some slot) : q.isFetched = false := by
    rw [fetchedNames, List.any_eq_false] at unfetched
    simpa [hs] using unfetched q hq
  split at ready
  · cases ready
  · rename_i kept
    rw [if_neg kept] at named
    exact kept (by simp [unfetchedNames, ready, notFetched named, named])

theorem queueHolds_reevaluate {s : State} (h : QueueHolds (storeView s) s.queue) :
    QueueHolds (storeView (reevaluate s)) (reevaluate s).queue := by
  rw [reevaluate_queue]
  rcases storeView_reevaluate s with same | ⟨slot, -, ⟨-, reads⟩ | ⟨-, waits⟩⟩
  · rwa [same]
  · rw [reads]
    exact ⟨h.ready, h.clears, h.empty⟩
  · rw [waits]
    exact ⟨h.ready, h.clears, h.empty⟩

theorem queueHolds_tame {s t : State} (h : Tame s t) (hs : QueueHolds (storeView s) s.queue)
    (cache : CacheHolds (storeView s)) : QueueHolds (storeView t) t.queue := by
  rw [h.view]
  have notReady {r : Panel} (printed : r.unprinted = false) : r.isReady ≠ true := fun ready =>
    absurd (unprinted_of_isReady ready) (by rw [printed]; exact nofun)
  refine ⟨fun r hr ready => ?_, fun p hp r hr => ?_, fun hp => List.eq_nil_iff_forall_not_mem.mpr fun r hr => ?_⟩
  · rcases h.queue r hr with ⟨q, hq, stems⟩ | ⟨⟨-, -, printed⟩, -⟩
    · obtain ⟨was, same⟩ := stems.ready ready
      obtain ⟨a, c, normal, correction, rest⟩ := hs.ready q hq was
      exact ⟨a, c, stems.normal.trans normal, same.trans correction, rest⟩
    · exact absurd ready (notReady printed)
  · rcases h.queue r hr with ⟨q, hq, stems⟩ | ⟨⟨-, -, printed⟩, -⟩
    · exact Bool.eq_false_iff.mpr fun unprinted =>
        absurd (hs.clears p hp q hq) (by rw [stems.unprinted unprinted]; exact nofun)
    · exact printed
  · rcases h.queue r hr with ⟨q, hq, -⟩ | ⟨-, active⟩
    · rw [hs.empty hp] at hq
      cases hq
    · exact absurd (active.symm.trans (cache.quiet hp).1) nofun

theorem queueHolds_change {x y : Moment} (h : Change x y) (hx : QueueHolds (storeView x.st) x.st.queue)
    (cache : CacheHolds (storeView x.st)) (clients : ClientsHold x.serving (storeView x.st)) :
    QueueHolds (storeView y.st) y.st.queue := by
  have same {v w : StoreView} (hs : w.slots = v.slots) (i : SlotId) (was : Standing (v.slots i).1) :
      Standing (w.slots i).1 ∧ (w.slots i).2 = (v.slots i).2 := by
    rw [hs]
    exact ⟨was, rfl⟩
  cases h with
  | tame h => exact queueHolds_tame h hx cache
  | schedule g s => exact queueHolds_reevaluate hx
  | accept | answer => exact hx.of_slots rfl (fun _ => id) (same rfl)
  | @ask r s running role fits =>
    refine ⟨hx.ready, fun p hp => ?_, hx.empty⟩
    cases hp
    exact fits
  | @announce p s r a running role normal slot ready correction =>
    refine ⟨fun q hq hready => ?_, fun p' hp => ?_, fun hp => absurd (running_iff.mp running) hp⟩
    · rcases List.mem_append.mp hq with hq | hq
      · exact hx.ready q hq hready
      · rw [List.mem_singleton.mp hq, ready] at hready
        cases hready
    · obtain ⟨port, -⟩ := clients.waits _ hp
      exact absurd (clients.production p' p (congrArg Prod.fst port) role) ((clients.serving p rfl).2.2 _ hp)
  | forget | finish | filled | load | grantFill | dropFill => exact hx.of_slots rfl (fun _ => id) (same rfl)
  | start | refuse => exact hx.of_slots rfl nofun (same rfl)
  | damaged =>
    rw [storeView_updateDir_set, storeView_freeStore]
    exact hx.of_slots rfl (fun _ => id) (standing_setSlot (.inr (.inr rfl)))
  | lockDamaged =>
    rw [storeView_invalidate, storeView_updateDir_set, storeView_freeStore]
    exact hx.of_slots rfl (fun _ => id) (standing_setSlot (.inr (.inr rfl)))
  | locked =>
    rw [storeView_updateDir_set, storeView_freeStore]
    exact hx.of_slots rfl (fun _ => id) (standing_setSlot (.inr (.inl rfl)))
  | @committed s p slot rows d held valid =>
    rw [storeView_invalidate, storeView_updateDir_set, storeView_freeStore]
    refine hx.of_slots rfl (fun _ => id) fun i was => standing_setSlot_of_ne ?_ was
    rintro rfl
    rw [Standing, clients.commits p i rows held] at was
    rcases was with h | h | h <;> cases h
  | @erase s p slot free waits unfetched =>
    have records : ∀ r ∈ (slotErased slot s).queue, ∃ q ∈ s.queue, Stems r q := by
      intro r hr
      obtain ⟨q, hq, rfl⟩ := List.mem_map.mp hr
      refine ⟨q, hq, ?_⟩
      split
      · exact stems_returnToQueued ‹_›
      · exact .refl q
    have view : storeView (slotErased slot s) =
        ((storeView s).invalidate slot).setSlot slot (.writing, ((storeView s).slots slot).2) := by
      rw [slotErased, storeView_updateDir_set, storeView_invalidate, storeView_mapPanels]
      rfl
    refine hx.of_records (by rw [view]; rfl) (by rw [view]; exact fun _ => id) records fun i named was => ?_
    obtain ⟨r, hr, ready, slotOf⟩ := named
    rw [view]
    refine standing_setSlot_of_ne ?_ was
    rintro rfl
    exact ready_after_erase unfetched hr ready slotOf
  | @clear s p free waits =>
    refine hx.of_records rfl (fun _ => id) (fun r hr => ⟨r, hr, .refl r⟩) fun i named was => ?_
    obtain ⟨r, hr, ready, -⟩ := named
    exact absurd (hx.clears p waits r hr) (by rw [unprinted_of_isReady ready]; exact nofun)
  | reset => exact queueHolds_nil _
  | @roles s rolea roleb maint held =>
    have empty := hx.empty (phase_of_not_live held)
    rw [show (endReset rolea roleb maint s).queue = [] from empty]
    exact queueHolds_nil _
  | scan notRunning ends =>
    rw [show _ = [] from ends.queue.trans (hx.empty (not_running_iff.mp notRunning))]
    exact queueHolds_nil _

/-! ## Every step keeps the promises -/

/-- The promises within an event. -/
structure Promises (x : Moment) : Prop where
  cache : CacheHolds (storeView x.st)
  slots : NoneOfSlotZero x.st.queue
  clients : ClientsHold x.serving (storeView x.st)
  queue : QueueHolds (storeView x.st) x.st.queue

theorem promises_change {x y : Moment} (hx : Promises x) (h : Change x y) : Promises y where
  cache := cacheHolds_change h hx.cache hx.slots
  slots := noneOfSlotZero_change h hx.slots
  clients := clientsHold_change h hx.clients hx.cache
  queue := queueHolds_change h hx.queue hx.cache hx.clients

/-- A property that every change keeps holds after a chain of them. -/
theorem keeps_of_chain {P : Moment → Prop} (step : ∀ {x y}, P x → Change x y → P y) {x y : Moment}
    (h : Relation.ReflTransGen Change x y) (hx : P x) : P y := by
  induction h with
  | refl => exact hx
  | tail _ change ih => exact step ih change

theorem correctionsAsComputed_change {x y : Moment} (hx : CorrectionsAsComputed x.st) (h : Change x y) :
    CorrectionsAsComputed y.st := by
  intro r hr c hc
  rcases change_queue h r hr with ⟨q, hq, stems⟩ | ⟨none, -⟩
  · exact hx q hq c (stems.correction c hc)
  · cases none.symm.trans hc

/-- A result written: the view stays, and each record is one of before, or the result's record with its correction. -/
theorem resultWritten_eq {s t : State} (h : ResultWritten s t) :
    storeView t = storeView s ∧ ∃ (k : Computation) (r : Panel), r ∈ s.queue ∧ r.id = k.panel ∧
      resultWritable s k.snapshot.generation r = true ∧ ∀ q ∈ t.queue, q ∈ s.queue ∨ ∃ o ∈ s.queue, o.id = k.panel ∧
        q = o.writeCorrection s.now (computeCorrection k.snapshot) (computeFlags k.snapshot) := by
  obtain ⟨k, r, found, writable, rfl⟩ := h
  refine ⟨storeView_raise _ _, k, r, List.mem_of_find?_eq_some found, by simpa using List.find?_some found, writable,
    fun q hq => ?_⟩
  obtain ⟨o, ho, rfl⟩ := List.mem_map.mp hq
  split
  · rename_i named
    exact .inr ⟨o, ho, of_decide_eq_true named, rfl⟩
  · exact .inl ho

theorem noneOfSlotZero_resultWritten {s t : State} (h : ResultWritten s t) (hs : NoneOfSlotZero s.queue) :
    NoneOfSlotZero t.queue := by
  obtain ⟨-, k, r, -, -, -, queue⟩ := resultWritten_eq h
  intro q hq a ha
  rcases queue q hq with old | ⟨o, ho, -, rfl⟩
  · exact hs q old a ha
  · obtain ⟨b, hb, rfl⟩ := Option.map_eq_some_iff.mp ha
    exact hs o ho b hb

theorem correctionsAsComputed_resultWritten {s t : State} (h : ResultWritten s t) (hs : CorrectionsAsComputed s) :
    CorrectionsAsComputed t := by
  obtain ⟨-, k, r, -, -, -, queue⟩ := resultWritten_eq h
  intro q hq c hc
  rcases queue q hq with old | ⟨o, ho, -, rfl⟩
  · exact hs q old c hc
  · cases hc
    exact correctionAsComputed_computeCorrection k.snapshot

/-- A written result leaves its record READY on a slot that is VALID or LOCKED at the correction's generation (R81). -/
theorem queueHolds_resultWritten {s t : State} (h : ResultWritten s t) (ids : IdsDistinct s)
    (hs : QueueHolds (storeView s) s.queue) : QueueHolds (storeView t) t.queue := by
  obtain ⟨view, k, r, hr, idIs, writable, queue⟩ := resultWritten_eq h
  have nodup : (s.queue.map (·.id)).Nodup := ids.1.sublist (List.sublist_append_left _ _)
  have one {o : Panel} (ho : o ∈ s.queue) (same : o.id = k.panel) : o = r :=
    List.inj_on_of_nodup_map nodup ho hr (same.trans idIs.symm)
  unfold resultWritable at writable
  split at writable
  · rename_i a normal
    obtain ⟨⟨unprinted, usable⟩, generation⟩ : (r.unprinted = true ∧ slotUsable s a.slot = true) ∧
        (dirEntry s a.slot).generation = k.snapshot.generation := by simpa using writable
    have written : NamesItsSlot (storeView s)
        (r.writeCorrection s.now (computeCorrection k.snapshot) (computeFlags k.snapshot)) := by
      refine ⟨_, _, congrArg (Option.map _) normal, rfl, rfl, generation, ?_⟩
      exact (slotUsable_iff.mp usable).imp id .inl
    rw [view]
    refine ⟨fun q hq ready => ?_, fun p hp q hq => ?_, fun hp => ?_⟩
    · rcases queue q hq with old | ⟨o, ho, same, rfl⟩
      · exact hs.ready q old ready
      · rw [one ho same]
        exact written
    · exact absurd (hs.clears p hp r hr) (by rw [unprinted]; exact nofun)
    · rw [hs.empty hp] at hr
      cases hr
  · cases writable

theorem promises_resultWritten {s t : State} (h : ResultWritten s t) (ids : IdsDistinct s) (hs : Promises ⟨none, s⟩) :
    Promises ⟨none, t⟩ where
  cache := (resultWritten_eq h).1 ▸ hs.cache
  slots := noneOfSlotZero_resultWritten h hs.slots
  clients := (resultWritten_eq h).1 ▸ hs.clients
  queue := queueHolds_resultWritten h ids hs.queue

/-- A READY record's promise with what keeps it, by the parts it is kept by. -/
theorem readyRecordsCoherent_iff {s : State} : ReadyRecordsCoherent s ↔ Promises ⟨none, s⟩ ∧ IdsDistinct s := by
  constructor
  · rintro ⟨ready, ⟨production, holds, waits⟩, ⟨commits, asks, clears, empty⟩, ids, cache⟩
    obtain ⟨cache, slots⟩ := cacheCoherent_iff.mp cache
    refine ⟨⟨cache, slots, ⟨production, fun op p ho hp => ?_, fun r hr => ?_, commits, asks, nofun⟩, ready, clears,
      fun hp => ?_⟩, ids⟩
    · obtain ⟨role, executing⟩ := holds op p ho hp
      exact Prod.ext role executing
    · obtain ⟨role, executing, alone⟩ := waits r hr
      exact ⟨Prod.ext role executing, alone⟩
    · exact empty (not_running_iff.mpr hp)
  · rintro ⟨⟨cache, slots, clients, queue⟩, ids⟩
    refine ⟨queue.ready, ⟨clients.production, fun op p ho hp => ?_, fun r hr => ?_⟩,
      ⟨clients.commits, clients.asks, queue.clears, fun hr => queue.empty (not_running_iff.mp hr)⟩, ids,
      cacheCoherent_iff.mpr ⟨cache, slots⟩⟩
    · exact Prod.ext_iff.mp (clients.holds op p ho hp)
    · obtain ⟨port, alone⟩ := clients.waits r hr
      obtain ⟨role, executing⟩ := Prod.ext_iff.mp port
      exact ⟨role, executing, alone⟩

theorem cacheCoherent_change {x y : Moment} (hx : CacheHolds (storeView x.st) ∧ NoneOfSlotZero x.st.queue)
    (h : Change x y) : CacheHolds (storeView y.st) ∧ NoneOfSlotZero y.st.queue :=
  ⟨cacheHolds_change h hx.1 hx.2, noneOfSlotZero_change h hx.2⟩

theorem everyStepKeepsCacheCoherent : KeptByEveryStep CacheCoherent := by
  intro s t hs h
  rw [cacheCoherent_iff] at hs ⊢
  rcases step_stepChanges h with chain | ⟨u, written, chain⟩
  · exact keeps_of_chain (P := fun x => CacheHolds (storeView x.st) ∧ NoneOfSlotZero x.st.queue) cacheCoherent_change chain hs
  · refine keeps_of_chain (P := fun x => CacheHolds (storeView x.st) ∧ NoneOfSlotZero x.st.queue) cacheCoherent_change chain ?_
    exact ⟨(resultWritten_eq written).1 ▸ hs.1, noneOfSlotZero_resultWritten written hs.2⟩

theorem everyStepKeepsCorrectionsAsComputed : KeptByEveryStep CorrectionsAsComputed := by
  intro s t hs h
  rcases step_stepChanges h with chain | ⟨u, written, chain⟩
  · exact keeps_of_chain (P := fun x => CorrectionsAsComputed x.st) correctionsAsComputed_change chain hs
  · exact keeps_of_chain (P := fun x => CorrectionsAsComputed x.st) correctionsAsComputed_change chain
      (correctionsAsComputed_resultWritten written hs)

theorem everyStepKeepsReadyRecordsCoherent : KeptByEveryStep ReadyRecordsCoherent := by
  intro s t hs h
  rw [readyRecordsCoherent_iff] at hs ⊢
  obtain ⟨promises, ids⟩ := hs
  refine ⟨?_, everyStepKeepsIdsDistinct s t ids h⟩
  rcases step_stepChanges h with chain | ⟨u, written, chain⟩
  · exact keeps_of_chain promises_change chain promises
  · exact keeps_of_chain promises_change chain (promises_resultWritten written ids promises)

/-- Settles O59: what any step can do is a chain of changes, and each keeps the promises. -/
theorem everyStepKeepsTheCacheAndTheCorrections : Obligations.EveryStepKeepsTheCacheAndTheCorrections :=
  ⟨everyStepKeepsCacheCoherent, everyStepKeepsCorrectionsAsComputed, everyStepKeepsReadyRecordsCoherent⟩

end Sys2Proof.Proofs
end

