-- ==== Sys2Proof/Proofs/Corrections.lean ====
section
/-!
O51: a completed computation written or discarded, and what a refresh expiry starts.
-/
namespace Sys2Proof.Proofs

open Sys2Proof.Machine Sys2Proof.Safety

/-! ## Re-evaluations by the eligible records (R74, R78, R80) -/

/-- With no eligible record the scheduler has nothing to start (R80). -/
theorem reevaluate_of_noneEligible {s : State} {m : MachineRecord} (active : s.line.active = some m)
    (none : eligibleRecords m s = []) : reevaluate s = s := by
  have idle : startComputation m [] s = s := by
    unfold startComputation
    split
    · rename_i hit
      cases hit
    · rfl
  rw [reevaluate, active]
  simp only [none, idle]
  rfl

/-- In IDLE a first eligible record whose slot hits is started, and no fill is requested (R52, R73, R80). -/
theorem reevaluate_of_hit {s : State} {m : MachineRecord} {r : Panel} {a : Announced} {i : Fin 8} {e : CacheEntry}
    (active : s.line.active = some m) (eligibles : eligibleRecords m s = [r]) (normal : r.normal = some a)
    (idle : s.engine = none) (hit : lookup s.cache a.slot = some (i, e))
    (channels : e.profile.channels.length = a.coverage.length) :
    reevaluate s =
      { s with
        engine := some { panel := r.id, snapshot := takeSnapshot m s a e }
        cache := { s.cache with nlu := nextEntry i } } := by
  have hits : startable s r = some (r, a, i, e) := by simp [startable, normal, hit, channels]
  have slot : r.slot = some a.slot := by simp [Panel.slot, normal]
  have started : startComputation m [r] s =
      { s with
        engine := some { panel := r.id, snapshot := takeSnapshot m s a e }
        cache := { s.cache with nlu := nextEntry i } } := by
    simp [startComputation, idle, hits]
  have stays : lookup ({ s.cache with nlu := nextEntry i } : Cache) a.slot = some (i, e) := hit
  rw [reevaluate, active]
  simp only [eligibles, started]
  simp [requestMissing, slot, stays]

/-- While the engine computes, a first eligible record that misses has its fill requested; on a free store it reads
(R74, R80). -/
theorem reevaluate_of_miss {s : State} {m : MachineRecord} {r : Panel} {a : Announced} {k : Computation}
    (active : s.line.active = some m) (eligibles : eligibleRecords m s = [r]) (normal : r.normal = some a)
    (computing : s.engine = some k) (miss : lookup s.cache a.slot = none) (idle : StoreIdle s) :
    reevaluate s = { s with store := { s.store with holder := some (.fill a.slot) } } := by
  obtain ⟨free, noFill, -⟩ := idle
  have slot : r.slot = some a.slot := by simp [Panel.slot, normal]
  have unstarted : startComputation m [r] s = s := by
    unfold startComputation
    rw [computing]
  have noFlight : fillInFlight s = none := fillInFlight_eq_none_iff.mpr ⟨noFill, fun _ => by rw [free]; exact nofun⟩
  rw [reevaluate, active]
  simp only [eligibles, unstarted]
  simp [requestMissing, slot, miss, noFlight, requestFill, free]

/-- The one entry that holds a slot is what a lookup finds (R73). -/
theorem lookup_of_only {c : Cache} {slot : SlotId} {i : Fin 8} {e : CacheEntry} (entry : c.entries[i] = some e)
    (named : e.slot = slot) (only : ∀ j : Fin 8, j ≠ i → ∀ f, c.entries[j] = some f → f.slot ≠ slot) :
    lookup c slot = some (i, e) := by
  cases found : lookup c slot with
  | none => exact absurd named (lookup_eq_none_iff.mp found i e entry)
  | some hit =>
    obtain ⟨j, hj, hit⟩ := Option.bind_eq_some_iff.mp found
    obtain ⟨f, hf, rfl⟩ := Option.map_eq_some_iff.mp hit
    have holds : (c.entries[j]).map (·.slot) = some slot := by simpa using List.find?_some hj
    have same : j = i := by
      by_contra other
      rw [hf] at holds
      exact only j other f hf (Option.some.inj holds)
    subst same
    cases hf.symm.trans entry
    rfl

/-! ## Completed computations (R69, R81, R82) -/

theorem unprinted_of_queued {r : Panel} (h : r.state = .queued) : r.unprinted = true := by simp [Panel.unprinted, h]

/-- The record of a QUEUED record's result: READY, unfetched, from now (R69, R82). -/
theorem writeCorrection_of_queued {r : Panel} {a : Announced} (h : r.state = .queued) (normal : r.normal = some a) (now : Nat)
    (c : Correction) (fs : FlagSet) :
    r.writeCorrection now c fs =
      { r with
        normal := some { a with generation := c.generation }
        state := .ready false now false
        correction := some c
        flags := withoutCorrectionFlags r.flags ||| fs } := by
  rw [Panel.writeCorrection, normal, Panel.isFetched, h]
  rfl

/-- A record just READY is not eligible (R78, R79). -/
theorem eligible_of_justReady {m : MachineRecord} {s : State} {r : Panel} (h : r.state = .ready false s.now false) :
    eligible m s r = false := by
  have fresh : wantsCorrection m s.now r = false := by simp [wantsCorrection, h, refreshPast]
  unfold eligible
  split
  · rw [fresh]
    rfl
  · rfl

/-- A lone record with its result written and UNREADY gone (R82, R86). -/
def loneResult (k : Computation) (r : Panel) (s : State) : State :=
  { s with
    engine := none
    queue := [r.writeCorrection s.now (computeCorrection k.snapshot) (computeFlags k.snapshot)]
    line := { s.line with hold := { s.line.hold with unready := false } } }

/-- A result written into a lone record leaves the scheduler nothing to start (R78 to R82). -/
theorem reevaluate_writeResult_of_lone {s : State} {m : MachineRecord} {r : Panel} {a : Announced} {k : Computation}
    (active : s.line.active = some m) (alone : s.queue = [r]) (normal : r.normal = some a) (queued : r.state = .queued)
    (named : k.panel = r.id) :
    reevaluate (writeResult k { s with engine := none }) = (loneResult k r s).raise .correctionReady := by
  have state : (r.writeCorrection s.now (computeCorrection k.snapshot) (computeFlags k.snapshot)).state =
      .ready false s.now false := by
    rw [writeCorrection_of_queued queued normal]
  have written : { s with engine := none }.mapPanels (fun r => decide (r.id = k.panel))
      (·.writeCorrection s.now (computeCorrection k.snapshot) (computeFlags k.snapshot)) =
        { loneResult k r s with line := s.line } := by
    simp [State.mapPanels, loneResult, alone, named]
  have ready : unreadyHolds { loneResult k r s with line := s.line } = false := by
    simp [unreadyHolds, active, firstUnprinted, loneResult, Panel.unprinted, Panel.isReady, state]
  have result : writeResult k { s with engine := none } = (loneResult k r s).raise .correctionReady := by
    rw [writeResult, written, syncUnready, ready]
    rfl
  rw [result]
  refine reevaluate_of_noneEligible (m := m) active ?_
  rw [eligibleRecords, List.filter_eq_nil_iff]
  intro q hq
  rw [List.mem_singleton.mp ((List.mem_filter.mp (List.mem_of_mem_take hq)).1)]
  exact Bool.eq_false_iff.mp (eligible_of_justReady state)

/-- The completion whose result is written (R69, R81, R82). -/
theorem completion_written {s : State} {m : MachineRecord} {r : Panel} {a : Announced} {k : Computation}
    (active : s.line.active = some m) (alone : s.queue = [r]) (normal : r.normal = some a) (queued : r.state = .queued)
    (usable : slotUsable s a.slot = true) (named : k.panel = r.id)
    (generation : k.snapshot.generation = (dirEntry s a.slot).generation) :
    let t := completeComputation k s
    t.queue = [r.writeCorrection s.now (computeCorrection k.snapshot) (computeFlags k.snapshot)] ∧
      t.line = { s.line with hold := { s.line.hold with unready := false } } ∧
      t = { s with engine := none, queue := t.queue, line := t.line, ports := t.ports } ∧
      PortsRaise s t (Attn.correctionReady.bit ||| holdKind s t) := by
  have found : findPanel s k.panel = some r := by simp [findPanel, alone, named]
  have writable : resultWritable s k.snapshot.generation r = true := by
    simp [resultWritable, normal, unprinted_of_queued queued, usable, generation]
  have event : completeComputation k s = closeEvent s ((loneResult k r s).raise .correctionReady) [] := by
    rw [← reevaluate_writeResult_of_lone active alone normal queued named]
    simp only [completeComputation, found, writable, if_true]
  rw [event]
  intro t
  have frame : t = { (loneResult k r s).raise .correctionReady with ports := t.ports } := closeEvent_nil_frame _ _
  have line : t.line = (loneResult k r s).line := by rw [frame]; rfl
  have queue : t.queue = (loneResult k r s).queue := by rw [frame]; rfl
  refine ⟨queue, line, by rw [queue, line]; exact frame, ?_⟩
  rw [holdKind_of_line (u := (loneResult k r s).raise .correctionReady) line]
  exact portsRaise_trans (portsRaise_raise (loneResult k r s) .correctionReady) (portsRaise_closeEvent_nil _ _)

/-- The completion whose result is discarded (R81). -/
theorem completion_discarded {s : State} {r : Panel} {a : Announced} {k : Computation} (alone : s.queue = [r])
    (normal : r.normal = some a) (named : k.panel = r.id)
    (changed : k.snapshot.generation ≠ (dirEntry s a.slot).generation) :
    let t := completeComputation k s
    t.queue = s.queue ∧ t.ports = s.ports ∧ t.line = s.line ∧ t = withScheduling s t := by
  have found : findPanel s k.panel = some r := by simp [findPanel, alone, named]
  have discarded : resultWritable s k.snapshot.generation r = false := by simp [resultWritable, normal, changed.symm]
  intro t
  have event : t = reevaluate { s with engine := none } := by
    have closed : t = closeEvent s (reevaluate { s with engine := none }) [] := by
      simp only [t, completeComputation, found, discarded, Bool.false_eq_true, if_false]
    exact closed.trans (closeEvent_nil_of_line (reevaluate_line _))
  obtain ⟨e, n, h, w, form⟩ := reevaluate_changes { s with engine := none }
  rw [event, form]
  exact ⟨rfl, rfl, rfl, rfl⟩

/-! ## Refresh expiries (R79, R80) -/

theorem refreshPast_of_age {m : MachineRecord} {now time : Nat} (past : time + m.refreshInterval < now) :
    refreshPast m now time = true := by
  rw [refreshPast, decide_eq_true_iff]
  omega

/-- The expiry of a READY record of the queue re-evaluates (R79, R80). -/
theorem refreshExpiry_of_past {s : State} {m : MachineRecord} {r : Panel} {fetched due : Bool} {time : Nat}
    (active : s.line.active = some m) (queued : r ∈ s.queue) (ready : r.state = .ready fetched time due)
    (past : time + m.refreshInterval < s.now) : exec .refreshExpiry s = .next (reevaluate s) := by
  have expired : s.queue.any (fun r => r.pastRefresh m s.now) = true :=
    List.any_eq_true.mpr ⟨r, queued, by rw [Panel.pastRefresh, ready]; exact refreshPast_of_age past⟩
  change execRefreshExpiry s = _
  rw [execRefreshExpiry, active]
  simp only [expired, if_true]

/-- The refresh of a lone READY record that hits (R53, R73, R79, R80). -/
theorem refresh_of_hit {s : State} {m : MachineRecord} {r : Panel} {a : Announced} {i : Fin 8} {e : CacheEntry} {time : Nat}
    {due : Bool} (active : s.line.active = some m) (alone : s.queue = [r]) (normal : r.normal = some a)
    (usable : slotUsable s a.slot = true) (ready : r.state = .ready false time due) (past : time + m.refreshInterval < s.now)
    (idle : s.engine = none) (channels : (dirEntry s a.slot).channels = some a.coverage.length)
    (hit : lookup s.cache a.slot = some (i, e)) (computable : e.profile.channels.length = a.coverage.length) :
    exec .refreshExpiry s = .next
      { s with
        engine := some { panel := r.id, snapshot := takeSnapshot m s a e }
        cache := { s.cache with nlu := nextEntry i } } := by
  have unprinted : r.unprinted = true := by simp [Panel.unprinted, ready]
  have wants : eligible m s r = true := by
    simp [eligible, normal, wantsCorrection, ready, refreshPast_of_age past, usable, channels, idle]
  have eligibles : eligibleRecords m s = [r] := by simp [eligibleRecords, lookahead, alone, unprinted, wants]
  rw [refreshExpiry_of_past active (alone ▸ List.mem_singleton_self r) ready past,
    reevaluate_of_hit active eligibles normal idle hit computable]

/-- The refresh of a fetched READY record, which computes nothing for it but fills for the QUEUED record behind (R74, R79,
R80). -/
theorem refresh_of_fetched {s : State} {m : MachineRecord} {r q : Panel} {a : Announced} {k : Computation} {time : Nat}
    {due : Bool} (active : s.line.active = some m) (two : s.queue = [r, q]) (ready : r.state = .ready true time due)
    (past : time + m.refreshInterval < s.now) (queued : q.state = .queued) (normal : q.normal = some a)
    (usable : slotUsable s a.slot = true) (channels : (dirEntry s a.slot).channels = some a.coverage.length)
    (computing : s.engine = some k) (other : k.panel ≠ q.id) (idle : StoreIdle s) (miss : lookup s.cache a.slot = none) :
    exec .refreshExpiry s = .next { s with store := { s.store with holder := some (.fill a.slot) } } := by
  have unprinted : r.unprinted = true := by simp [Panel.unprinted, ready]
  have fetched : eligible m s r = false := by
    unfold eligible
    split
    · simp [wantsCorrection, ready]
    · rfl
  have wants : eligible m s q = true := by simp [eligible, normal, wantsCorrection, queued, usable, channels, computing, other]
  have eligibles : eligibleRecords m s = [q] := by
    simp [eligibleRecords, lookahead, two, unprinted, unprinted_of_queued queued, fetched, wants]
  rw [refreshExpiry_of_past active (two ▸ List.mem_cons_self) ready past,
    reevaluate_of_miss active eligibles normal computing miss idle]

/-- Settles O51: the written and the discarded result, and both refreshes. -/
theorem correctionsAndRefreshes : Obligations.CorrectionsAndRefreshes := by
  refine ⟨fun s m r a active alone normal usable => ⟨fun k computing named queued => ?_,
    fun i e time due ready past idle channels entry slot only computable => ?_⟩,
    fun s m r q a k time due active two ready past queued normal usable channels computing other idle misses =>
      refresh_of_fetched active two ready past queued normal usable channels computing other idle
        (lookup_eq_none_iff.mpr misses)⟩
  · refine ⟨completeComputation k s, ?_, fun generation => ?_, completion_discarded alone normal named⟩
    · change execCorrectionCompletion s = _
      rw [execCorrectionCompletion, computing]
    · obtain ⟨queue, rest⟩ := completion_written active alone normal queued usable named generation
      rw [writeCorrection_of_queued queued normal] at queue
      exact ⟨queue, rest⟩
  · exact ⟨_, refresh_of_hit active alone normal usable ready past idle channels (lookup_of_only entry slot only) computable,
      rfl, val_nextEntry i, rfl⟩

end Sys2Proof.Proofs
end

