-- ==== Sys2Proof/Proofs/RequestRows.lean ====
section
/-!
The request rows of Table 43, said once: the port, code, roles and owner of each, that a request command is that row taken, and
that whatever request a frame carries is served by the owner of a row.
-/
namespace Sys2Proof.Proofs

open Sys2Proof.Machine Sys2Proof.Safety

/-- A request row as a port serves it: the port, the request code, the roles and the owner; none for the part's own events and
for a transaction. -/
def requestRow : Instr → Option (PortId × Byte × (Role → Bool) × (State → Served))
  | .readStatus p => some (p, 0x10, anyRole, readStatusOwner p)
  | .readPanel p id => some (p, 0x11, anyRole, readPanelOwner id)
  | .readQueueSummary p => some (p, 0x12, anyRole, readQueueSummaryOwner)
  | .readStopRecord p => some (p, 0x13, anyRole, readStopRecordOwner)
  | .readMeasurements p => some (p, 0x14, anyRole, readMeasurementsOwner)
  | .readRecords p n => some (p, 0x15, anyRole, readRecordsOwner n)
  | .readAndClearAttention p => some (p, 0x16, anyRole, readAndClearOwner p)
  | .setAttentionMask p mask => some (p, 0x17, anyRole, setAttentionMaskOwner p mask)
  | .stop p => some (p, 0x18, anyStation, stopOwner)
  | .announcePanel p jobId slot length width coverage =>
    some (p, 0x20, onlyProduction, announceOwner jobId slot length width coverage)
  | .withdrawPanel p id => some (p, 0x21, onlyProduction, withdrawOwner id)
  | .scrapPanel p id => some (p, 0x22, onlyProduction, scrapOwner id)
  | .lineClear p span => some (p, 0x23, onlyProduction, lineClearOwner p span)
  | .setTrim p trim => some (p, 0x24, onlyProduction, setTrimOwner trim)
  | .ackRecords p n => some (p, 0x25, onlyProduction, ackRecordsOwner n)
  | .setRecordQueue p mode watermark filter => some (p, 0x26, onlyProduction, setRecordQueueOwner mode watermark filter)
  | .eraseSlot p slot => some (p, 0x30, onlyProduction, eraseOwner p slot)
  | .writeSlot p slot offset data => some (p, 0x31, onlyProduction, writeOwner p slot offset data)
  | .commitSlot p slot => some (p, 0x32, onlyProduction, commitOwner p slot)
  | .lockSlot p slot => some (p, 0x33, onlyProduction, lockOwner p slot)
  | .readSlot p slot offset n => some (p, 0x34, onlyProduction, readSlotOwner p slot offset n)
  | .storeClear p => some (p, 0x35, onlyProduction, storeClearOwner p)
  | .probeCache p slot => some (p, 0x36, onlyProduction, probeCacheOwner slot)
  | .invalidateCache p => some (p, 0x37, onlyProduction, invalidateCacheOwner)
  | .getCorrection p id => some (p, 0x40, onlyPrint, getCorrectionOwner id)
  | .printAbort p id => some (p, 0x41, onlyPrint, printAbortOwner id)
  | .reportTemperatures p values => some (p, 0x50, onlyCalender, reportTemperaturesOwner values)
  | .readHeatAdvice p => some (p, 0x51, onlyCalender, readHeatAdviceOwner)
  | .reportTensions p paperIn fabricUnwind calIn fabricRewind diameter =>
    some (p, 0x60, onlyDrive,
      reportTensionsOwner
        { paperIn := paperIn.toNat, fabricUnwind := fabricUnwind.toNat, calIn := calIn.toNat
          fabricRewind := fabricRewind.toNat } diameter.toNat)
  | .readSetpoints p => some (p, 0x61, onlyDrive, readSetpointsOwner)
  | .hold p => some (p, 0x70, holdRoles, holdOwner)
  | .unhold p => some (p, 0x71, holdRoles, unholdOwner)
  | .releaseStop p => some (p, 0x72, releaseRoles, releaseStopOwner)
  | _ => none

/-- A request command is its row taken on its port (R189, R190). -/
theorem exec_of_requestRow {i : Instr} {p : PortId} {code : Byte} {allowed : Role → Bool} {owner : State → Served}
    (row : requestRow i = some (p, code, allowed, owner)) (s : State) :
    exec i s = .next (takeRequest p code allowed owner s) := by
  cases i <;> cases row <;> rfl

/-- An owner that a frame's request is served by: that of a row for the port and the roles, or the refusal of a payload of the
wrong form (R192). -/
def ServedByRow (p : PortId) (allowed : Role → Bool) (owner : State → Served) : Prop :=
  (∃ i code, requestRow i = some (p, code, allowed, owner)) ∨ owner = fun s => Served.refuse s .badArg

section Forms

variable {p : PortId} {allowed : Role → Bool} {owner : State → Served}

theorem ServedByRow.of_row {i : Instr} {code : Byte} (row : requestRow i = some (p, code, allowed, owner)) :
    ServedByRow p allowed owner := .inl ⟨i, code, row⟩

theorem ServedByRow.noArgs (h : ServedByRow p allowed owner) (a : List Byte) :
    ServedByRow p allowed (Request.serveOwner ⟨allowed, Machine.noArgs a owner⟩) := by
  unfold Request.serveOwner Machine.noArgs
  split
  · exact h
  · exact .inr rfl

theorem ServedByRow.withArgs (h : ServedByRow p allowed owner) (n : Nat) (a : List Byte) :
    ServedByRow p allowed (Request.serveOwner ⟨allowed, Machine.withArgs n a owner⟩) := by
  unfold Request.serveOwner Machine.withArgs
  split
  · exact h
  · exact .inr rfl

end Forms

theorem servedByRow_generalRequest {p : PortId} {code : Nat} {a : List Byte} {r : Request}
    (hr : generalRequest p code a = some r) : ServedByRow p r.allowed r.serveOwner := by
  unfold generalRequest at hr
  split at hr
  next => cases hr; exact (ServedByRow.of_row (i := .readStatus p) rfl).noArgs a
  next => cases hr; exact (ServedByRow.of_row (i := .readPanel p _) rfl).withArgs 2 a
  next => cases hr; exact (ServedByRow.of_row (i := .readQueueSummary p) rfl).noArgs a
  next => cases hr; exact (ServedByRow.of_row (i := .readStopRecord p) rfl).noArgs a
  next => cases hr; exact (ServedByRow.of_row (i := .readMeasurements p) rfl).noArgs a
  next => cases hr; exact (ServedByRow.of_row (i := .readRecords p _) rfl).withArgs 1 a
  next => cases hr; exact (ServedByRow.of_row (i := .readAndClearAttention p) rfl).noArgs a
  next => cases hr; exact (ServedByRow.of_row (i := .setAttentionMask p _) rfl).withArgs 2 a
  next => cases hr; exact (ServedByRow.of_row (i := .stop p) rfl).noArgs a
  next => cases hr

theorem servedByRow_productionRequest {p : PortId} {code : Nat} {a : List Byte} {r : Request}
    (hr : productionRequest p code a = some r) : ServedByRow p r.allowed r.serveOwner := by
  unfold productionRequest at hr
  split at hr
  next =>
    cases hr
    unfold Request.serveOwner announceForm
    dsimp only
    split
    · exact .of_row (i := .announcePanel p _ _ _ _ _) rfl
    · exact .inr rfl
  next => cases hr; exact (ServedByRow.of_row (i := .withdrawPanel p _) rfl).withArgs 2 a
  next => cases hr; exact (ServedByRow.of_row (i := .scrapPanel p _) rfl).withArgs 2 a
  next => cases hr; exact (ServedByRow.of_row (i := .lineClear p _) rfl).withArgs 4 a
  next => cases hr; exact (ServedByRow.of_row (i := .setTrim p _) rfl).withArgs 2 a
  next => cases hr; exact (ServedByRow.of_row (i := .ackRecords p _) rfl).withArgs 1 a
  next => cases hr; exact (ServedByRow.of_row (i := .setRecordQueue p _ _ _) rfl).withArgs 3 a
  next => cases hr

theorem servedByRow_storeRequest {p : PortId} {code : Nat} {a : List Byte} {r : Request}
    (hr : storeRequest p code a = some r) : ServedByRow p r.allowed r.serveOwner := by
  unfold storeRequest at hr
  split at hr
  next => cases hr; exact (ServedByRow.of_row (i := .eraseSlot p _) rfl).withArgs 1 a
  next =>
    cases hr
    unfold Request.serveOwner writeForm
    dsimp only
    split
    · exact .of_row (i := .writeSlot p _ _ _) rfl
    · exact .inr rfl
  next => cases hr; exact (ServedByRow.of_row (i := .commitSlot p _) rfl).withArgs 1 a
  next => cases hr; exact (ServedByRow.of_row (i := .lockSlot p _) rfl).withArgs 1 a
  next => cases hr; exact (ServedByRow.of_row (i := .readSlot p _ _ _) rfl).withArgs 4 a
  next => cases hr; exact (ServedByRow.of_row (i := .storeClear p) rfl).noArgs a
  next => cases hr; exact (ServedByRow.of_row (i := .probeCache p _) rfl).withArgs 1 a
  next => cases hr; exact (ServedByRow.of_row (i := .invalidateCache p) rfl).noArgs a
  next => cases hr

theorem servedByRow_stationRequest (p : PortId) {code : Nat} {a : List Byte} {r : Request}
    (hr : stationRequest code a = some r) : ServedByRow p r.allowed r.serveOwner := by
  unfold stationRequest at hr
  split at hr
  next => cases hr; exact (ServedByRow.of_row (i := .getCorrection p _) rfl).withArgs 2 a
  next => cases hr; exact (ServedByRow.of_row (i := .printAbort p _) rfl).withArgs 2 a
  next =>
    cases hr
    unfold Request.serveOwner temperaturesForm
    dsimp only
    split
    · exact .of_row (i := .reportTemperatures p _) rfl
    · exact .inr rfl
  next => cases hr; exact (ServedByRow.of_row (i := .readHeatAdvice p) rfl).noArgs a
  next =>
    cases hr
    exact (ServedByRow.of_row (i := .reportTensions p (argWord a 0) (argWord a 2) (argWord a 4) (argWord a 6) (argWord a 8))
      rfl).withArgs 10 a
  next => cases hr; exact (ServedByRow.of_row (i := .readSetpoints p) rfl).noArgs a
  next => cases hr; exact (ServedByRow.of_row (i := .hold p) rfl).noArgs a
  next => cases hr; exact (ServedByRow.of_row (i := .unhold p) rfl).noArgs a
  next => cases hr; exact (ServedByRow.of_row (i := .releaseStop p) rfl).noArgs a
  next => cases hr

/-- Whatever request a frame carries, the owner of a row serves it, or its payload is refused (R192, Table 43). -/
theorem servedByRow_requestOf {p : PortId} {code : Byte} {a : List Byte} {r : Request} (hr : requestOf p code a = some r) :
    ServedByRow p r.allowed r.serveOwner := by
  simp only [requestOf, Option.or_eq_some_iff] at hr
  rcases hr with hr | ⟨-, hr | ⟨-, hr | ⟨-, hr⟩⟩⟩
  · exact servedByRow_generalRequest hr
  · exact servedByRow_productionRequest hr
  · exact servedByRow_storeRequest hr
  · exact servedByRow_stationRequest p hr

end Sys2Proof.Proofs
end

