-- ==== Sys2Proof/Proofs/HoldReasons.lean ====
section
/-!
O57, first part: what UNREADY, STALE and their conditions speak of, and the updates and shared operations that leave it as it is.
-/
namespace Sys2Proof.Proofs

open Sys2Proof.Machine Sys2Proof.Safety

/-! ## The part of the state that the two hold reasons speak of (R86, R131) -/

/-- UNREADY and STALE as the hold reason set has them, the active record, whether there is an unprinted record and the first is
READY, the calender's speed, and whether each table is stale. -/
structure HoldView where
  unready : Bool
  stale : Bool
  active : Option MachineRecord
  first : Option Bool
  vCal : Speed
  hot : Bool
  tight : Bool

/-- That part of a state. -/
def holdView (s : State) : HoldView where
  unready := s.line.hold.unready
  stale := s.line.hold.stale
  active := s.line.active
  first := (firstUnprinted s).map (·.isReady)
  vCal := s.pos.vCal
  hot := (tableStaleSince s.dose.zones).isSome
  tight := (tableStaleSince s.tension.zones).isSome

/-- The condition of UNREADY on the view (R86). -/
theorem unreadyHolds_eq (s : State) :
    unreadyHolds s =
      ((holdView s).active.any fun m => m.holdOnUnready && (holdView s).first.any (!·)) := by
  unfold unreadyHolds
  simp only [holdView, Option.any_map]
  cases s.line.active <;> cases firstUnprinted s <;> simp

/-- The condition of STALE on the view (R131). -/
theorem staleHolds_eq (s : State) :
    staleHolds s =
      ((holdView s).active.any (fun m => decide (m.vMin ≤ (holdView s).vCal.magnitude)) &&
        ((holdView s).hot || (holdView s).tight)) := by
  unfold staleHolds calenderMoving
  simp only [holdView]
  cases s.line.active <;> rfl

/-- UNREADY follows its condition whatever the calender and the tables do (R86). -/
theorem unreadyFollows_of_view {s t : State} {stale hot tight : Bool} {v : Speed}
    (h : holdView t = { holdView s with stale := stale, vCal := v, hot := hot, tight := tight }) (hs : UnreadyFollows s) :
    UnreadyFollows t := by
  unfold UnreadyFollows at *
  rw [unreadyHolds_eq] at *
  rw [h]
  exact (congrArg HoldView.unready h).trans hs

/-- STALE follows its condition whatever the queue does (R131). -/
theorem staleFollows_of_view {s t : State} {unready : Bool} {first : Option Bool}
    (h : holdView t = { holdView s with unready := unready, first := first }) (hs : StaleFollows s) : StaleFollows t := by
  unfold StaleFollows at *
  rw [staleHolds_eq] at *
  rw [h]
  exact (congrArg HoldView.stale h).trans hs

/-- A change that keeps each of the two hold reasons with its condition. -/
structure HoldsKept (s t : State) : Prop where
  unready : UnreadyFollows s → UnreadyFollows t
  stale : StaleFollows s → StaleFollows t

theorem HoldsKept.of_view {s t : State} (h : holdView t = holdView s) : HoldsKept s t :=
  ⟨unreadyFollows_of_view h, staleFollows_of_view h⟩

theorem HoldsKept.refl (s : State) : HoldsKept s s := .of_view rfl

theorem HoldsKept.trans {s t u : State} (h : HoldsKept s t) (g : HoldsKept t u) : HoldsKept s u :=
  ⟨fun hs => g.unready (h.unready hs), fun hs => g.stale (h.stale hs)⟩

/-- A change behind which the view is as before. -/
theorem HoldsKept.view {s t u : State} (h : HoldsKept s t) (g : holdView u = holdView t) : HoldsKept s u := h.trans (.of_view g)

/-- A change of the queue after which UNREADY is brought to its condition (R86). -/
theorem HoldsKept.syncUnready {s t : State} {first : Option Bool} (h : holdView t = { holdView s with first := first }) :
    HoldsKept s (syncUnready t) where
  unready _ := rfl
  stale := staleFollows_of_view (congrArg (fun v : HoldView => { v with unready := unreadyHolds t }) h)

/-- A change of speeds and tables after which STALE is brought to its condition (R131). -/
theorem HoldsKept.syncStale {s t : State} {v : Speed} {hot tight : Bool}
    (h : holdView t = { holdView s with vCal := v, hot := hot, tight := tight }) : HoldsKept s (syncStale t) where
  unready := unreadyFollows_of_view (congrArg (fun v : HoldView => { v with stale := staleHolds t }) h)
  stale _ := rfl

/-- Whatever the change, after which both are brought to their conditions (R50, R86, R131). -/
theorem HoldsKept.synced (s t : State) : HoldsKept s (Machine.syncStale (Machine.syncUnready t)) := ⟨fun _ => rfl, fun _ => rfl⟩

/-! ## The view under each update -/

@[simp] theorem holdView_updatePort (s : State) (p : PortId) (f : Port → Port) : holdView (s.updatePort p f) = holdView s := rfl
@[simp] theorem holdView_updateDir (s : State) (i : SlotId) (f : DirEntry → DirEntry) :
    holdView (s.updateDir i f) = holdView s := rfl
@[simp] theorem holdView_updateInputs (s : State) (f : Inputs → Inputs) : holdView (s.updateInputs f) = holdView s := rfl
@[simp] theorem holdView_updateMark (s : State) (f : MarkUnit → MarkUnit) : holdView (s.updateMark f) = holdView s := rfl
@[simp] theorem holdView_updatePace (s : State) (f : Pace → Pace) : holdView (s.updatePace f) = holdView s := rfl
@[simp] theorem holdView_updateCache (s : State) (f : Cache → Cache) : holdView (s.updateCache f) = holdView s := rfl
@[simp] theorem holdView_updateStore (s : State) (f : Store → Store) : holdView (s.updateStore f) = holdView s := rfl
@[simp] theorem holdView_updateRecords (s : State) (f : RecordQueue → RecordQueue) :
    holdView (s.updateRecords f) = holdView s := rfl
@[simp] theorem holdView_raise (s : State) (k : Attn) : holdView (s.raise k) = holdView s := rfl
@[simp] theorem holdView_answer (s : State) (p : PortId) (c : Byte) (r : Reply) : holdView (s.answer p c r) = holdView s := rfl
@[simp] theorem holdView_freeStore (s : State) : holdView (freeStore s) = holdView s := rfl
@[simp] theorem holdView_hold (op : StoreOp) (s : State) : holdView (hold op s) = holdView s := rfl
@[simp] theorem holdView_markDamaged (i : SlotId) (s : State) : holdView (markDamaged i s) = holdView s := rfl
@[simp] theorem holdView_setRecordPending (i : SlotId) (s : State) : holdView (setRecordPending i s) = holdView s := rfl
@[simp] theorem holdView_answerLater (p : PortId) (c : Byte) (r : Reply) (s : State) :
    holdView (answerLater p c r s) = holdView s := rfl

@[simp] theorem holdView_raiseIf (s : State) (c : Bool) (k : Attn) : holdView (s.raiseIf c k) = holdView s := by
  cases c <;> rfl

@[simp] theorem holdView_reevaluate (s : State) : holdView (reevaluate s) = holdView s := by
  obtain ⟨e, n, h, w, form⟩ := reevaluate_changes s
  rw [form]
  rfl

@[simp] theorem holdView_paceNominal (s : State) : holdView (paceNominal s) = holdView s := by
  unfold paceNominal
  split <;> rfl

@[simp] theorem holdView_paceAtEdge (s : State) : holdView (paceAtEdge s) = holdView s := by
  obtain ⟨g, form⟩ := paceAtEdge_frame s
  rw [form]
  rfl

@[simp] theorem holdView_programRows (rows : List StagingRow) (s : State) : holdView (programRows rows s) = holdView s := by
  unfold programRows
  induction rows generalizing s with
  | nil => rfl
  | cons r rest ih => rw [List.foldl_cons, ih]; rfl

@[simp] theorem holdView_commitEffects (i : SlotId) (s : State) : holdView (commitEffects i s) = holdView s := by
  simp [commitEffects]

/-- The positions that a count moves leave the speeds to the window (R30). -/
theorem holdView_updatePos (s : State) {f : Position → Position} (h : (f s.pos).vCal = s.pos.vCal) :
    holdView (s.updatePos f) = holdView s := by
  unfold holdView
  rw [State.updatePos_pos, h]
  rfl

/-- Changes of the dose unit beside its table. -/
theorem holdView_updateDose (s : State) {f : Dose → Dose} (h : (f s.dose).zones = s.dose.zones) :
    holdView (s.updateDose f) = holdView s := by
  unfold holdView
  rw [State.updateDose_dose, h]
  rfl

/-- Changes of the tension unit beside its table. -/
theorem holdView_updateTension (s : State) {f : Tension → Tension} (h : (f s.tension).zones = s.tension.zones) :
    holdView (s.updateTension f) = holdView s := by
  unfold holdView
  rw [State.updateTension_tension, h]
  rfl

@[simp] theorem holdView_judgeLost (s : State) : holdView (judgeLost s).1 = holdView s := by
  unfold judgeLost
  split
  · exact holdView_updateTension s rfl
  · rfl

@[simp] theorem holdView_recomputeAdvice (s : State) : holdView (recomputeAdvice s) = holdView s :=
  (holdView_raiseIf _ _ _).trans (holdView_updateDose s rfl)

/-! ## Records that wait alike -/

/-- A record as unprinted and as READY as another. -/
def WaitsAlike (new old : Panel) : Prop :=
  new.unprinted = old.unprinted ∧ new.isReady = old.isReady

theorem WaitsAlike.refl (r : Panel) : WaitsAlike r r := ⟨rfl, rfl⟩

theorem WaitsAlike.trans {a b c : Panel} (h : WaitsAlike a b) (g : WaitsAlike b c) : WaitsAlike a c :=
  ⟨h.1.trans g.1, h.2.trans g.2⟩

theorem WaitsAlike.of_state {a b : Panel} (h : a.state = b.state) : WaitsAlike a b :=
  ⟨by rw [Panel.unprinted, Panel.unprinted, h], by rw [Panel.isReady, Panel.isReady, h]⟩

/-- Printed records do not wait. -/
theorem WaitsAlike.of_printed {a b : Panel} (ha : a.unprinted = false) (hb : b.unprinted = false) : WaitsAlike a b := by
  have unready {r : Panel} (h : r.unprinted = false) : r.isReady = false :=
    Bool.eq_false_iff.mpr fun ready => by simp [unprinted_of_isReady ready] at h
  exact ⟨ha.trans hb.symm, (unready ha).trans (unready hb).symm⟩

theorem waitsAlike_flag (r : Panel) (f : Flag) : WaitsAlike (r.flag f) r := .of_state rfl

theorem waitsAlike_flagIf (r : Panel) (c : Bool) (f : Flag) : WaitsAlike (r.flagIf c f) r := by
  cases c
  · exact .refl r
  · exact waitsAlike_flag r f

theorem waitsAlike_missMark (r : Panel) : WaitsAlike r.missMark r := .of_state rfl

theorem waitsAlike_compareLength (m : MachineRecord) (r : Panel) : WaitsAlike (r.compareLength m) r := by
  unfold Panel.compareLength
  split
  · exact waitsAlike_flagIf _ _ _
  · exact .refl r

theorem waitsAlike_fetch (r : Panel) : WaitsAlike r.fetch r := by
  unfold Panel.fetch
  split
  · rename_i h
    simp [WaitsAlike, Panel.unprinted, Panel.isReady, h]
  · exact .refl r

theorem waitsAlike_arrive (r : Panel) : WaitsAlike r.arrive r := by
  unfold Panel.arrive
  split
  · rename_i h
    exact .of_printed rfl (by rw [Panel.unprinted, h])
  · rename_i h
    exact .of_printed rfl (by rw [Panel.unprinted, h])
  · exact .refl r

/-- Only a printed record has an open trail to close (R10). -/
theorem waitsAlike_closeTrail {r : Panel} (h : r.openTrail = true) (x : Nat) : WaitsAlike (r.closeTrail x) r := by
  have printed : r.unprinted = false := by simpa [Panel.printed] using (openTrail_iff.mp h).1
  refine .of_printed ?_ printed
  unfold Panel.closeTrail
  split
  · rename_i h
    rw [Panel.unprinted, h]
  · rfl

theorem waitsAlike_tickPanel (m : MachineRecord) (zs : List (Nat × Bool)) (x : Nat) (v : Speed) (halted : Bool) (r : Panel) :
    WaitsAlike (tickPanel m zs x v halted r) r := by
  unfold tickPanel
  exact (waitsAlike_flagIf _ _ _).trans <| (waitsAlike_flagIf _ _ _).trans <| (waitsAlike_flagIf _ _ _).trans <|
    (waitsAlike_flagIf _ _ _).trans <| (waitsAlike_flagIf _ _ _).trans <| .of_state rfl

/-- The view of a state whose queue has been changed, and nothing else that it speaks of. -/
theorem holdView_queue (s : State) {l : List Panel}
    (h : (l.find? (·.unprinted)).map (·.isReady) = (s.queue.find? (·.unprinted)).map (·.isReady)) :
    holdView { s with queue := l } = holdView s :=
  congrArg (fun first => { holdView s with first := first }) h

/-- Records changed into ones that wait alike leave the first unprinted one in its place, as READY as it was. -/
theorem holdView_mapPanels (s : State) {c : Panel → Bool} {f : Panel → Panel} (h : ∀ r, c r = true → WaitsAlike (f r) r) :
    holdView (s.mapPanels c f) = holdView s := by
  have alike (r : Panel) : WaitsAlike (if c r then f r else r) r := by
    split
    · exact h r ‹_›
    · exact .refl r
  refine holdView_queue s ?_
  rw [List.find?_map, Option.map_map]
  exact congr (congrArg _ (funext fun r => (alike r).2))
    (congrArg (List.find? · s.queue) (funext fun r => (alike r).1))

theorem holdView_flag (s : State) (c : Panel → Bool) (f : Flag) : holdView (s.mapPanels c (·.flag f)) = holdView s :=
  holdView_mapPanels s fun r _ => waitsAlike_flag r f

/-- A queue without some of its printed records. -/
theorem holdView_filter (s : State) {keep : Panel → Bool} (h : ∀ r, r.unprinted = true → keep r = true) :
    holdView { s with queue := s.queue.filter keep } = holdView s := by
  refine holdView_queue s ?_
  have picks (r : Panel) : decide (keep r = true ∧ r.unprinted = true) = r.unprinted := by
    cases hu : r.unprinted
    · simp
    · simp [h r hu]
  rw [List.find?_filter]
  simp only [picks]

/-! ## The shared operations -/

@[simp] theorem holdView_raiseCause (s : State) (c : StopCause) : holdView (raiseCause s c) = holdView s := by
  unfold raiseCause
  split
  · rfl
  · exact (holdView_raise _ _).trans (holdView_flag _ _ _)
  · exact holdView_flag _ _ _

@[simp] theorem holdView_closeEvent (b s : State) (cs : List StopCause) : holdView (closeEvent b s cs) = holdView s := by
  unfold closeEvent
  rw [holdView_raiseIf]
  exact foldl_raiseCause_keeps holdView holdView_raiseCause _ s

@[simp] theorem holdView_offerRecord (s : State) (k : TransferRecord) : holdView (offerRecord s k) = holdView s := by
  unfold offerRecord offerToFull appendRecord
  split
  · split
    · simp
    · split <;> simp
  · rfl

@[simp] theorem holdView_completeOne (s : State) (r : Panel) : holdView (completeOne s r) = holdView s := by
  unfold completeOne
  rw [holdView_offerRecord, holdView_raiseIf]
  exact holdView_updateDose s rfl

/-- Completion takes TRANSFERRING records from the queue, which are printed (R18). -/
@[simp] theorem holdView_completeRecords (m : MachineRecord) (s : State) : holdView (completeRecords m s) = holdView s := by
  have fold (l : List Panel) : ∀ t, holdView (l.foldl completeOne t) = holdView t := by
    induction l with
    | nil => exact fun _ => rfl
    | cons r rest ih => exact fun t => (ih _).trans (holdView_completeOne t r)
  have kept (r : Panel) (hu : r.unprinted = true) : (!completes m s.pos.xNip r) = true := by
    unfold completes
    split
    · rename_i h _
      simp [Panel.unprinted, h] at hu
    · rfl
  exact (fold _ _).trans (holdView_filter s kept)

theorem holdView_closeOpenTrail (m : MachineRecord) {f : Panel → Panel} (hf : ∀ r, WaitsAlike (f r) r) (s : State) :
    holdView (closeOpenTrail m f s) = holdView s :=
  (holdView_completeRecords m _).trans
    (holdView_mapPanels s fun _ h => (hf _).trans (waitsAlike_closeTrail h s.pos.xPrint))

@[simp] theorem holdView_nipArrival (s : State) : holdView (nipArrival s).1 = holdView s :=
  holdView_mapPanels s fun r _ => waitsAlike_arrive r

/-! ### Coordinates and marks -/

@[simp] theorem holdView_evaluateFill (m : MachineRecord) (s : State) : holdView (evaluateFill m s).1 = holdView s := by
  unfold evaluateFill fillHighAfter
  rw [holdView_raiseIf]
  simp only [holdView, State.updateHold_line, State.updatePos_line]
  split
  · rfl
  · split <;> rfl

@[simp] theorem holdView_nipChanged (m : MachineRecord) (s : State) : holdView (nipChanged m s).1 = holdView s := by
  refine (holdView_mapPanels _ fun r _ => waitsAlike_missMark r).trans ?_
  rw [holdView_completeRecords, holdView_nipArrival, holdView_evaluateFill]

theorem holdView_printCount (d : Direction) (s : State) : holdView (printCount d s).1 = holdView s := by
  unfold printCount
  split
  · split
    · cases d with
      | forward =>
        simp only [printForward]
        split
        · rfl
        · split
          · exact (holdView_updatePace _ _).trans (holdView_updatePos s rfl)
          · rw [holdView_updatePace, holdView_evaluateFill, holdView_updatePos s rfl]
      | reverse =>
        simp only [printReverse]
        split
        · exact (holdView_updatePace _ _).trans (holdView_updatePos s rfl)
        · split
          · rfl
          · rw [holdView_updatePace, holdView_evaluateFill, holdView_updatePos s rfl]
    · rfl
  · rfl

theorem holdView_nipCount (d : Direction) (s : State) : holdView (nipCount d s).1 = holdView s := by
  unfold nipCount
  split
  · split
    · cases d with
      | forward =>
        simp only [nipForward]
        split
        · exact holdView_updatePos s rfl
        · split
          · split
            · exact holdView_updatePos s rfl
            · exact (holdView_nipChanged _ _).trans (holdView_updatePos s rfl)
          · exact (holdView_nipChanged _ _).trans (holdView_updatePos s rfl)
      | reverse =>
        simp only [nipReverse]
        split
        · exact holdView_updatePos s rfl
        · split
          · rfl
          · exact (holdView_nipChanged _ _).trans (holdView_updatePos s rfl)
    · rfl
  · rfl

theorem holdView_matchMark (m : MachineRecord) (code stamp : Nat) (s : State) :
    holdView (matchMark m code stamp s).1 = holdView s := by
  have missed (ids : List Nat) : holdView (missSkipped ids s) = holdView s :=
    holdView_mapPanels s fun r _ => waitsAlike_missMark r
  have seen (id : Nat) (e : Int) (t : State) : holdView (markSeen m id stamp e t).1 = holdView t :=
    (holdView_nipChanged m _).trans <| (holdView_updatePos _ rfl).trans <| (holdView_updateMark _ _).trans
      (holdView_mapPanels t (f := fun r => { r with mark := some (.seen ((correctedNip t e : Int) - t.pos.xNip)) })
        fun _ _ => .of_state rfl)
  have rejected (id : Nat) (t : State) : holdView (markRejected id t).1 = holdView t :=
    (holdView_updateMark _ _).trans <|
      holdView_mapPanels t (f := fun r => { r with mark := some .rejected, flags := addFlag r.flags .markRejected })
        fun _ _ => .of_state rfl
  unfold matchMark
  split
  · rfl
  · dsimp only
    split
    · exact (seen _ _ _).trans (missed _)
    · exact (rejected _ _).trans (missed _)

theorem holdView_markEdge (bit : Bool) (s : State) : holdView (markEdge bit s) = holdView s := by
  have judged (stamp : Nat) (bits : List Bool) (t : State) : holdView (judgeMark stamp bits t).1 = holdView t := by
    unfold judgeMark
    split
    · split
      · rfl
      · split
        · rfl
        · split
          · rfl
          · exact holdView_matchMark _ _ _ t
    · rfl
  unfold markEdge
  dsimp only
  split
  · rfl
  · rw [holdView_closeEvent, judged]
    rfl

theorem holdView_gateFalling (s : State) : holdView (gateFalling s) = holdView s := by
  unfold gateFalling takeFallingEdge
  split
  · split
    · rw [holdView_paceNominal]
      exact holdView_closeOpenTrail _ (waitsAlike_compareLength _) s
    · rfl
  · rfl

/-! ### Ticks, windows and the clock -/

theorem holdView_doseTick (s : State) : holdView (doseTick s) = holdView s := by
  unfold doseTick tickQueue
  dsimp only
  split
  · split
    · rw [holdView_raiseIf]
      exact (holdView_mapPanels _ fun r _ => waitsAlike_tickPanel _ _ _ _ _ r).trans (holdView_updateDose s rfl)
    · exact holdView_updateDose s rfl
  · exact holdView_updateDose s rfl

theorem holdView_evaluateSlip (s : State) : holdView (evaluateSlip s) = holdView s := by
  unfold evaluateSlip
  split
  · split
    · dsimp only
      split
      · exact (holdView_flag _ _ _).trans (holdView_updatePos s rfl)
      · exact holdView_updatePos s rfl
    · exact holdView_updatePos s rfl
  · exact holdView_updatePos s rfl

/-- A millisecond moves ages, not the standing of a zone (R98, R119). -/
theorem holdView_idle (s : State) : holdView (idle s) = holdView s := by
  have older (zones : List Zone) : tableStaleSince (zones.map Zone.older) = tableStaleSince zones := by
    unfold tableStaleSince
    rw [List.filterMap_map]
    rfl
  unfold idle
  split
  · exact congrArg₂ (fun hot tight : Option Nat => { holdView s with hot := hot.isSome, tight := tight.isSome })
      (older s.dose.zones) (older s.tension.zones)
  · rfl

/-! ## What an event ends with -/

theorem HoldsKept.reevaluate {s t : State} (h : HoldsKept s t) : HoldsKept s (reevaluate t) := h.view (holdView_reevaluate t)

theorem HoldsKept.closeEvent {s t : State} (h : HoldsKept s t) (b : State) (cs : List StopCause) :
    HoldsKept s (closeEvent b t cs) := h.view (holdView_closeEvent b t cs)

end Sys2Proof.Proofs
end

