-- ==== Sys2Proof/Proofs/HoldReasonsKept.lean ====
section
/-!
O57: every request and every event of the part keeps UNREADY and STALE with their conditions.
-/
namespace Sys2Proof.Proofs

open Sys2Proof.Machine Sys2Proof.Safety

/-! ## Grants and store operations (R142, R145) -/

/-- An erase's grant returns READY records to QUEUED and then brings UNREADY to its condition (R145, R86). -/
theorem holdsKept_grantErase (p : PortId) (i : SlotId) (s : State) : HoldsKept s (grantErase p i s) := by
  unfold grantErase
  exact HoldsKept.reevaluate (.syncUnready rfl)

theorem holdsKept_startRequest (r : StoreRequest) (s : State) : HoldsKept s (startRequest r s) := by
  cases r with
  | erase p i =>
    rw [startRequest]
    split
    · exact .of_view (holdView_answerLater _ _ _ _)
    · exact holdsKept_grantErase p i s
  | _ => exact .of_view rfl

theorem holdView_grantFill (s : State) : holdView (grantFill s) = holdView s := by
  unfold grantFill
  split
  · dsimp only
    split <;> simp
  · rfl

theorem holdsKept_grantWaiting (s : State) : HoldsKept s (grantWaiting s) := by
  refine (HoldsKept.of_view (holdView_grantFill s)).trans ?_
  unfold grantWaiting grantRequest
  split
  · exact (HoldsKept.of_view (holdView_updateStore _ _)).trans (holdsKept_startRequest _ _)
  · exact .refl _

/-- A grant to whatever waits, as an event of its own (R142). -/
theorem holdsKept_granted (b s : State) : HoldsKept s (closeEvent b (grantWaiting s) []) :=
  (holdsKept_grantWaiting s).closeEvent _ _

theorem holdsKept_askStore (r : StoreRequest) (s : State) : HoldsKept s (askStore r s).st :=
  (HoldsKept.of_view (holdView_updateStore s _)).trans (holdsKept_grantWaiting _)

/-- The end of a store operation that leaves the view (R143). -/
theorem holdsKept_endOperation {s t : State} (b : State) (p : PortId) (c : Byte) (r : Reply) (h : holdView t = holdView s) :
    HoldsKept s (endOperation b p c r t) :=
  (HoldsKept.of_view ((holdView_answerLater p c r t).trans h)).trans (holdsKept_granted b _)

theorem holdsKept_endFill (i : SlotId) (s : State) : HoldsKept s (endFill i s) := by
  refine (HoldsKept.of_view ?_).trans (holdsKept_granted s _)
  rw [holdView_reevaluate]
  split <;> rfl

theorem holdsKept_endCommit (p : PortId) (i : SlotId) (rows : List StagingRow) (s : State) :
    HoldsKept s (endCommit p i rows s) := by
  unfold endCommit
  dsimp only
  split
  · split <;> exact holdsKept_endOperation _ _ _ _ (by simp)
  · exact holdsKept_endOperation _ _ _ _ (by simp)

theorem holdsKept_endLock (p : PortId) (i : SlotId) (s : State) : HoldsKept s (endLock p i s) := by
  unfold endLock
  dsimp only
  split <;> exact holdsKept_endOperation _ _ _ _ (by simp)

/-- A completed line clear brings both reasons to their conditions under the new record (R50). -/
theorem holdsKept_judgeLineClear (p : PortId) (span : Nat) (s : State) : HoldsKept s (judgeLineClear p span s) := by
  have ended {t : State} (r : Reply) (h : HoldsKept s t) : HoldsKept s (endLineClear s p r t) :=
    (h.view (holdView_answer t p 0x23 r)).trans (holdsKept_granted s _)
  unfold judgeLineClear
  dsimp only
  split
  · split
    · exact ended _ (.of_view (holdView_freeStore s))
    · rw [clearLine_eq]
      exact ended _ (.synced _ _)
  · exact ended _ (.of_view (holdView_markDamaged _ _))

/-! ## Requests (R190 to R192) -/

/-- An owner that keeps the hold reasons with their conditions. -/
def OwnerHolds (owner : State → Served) : Prop :=
  ∀ s, HoldsKept s (owner s).st

theorem OwnerHolds.of_view {owner : State → Served} (h : ∀ s, holdView (owner s).st = holdView s) : OwnerHolds owner :=
  fun s => .of_view (h s)

theorem ownerHolds_readPanel (id : BitVec 16) : OwnerHolds (readPanelOwner id) := .of_view fun s => by
  unfold readPanelOwner
  split <;> rfl

theorem ownerHolds_readRecords (n : Byte) : OwnerHolds (readRecordsOwner n) := .of_view fun s => by
  unfold readRecordsOwner
  split <;> rfl

theorem ownerHolds_stop : OwnerHolds stopOwner := .of_view fun s => by
  unfold stopOwner
  split <;> rfl

/-- The announced record waits, and UNREADY follows it (R6, R86). -/
theorem ownerHolds_announce (jobId : BitVec 32) (slot : Byte) (length : BitVec 32) (width : BitVec 16) (coverage : List Byte) :
    OwnerHolds (announceOwner jobId slot length width coverage) := by
  intro s
  unfold announceOwner
  split
  · exact .refl s
  · split
    · exact HoldsKept.reevaluate (.syncUnready rfl)
    · exact .refl s
    · exact .refl s

theorem holdsKept_removeUnprinted (id : Nat) (s : State) : HoldsKept s (removeUnprinted id s) :=
  HoldsKept.reevaluate (.syncUnready rfl)

theorem ownerHolds_withdraw (id : BitVec 16) : OwnerHolds (withdrawOwner id) := by
  intro s
  unfold withdrawOwner
  split
  · exact .refl s
  · split
    · exact holdsKept_removeUnprinted _ s
    · exact .refl s

theorem ownerHolds_scrap (id : BitVec 16) : OwnerHolds (scrapOwner id) := by
  intro s
  unfold scrapOwner
  split
  · exact .refl s
  · split
    · exact holdsKept_removeUnprinted _ s
    · exact .of_view (holdView_flag _ _ _)

theorem ownerHolds_lineClear (p : PortId) (span : BitVec 32) : OwnerHolds (lineClearOwner p span) := by
  intro s
  unfold lineClearOwner
  split
  · exact .refl s
  · split
    · exact .refl s
    · exact holdsKept_askStore _ s

theorem ownerHolds_setTrim (trim : BitVec 16) : OwnerHolds (setTrimOwner trim) := .of_view fun s => holdView_updateDose s rfl

theorem ownerHolds_ackRecords (n : Byte) : OwnerHolds (ackRecordsOwner n) := .of_view fun s => by
  unfold ackRecordsOwner
  split <;> rfl

theorem ownerHolds_setRecordQueue (mode watermark filter : Byte) :
    OwnerHolds (setRecordQueueOwner mode watermark filter) := .of_view fun s => by
  unfold setRecordQueueOwner
  split
  · split <;> rfl
  · rfl

theorem ownerHolds_erase (p : PortId) (slot : Byte) : OwnerHolds (eraseOwner p slot) := by
  intro s
  unfold eraseOwner
  split
  · exact .refl s
  · split
    · exact .refl s
    · split
      · exact .refl s
      · exact holdsKept_askStore _ s

theorem ownerHolds_write (p : PortId) (slot : Byte) (offset : BitVec 16) (data : List Byte) :
    OwnerHolds (writeOwner p slot offset data) := by
  intro s
  unfold writeOwner
  split
  · exact .refl s
  · split
    · exact .refl s
    · split
      · exact .refl s
      · dsimp only
        split
        · exact .of_view (holdView_updateStore _ _)
        · exact holdsKept_askStore _ s

theorem ownerHolds_commit (p : PortId) (slot : Byte) : OwnerHolds (commitOwner p slot) := by
  intro s
  unfold commitOwner
  split
  · exact .refl s
  · split
    · exact .refl s
    · exact holdsKept_askStore _ s

theorem ownerHolds_lock (p : PortId) (slot : Byte) : OwnerHolds (lockOwner p slot) := by
  intro s
  unfold lockOwner
  split
  · exact .refl s
  · split
    · exact .refl s
    · split
      · exact .refl s
      · exact holdsKept_askStore _ s

theorem ownerHolds_readSlot (p : PortId) (slot : Byte) (offset : BitVec 16) (n : Byte) :
    OwnerHolds (readSlotOwner p slot offset n) := by
  intro s
  unfold readSlotOwner
  split
  · exact .refl s
  · split
    · exact .refl s
    · exact holdsKept_askStore _ s

theorem ownerHolds_storeClear (p : PortId) : OwnerHolds (storeClearOwner p) := by
  intro s
  unfold storeClearOwner
  split
  · exact .refl s
  · split
    · exact .refl s
    · exact holdsKept_askStore _ s

theorem ownerHolds_probeCache (slot : Byte) : OwnerHolds (probeCacheOwner slot) := .of_view fun s => by
  unfold probeCacheOwner
  split
  · split <;> rfl
  · rfl

theorem ownerHolds_invalidateCache : OwnerHolds invalidateCacheOwner := .of_view fun _ => holdView_reevaluate _

theorem ownerHolds_getCorrection (id : BitVec 16) : OwnerHolds (getCorrectionOwner id) := .of_view fun s => by
  unfold getCorrectionOwner
  split
  · rfl
  · split
    · exact holdView_mapPanels s fun r _ => waitsAlike_fetch r
    · rfl

theorem ownerHolds_printAbort (id : BitVec 16) : OwnerHolds (printAbortOwner id) := .of_view fun s => by
  unfold printAbortOwner
  split
  · split
    · exact (holdView_paceNominal _).trans (holdView_closeOpenTrail _ (fun r => waitsAlike_flag r .scrapped) s)
    · rfl
  · rfl

/-- The temperature table changed, with the rest of the view as it was. -/
theorem holdView_doseTable (s : State) (f : Dose → Dose) :
    holdView (s.updateDose f) = { holdView s with hot := (tableStaleSince (f s.dose).zones).isSome } := rfl

theorem holdView_clearLostTemperature (s : State) : holdView (clearLostTemperature s) = holdView s :=
  holdView_updateTension s (f := fun t =>
    { t with lostTemperature := t.lostTemperature && (tableStaleSince s.dose.zones).isSome }) rfl

/-- A report changes the temperature table, and STALE follows it (R99, R131). -/
theorem ownerHolds_reportTemperatures (values : List (BitVec 16)) : OwnerHolds (reportTemperaturesOwner values) := by
  intro s
  unfold reportTemperaturesOwner
  split
  · exact .refl s
  · split
    · exact .syncStale ((holdView_clearLostTemperature _).trans (holdView_doseTable _ _))
    · exact .refl s

theorem ownerHolds_readHeatAdvice : OwnerHolds readHeatAdviceOwner := .of_view holdView_recomputeAdvice

theorem holdView_checkExcursion (m : MachineRecord) (reading : Bool) (s : State) :
    holdView (checkExcursion m reading s) = holdView s := by
  unfold checkExcursion
  split
  · exact holdView_flag _ _ _
  · rfl

/-- The tension table changed, with the rest of the view as it was. -/
theorem holdView_tensionTable (s : State) (f : Tension → Tension) :
    holdView (s.updateTension f) =
      { holdView s with tight := (tableStaleSince (f s.tension).zones).isSome } := rfl

/-- A second change of the tension table, after which STALE is brought to its condition. -/
theorem HoldsKept.tensionTable {s t : State} {tight : Bool} (f : Tension → Tension)
    (h : holdView t = { holdView s with tight := tight }) : HoldsKept s (Machine.syncStale (t.updateTension f)) :=
  .syncStale ((holdView_tensionTable t f).trans
    (congrArg (fun v : HoldView => { v with tight := (tableStaleSince (f t.tension).zones).isSome }) h))

/-- A report changes the tension table, and STALE follows it (R120, R131). -/
theorem ownerHolds_reportTensions (v : Tensions) (diameter : Nat) : OwnerHolds (reportTensionsOwner v diameter) := by
  intro s
  unfold reportTensionsOwner
  split
  · exact .refl s
  · exact .tensionTable _ ((holdView_checkExcursion _ _ _).trans (holdView_tensionTable s _))

theorem ownerHolds_releaseStop : OwnerHolds releaseStopOwner := .of_view fun s => by
  unfold releaseStopOwner
  split
  · split <;> rfl
  · rfl

/-- The owner of every request row keeps the hold reasons with their conditions. -/
theorem ownerHolds_of_row {i : Instr} {p : PortId} {code : Byte} {allowed : Role → Bool} {owner : State → Served}
    (row : requestRow i = some (p, code, allowed, owner)) : OwnerHolds owner := by
  cases i with
  | readPanel p id => cases row; exact ownerHolds_readPanel id
  | readRecords p n => cases row; exact ownerHolds_readRecords n
  | stop p => cases row; exact ownerHolds_stop
  | announcePanel p jobId slot length width coverage => cases row; exact ownerHolds_announce _ _ _ _ _
  | withdrawPanel p id => cases row; exact ownerHolds_withdraw id
  | scrapPanel p id => cases row; exact ownerHolds_scrap id
  | lineClear p span => cases row; exact ownerHolds_lineClear p span
  | setTrim p trim => cases row; exact ownerHolds_setTrim trim
  | ackRecords p n => cases row; exact ownerHolds_ackRecords n
  | setRecordQueue p mode watermark filter => cases row; exact ownerHolds_setRecordQueue _ _ _
  | eraseSlot p slot => cases row; exact ownerHolds_erase p slot
  | writeSlot p slot offset data => cases row; exact ownerHolds_write p slot offset data
  | commitSlot p slot => cases row; exact ownerHolds_commit p slot
  | lockSlot p slot => cases row; exact ownerHolds_lock p slot
  | readSlot p slot offset n => cases row; exact ownerHolds_readSlot p slot offset n
  | storeClear p => cases row; exact ownerHolds_storeClear p
  | probeCache p slot => cases row; exact ownerHolds_probeCache slot
  | invalidateCache p => cases row; exact ownerHolds_invalidateCache
  | getCorrection p id => cases row; exact ownerHolds_getCorrection id
  | printAbort p id => cases row; exact ownerHolds_printAbort id
  | reportTemperatures p values => cases row; exact ownerHolds_reportTemperatures values
  | readHeatAdvice p => cases row; exact ownerHolds_readHeatAdvice
  | reportTensions p a b c d e => cases row; exact ownerHolds_reportTensions _ _
  | releaseStop p => cases row; exact ownerHolds_releaseStop
  | _ => cases row <;> exact .of_view fun _ => rfl

theorem holdsKept_serve {owner : State → Served} (h : OwnerHolds owner) (p : PortId) (code : Byte) (allowed : Role → Bool)
    (s : State) : HoldsKept s (serve p code allowed owner s) := by
  unfold serve
  split
  · refine ((HoldsKept.of_view (holdView_updatePort s p Port.accept)).trans (h _)).view ?_
    rw [holdView_closeEvent, holdView_answer]
  · exact .of_view rfl

theorem holdsKept_takeRequest {owner : State → Served} (h : OwnerHolds owner) (p : PortId) (code : Byte)
    (allowed : Role → Bool) (s : State) : HoldsKept s (takeRequest p code allowed owner s) := by
  unfold takeRequest
  split
  · exact holdsKept_serve h p code allowed s
  · exact .refl s

theorem ServedByRow.holds {p : PortId} {allowed : Role → Bool} {owner : State → Served} (h : ServedByRow p allowed owner) :
    OwnerHolds owner := by
  rcases h with ⟨i, code, row⟩ | rfl
  · exact ownerHolds_of_row row
  · exact .of_view fun _ => rfl

theorem holdsKept_judgeFrame (p : PortId) (stream : List Byte) (s : State) : HoldsKept s (judgeFrame p stream s) := by
  unfold judgeFrame acceptFrame
  dsimp only
  split
  · exact .of_view rfl
  · split
    · exact holdsKept_serve (servedByRow_requestOf ‹_›).holds _ _ _ s
    · exact .of_view rfl

theorem holdsKept_judgeStream (p : PortId) (busy : Bool) (stream : List Byte) (s : State) :
    HoldsKept s (judgeStream p busy stream s) := by
  unfold judgeStream
  split
  · exact .refl s
  · exact holdsKept_judgeFrame _ _ s

/-! ## The part's own events -/

/-- Device reset leaves no reason and no record (R167, R185). -/
theorem holdsKept_deviceReset (cause : ResetCause) (s : State) : HoldsKept s (deviceReset cause s) := by
  rcases deviceReset_cases cause s with ⟨-, e⟩ | ⟨-, -, e⟩ | ⟨-, -, e⟩ <;> rw [e]
  · exact ⟨fun _ => rfl, fun _ => rfl⟩
  · exact .of_view rfl
  · exact .refl s

/-- The scan loads the active record and then brings both reasons to their conditions (R140). -/
theorem holdsKept_endScan (s : State) : HoldsKept s (endScan s) :=
  (HoldsKept.synced s _).closeEvent _ _

/-- A rising edge starts the first unprinted record, and UNREADY follows the next (R11, R86). -/
theorem holdsKept_takeRisingEdge (m : MachineRecord) (s : State) : HoldsKept s (takeRisingEdge m s) := by
  have started (held : Bool) (t : State) : ∃ first, holdView (startNext held t).1 = { holdView t with first := first } := by
    unfold startNext
    split
    · exact ⟨_, rfl⟩
    · split <;> exact ⟨_, rfl⟩
  obtain ⟨first, started⟩ := started (holdAsserted s) (closeOpenTrail m (·.flag .gateFault) s)
  rw [holdView_closeOpenTrail m (fun r => waitsAlike_flag r .gateFault) s] at started
  exact ((HoldsKept.syncUnready ((holdView_paceAtEdge _).trans ((holdView_nipArrival _).trans started))).reevaluate).closeEvent
    _ _

theorem holdsKept_gateRising (s : State) : HoldsKept s (gateRising s) := by
  unfold gateRising
  split
  · split
    · exact holdsKept_takeRisingEdge _ s
    · exact .of_view (holdView_raise _ _)
  · exact .of_view (holdView_raise _ _)

/-- A window's expiry takes a new calender speed, and STALE follows it (R30, R131). -/
theorem holdsKept_speedWindow (s : State) : HoldsKept s (Machine.speedWindow s) := by
  have measured : holdView ((evaluateSlip s).updatePos fun x => x.endWindow s.line.active) =
      { holdView s with vCal := speedOf (evaluateSlip s).pos.netCal (resolutions s.line.active).2.1 } :=
    congrArg (fun v : HoldView =>
      { v with vCal := speedOf (evaluateSlip s).pos.netCal (resolutions s.line.active).2.1 }) (holdView_evaluateSlip s)
  have synced : HoldsKept s
      (syncStale (recomputeAdvice ((evaluateSlip s).updatePos fun x => x.endWindow s.line.active))) :=
    .syncStale ((holdView_recomputeAdvice _).trans measured)
  refine synced.view ?_
  unfold Machine.speedWindow
  rw [holdView_closeEvent, holdView_judgeLost]

/-- A stale expiry changes a table, and STALE follows it (R100, R131). -/
theorem holdsKept_expireTemperatures (m : MachineRecord) (s : State) :
    HoldsKept s (closeEvent s (syncStale (expireTemperatures m s)) []) :=
  HoldsKept.closeEvent (.syncStale ((holdView_raiseIf _ _ _).trans (holdView_doseTable _ _))) _ _

theorem holdsKept_expireTensions (m : MachineRecord) (s : State) :
    HoldsKept s (closeEvent s (syncStale (expireTensions m s)) []) :=
  HoldsKept.closeEvent (.syncStale ((holdView_raiseIf _ _ _).trans (holdView_tensionTable _ _))) _ _

theorem HoldsKept.mapPanels (s : State) (c : Panel → Bool) (f : Panel → Panel) :
    HoldsKept s (Machine.syncUnready (s.mapPanels c f)) :=
  .syncUnready rfl

/-- A result makes its record READY, and UNREADY follows (R82, R86). -/
theorem holdsKept_completeComputation (k : Computation) (s : State) : HoldsKept s (completeComputation k s) := by
  have kept : HoldsKept s { s with engine := none } := .of_view rfl
  have written : HoldsKept s (writeResult k { s with engine := none }) :=
    (kept.trans (.mapPanels _ _ _)).view (holdView_raise _ _)
  unfold completeComputation
  refine (HoldsKept.reevaluate ?_).closeEvent _ _
  split
  · split
    · exact written
    · exact kept
  · exact kept

/-! ## Every step -/

/-- Every command keeps the hold reasons with their conditions. -/
theorem exec_holdsKept (i : Instr) (s : State) : ∃ t, exec i s = .next t ∧ HoldsKept s t := by
  have stays : HoldsKept s s := .refl s
  have guarded : ∀ (c : Prop) [Decidable c] (t : State), HoldsKept s t → HoldsKept s (if c then t else s) := by
    intro c _ t ht
    split
    · exact ht
    · exact stays
  have viewed : ∀ (c : Prop) [Decidable c] (t : State), holdView t = holdView s → HoldsKept s (if c then t else s) :=
    fun c _ t ht => guarded c t (.of_view ht)
  cases row : requestRow i with
  | some r =>
    obtain ⟨p, code, allowed, owner⟩ := r
    exact ⟨_, exec_of_requestRow row s, holdsKept_takeRequest (ownerHolds_of_row row) p code allowed s⟩
  | none =>
    cases i with
    | spiTransaction p mosi =>
      refine ⟨_, rfl, ?_⟩
      split
      · exact (HoldsKept.of_view (holdView_updatePort s p _)).trans (holdsKept_judgeStream _ _ _ _)
      · exact .of_view rfl
    | powerOnReset => exact ⟨_, rfl, holdsKept_deviceReset _ s⟩
    | supplyMonitorReset => exact ⟨_, rfl, holdsKept_deviceReset _ s⟩
    | resetnReset => exact ⟨_, rfl, holdsKept_deviceReset _ s⟩
    | resetEnd rolea roleb maint =>
      refine ⟨_, rfl, ?_⟩
      split
      · exact stays
      · exact .of_view rfl
    | startUpScanEnd => exact ⟨_, rfl, guarded _ _ (holdsKept_endScan s)⟩
    | pencCount d =>
      exact ⟨_, rfl, viewed _ _ ((holdView_closeEvent _ _ _).trans
        ((holdView_printCount d _).trans (holdView_updatePos s rfl)))⟩
    | cencCount d =>
      exact ⟨_, rfl, viewed _ _ ((holdView_closeEvent _ _ _).trans
        ((holdView_nipCount d _).trans (holdView_updatePos s rfl)))⟩
    | fencCount d => exact ⟨_, rfl, viewed _ _ (holdView_updatePos s rfl)⟩
    | pacePulseTimer => exact ⟨_, rfl, .of_view (holdView_updatePace _ _)⟩
    | pgateRisingEdge =>
      exact ⟨_, rfl, guarded _ _ ((HoldsKept.of_view (holdView_updateInputs s _)).trans (holdsKept_gateRising _))⟩
    | pgateFallingEdge =>
      exact ⟨_, rfl, viewed _ _ ((holdView_gateFalling _).trans (holdView_updateInputs s _))⟩
    | breaknAssertion => exact ⟨_, rfl, viewed _ _ ((holdView_closeEvent _ _ _).trans (holdView_updateInputs s _))⟩
    | breaknRelease => exact ⟨_, rfl, viewed _ _ (holdView_updateInputs s _)⟩
    | stopinnAssertion => exact ⟨_, rfl, viewed _ _ ((holdView_closeEvent _ _ _).trans (holdView_updateInputs s _))⟩
    | stopinnRelease => exact ⟨_, rfl, viewed _ _ (holdView_updateInputs s _)⟩
    | markWord bit => exact ⟨_, rfl, viewed _ _ (holdView_markEdge bit s)⟩
    | mkclkRisingEdge bit => exact ⟨_, rfl, viewed _ _ (holdView_markEdge bit s)⟩
    | markWordTimeout =>
      refine ⟨_, rfl, ?_⟩
      split
      · exact .of_view rfl
      · exact stays
    | speedWindowExpiry => exact ⟨_, rfl, guarded _ _ (holdsKept_speedWindow s)⟩
    | doseTick => exact ⟨_, rfl, viewed _ _ (holdView_doseTick s)⟩
    | tensionTick =>
      refine ⟨_, rfl, ?_⟩
      split
      · exact .of_view ((holdView_raiseIf _ _ _).trans (holdView_updateTension s rfl))
      · exact stays
    | temperatureStaleExpiry =>
      refine ⟨_, rfl, ?_⟩
      split
      · exact guarded _ _ (holdsKept_expireTemperatures _ s)
      · exact stays
    | tensionStaleExpiry =>
      refine ⟨_, rfl, ?_⟩
      split
      · exact guarded _ _ (holdsKept_expireTensions _ s)
      · exact stays
    | hardStaleExpiry => exact ⟨_, rfl, .of_view ((holdView_closeEvent _ _ _).trans (holdView_judgeLost s))⟩
    | refreshExpiry =>
      refine ⟨_, rfl, ?_⟩
      split
      · exact viewed _ _ (holdView_reevaluate s)
      · exact stays
    | correctionCompletion =>
      refine ⟨_, rfl, ?_⟩
      split
      · exact holdsKept_completeComputation _ s
      · exact stays
    | cacheFillGrant => exact ⟨_, rfl, guarded _ _ (holdsKept_granted s s)⟩
    | eraseSlotGrant => exact ⟨_, rfl, guarded _ _ (holdsKept_granted s s)⟩
    | storeGrant => exact ⟨_, rfl, guarded _ _ (holdsKept_granted s s)⟩
    | storeClearGrant => exact ⟨_, rfl, guarded _ _ (holdsKept_granted s s)⟩
    | cacheFillCompletion =>
      refine ⟨_, rfl, ?_⟩
      split
      · exact holdsKept_endFill _ s
      · exact stays
    | eraseSlotCompletion =>
      refine ⟨_, rfl, ?_⟩
      split
      · exact holdsKept_endOperation _ _ _ _ rfl
      · exact stays
    | writeSlotCompletion =>
      refine ⟨_, rfl, ?_⟩
      split
      · exact holdsKept_endOperation _ _ _ _ (holdView_programRows _ _)
      · exact stays
    | commitSlotCompletion =>
      refine ⟨_, rfl, ?_⟩
      split
      · exact holdsKept_endCommit _ _ _ s
      · exact stays
    | lockSlotCompletion =>
      refine ⟨_, rfl, ?_⟩
      split
      · exact holdsKept_endLock _ _ s
      · exact stays
    | readSlotCompletion =>
      refine ⟨_, rfl, ?_⟩
      split
      · exact holdsKept_endOperation _ _ _ _ rfl
      · exact stays
    | storeClearCompletion =>
      refine ⟨_, rfl, ?_⟩
      split
      · exact holdsKept_endOperation _ _ _ _ (holdView_reevaluate _)
      · exact stays
    | lineClearReadCompletion =>
      refine ⟨_, rfl, ?_⟩
      split
      · exact holdsKept_judgeLineClear _ _ s
      · exact stays
    | quadratureTransitionError e =>
      refine ⟨_, rfl, viewed _ _ (holdView_updatePos s ?_)⟩
      cases e <;> rfl
    | _ => cases row

/-- Every step keeps the hold reasons with their conditions. -/
theorem step_holdsKept {s t : State} (h : step s = .next t) : HoldsKept s t := by
  unfold step at h
  split at h
  · rename_i c rest _
    obtain ⟨u, hu, kept⟩ := exec_holdsKept c { s with pending := rest }
    cases hu.symm.trans h
    have taken : HoldsKept s { s with pending := rest } := .of_view rfl
    exact taken.trans kept
  · cases h
    exact .of_view (holdView_idle s)

/-- Settles O57: each step brings UNREADY and STALE to their conditions wherever it changes what these speak of. -/
theorem everyStepKeepsTheHoldReasons : Obligations.EveryStepKeepsTheHoldReasons :=
  ⟨fun _ _ hs h => (step_holdsKept h).unready hs, fun _ _ hs h => (step_holdsKept h).stale hs⟩

end Sys2Proof.Proofs
end

