-- ==== Sys2Proof/Proofs/CacheRequests.lean ====
section
/-!
O9, O17, O30 and O31: what the entries, a lookup and a victim are, the completion of a fill, and the requests that report the
cache, a correction, the setpoints and the records.
-/
namespace Sys2Proof.Proofs

open Sys2Proof.Machine Sys2Proof.Safety

/-! ## The entries of the cache (R73, R75, R76) -/

/-- The entry found is the lowest that the condition picks. -/
theorem findEntry_eq_some_iff {c : Cache} {pick : Option CacheEntry → Bool} {k : Fin 8} :
    findEntry c pick = some k ↔ pick c.entries[k] = true ∧ ∀ j : Fin 8, j < k → pick c.entries[j] = false := by
  unfold findEntry
  rw [List.find?_eq_some_iff_getElem]
  refine and_congr_right fun _ => ⟨?_, fun lower => ⟨k.val, by simp, by simp, fun j hj => ?_⟩⟩
  · rintro ⟨i, hi, rfl, lower⟩ j hj
    simpa using lower j.val (by simpa [Fin.lt_def] using hj)
  · simpa using lower ⟨j, by omega⟩ hj

/-- The victim is the lowest invalid entry, or with none the entry at the NLU pointer (R75). -/
theorem victim_cases (c : Cache) :
    (c.entries[c.victim] = none ∧ ∀ k : Fin 8, k < c.victim → (c.entries[k]).isSome = true) ∨
      ((∀ k : Fin 8, (c.entries[k]).isSome = true) ∧ c.victim = c.nlu) := by
  cases found : findEntry c (·.isNone) with
  | some v =>
    have victim : c.victim = v := by rw [Cache.victim, found, Option.getD_some]
    obtain ⟨invalid, lower⟩ := findEntry_eq_some_iff.mp found
    simp only [victim]
    exact .inl ⟨Option.isNone_iff_eq_none.mp invalid, fun k hk => by simpa [Option.isSome_iff_ne_none] using lower k hk⟩
  | none =>
    have victim : c.victim = c.nlu := by rw [Cache.victim, found, Option.getD_none]
    refine .inr ⟨fun k => ?_, victim⟩
    simpa [Option.isSome_iff_ne_none] using List.find?_eq_none.mp found k (List.mem_finRange k)

/-- A fill writes the victim's entry and no other (R75). -/
theorem fill_entry (c : Cache) (e : CacheEntry) (k : Fin 8) :
    (c.fill e).entries[k] = if k = c.victim then some e else c.entries[k] := by
  unfold Cache.fill
  by_cases h : k = c.victim
  · simp [h]
  · have ne : ¬ c.victim.val = k.val := fun hv => h (Fin.ext hv.symm)
    simp [h, ne]

theorem clear_entry (c : Cache) (k : Fin 8) : c.clear.entries[k] = none := by simp [Cache.clear]

/-- The lowest entry that holds a slot is what a lookup finds (R73). -/
theorem lookup_of_lowest {c : Cache} {slot : SlotId} {k : Fin 8} {e : CacheEntry} (entry : c.entries[k] = some e)
    (named : e.slot = slot) (lower : ∀ j : Fin 8, j < k → ∀ f, c.entries[j] = some f → f.slot ≠ slot) :
    lookup c slot = some (k, e) := by
  have found : findEntry c (fun x => decide (x.map (·.slot) = some slot)) = some k := by
    refine findEntry_eq_some_iff.mpr ⟨by simp [entry, named], fun j hj => ?_⟩
    cases hf : c.entries[j] with
    | none => rfl
    | some f => simpa using lower j hj f hf
  rw [lookup, found, Option.bind_some, entry, Option.map_some]

/-! ## The completion of a fill (R75) -/

/-- What a fill's read leaves on the freed store: the slot's entry in the cache, or the slot DAMAGED. -/
def judgeFill (slot : SlotId) (s : State) : State :=
  if slotCrcHolds s.store.array slot then
    (freeStore s).updateCache fun c =>
      c.fill { slot := slot, generation := (dirEntry s slot).generation, profile := parseProfile s.store.array slot }
  else markDamaged slot (freeStore s)

/-- With nothing unprinted and nothing waiting, the completion of a fill is its judgement. -/
theorem exec_fillCompletion {s : State} {i : SlotId} (holds : s.store.holder = some (.fill i))
    (noFill : s.store.fillWaiting = none) (noRequest : s.store.requestWaiting = none) (empty : s.queue = [])
    (valid : (dirEntry s i).state = .valid) :
    exec .cacheFillCompletion s = .next (judgeFill i s) := by
  have crc : readPasses s i = slotCrcHolds s.store.array i := by simp [readPasses, valid]
  have kept : (judgeFill i s).queue = [] ∧ (judgeFill i s).line = s.line ∧ (judgeFill i s).store.fillWaiting = none ∧
      (judgeFill i s).store.requestWaiting = none := by
    unfold judgeFill
    split <;> exact ⟨empty, rfl, noFill, noRequest⟩
  obtain ⟨queue, line, fill, request⟩ := kept
  have settled : closeEvent s (grantWaiting (reevaluate (judgeFill i s))) [] = judgeFill i s := by
    rw [reevaluate_of_printed (by simp [queue]), grantWaiting_idle fill request, closeEvent_nil_of_line line]
  change execCacheFillCompletion s = _
  rw [← settled, execCacheFillCompletion, holds, judgeFill, ← crc]
  rfl

/-- Settles O30: the judgement of the read, in the two outcomes of its CRC. -/
theorem fillCompletion : Obligations.FillCompletion := by
  intro s i holds noFill noRequest empty valid
  refine ⟨_, exec_fillCompletion holds noFill noRequest empty valid, fun passes => ?_, fun fails => ?_⟩
  · have judged : judgeFill i s = (freeStore s).updateCache fun c =>
        c.fill { slot := i, generation := (dirEntry s i).generation, profile := parseProfile s.store.array i } :=
      if_pos passes
    rw [judged]
    refine ⟨s.cache.victim, victim_cases s.cache, ?_, fun k other => ?_, val_nextEntry _, rfl, portsRaise_of_ports rfl⟩
    · exact (fill_entry _ _ _).trans (if_pos rfl)
    · exact (fill_entry _ _ _).trans (if_neg other)
  · have judged : judgeFill i s = markDamaged i (freeStore s) := if_neg (by simp [fails])
    have line (j : SlotId) :
        dirEntry (markDamaged i (freeStore s)) j = if j = i then (dirEntry s i).without .damaged else dirEntry s j :=
      dirEntry_updateDir (freeStore s) i (·.without .damaged) j
    rw [judged]
    refine ⟨?_, fun j other => (line j).trans (if_neg other), rfl, portsRaise_raise s .profileDamaged⟩
    rw [line, if_pos rfl]
    rfl

/-! ## INVALIDATE_CACHE (R77) -/

/-- Settles O31: the cleared cache leaves the scheduler nothing to do where no record is unprinted. -/
theorem invalidateCacheEmptiesIt : Obligations.InvalidateCacheEmptiesIt := by
  intro s p serves printed
  have nothing : invalidateCacheOwner (s.updatePort p Port.accept) =
      Served.of ((s.updatePort p Port.accept).updateCache Cache.clear) (.done []) := by
    rw [invalidateCacheOwner, reevaluate_of_printed]
    exact fun r hr => by rw [Panel.printed, printed r hr]; rfl
  obtain ⟨frame, answer⟩ := takeRequest_raised (code := 0x37) (owner := invalidateCacheOwner) serves rfl nothing rfl
    (portsRaise_of_ports rfl) rfl
  refine ⟨_, rfl, fun k => ?_, ?_, ?_, answer⟩
  · rw [frame]
    exact clear_entry s.cache k
  · rw [frame]
    rfl
  · rw [frame]
    rfl

/-! ## GET_CORRECTION (R84, Table 45) -/

theorem fetch_of_ready {r : Panel} {fetched : Bool} {time : Nat} {due : Bool} (h : r.state = .ready fetched time due) :
    r.fetch = { r with state := .ready true time false } := by
  rw [Panel.fetch, h]

theorem getCorrectionOwner_none {s : State} {id : BitVec 16} (h : findPanel s id.toNat = none) :
    getCorrectionOwner id s = Served.refuse s .noSuchPanel := by
  rw [getCorrectionOwner, h]

theorem getCorrectionOwner_uncorrected {s : State} {id : BitVec 16} {r : Panel} (h : findPanel s id.toNat = some r)
    (hc : r.correction = none) : getCorrectionOwner id s = Served.refuse s .notReady := by
  simp only [getCorrectionOwner, h, hc]

theorem getCorrectionOwner_corrected {s : State} {id : BitVec 16} {r : Panel} {c : Correction}
    (h : findPanel s id.toNat = some r) (hc : r.correction = some c) :
    getCorrectionOwner id s =
      Served.of (s.mapPanels (fun q => decide (q.id = id.toNat)) Panel.fetch) (.done (correctionPayload r c)) := by
  simp only [getCorrectionOwner, h, hc]

/-- Settles O17: the record the id names and its correction decide the answer. -/
theorem getCorrectionFetches : Obligations.GetCorrectionFetches := by
  intro s p id serves
  refine ⟨_, rfl, fun r c found corrected => ?_, fun r found uncorrected => ?_, fun missing => ?_⟩
  · obtain ⟨frame, answer⟩ := takeRequest_raised (code := 0x40) serves rfl
      (getCorrectionOwner_corrected (s := s.updatePort p Port.accept) found corrected) rfl (portsRaise_of_ports rfl) rfl
    have fetched : (takeRequest p 0x40 onlyPrint (getCorrectionOwner id) s).queue =
        s.queue.map fun q => if q.id = id.toNat then q.fetch else q := by
      rw [frame]
      simp [State.mapPanels]
    refine ⟨fetched, fun f time due ready => by rw [fetch_of_ready ready], ?_, answer⟩
    rw [frame]
    rfl
  · exact takeRequest_refused (code := 0x40) serves rfl
      (getCorrectionOwner_uncorrected (s := s.updatePort p Port.accept) found uncorrected)
  · exact takeRequest_refused (code := 0x40) serves rfl
      (getCorrectionOwner_none (s := s.updatePort p Port.accept) missing)

end Sys2Proof.Proofs
end

