-- ==== Sys2Proof/Proofs/StationReports.lean ====
section
/-!
O9: READ_RECORDS, READ_SETPOINTS and PROBE_CACHE, field by field.
-/
namespace Sys2Proof.Proofs

open Sys2Proof.Machine Sys2Proof.Safety

/-! ## Presence fields (R194) -/

theorem presence_two (a b : Bool) : presence 2 [a, b] = leBytes 2 (a.toNat + 2 * b.toNat) := rfl

theorem presence_four (a b c d : Bool) :
    presence 2 [a, b, c, d] = leBytes 2 (a.toNat + 2 * b.toNat + 4 * c.toNat + 8 * d.toNat) := by
  simp only [presence, List.foldr_cons, List.foldr_nil]
  congr 1
  omega

/-! ## READ_RECORDS (R177) -/

theorem readRecordsOwner_within {n : Byte} (low : 1 ≤ n.toNat) (high : n.toNat ≤ 4) (s : State) :
    readRecordsOwner n s = Served.of s (.done (recordsPayload n.toNat s.records)) :=
  if_pos ⟨low, high⟩

theorem readRecordsOwner_outside {n : Byte} (h : n.toNat = 0 ∨ 4 < n.toNat) (s : State) :
    readRecordsOwner n s = Served.refuse s .badArg :=
  if_neg (by omega)

theorem recordEntry_eq : recordEntry = fun k =>
    leBytes 2 (k.jobId.isSome.toNat + 2 * k.syncError.isSome.toNat + 4 * k.qPred.isSome.toNat + 8 * k.qAct.isSome.toNat) ++
      leBytes 2 k.id ++ leBytes 4 ((k.jobId.getD 0).toNat) ++ leBytes 1 ((k.slot.map (·.val)).getD 0) ++
      leBytes 2 (k.generation.getD 0) ++ leBytes 1 k.outcome.code ++ leBytes 4 k.flags.toNat ++
      leBytes 4 k.lead ++ leBytes 4 k.trail ++ leBytes 4 k.length ++ leSigned 4 (k.syncError.getD 0) ++
      leBytes 2 (k.qPred.getD 0) ++ leBytes 4 k.dAct ++ leBytes 4 k.probeMin ++ leBytes 4 k.probeMax ++
      leBytes 2 (k.qAct.getD 0) := by
  funext k
  rw [recordEntry, presence_four]
  rfl

/-! ## READ_SETPOINTS (R126) -/

/-- A setpoint in units of 0.01 N/m, rounded to N/m. -/
theorem roundNat_hundred (n : Nat) : roundNat n 100 = (n + 50) / 100 := by
  unfold roundNat
  omega

/-- The setpoints as reported, given the bytes of the governing id and of the diameter used. -/
theorem setpointsPayload_eq {s : State} {ids used : List Byte} {bits : Nat}
    (present : presence 2 [(governing s).isSome, (s.line.active.map fun m => usedDiameter m s.tension.diameter).isSome] =
      leBytes 2 bits)
    (id : leOption 2 ((governing s).map (·.1.id)) = ids)
    (diameter : leOption 2 (s.line.active.map fun m => usedDiameter m s.tension.diameter) = used) :
    setpointsPayload s = leBytes 2 bits ++
      leBytes 2 ((s.tension.setpoints.paperIn + 50) / 100) ++ leBytes 2 s.tension.targets.paperIn ++
      leBytes 2 ((s.tension.setpoints.fabricUnwind + 50) / 100) ++ leBytes 2 s.tension.targets.fabricUnwind ++
      leBytes 2 ((s.tension.setpoints.calIn + 50) / 100) ++ leBytes 2 s.tension.targets.calIn ++
      leBytes 2 ((s.tension.setpoints.fabricRewind + 50) / 100) ++ leBytes 2 s.tension.targets.fabricRewind ++
      indication (decide (s.tension.setpoints.paperIn = 100 * s.tension.targets.paperIn)) ++
      indication (decide (s.tension.setpoints.fabricUnwind = 100 * s.tension.targets.fabricUnwind)) ++
      indication (decide (s.tension.setpoints.calIn = 100 * s.tension.targets.calIn)) ++
      indication (decide (s.tension.setpoints.fabricRewind = 100 * s.tension.targets.fabricRewind)) ++
      ids ++ indication s.tension.governed ++ used ++ leBytes 4 (s.pos.xPrint - s.pos.xNip) := by
  unfold setpointsPayload
  simp only [present, id, diameter, setpointFields, reachedField, roundNat_hundred, State.fill, List.append_assoc]

/-! ## PROBE_CACHE (R77) -/

/-- The probe of a slot of 1 to 31 reports what a lookup finds. -/
theorem probeCacheOwner_slot {slot : Byte} {i : SlotId} (named : slot.toNat = i.val) (low : 1 ≤ slot.toNat) (s : State) :
    probeCacheOwner slot s = Served.of s (.done (
      presence 2 [(lookup s.cache i).isSome, (fillInFlight s).isSome] ++ indication (lookup s.cache i).isSome ++
        hitFields (lookup s.cache i) ++ leBytes 1 s.cache.nlu.val ++ fillFields (fillInFlight s))) := by
  simp only [probeCacheOwner, slotOf_eq_some named]
  exact if_neg (by omega)

theorem probeCacheOwner_noSlot {slot : Byte} (h : slot.toNat = 0 ∨ 31 < slot.toNat) (s : State) :
    probeCacheOwner slot s = Served.refuse s .badArg := by
  rcases h with zero | high
  · simp only [probeCacheOwner, slotOf_eq_some (i := 0) zero]
    rfl
  · rw [probeCacheOwner, slotOf_eq_none high]

theorem fillFields_some (w : SlotId) (reading : Bool) :
    fillFields (some (w, reading)) = leBytes 1 w.val ++ indication reading :=
  congrArg (leBytes 1 w.val ++ ·) (by cases reading <;> rfl : leBytes 1 reading.toNat = indication reading)

/-- The fields of the fill in flight: none, waiting or reading. -/
theorem fillFields_cases {s : State} {fill : List Byte} {bit : Nat}
    (h : (s.store.fillWaiting = none ∧ (∀ w, s.store.holder ≠ some (.fill w)) ∧ bit = 0 ∧ fill = [0, 0]) ∨
      (∃ w, s.store.fillWaiting = some w ∧ bit = 2 ∧ fill = leBytes 1 w.val ++ [0]) ∨
      (∃ w, s.store.fillWaiting = none ∧ s.store.holder = some (.fill w) ∧ bit = 2 ∧ fill = leBytes 1 w.val ++ [1])) :
    2 * (fillInFlight s).isSome.toNat = bit ∧ fillFields (fillInFlight s) = fill := by
  rcases h with ⟨waiting, holder, rfl, rfl⟩ | ⟨w, waiting, rfl, rfl⟩ | ⟨w, waiting, holder, rfl, rfl⟩
  · rw [fillInFlight_eq_none_iff.mpr ⟨waiting, holder⟩]
    exact ⟨rfl, rfl⟩
  · have flight : fillInFlight s = some (w, false) := by rw [fillInFlight, waiting]
    rw [flight]
    exact ⟨rfl, fillFields_some w false⟩
  · have flight : fillInFlight s = some (w, true) := by rw [fillInFlight, waiting, holder]
    rw [flight]
    exact ⟨rfl, fillFields_some w true⟩

/-- The report of a probe that hits entry k. -/
theorem probeFields_hit {hit : Option (Fin 8 × CacheEntry)} {k : Fin 8} {e : CacheEntry} {flight : Bool} {bit : Nat}
    (h : hit = some (k, e)) (hb : 2 * flight.toNat = bit) :
    presence 2 [hit.isSome, flight] ++ indication hit.isSome ++ hitFields hit =
      leBytes 2 (1 + bit) ++ [1] ++ leBytes 1 k.val ++ leBytes 2 e.generation := by
  rw [h, presence_two, hb, List.append_assoc _ (leBytes 1 k.val)]
  rfl

/-- The report of a probe that misses. -/
theorem probeFields_miss {hit : Option (Fin 8 × CacheEntry)} {flight : Bool} {bit : Nat} (h : hit = none)
    (hb : 2 * flight.toNat = bit) :
    presence 2 [hit.isSome, flight] ++ indication hit.isSome ++ hitFields hit = leBytes 2 bit ++ [0, 0, 0, 0] := by
  rw [h, presence_two, hb, List.append_assoc]
  exact congrArg (leBytes 2 · ++ [0, 0, 0, 0]) (Nat.zero_add bit)

/-! ## The three reports -/

theorem probeCache_reports {s : State} {p : PortId} {slot : Byte} {fill : List Byte} {bit : Nat}
    (serves : Serves s p onlyProduction) (low : 1 ≤ slot.toNat) (high : slot.toNat ≤ 31)
    (flying : 2 * (fillInFlight s).isSome.toNat = bit ∧ fillFields (fillInFlight s) = fill) :
    ∃ t, exec (.probeCache p slot) s = .next t ∧ t = { s with ports := t.ports } ∧
      (∀ (k : Fin 8) (e : CacheEntry), s.cache.entries[k] = some e → e.slot.val = slot.toNat →
        (∀ j : Fin 8, j < k → ∀ f, s.cache.entries[j] = some f → f.slot.val ≠ slot.toNat) →
        PortsAnswer s t p (doneFrame 0x36
          (leBytes 2 (1 + bit) ++ [1] ++ leBytes 1 k.val ++ leBytes 2 e.generation ++ leBytes 1 s.cache.nlu.val ++ fill)) 0) ∧
      ((∀ (k : Fin 8) (e : CacheEntry), s.cache.entries[k] = some e → e.slot.val ≠ slot.toNat) →
        PortsAnswer s t p (doneFrame 0x36
          (leBytes 2 bit ++ [0, 0, 0, 0] ++ leBytes 1 s.cache.nlu.val ++ fill)) 0) := by
  obtain ⟨i, named⟩ : ∃ i : SlotId, slot.toNat = i.val := ⟨⟨slot.toNat, by omega⟩, rfl⟩
  obtain ⟨flight, fields⟩ := flying
  have same {e : CacheEntry} : e.slot.val = slot.toNat ↔ e.slot = i := by rw [named, Fin.val_inj]
  obtain ⟨frame, answer⟩ := takeRequest_unchanged (code := 0x36) serves rfl
    (probeCacheOwner_slot named low (s.updatePort p Port.accept)) rfl
  refine ⟨_, rfl, frame, fun k e entry slotOf lower => ?_, fun misses => ?_⟩
  · have hit : lookup s.cache i = some (k, e) :=
      lookup_of_lowest entry (same.mp slotOf) fun j hj f hf => mt same.mpr (lower j hj f hf)
    rw [← fields, ← probeFields_hit hit flight]
    exact answer
  · have miss : lookup s.cache i = none := lookup_eq_none_iff.mpr fun k e entry => mt same.mpr (misses k e entry)
    rw [← fields, ← probeFields_miss miss flight]
    exact answer

/-- Settles O9: each report is its payload, and a request outside its range is refused. -/
theorem stationReportsChangeNothing : Obligations.StationReportsChangeNothing := by
  intro s p
  refine ⟨fun n serves low high => ?_, fun n serves outside => ?_, fun serves => ?_,
    fun slot fill bit serves low high flying => ?_, fun slot serves outside => ?_⟩
  · obtain ⟨frame, answer⟩ := takeRequest_unchanged (code := 0x15) serves rfl (readRecordsOwner_within low high _) rfl
    refine ⟨_, rfl, frame, ?_⟩
    rw [← recordEntry_eq]
    exact answer
  · exact ⟨_, rfl, takeRequest_refused (code := 0x15) serves rfl (readRecordsOwner_outside outside _)⟩
  · obtain ⟨frame, answer⟩ := takeRequest_unchanged (code := 0x61) (owner := readSetpointsOwner) serves rfl rfl rfl
    refine ⟨_, setpointsPayload s, rfl, frame, answer, fun ids used bits shown => ?_⟩
    rcases shown with ⟨noId, noRecord, rfl, rfl, rfl⟩ | ⟨m, noId, active, rfl, rfl, rfl⟩ |
      ⟨m, r, c, governs, active, rfl, rfl, rfl⟩
    · exact setpointsPayload_eq (by rw [noId, noRecord]; rfl) (by rw [noId]; exact leOption_none 2)
        (by rw [noRecord]; exact leOption_none 2)
    · exact setpointsPayload_eq (by rw [noId, active]; rfl) (by rw [noId]; exact leOption_none 2) (by rw [active]; rfl)
    · exact setpointsPayload_eq (by rw [governs, active]; rfl) (by rw [governs]; rfl) (by rw [active]; rfl)
  · exact probeCache_reports serves low high (fillFields_cases flying)
  · exact ⟨_, rfl, takeRequest_refused (code := 0x36) serves rfl (probeCacheOwner_noSlot outside _)⟩

end Sys2Proof.Proofs
end

