-- ==== Sys2Proof/Proofs/StartUpScan.lean ====
section
/-!
O7: what the scan reads of slot 0, what loading it changes, and the end of the scan.
-/
namespace Sys2Proof.Proofs

open Sys2Proof.Machine Sys2Proof.Safety

/-! ## Blank slots (R135, R139) -/

/-- A canonical array reads at a listed address what it lists there. -/
theorem read_of_mem {m : Memory} {c : Host.Cell} (canonical : Memory.wf m = true) (listed : c ∈ m) :
    Memory.read m c.1 = c.2 := by
  induction m with
  | nil => cases listed
  | cons d rest ih =>
    have above := (List.pairwise_cons.mp ((Memory.wf_iff _).mp canonical).1).1
    rcases List.mem_cons.mp listed with rfl | later
    · simp [Memory.read]
    · have ne : c.1 ≠ d.1 := Nat.ne_of_gt (above c later)
      rw [Memory.read, if_neg ne]
      exact ih (Memory.wf_tail canonical) later

/-- An address that does not read FFh is listed. -/
theorem mem_of_read_ne {m : Memory} {a : Nat} (h : Memory.read m a ≠ erasedByte) : (a, Memory.read m a) ∈ m := by
  induction m with
  | nil => exact absurd rfl h
  | cons d rest ih =>
    simp only [Memory.read] at h ⊢
    split at h
    · rename_i same
      simp [same]
    · rename_i other
      rw [if_neg other]
      exact List.mem_cons_of_mem _ (ih h)

/-- The scan's test for a blank slot is that every byte reads FFh (R139). -/
theorem slotBlank_iff {m : Memory} {slot : SlotId} (canonical : Memory.wf m = true) :
    slotBlank m slot = true ↔ ∀ off < 1024, slotByte m slot off = 0xFF := by
  simp only [slotBlank, Bool.not_eq_true', List.any_eq_false, decide_eq_true_eq]
  constructor
  · intro blank off inside
    by_contra shown
    exact blank _ (mem_of_read_ne shown) ⟨Nat.le_add_right _ _, Nat.add_lt_add_left inside _, shown⟩
  · rintro erased c listed ⟨low, high, shown⟩
    have reads := erased (c.1 - slotBase slot) (by omega)
    rw [slotByte, Nat.add_sub_cancel' low, read_of_mem canonical listed] at reads
    exact shown reads

/-! ## Slot 0 by its header (R139) -/

/-- Slot 0's header holds exactly where its format code is that of a machine record. -/
theorem headerHolds_zero (m : Memory) : headerHolds m 0 = true ↔ slotByte m 0 2 = 0x4D := by
  simp [headerHolds, formatCode, ← BitVec.toNat_inj]

/-- Committed and with its format code, slot 0 is LOCKED or VALID by its mark. -/
theorem scannedState_committed {m : Memory} (canonical : Memory.wf m = true) (mark : slotByte m 0 0 = 0x3C)
    (format : slotByte m 0 2 = 0x4D) : scannedState m 0 = if slotByte m 0 1 = 0xC3 then .locked else .valid := by
  have written : ¬ slotBlank m 0 = true := fun blank => by
    have erased := (slotBlank_iff canonical).mp blank 0 (by decide)
    rw [mark] at erased
    exact absurd erased (by decide)
  simp [scannedState, written, mark, (headerHolds_zero m).mpr format, committedState]

/-- Not committed or without its format code, slot 0 is ERASED where it is blank, else DAMAGED. -/
theorem scannedState_uncommitted {m : Memory} (h : ¬ (slotByte m 0 0 = 0x3C ∧ slotByte m 0 2 = 0x4D)) :
    scannedState m 0 = if slotBlank m 0 then .erased else .damaged := by
  rw [scannedState]
  by_cases mark : slotByte m 0 0 = 0x3C
  · have header : headerHolds m 0 = false := Bool.eq_false_iff.mpr fun holds => h ⟨mark, (headerHolds_zero m).mp holds⟩
    simp [mark, header]
  · rw [if_pos mark]

/-! ## Slot 0 checked (R140) -/

/-- The directory that the scan fills. Irreducible, so that no proof by rfl about another field computes its 32 lines. -/
@[irreducible] def scannedDir (m : Memory) : Vector DirEntry 32 := Vector.ofFn (scannedEntry m)

/-- The part running with its directory filled, before slot 0 is checked. -/
def scannedPart (s : State) : State :=
  { s with
    resetUnit := { s.resetUnit with phase := .running }
    line := { s.line with recordPending := false }
    store := { s.store with dir := scannedDir s.store.array } }

theorem scanSlots_startRunning (s : State) : scanSlots (startRunning s) = scannedPart s := by
  rw [scannedPart, scannedDir]
  rfl

theorem dirEntry_scannedPart (s : State) (slot : SlotId) :
    dirEntry (scannedPart s) slot = scannedEntry s.store.array slot := by
  simp [dirEntry, scannedPart, scannedDir]

@[simp] theorem scannedEntry_state (m : Memory) (slot : SlotId) : (scannedEntry m slot).state = scannedState m slot := rfl

@[simp] theorem scannedPart_array (s : State) : (scannedPart s).store.array = s.store.array := rfl

theorem slotUsable_scannedPart (s : State) :
    slotUsable (scannedPart s) 0 =
      decide (scannedState s.store.array 0 = .valid ∨ scannedState s.store.array 0 = .locked) := by
  rw [slotUsable, dirEntry_scannedPart, scannedEntry_state]

theorem readPasses_scannedPart (s : State) :
    readPasses (scannedPart s) 0 =
      (decide (scannedState s.store.array 0 = .locked) || slotCrcHolds s.store.array 0) := by
  rw [readPasses, dirEntry_scannedPart, scannedEntry_state, scannedPart_array]

/-- What checking slot 0 can do: load its record, find it damaged, or nothing. -/
theorem loadSlotZero_cases (s : State) :
    loadSlotZero s = loadRecord (parseMachineRecord s.store.array 0) s ∨ loadSlotZero s = markDamaged 0 s ∨
      loadSlotZero s = s := by
  unfold loadSlotZero
  split
  · split
    · exact .inl rfl
    · exact .inr (.inl rfl)
  · exact .inr (.inr rfl)

/-- A committed slot 0 that is locked or whose CRC holds is loaded. -/
theorem loadSlotZero_loads {s : State} (canonical : ArrayCanonical s) (mark : slotByte s.store.array 0 0 = 0x3C)
    (format : slotByte s.store.array 0 2 = 0x4D)
    (passes : slotByte s.store.array 0 1 = 0xC3 ∨ slotCrcHolds s.store.array 0 = true) :
    loadSlotZero (scannedPart s) = loadRecord (parseMachineRecord s.store.array 0) (scannedPart s) := by
  have state := scannedState_committed canonical mark format
  have usable : slotUsable (scannedPart s) 0 = true := by
    rw [slotUsable_scannedPart, state]
    split <;> rfl
  have checked : readPasses (scannedPart s) 0 = true := by
    rw [readPasses_scannedPart, state]
    rcases passes with locked | crc
    · simp [locked]
    · simp [crc]
  rw [loadSlotZero, if_pos usable, if_pos checked, scannedPart_array]

/-- A committed slot 0 that is not locked and whose CRC fails is found damaged. -/
theorem loadSlotZero_damages {s : State} (canonical : ArrayCanonical s) (mark : slotByte s.store.array 0 0 = 0x3C)
    (format : slotByte s.store.array 0 2 = 0x4D) (unlocked : slotByte s.store.array 0 1 ≠ 0xC3)
    (fails : slotCrcHolds s.store.array 0 = false) : loadSlotZero (scannedPart s) = markDamaged 0 (scannedPart s) := by
  have state := scannedState_committed canonical mark format
  rw [if_neg unlocked] at state
  have usable : slotUsable (scannedPart s) 0 = true := by simp [slotUsable_scannedPart, state]
  have checked : ¬ readPasses (scannedPart s) 0 = true := by simp [readPasses_scannedPart, state, fails]
  rw [loadSlotZero, if_pos usable, if_neg checked]

/-- A slot 0 that is not committed leaves the part without a record. -/
theorem loadSlotZero_absent {s : State} (h : ¬ (slotByte s.store.array 0 0 = 0x3C ∧ slotByte s.store.array 0 2 = 0x4D)) :
    loadSlotZero (scannedPart s) = scannedPart s := by
  have unusable : ¬ slotUsable (scannedPart s) 0 = true := by
    rw [slotUsable_scannedPart, scannedState_uncommitted h]
    split <;> simp
  rw [loadSlotZero, if_neg unusable]

/-- The nominal threshold is the pitch (R90). -/
theorem nominalThreshold_eq_pitch (m : MachineRecord) : nominalThreshold m = m.pitch :=
  roundNat_of_isRounded (by decide) (by unfold IsRounded; omega)

/-! ## The end of the scan (R140, R186) -/

theorem exec_startUpScanEnd {s : State} (scanning : s.resetUnit.phase = .scanning) :
    exec .startUpScanEnd s = .next (endScan s) :=
  congrArg Host.Outcome.next (if_pos scanning)

theorem endScan_eq (s : State) :
    endScan s = closeEvent s (syncStale (syncUnready (loadSlotZero (scannedPart s)))) [] := by
  rw [endScan, scanSlots_startRunning]

/-- UNREADY and STALE where their conditions have them are brought nowhere. -/
theorem synced_of_follows {s : State} (unready : UnreadyFollows s) (stale : StaleFollows s) :
    syncStale (syncUnready s) = s := by
  have noUnready : syncUnready s = s := by
    rw [syncUnready, ← unready]
    rfl
  rw [noUnready, syncStale, ← stale]
  rfl

/-- Where the check of slot 0 leaves the hold reasons and what they follow as they were, the scan ends with it. -/
theorem endScan_of_holdView {s w : State} (checked : loadSlotZero (scannedPart s) = w) (view : holdView w = holdView s)
    (state : w.line.state = s.line.state) (hold : w.line.hold = s.line.hold) (unready : UnreadyFollows s)
    (stale : StaleFollows s) : endScan s = w := by
  have kept : HoldsKept s w := .of_view view
  have level : holdAsserted s = holdAsserted w := by rw [holdAsserted, holdAsserted, state, hold]
  rw [endScan_eq, checked, synced_of_follows (kept.unready unready) (kept.stale stale), closeEvent_nil, level,
    bne_self_eq_false]
  rfl

/-- The scan ends with slot 0 checked, UNREADY and STALE by their conditions, and HOLD_CHANGED by the level of HOLDn. -/
theorem endScan_form (s : State) :
    endScan s =
      { loadSlotZero (scannedPart s) with
        line :=
          { (loadSlotZero (scannedPart s)).line with
            hold :=
              { (loadSlotZero (scannedPart s)).line.hold with
                unready := unreadyHolds (endScan s), stale := staleHolds (endScan s) } }
        ports := (endScan s).ports } ∧
      PortsRaise (loadSlotZero (scannedPart s)) (endScan s) (holdKind s (endScan s)) := by
  have frame := closeEvent_nil_frame s (syncStale (syncUnready (loadSlotZero (scannedPart s))))
  have raised := portsRaise_closeEvent_nil s (syncStale (syncUnready (loadSlotZero (scannedPart s))))
  rw [← endScan_eq] at frame raised
  refine ⟨of_synced frame, ?_⟩
  rw [holdKind_of_line (t := endScan s) (congrArg State.line frame)]
  exact raised

/-- Whatever slot 0 holds, the part runs with nothing pending for it, and of the store the directory alone is new. -/
theorem endScan_runs (s : State) :
    (endScan s).running = true ∧ (endScan s).line.recordPending = false ∧
      (endScan s).store = { s.store with dir := (endScan s).store.dir } := by
  have checked : (loadSlotZero (scannedPart s)).running = true ∧
      (loadSlotZero (scannedPart s)).line.recordPending = false ∧
      (loadSlotZero (scannedPart s)).store = { s.store with dir := (loadSlotZero (scannedPart s)).store.dir } := by
    rcases loadSlotZero_cases (scannedPart s) with loaded | damaged | absent
    · rw [loaded]
      exact ⟨rfl, rfl, rfl⟩
    · rw [damaged]
      exact ⟨rfl, rfl, rfl⟩
    · rw [absent]
      exact ⟨rfl, rfl, rfl⟩
  rw [(endScan_form s).1]
  exact checked

/-- The record loaded: every block it feeds at its start-up values, the hold reasons by their conditions (R90, R98, R124,
R125, R140). -/
theorem endScan_loaded {s : State} {m : MachineRecord} (checked : loadSlotZero (scannedPart s) = loadRecord m (scannedPart s)) :
    endScan s =
        { s with
          resetUnit := { s.resetUnit with phase := .running }
          line :=
            { s.line with
              active := some m
              recordPending := false
              hold := { s.line.hold with unready := unreadyHolds (endScan s), stale := staleHolds (endScan s) } }
          dose := { s.dose with zones := List.replicate m.zoneCount { value := 0, age := 0, standing := .stale 0 } }
          pace := { s.pace with threshold := some m.pitch }
          tension :=
            { s.tension with
              targets := defaultTargets m
              setpoints := (defaultTargets m).scaled }
          store := { s.store with dir := (scannedPart s).store.dir }
          ports := (endScan s).ports } ∧
      PortsRaise s (endScan s) (holdKind s (endScan s)) := by
  obtain ⟨form, raised⟩ := endScan_form s
  rw [checked] at form raised
  refine ⟨form.trans ?_, raised⟩
  rw [← nominalThreshold_eq_pitch]
  rfl

/-- Settles O7: slot 0's state by its header, then the scan's end in the three outcomes of its check. -/
theorem scanLoadsSlotZero : Obligations.ScanLoadsSlotZero := by
  intro s committed scanning canonical _ unready stale header
  obtain ⟨running, pending, store⟩ := endScan_runs s
  refine ⟨endScan s, exec_startUpScanEnd scanning, running, pending, store, ?_, ?_, ?_⟩
  · intro m isCommitted isRecord passes
    obtain ⟨mark, format⟩ := header.mp isCommitted
    obtain ⟨form, raised⟩ := endScan_loaded (isRecord ▸ loadSlotZero_loads canonical mark format passes)
    have entry : dirEntry (endScan s) 0 = dirEntry (scannedPart s) 0 := by
      rw [dirEntry, congrArg State.store form]
      rfl
    have state : (dirEntry (endScan s) 0).state = scannedState s.store.array 0 := by
      rw [entry, dirEntry_scannedPart, scannedEntry_state]
    generalize endScan s = t at *
    refine ⟨state.trans (scannedState_committed canonical mark format), ?_, congrArg State.dose form,
      congrArg State.pace form, congrArg State.tension form, congrArg State.line form, ?_, raised⟩ <;> rw [form]
  · intro isCommitted unlocked fails
    obtain ⟨mark, format⟩ := header.mp isCommitted
    rw [endScan_of_holdView (loadSlotZero_damages canonical mark format unlocked fails) rfl rfl rfl unready stale]
    refine ⟨?_, rfl, portsRaise_raise _ .profileDamaged⟩
    rw [(dirEntry_markDamaged _).1]
  · intro uncommitted
    have absent := mt header.mpr uncommitted
    rw [endScan_of_holdView (loadSlotZero_absent absent) rfl rfl rfl unready stale]
    have state : (dirEntry (scannedPart s) 0).state = if slotBlank s.store.array 0 then .erased else .damaged := by
      rw [dirEntry_scannedPart]
      exact scannedState_uncommitted absent
    have blank := slotBlank_iff (slot := 0) canonical
    refine ⟨?_, ?_, rfl, portsRaise_refl _⟩
    · simpa [state] using blank
    · simpa [state] using not_congr blank

end Sys2Proof.Proofs
end

