-- ==== Sys2Proof/Proofs/DoseRequests.lean ====
section
/-!
O18, O34 and O35: the requests on the trim, the temperature table and the heat advice.
-/
namespace Sys2Proof.Proofs

open Sys2Proof.Machine Sys2Proof.Safety

/-- The frame of a reply that says whether a value was clamped (R193). -/
theorem frame_doneOr (clamped : Bool) (fields : List Byte) (code : Byte) :
    (doneOr clamped fields).frame code = some (responseFrame (if clamped = true then 0x81 else 0x80) (code :: fields)) := by
  cases clamped <;> rfl

/-! ## SET_TRIM (R112) -/

theorem clampTrim_ne_iff (x : Int) : clampTrim x ≠ x ↔ ¬ (-250 ≤ x ∧ x ≤ 250) := by
  rw [clampTrim_eq]
  omega

/-- Settles O18: the owner stores the clamped value and answers whether the clamp acted. -/
theorem setTrimClamps : Obligations.SetTrimClamps := by
  intro s p trim serves
  obtain ⟨frame, answer⟩ := takeRequest_raised (code := 0x24) (owner := setTrimOwner trim) serves rfl rfl
    (frame_doneOr _ [] _) (portsRaise_of_ports rfl) rfl
  refine ⟨_, rfl, ?_, ?_, ?_⟩
  · rw [frame]
    exact clampTrim_eq _
  · rw [frame]
    rfl
  · simpa only [decide_eq_true_eq, clampTrim_ne_iff, ite_not] using answer

/-! ## REPORT_TEMPERATURES (R99, R131, R132) -/

/-- The temperature table a report leaves (R99). -/
def reportedZones (zones : List Zone) (values : List (BitVec 16)) : List Zone :=
  List.zipWith (fun z v => z.take 3000 v.toNat) zones values

/-- The state a report of the right length leaves, before STALE and the answer. -/
def tableReported (values : List (BitVec 16)) (s : State) : State :=
  clearLostTemperature (s.updateDose fun d => { d with zones := reportedZones d.zones values })

theorem reportTemperaturesOwner_none {s : State} {values : List (BitVec 16)} (h : s.line.active = none) :
    reportTemperaturesOwner values s = Served.refuse s .noMachineRecord := by
  rw [reportTemperaturesOwner, h]

theorem reportTemperaturesOwner_length {s : State} {values : List (BitVec 16)} {m : MachineRecord}
    (h : s.line.active = some m) (length : values.length ≠ m.zoneCount) :
    reportTemperaturesOwner values s = Served.refuse s .badArg := by
  simp only [reportTemperaturesOwner, h, if_neg length]

theorem reportTemperaturesOwner_taken {s : State} {values : List (BitVec 16)} {m : MachineRecord}
    (h : s.line.active = some m) (length : values.length = m.zoneCount) :
    reportTemperaturesOwner values s =
      Served.of (syncStale (tableReported values s)) (doneOr (values.any fun v => readingClamps 3000 v.toNat) []) := by
  simp only [reportTemperaturesOwner, h, if_pos length]
  rfl

theorem anyClamps_iff (values : List (BitVec 16)) :
    (values.any fun v => readingClamps 3000 v.toNat) = true ↔ ∃ v ∈ values, 3000 < v.toNat ∧ v.toNat ≠ 65535 := by
  simp only [List.any_eq_true, readingClamps, decide_eq_true_eq]

/-- A table has a stale start exactly while a zone of it is not fresh (R100). -/
theorem tableStaleSince_isSome_eq (zones : List Zone) : (tableStaleSince zones).isSome = zones.any fun z => !z.isFresh := by
  rw [Bool.eq_iff_iff, tableStaleSince_isSome, List.any_eq_true]
  simp only [Bool.not_eq_true']

/-- Settles O34: a report of the right length is its table with STALE and the lost indication after it; any other is refused. -/
theorem temperatureReports : Obligations.TemperatureReports := by
  intro s p values serves
  refine ⟨_, rfl, fun m active length zones => ?_, fun m active length => ?_, fun none => ?_⟩
  · obtain ⟨frame, answer⟩ := takeRequest_silent (code := 0x50) serves rfl
      (reportTemperaturesOwner_taken (s := s.updatePort p Port.accept) active length) (frame_doneOr _ [] _) rfl
    simp only [anyClamps_iff] at answer
    generalize takeRequest p 0x50 onlyCalender (reportTemperaturesOwner values) s = t at frame answer ⊢
    have table : t.dose.zones = reportedZones s.dose.zones values := by
      rw [frame]
      rfl
    refine ⟨?_, fun i z v zone value => ?_, ?_, ?_, ?_, ?_⟩
    · rw [table, reportedZones, List.length_zipWith, zones, length, Nat.min_self]
    · rw [table, reportedZones, List.getElem?_zipWith, zone, value]
      rfl
    · rw [frame]
      rfl
    · rw [← tableStaleSince_isSome_eq, frame]
      rfl
    · rw [frame]
      rfl
    · exact answer
  · exact takeRequest_refused (code := 0x50) serves rfl
      (reportTemperaturesOwner_length (s := s.updatePort p Port.accept) active length)
  · exact takeRequest_refused (code := 0x50) serves rfl
      (reportTemperaturesOwner_none (s := s.updatePort p Port.accept) none)

/-! ## READ_HEAT_ADVICE (R115, R116) -/

/-- Settles O35: the owner recomputes the advice of the state as it stands and answers it. -/
theorem heatAdviceRead : Obligations.HeatAdviceRead := by
  intro s p serves
  obtain ⟨ports, form, raised⟩ := recomputeAdvice_eq (s.updatePort p Port.accept)
  obtain ⟨frame, answer⟩ := takeRequest_raised (code := 0x51) (owner := readHeatAdviceOwner) serves rfl rfl rfl raised
    (by rw [form]; rfl)
  rw [form] at frame answer
  have dose : (takeRequest p 0x51 onlyCalender readHeatAdviceOwner s).dose = advisedDose s.dose (currentAdvice s) := by
    rw [frame]
    rfl
  refine ⟨_, adviceKind s.dose.reference (currentAdvice s), rfl, ?_, ?_, ?_⟩
  · rw [frame]
    rfl
  · rw [dose]
    exact answer
  · rw [dose]
    exact adviceRecomputed_current (u := s) (g := id) rfl rfl (List.map_id _).symm fun _ => ⟨rfl, rfl, rfl⟩

end Sys2Proof.Proofs
end

