-- ==== Sys2Proof/Proofs/LearnedValues.lean ====
section
/-!
O58, first part: the line state with its stop record, the trim and the bias, and the operations that leave them as they are.
-/
namespace Sys2Proof.Proofs

open Sys2Proof.Machine Sys2Proof.Safety

/-! ## The part of the state that the promises speak of (R111, R128, R161) -/

/-- The line state, the stop record, the dose trim and the tension bias. -/
structure LearnedView where
  state : LineState
  stop : Option StopRecord
  trim : Int
  bias : Int

/-- That part of a state. -/
def learned (s : State) : LearnedView :=
  { state := s.line.state, stop := s.line.stop, trim := s.dose.trim, bias := s.tension.bias }

theorem learned_eq_iff {s t : State} :
    learned t = learned s ↔ t.line.state = s.line.state ∧ t.line.stop = s.line.stop ∧ t.dose.trim = s.dose.trim ∧
      t.tension.bias = s.tension.bias := by
  simp [learned]

theorem learned_raiseIf (s : State) (c : Bool) (k : Attn) : learned (s.raiseIf c k) = learned s := by simp [learned]

theorem learned_reevaluate (s : State) : learned (reevaluate s) = learned s := by simp [learned]

theorem learned_updateHold (s : State) (f : HoldSet → HoldSet) : learned (s.updateHold f) = learned s := rfl

theorem learned_synced (s : State) : learned (syncStale (syncUnready s)) = learned s := rfl

theorem learned_updatePort (s : State) (p : PortId) (f : Port → Port) : learned (s.updatePort p f) = learned s := rfl

theorem learned_updateInputs (s : State) (f : Inputs → Inputs) : learned (s.updateInputs f) = learned s := rfl

theorem learned_updatePos (s : State) (f : Position → Position) : learned (s.updatePos f) = learned s := rfl

theorem learned_mapPanels (s : State) (c : Panel → Bool) (f : Panel → Panel) : learned (s.mapPanels c f) = learned s := rfl

theorem learned_updatePace (s : State) (f : Pace → Pace) : learned (s.updatePace f) = learned s := rfl

theorem learned_paceNominal (s : State) : learned (paceNominal s) = learned s := by
  unfold paceNominal
  split <;> rfl

theorem learned_paceAtEdge (s : State) : learned (paceAtEdge s) = learned s := by
  obtain ⟨g, form⟩ := paceAtEdge_frame s
  rw [form]
  rfl

theorem learned_programRows (rows : List StagingRow) (s : State) : learned (programRows rows s) = learned s := by
  unfold programRows
  induction rows generalizing s with
  | nil => rfl
  | cons r rest ih => rw [List.foldl_cons, ih]; rfl

theorem learned_commitEffects (i : SlotId) (s : State) : learned (commitEffects i s) = learned s := by
  unfold commitEffects
  rw [learned_reevaluate]
  rfl

theorem learned_judgeLost (s : State) : learned (judgeLost s).1 = learned s := by
  unfold judgeLost
  split <;> rfl

theorem learned_recomputeAdvice (s : State) : learned (recomputeAdvice s) = learned s := by
  obtain ⟨ports, form, -⟩ := recomputeAdvice_eq s
  rw [form]
  rfl

theorem learned_evaluateFill (m : MachineRecord) (s : State) : learned (evaluateFill m s).1 = learned s := by
  unfold evaluateFill
  rw [learned_raiseIf]
  rfl

theorem learned_evaluateSlip (s : State) : learned (evaluateSlip s) = learned s := by
  unfold evaluateSlip
  split
  · split
    · dsimp only
      split
      · exact (learned_mapPanels _ _ _).trans (learned_updatePos s _)
      · exact learned_updatePos s _
    · exact learned_updatePos s _
  · exact learned_updatePos s _

theorem learned_startNext (held : Bool) (s : State) : learned (startNext held s).1 = learned s := by
  unfold startNext
  split
  · rfl
  · split <;> rfl

theorem learned_doseTick (s : State) : learned (doseTick s) = learned s := by
  unfold doseTick
  dsimp only
  split
  · split
    · exact learned_raiseIf _ _ _
    · rfl
  · rfl

theorem learned_printCount (d : Direction) (s : State) : learned (printCount d s).1 = learned s := by
  have filled (m : MachineRecord) (f : Position → Position) (g : Pace → Pace) :
      learned ((evaluateFill m (s.updatePos f)).1.updatePace g) = learned s :=
    (learned_updatePace _ g).trans ((learned_evaluateFill m _).trans (learned_updatePos s f))
  have counted (f : Position → Position) (g : Pace → Pace) : learned ((s.updatePos f).updatePace g) = learned s :=
    (learned_updatePace _ g).trans (learned_updatePos s f)
  unfold printCount
  split
  · split
    · cases d with
      | forward =>
        simp only [printForward]
        split
        · rfl
        · split
          · exact counted _ _
          · exact filled _ _ _
      | reverse =>
        simp only [printReverse]
        split
        · exact counted _ _
        · split
          · rfl
          · exact filled _ _ _
    · rfl
  · rfl

theorem learned_idle (s : State) : learned (idle s) = learned s := by
  unfold idle
  split <;> rfl

/-! ## Grants (R142, R145) -/

theorem learned_grantErase (p : PortId) (i : SlotId) (s : State) : learned (grantErase p i s) = learned s := by
  unfold grantErase
  rw [learned_reevaluate]
  rfl

theorem learned_startRequest (r : StoreRequest) (s : State) : learned (startRequest r s) = learned s := by
  cases r with
  | erase p i =>
    rw [startRequest]
    split
    · rfl
    · exact learned_grantErase p i s
  | _ => rfl

theorem learned_grantWaiting (s : State) : learned (grantWaiting s) = learned s := by
  have fill : learned (grantFill s) = learned s := by
    unfold grantFill
    split
    · dsimp only
      split
      · rfl
      · exact learned_reevaluate _
    · rfl
  rw [← fill]
  unfold grantWaiting grantRequest
  split
  · exact learned_startRequest _ _
  · rfl

theorem learned_askStore (r : StoreRequest) (s : State) : learned (askStore r s).st = learned s := learned_grantWaiting _

end Sys2Proof.Proofs
end

