-- ==== Sys2Proof/Proofs/LearnedValuesKept.lean ====
section
/-!
O58: the stop record follows the line state, and the trim and the bias stay in range, through every request and event.
-/
namespace Sys2Proof.Proofs

open Sys2Proof.Machine Sys2Proof.Safety

/-- A change that keeps each of the three promises. -/
structure LearnedKept (s t : State) : Prop where
  stop : StopRecordFitsLine s → StopRecordFitsLine t
  trim : TrimInRange s → TrimInRange t
  bias : BiasInRange s → BiasInRange t

theorem LearnedKept.of_view {s t : State} (h : learned t = learned s) : LearnedKept s t := by
  obtain ⟨state, stop, trim, bias⟩ := learned_eq_iff.mp h
  refine ⟨fun hs => ?_, fun hs => ?_, fun hs => ?_⟩
  · rwa [StopRecordFitsLine, state, stop]
  · rwa [TrimInRange, trim]
  · rwa [BiasInRange, bias]

theorem LearnedKept.refl (s : State) : LearnedKept s s := .of_view rfl

theorem LearnedKept.trans {s t u : State} (h : LearnedKept s t) (g : LearnedKept t u) : LearnedKept s u :=
  ⟨fun hs => g.stop (h.stop hs), fun hs => g.trim (h.trim hs), fun hs => g.bias (h.bias hs)⟩

/-- A change behind which the view is as before, and one before which it is as after. -/
theorem LearnedKept.after_view {s t u : State} (h : LearnedKept s t) (g : learned u = learned t) : LearnedKept s u :=
  h.trans (.of_view g)

theorem LearnedKept.before_view {s t u : State} (h : LearnedKept t u) (g : learned t = learned s) : LearnedKept s u :=
  (LearnedKept.of_view g).trans h

/-! ## What changes the stop record, the trim and the bias -/

/-- A latch brings a stop record with HALTED, a further cause keeps the one there is, and in UNSET there is none
(R160 to R162). -/
theorem learnedKept_raiseCause (s : State) (c : StopCause) : LearnedKept s (raiseCause s c) where
  stop hs := by
    unfold StopRecordFitsLine
    cases h : s.line.state with
    | unset => rwa [raiseCause_unset c h]
    | tracking => rw [raiseCause_tracking c h]; exact ⟨nofun, fun _ => rfl⟩
    | halted =>
      rw [raiseCause_halted c h, h, Option.isSome_map]
      exact ⟨nofun, fun _ => hs.2 h⟩
  trim hs := by rwa [TrimInRange, raiseCause_dose]
  bias hs := by rwa [BiasInRange, raiseCause_tension]

theorem LearnedKept.closeEvent {s t : State} (h : LearnedKept s t) (b : State) (cs : List StopCause) :
    LearnedKept s (closeEvent b t cs) := by
  have fold : ∀ (cs : List StopCause) (t : State), LearnedKept t (cs.foldl raiseCause t) := by
    intro cs
    induction cs with
    | nil => exact .refl
    | cons c rest ih => exact fun t => (learnedKept_raiseCause t c).trans (ih _)
  exact (h.trans (fold _ t)).after_view (learned_raiseIf _ _ _)

theorem trimInRange_clampTrim (x : Int) : -250 ≤ clampTrim x ∧ clampTrim x ≤ 250 := by
  rw [clampTrim_eq]
  omega

/-- An evaluated record leaves the trim, or moves it within its clamp (R111). -/
theorem trimAfter_inRange {trim : Int} (h : -250 ≤ trim ∧ trim ≤ 250) (r : Panel) :
    -250 ≤ trimAfter trim r ∧ trimAfter trim r ≤ 250 := by
  unfold trimAfter
  split
  · split
    · exact h
    · exact trimInRange_clampTrim _
  · exact h

theorem completeOne_trim (s : State) (r : Panel) : (completeOne s r).dose.trim = trimAfter s.dose.trim (evaluated r) := by
  obtain ⟨-, trim, -⟩ := afterEvaluation_fields s r
  rw [completeOne_eq, offerRecord_frame, trim]

theorem learnedKept_completeOne (s : State) (r : Panel) : LearnedKept s (completeOne s r) where
  stop hs := by rwa [completeOne_frame]
  trim hs := by
    rw [TrimInRange, completeOne_trim]
    exact trimAfter_inRange hs _
  bias hs := by rwa [completeOne_frame]

theorem learnedKept_completeRecords (m : MachineRecord) (s : State) : LearnedKept s (completeRecords m s) := by
  have fold (l : List Panel) : ∀ t, LearnedKept t (l.foldl completeOne t) := by
    induction l with
    | nil => exact .refl
    | cons r rest ih => exact fun t => (learnedKept_completeOne t r).trans (ih _)
  have cut : LearnedKept s { s with queue := s.queue.filter fun r => !completes m s.pos.xNip r } := .of_view rfl
  exact cut.trans (fold _ _)

/-- SET_TRIM's value is clamped (R112). -/
theorem learnedKept_setTrim (trim : BitVec 16) (s : State) : LearnedKept s (setTrimOwner trim s).st where
  stop := id
  trim _ := trimInRange_clampTrim _
  bias := id

/-- The bias moves within its clamp, or stays (R128). -/
theorem updateBias_inRange {t : Tension} (h : -200 ≤ t.bias ∧ t.bias ≤ 200) :
    -200 ≤ (updateBias t).bias ∧ (updateBias t).bias ≤ 200 := by
  unfold updateBias
  split
  · dsimp only [biasAfter, clampInt]
    split
    · decide
    · split <;> omega
  · exact h

theorem learned_checkExcursion (m : MachineRecord) (reading : Bool) (s : State) :
    learned (checkExcursion m reading s) = learned s := by
  unfold checkExcursion
  split <;> rfl

theorem learnedKept_reportTensions (v : Tensions) (diameter : Nat) (s : State) :
    LearnedKept s (reportTensionsOwner v diameter s).st := by
  unfold reportTensionsOwner
  split
  · exact .refl s
  · rename_i m _
    have updated (t : State) : LearnedKept t (syncStale (t.updateTension fun x => clearLostTension (updateBias x))) :=
      ⟨id, id, fun ht => updateBias_inRange ht⟩
    exact (updated _).before_view (learned_checkExcursion m _ (s.updateTension fun t => t.take m v diameter))

/-- A release leaves HALTED with its stop record kept (R164). -/
theorem learnedKept_releaseStop (s : State) : LearnedKept s (releaseStopOwner s).st := by
  unfold releaseStopOwner
  split
  · split
    · exact .refl s
    · exact ⟨fun _ => ⟨nofun, nofun⟩, id, id⟩
  · exact .refl s

/-- A line clear brings TRACKING without a stop record, and the bias to 0 (R50, R127). -/
theorem learnedKept_clearLine (m : MachineRecord) (span : Nat) (s : State) : LearnedKept s (clearLine m span s) := by
  obtain ⟨ports, form, -⟩ := blocksCleared_eq m span s
  have kept : LearnedKept s (blocksCleared m span s) := by
    rw [form]
    exact ⟨fun _ => ⟨nofun, nofun⟩, id, fun _ => ⟨show (-200 : Int) ≤ 0 by decide, show (0 : Int) ≤ 200 by decide⟩⟩
  rw [clearLine_eq]
  exact kept.after_view ((learned_synced _).trans (learned_reevaluate _))

/-- A device reset leaves UNSET without a stop record, and both learned values 0 (R118, R134, R158). -/
theorem learnedKept_deviceReset (cause : ResetCause) (s : State) : LearnedKept s (deviceReset cause s) := by
  rcases deviceReset_cases cause s with ⟨-, e⟩ | ⟨-, -, e⟩ | ⟨-, -, e⟩ <;> rw [e]
  · exact ⟨fun _ => ⟨fun _ => rfl, nofun⟩, fun _ => reset_trimInRange, fun _ => reset_biasInRange⟩
  · exact .of_view rfl
  · exact .refl s

/-! ## Coordinates, marks and the print gate -/

theorem learnedKept_closeOpenTrail (m : MachineRecord) (f : Panel → Panel) (s : State) :
    LearnedKept s (closeOpenTrail m f s) :=
  (learnedKept_completeRecords m _).before_view (learned_mapPanels s _ _)

theorem learnedKept_nipChanged (m : MachineRecord) (s : State) : LearnedKept s (nipChanged m s).1 :=
  ((learnedKept_completeRecords m _).before_view ((learned_mapPanels _ _ _).trans (learned_evaluateFill m s))).after_view
    (learned_mapPanels _ _ _)

theorem learnedKept_nipCount (d : Direction) (s : State) : LearnedKept s (nipCount d s).1 := by
  have moved (m : MachineRecord) (f : Position → Position) : LearnedKept s (nipChanged m (s.updatePos f)).1 :=
    (learnedKept_nipChanged m _).before_view (learned_updatePos s f)
  unfold nipCount
  split
  · split
    · cases d with
      | forward =>
        simp only [nipForward]
        split
        · exact .of_view (learned_updatePos s _)
        · split
          · split
            · exact .of_view (learned_updatePos s _)
            · exact moved _ _
          · exact moved _ _
      | reverse =>
        simp only [nipReverse]
        split
        · exact .of_view (learned_updatePos s _)
        · split
          · exact .refl s
          · exact moved _ _
    · exact .refl s
  · exact .refl s

theorem learnedKept_markSeen (m : MachineRecord) (id stamp : Nat) (e : Int) (s : State) :
    LearnedKept s (markSeen m id stamp e s).1 := by
  unfold markSeen
  refine LearnedKept.trans ?_ (learnedKept_nipChanged m _)
  exact .of_view (learned_updatePos _ _)

theorem learnedKept_matchMark (m : MachineRecord) (code stamp : Nat) (s : State) :
    LearnedKept s (matchMark m code stamp s).1 := by
  have missed (ids : List Nat) : learned (missSkipped ids s) = learned s := learned_mapPanels s _ _
  unfold matchMark
  split
  · exact .of_view rfl
  · dsimp only
    split
    · exact (learnedKept_markSeen m _ _ _ _).before_view (missed _)
    · exact .of_view (missed (skippedCandidates code (markCandidates s)))

theorem learnedKept_judgeMark (stamp : Nat) (bits : List Bool) (s : State) : LearnedKept s (judgeMark stamp bits s).1 := by
  unfold judgeMark
  split
  · split
    · exact .refl s
    · split
      · exact .of_view rfl
      · split
        · exact .refl s
        · exact learnedKept_matchMark _ _ _ s
  · exact .refl s

theorem learnedKept_markEdge (bit : Bool) (s : State) : LearnedKept s (markEdge bit s) := by
  unfold markEdge
  dsimp only
  split
  · exact .of_view rfl
  · refine LearnedKept.closeEvent (LearnedKept.trans ?_ (learnedKept_judgeMark _ _ _)) _ _
    exact .of_view rfl

theorem learnedKept_gateRising (s : State) : LearnedKept s (gateRising s) := by
  have taken (m : MachineRecord) : LearnedKept s (takeRisingEdge m s) := by
    refine LearnedKept.closeEvent ((learnedKept_closeOpenTrail m (·.flag .gateFault) s).after_view ?_) _ _
    rw [learned_reevaluate]
    exact (learned_paceAtEdge _).trans ((learned_mapPanels _ _ _).trans (learned_startNext _ _))
  unfold gateRising
  split
  · split
    · exact taken _
    · exact .of_view rfl
  · exact .of_view rfl

theorem learnedKept_gateFalling (s : State) : LearnedKept s (gateFalling s) := by
  unfold gateFalling
  split
  · split
    · exact (learnedKept_closeOpenTrail _ _ s).after_view (learned_paceNominal _)
    · exact .of_view rfl
  · exact .of_view rfl

theorem learnedKept_speedWindow (s : State) : LearnedKept s (Machine.speedWindow s) := by
  refine LearnedKept.closeEvent (.of_view ?_) _ _
  rw [learned_judgeLost]
  exact (learned_recomputeAdvice _).trans ((learned_updatePos _ _).trans (learned_evaluateSlip s))

theorem learnedKept_expireTemperatures (m : MachineRecord) (s : State) :
    LearnedKept s (closeEvent s (syncStale (expireTemperatures m s)) []) := by
  refine LearnedKept.closeEvent (.of_view ((learned_updateHold _ _).trans ?_)) _ _
  rw [expireTemperatures, learned_raiseIf]
  rfl

theorem learnedKept_expireTensions (m : MachineRecord) (s : State) :
    LearnedKept s (closeEvent s (syncStale (expireTensions m s)) []) := by
  refine LearnedKept.closeEvent (.of_view ((learned_updateHold _ _).trans ?_)) _ _
  rw [expireTensions, learned_raiseIf]
  rfl

theorem learnedKept_completeComputation (k : Computation) (s : State) : LearnedKept s (completeComputation k s) := by
  unfold completeComputation
  refine LearnedKept.closeEvent (.of_view ?_) _ _
  rw [learned_reevaluate]
  split
  · split <;> rfl
  · rfl

/-! ## Store operations (R142, R143) -/

theorem learnedKept_granted {s t : State} (b : State) (h : LearnedKept s t) :
    LearnedKept s (closeEvent b (grantWaiting t) []) :=
  (h.after_view (learned_grantWaiting t)).closeEvent _ _

theorem learnedKept_endOperation {s t : State} (b : State) (p : PortId) (c : Byte) (r : Reply) (h : learned t = learned s) :
    LearnedKept s (endOperation b p c r t) :=
  learnedKept_granted b (.of_view h)

theorem learnedKept_endFill (i : SlotId) (s : State) : LearnedKept s (endFill i s) := by
  refine learnedKept_granted s (.of_view ?_)
  rw [learned_reevaluate]
  split <;> rfl

theorem learnedKept_endCommit (p : PortId) (i : SlotId) (rows : List StagingRow) (s : State) :
    LearnedKept s (endCommit p i rows s) := by
  have programmed : learned (programRows rows (freeStore s)) = learned s := learned_programRows rows _
  unfold endCommit
  dsimp only
  split
  · split
    · exact learnedKept_endOperation _ _ _ _ programmed
    · exact learnedKept_endOperation _ _ _ _ ((learned_commitEffects i _).trans programmed)
  · exact learnedKept_endOperation _ _ _ _ programmed

theorem learnedKept_endLock (p : PortId) (i : SlotId) (s : State) : LearnedKept s (endLock p i s) := by
  unfold endLock
  dsimp only
  split
  · exact learnedKept_endOperation _ _ _ _ rfl
  · exact learnedKept_endOperation _ _ _ _ rfl

theorem learnedKept_judgeLineClear (p : PortId) (span : Nat) (s : State) : LearnedKept s (judgeLineClear p span s) := by
  have ended {t : State} (r : Reply) (h : LearnedKept s t) : LearnedKept s (endLineClear s p r t) :=
    learnedKept_granted s (h.after_view rfl)
  unfold judgeLineClear
  dsimp only
  split
  · split
    · exact ended _ (.of_view rfl)
    · exact ended _ ((learnedKept_clearLine _ _ _).before_view (t := freeStore s) rfl)
  · exact ended _ (.of_view rfl)

theorem learnedKept_endScan (s : State) : LearnedKept s (endScan s) := by
  have loaded (t : State) : learned (loadSlotZero t) = learned t := by
    unfold loadSlotZero
    split
    · split <;> rfl
    · rfl
  have scanned : learned (scanSlots (startRunning s)) = learned s := rfl
  unfold endScan
  exact LearnedKept.closeEvent (.of_view ((learned_synced _).trans ((loaded _).trans scanned))) _ _

/-! ## Requests (R190 to R192) -/

/-- An owner that keeps the promises. -/
def OwnerLearned (owner : State → Served) : Prop :=
  ∀ s, LearnedKept s (owner s).st

theorem OwnerLearned.of_view {owner : State → Served} (h : ∀ s, learned (owner s).st = learned s) : OwnerLearned owner :=
  fun s => .of_view (h s)

theorem ownerLearned_announce (jobId : BitVec 32) (slot : Byte) (length : BitVec 32) (width : BitVec 16)
    (coverage : List Byte) : OwnerLearned (announceOwner jobId slot length width coverage) := .of_view fun s => by
  unfold announceOwner
  split
  · rfl
  · split
    · exact learned_reevaluate _
    · rfl
    · rfl

theorem ownerLearned_withdraw (id : BitVec 16) : OwnerLearned (withdrawOwner id) := .of_view fun s => by
  unfold withdrawOwner
  split
  · rfl
  · split
    · exact learned_reevaluate _
    · rfl

theorem ownerLearned_scrap (id : BitVec 16) : OwnerLearned (scrapOwner id) := .of_view fun s => by
  unfold scrapOwner
  split
  · rfl
  · split
    · exact learned_reevaluate _
    · rfl

theorem ownerLearned_lineClear (p : PortId) (span : BitVec 32) : OwnerLearned (lineClearOwner p span) := .of_view fun s => by
  unfold lineClearOwner
  split
  · rfl
  · split
    · rfl
    · exact learned_askStore _ s

theorem ownerLearned_erase (p : PortId) (slot : Byte) : OwnerLearned (eraseOwner p slot) := .of_view fun s => by
  unfold eraseOwner
  split
  · rfl
  · split
    · rfl
    · split
      · rfl
      · exact learned_askStore _ s

theorem ownerLearned_write (p : PortId) (slot : Byte) (offset : BitVec 16) (data : List Byte) :
    OwnerLearned (writeOwner p slot offset data) := .of_view fun s => by
  unfold writeOwner
  split
  · rfl
  · split
    · rfl
    · split
      · rfl
      · dsimp only
        split
        · rfl
        · exact learned_askStore _ s

theorem ownerLearned_commit (p : PortId) (slot : Byte) : OwnerLearned (commitOwner p slot) := .of_view fun s => by
  unfold commitOwner
  split
  · rfl
  · split
    · rfl
    · exact learned_askStore _ s

theorem ownerLearned_lock (p : PortId) (slot : Byte) : OwnerLearned (lockOwner p slot) := .of_view fun s => by
  unfold lockOwner
  split
  · rfl
  · split
    · rfl
    · split
      · rfl
      · exact learned_askStore _ s

theorem ownerLearned_readSlot (p : PortId) (slot : Byte) (offset : BitVec 16) (n : Byte) :
    OwnerLearned (readSlotOwner p slot offset n) := .of_view fun s => by
  unfold readSlotOwner
  split
  · rfl
  · split
    · rfl
    · exact learned_askStore _ s

theorem ownerLearned_storeClear (p : PortId) : OwnerLearned (storeClearOwner p) := .of_view fun s => by
  unfold storeClearOwner
  split
  · rfl
  · split
    · rfl
    · exact learned_askStore _ s

theorem ownerLearned_printAbort (id : BitVec 16) : OwnerLearned (printAbortOwner id) := by
  intro s
  unfold printAbortOwner
  split
  · split
    · exact (learnedKept_closeOpenTrail _ _ s).after_view (learned_paceNominal _)
    · exact .refl s
  · exact .refl s

/-- The owner of every request row keeps the promises; the rows without a lemma of their own change no part of the view. -/
theorem ownerLearned_of_row {i : Instr} {p : PortId} {code : Byte} {allowed : Role → Bool} {owner : State → Served}
    (row : requestRow i = some (p, code, allowed, owner)) : OwnerLearned owner := by
  cases i with
  | readPanel p id =>
    cases row
    exact .of_view fun s => by unfold readPanelOwner; split <;> rfl
  | readRecords p n =>
    cases row
    exact .of_view fun s => by unfold readRecordsOwner; split <;> rfl
  | stop p =>
    cases row
    exact .of_view fun s => by unfold stopOwner; split <;> rfl
  | announcePanel p jobId slot length width coverage => cases row; exact ownerLearned_announce _ _ _ _ _
  | withdrawPanel p id => cases row; exact ownerLearned_withdraw id
  | scrapPanel p id => cases row; exact ownerLearned_scrap id
  | lineClear p span => cases row; exact ownerLearned_lineClear p span
  | setTrim p trim => cases row; exact learnedKept_setTrim trim
  | ackRecords p n =>
    cases row
    exact .of_view fun s => by unfold ackRecordsOwner; split <;> rfl
  | setRecordQueue p mode watermark filter =>
    cases row
    exact .of_view fun s => by
      unfold setRecordQueueOwner
      split
      · split <;> rfl
      · rfl
  | eraseSlot p slot => cases row; exact ownerLearned_erase p slot
  | writeSlot p slot offset data => cases row; exact ownerLearned_write p slot offset data
  | commitSlot p slot => cases row; exact ownerLearned_commit p slot
  | lockSlot p slot => cases row; exact ownerLearned_lock p slot
  | readSlot p slot offset n => cases row; exact ownerLearned_readSlot p slot offset n
  | storeClear p => cases row; exact ownerLearned_storeClear p
  | probeCache p slot =>
    cases row
    exact .of_view fun s => by
      unfold probeCacheOwner
      split
      · split <;> rfl
      · rfl
  | invalidateCache p => cases row; exact .of_view fun _ => learned_reevaluate _
  | getCorrection p id =>
    cases row
    exact .of_view fun s => by
      unfold getCorrectionOwner
      split
      · rfl
      · split <;> rfl
  | printAbort p id => cases row; exact ownerLearned_printAbort id
  | reportTemperatures p values =>
    cases row
    exact .of_view fun s => by
      unfold reportTemperaturesOwner
      split
      · rfl
      · split <;> rfl
  | readHeatAdvice p => cases row; exact .of_view learned_recomputeAdvice
  | reportTensions p a b c d e => cases row; exact learnedKept_reportTensions _ _
  | releaseStop p => cases row; exact learnedKept_releaseStop
  | _ => cases row <;> exact .of_view fun _ => rfl

theorem learnedKept_serve {owner : State → Served} (h : OwnerLearned owner) (p : PortId) (code : Byte)
    (allowed : Role → Bool) (s : State) : LearnedKept s (serve p code allowed owner s) := by
  unfold serve
  split
  · exact LearnedKept.closeEvent (((h _).before_view (learned_updatePort s p _)).after_view (learned_updatePort _ p _)) _ _
  · exact .of_view rfl

theorem learnedKept_takeRequest {owner : State → Served} (h : OwnerLearned owner) (p : PortId) (code : Byte)
    (allowed : Role → Bool) (s : State) : LearnedKept s (takeRequest p code allowed owner s) := by
  unfold takeRequest
  split
  · exact learnedKept_serve h p code allowed s
  · exact .refl s

theorem ServedByRow.learned {p : PortId} {allowed : Role → Bool} {owner : State → Served} (h : ServedByRow p allowed owner) :
    OwnerLearned owner := by
  rcases h with ⟨i, code, row⟩ | rfl
  · exact ownerLearned_of_row row
  · exact .of_view fun _ => rfl

/-- A transaction keeps the promises, whatever frame it carries. -/
theorem learnedKept_judgeStream (p : PortId) (busy : Bool) (stream : List Byte) (s : State) :
    LearnedKept s (judgeStream p busy stream s) := by
  unfold judgeStream
  split
  · exact .refl s
  · unfold judgeFrame acceptFrame
    dsimp only
    split
    · exact .of_view rfl
    · split
      · exact learnedKept_serve (servedByRow_requestOf ‹_›).learned _ _ _ s
      · exact .of_view rfl

/-! ## Every step -/

/-- Every command keeps the promises. -/
theorem exec_learnedKept (i : Instr) (s : State) : ∃ t, exec i s = .next t ∧ LearnedKept s t := by
  have stays : LearnedKept s s := .refl s
  have guarded : ∀ (c : Prop) [Decidable c] (t : State), LearnedKept s t → LearnedKept s (if c then t else s) := by
    intro c _ t ht
    split
    · exact ht
    · exact stays
  have viewed : ∀ (c : Prop) [Decidable c] (t : State), learned t = learned s → LearnedKept s (if c then t else s) :=
    fun c _ t ht => guarded c t (.of_view ht)
  cases row : requestRow i with
  | some r =>
    obtain ⟨p, code, allowed, owner⟩ := r
    exact ⟨_, exec_of_requestRow row s, learnedKept_takeRequest (ownerLearned_of_row row) p code allowed s⟩
  | none =>
    cases i with
    | spiTransaction p mosi =>
      refine ⟨_, rfl, ?_⟩
      split
      · exact (learnedKept_judgeStream _ _ _ _).before_view (learned_updatePort s p _)
      · exact .of_view rfl
    | powerOnReset => exact ⟨_, rfl, learnedKept_deviceReset _ s⟩
    | supplyMonitorReset => exact ⟨_, rfl, learnedKept_deviceReset _ s⟩
    | resetnReset => exact ⟨_, rfl, learnedKept_deviceReset _ s⟩
    | resetEnd rolea roleb maint =>
      refine ⟨_, rfl, ?_⟩
      split
      · exact stays
      · exact .of_view rfl
    | startUpScanEnd => exact ⟨_, rfl, guarded _ _ (learnedKept_endScan s)⟩
    | pencCount d =>
      exact ⟨_, rfl, guarded _ _ (LearnedKept.closeEvent
        (.of_view ((learned_printCount d _).trans (learned_updatePos s _))) _ _)⟩
    | cencCount d =>
      exact ⟨_, rfl, guarded _ _ (LearnedKept.closeEvent
        ((learnedKept_nipCount d _).before_view (learned_updatePos s _)) _ _)⟩
    | fencCount d => exact ⟨_, rfl, viewed _ _ (learned_updatePos s _)⟩
    | pacePulseTimer => exact ⟨_, rfl, .of_view rfl⟩
    | pgateRisingEdge => exact ⟨_, rfl, guarded _ _ ((learnedKept_gateRising _).before_view (learned_updateInputs s _))⟩
    | pgateFallingEdge => exact ⟨_, rfl, guarded _ _ ((learnedKept_gateFalling _).before_view (learned_updateInputs s _))⟩
    | breaknAssertion => exact ⟨_, rfl, guarded _ _ (LearnedKept.closeEvent (.of_view (learned_updateInputs s _)) _ _)⟩
    | breaknRelease => exact ⟨_, rfl, viewed _ _ (learned_updateInputs s _)⟩
    | stopinnAssertion => exact ⟨_, rfl, guarded _ _ (LearnedKept.closeEvent (.of_view (learned_updateInputs s _)) _ _)⟩
    | stopinnRelease => exact ⟨_, rfl, viewed _ _ (learned_updateInputs s _)⟩
    | markWord bit => exact ⟨_, rfl, guarded _ _ (learnedKept_markEdge bit s)⟩
    | mkclkRisingEdge bit => exact ⟨_, rfl, guarded _ _ (learnedKept_markEdge bit s)⟩
    | markWordTimeout =>
      refine ⟨_, rfl, ?_⟩
      split
      · exact .of_view rfl
      · exact stays
    | speedWindowExpiry => exact ⟨_, rfl, guarded _ _ (learnedKept_speedWindow s)⟩
    | doseTick => exact ⟨_, rfl, viewed _ _ (learned_doseTick s)⟩
    | tensionTick =>
      refine ⟨_, rfl, ?_⟩
      split
      · exact .of_view (learned_raiseIf _ _ _)
      · exact stays
    | temperatureStaleExpiry =>
      refine ⟨_, rfl, ?_⟩
      split
      · exact guarded _ _ (learnedKept_expireTemperatures _ s)
      · exact stays
    | tensionStaleExpiry =>
      refine ⟨_, rfl, ?_⟩
      split
      · exact guarded _ _ (learnedKept_expireTensions _ s)
      · exact stays
    | hardStaleExpiry => exact ⟨_, rfl, LearnedKept.closeEvent (.of_view (learned_judgeLost s)) _ _⟩
    | refreshExpiry =>
      refine ⟨_, rfl, ?_⟩
      split
      · exact viewed _ _ (learned_reevaluate s)
      · exact stays
    | correctionCompletion =>
      refine ⟨_, rfl, ?_⟩
      split
      · exact learnedKept_completeComputation _ s
      · exact stays
    | cacheFillGrant => exact ⟨_, rfl, guarded _ _ (learnedKept_granted s stays)⟩
    | eraseSlotGrant => exact ⟨_, rfl, guarded _ _ (learnedKept_granted s stays)⟩
    | storeGrant => exact ⟨_, rfl, guarded _ _ (learnedKept_granted s stays)⟩
    | storeClearGrant => exact ⟨_, rfl, guarded _ _ (learnedKept_granted s stays)⟩
    | cacheFillCompletion =>
      refine ⟨_, rfl, ?_⟩
      split
      · exact learnedKept_endFill _ s
      · exact stays
    | eraseSlotCompletion =>
      refine ⟨_, rfl, ?_⟩
      split
      · exact learnedKept_endOperation _ _ _ _ rfl
      · exact stays
    | writeSlotCompletion =>
      refine ⟨_, rfl, ?_⟩
      split
      · exact learnedKept_endOperation _ _ _ _ (learned_programRows _ _)
      · exact stays
    | commitSlotCompletion =>
      refine ⟨_, rfl, ?_⟩
      split
      · exact learnedKept_endCommit _ _ _ s
      · exact stays
    | lockSlotCompletion =>
      refine ⟨_, rfl, ?_⟩
      split
      · exact learnedKept_endLock _ _ s
      · exact stays
    | readSlotCompletion =>
      refine ⟨_, rfl, ?_⟩
      split
      · exact learnedKept_endOperation _ _ _ _ rfl
      · exact stays
    | storeClearCompletion =>
      refine ⟨_, rfl, ?_⟩
      split
      · exact learnedKept_endOperation _ _ _ _ (learned_reevaluate _)
      · exact stays
    | lineClearReadCompletion =>
      refine ⟨_, rfl, ?_⟩
      split
      · exact learnedKept_judgeLineClear _ _ s
      · exact stays
    | quadratureTransitionError e => exact ⟨_, rfl, viewed _ _ (learned_updatePos s _)⟩
    | _ => cases row

/-- Every step keeps the promises: a command taken, or a millisecond. -/
theorem step_learnedKept {s t : State} (h : step s = .next t) : LearnedKept s t := by
  unfold step at h
  split at h
  · rename_i c rest _
    obtain ⟨u, hu, kept⟩ := exec_learnedKept c { s with pending := rest }
    cases hu.symm.trans h
    exact kept.before_view rfl
  · cases h
    exact .of_view (learned_idle s)

/-- Settles O58: each step that changes the line state, the trim or the bias keeps what the promises say of it. -/
theorem everyStepKeepsStopRecordAndLearnedValues : Obligations.EveryStepKeepsStopRecordAndLearnedValues :=
  ⟨fun _ _ hs h => (step_learnedKept h).stop hs, fun _ _ hs h => (step_learnedKept h).trim hs,
    fun _ _ hs h => (step_learnedKept h).bias hs⟩

end Sys2Proof.Proofs
end

