-- ==== Sys2Proof/Proofs/StaleExpiries.lean ====
section
/-!
O50: the stale expiries of both tables, and MEASURE_LOST at the hard stale expiry.
-/
namespace Sys2Proof.Proofs

open Sys2Proof.Machine Sys2Proof.Safety

/-! ## Zones that expire (R100, R121) -/

theorem map_expire_eq (zones : List Zone) (limit now : Nat) :
    zones.map (Zone.expire limit now) =
      zones.map fun z => if z.isFresh = true ∧ limit < z.age then { z with standing := .stale now } else z :=
  List.map_congr_left fun _ _ => expire_eq

theorem any_expires_iff (zones : List Zone) (limit : Nat) :
    zones.any (Zone.expires limit) = true ↔ ∃ z ∈ zones, z.isFresh = true ∧ limit < z.age := by
  simp only [List.any_eq_true, Zone.expires, Bool.and_eq_true, decide_eq_true_eq]

/-- A table in which a zone expires is stale (R100, R121). -/
theorem expired_stale {zones : List Zone} {limit : Nat} (now : Nat) (h : ∃ z ∈ zones, z.isFresh = true ∧ limit < z.age) :
    ∃ z ∈ zones.map (Zone.expire limit now), z.isFresh = false := by
  obtain ⟨z, mem, due⟩ := h
  refine ⟨_, List.mem_map_of_mem mem, ?_⟩
  rw [expire_eq, if_pos due]
  rfl

/-- A state with a stale table, brought to STALE's condition and ended as an event (R131, R170). -/
theorem staleExpiry_ends {s u t : State} {m : MachineRecord} {raised : AttnSet} (active : s.line.active = some m)
    (line : u.line = s.line) (pos : u.pos = s.pos)
    (stale : (∃ z ∈ u.dose.zones, z.isFresh = false) ∨ ∃ z ∈ u.tension.zones, z.isFresh = false)
    (kinds : PortsRaise s u raised) (ht : t = closeEvent s (syncStale u) []) :
    t.line = { s.line with hold := { s.line.hold with stale := decide (m.vMin ≤ s.pos.vCal.magnitude) } } ∧
      t = { u with line := t.line, ports := t.ports } ∧ PortsRaise s t (raised ||| holdKind s t) := by
  have holds : staleHolds u = decide (m.vMin ≤ s.pos.vCal.magnitude) := by
    rw [Bool.eq_iff_iff, staleHolds_iff (line ▸ active), decide_eq_true_eq, pos]
    exact and_iff_left stale
  have frame := closeEvent_nil_frame s (syncStale u)
  have ended := portsRaise_closeEvent_nil s (syncStale u)
  rw [← ht] at frame ended
  have lineIs : t.line = { s.line with hold := { s.line.hold with stale := staleHolds u } } := by
    rw [frame, ← line]
    rfl
  refine ⟨by rw [lineIs, holds], ?_, ?_⟩
  · rw [lineIs, ← line, frame]
    rfl
  · rw [holdKind_of_line (congrArg State.line frame)]
    exact portsRaise_trans kinds ended

/-! ## The two stale expiries (R100, R121) -/

theorem temperatureStaleExpiry_due {s : State} {m : MachineRecord} (active : s.line.active = some m)
    (due : ∃ z ∈ s.dose.zones, z.isFresh = true ∧ m.tempStaleMs < z.age) :
    exec .temperatureStaleExpiry s = .next (closeEvent s (syncStale (expireTemperatures m s)) []) := by
  refine congrArg Host.Outcome.next ?_
  rw [active]
  exact if_pos ((any_expires_iff _ _).mpr due)

theorem tensionStaleExpiry_due {s : State} {m : MachineRecord} (active : s.line.active = some m)
    (due : ∃ z ∈ s.tension.zones, z.isFresh = true ∧ m.tensionStaleMs < z.age) :
    exec .tensionStaleExpiry s = .next (closeEvent s (syncStale (expireTensions m s)) []) := by
  refine congrArg Host.Outcome.next ?_
  rw [active]
  exact if_pos ((any_expires_iff _ _).mpr due)

theorem temperatures_expire {s : State} {m : MachineRecord} (active : s.line.active = some m)
    (due : ∃ z ∈ s.dose.zones, z.isFresh = true ∧ m.tempStaleMs < z.age) :
    ∃ t, exec .temperatureStaleExpiry s = .next t ∧
      t.dose = { s.dose with zones := s.dose.zones.map (Zone.expire m.tempStaleMs s.now) } ∧
      t.line = { s.line with hold := { s.line.hold with stale := decide (m.vMin ≤ s.pos.vCal.magnitude) } } ∧
      t = { s with dose := t.dose, line := t.line, ports := t.ports } ∧
      PortsRaise s t (Attn.measureStale.bit ||| holdKind s t) := by
  obtain ⟨ports, form, raised⟩ := raiseIf_form
    (s.updateDose fun d => { d with zones := d.zones.map (Zone.expire m.tempStaleMs s.now) })
    (s.dose.zones.any (Zone.expires m.tempStaleMs)) .measureStale
  rw [if_pos ((any_expires_iff _ _).mpr due), ← form] at raised
  change expireTemperatures m s = _ at form
  obtain ⟨line, frame, kinds⟩ := staleExpiry_ends (s := s) (u := expireTemperatures m s) active (by rw [form]; rfl)
    (by rw [form]; rfl) (.inl (by rw [form]; exact expired_stale s.now due)) raised rfl
  refine ⟨_, temperatureStaleExpiry_due active due, ?_, line, ?_, kinds⟩
  · rw [frame, form]
    rfl
  · rw [frame, form]
    rfl

theorem tensions_expire {s : State} {m : MachineRecord} (active : s.line.active = some m)
    (due : ∃ z ∈ s.tension.zones, z.isFresh = true ∧ m.tensionStaleMs < z.age) :
    ∃ t, exec .tensionStaleExpiry s = .next t ∧
      t.tension.zones = s.tension.zones.map (Zone.expire m.tensionStaleMs s.now) ∧
      t.line = { s.line with hold := { s.line.hold with stale := decide (m.vMin ≤ s.pos.vCal.magnitude) } } ∧
      t =
        { s with
          tension :=
            { s.tension with
              paperIn := t.tension.paperIn, fabricUnwind := t.tension.fabricUnwind, calIn := t.tension.calIn
              fabricRewind := t.tension.fabricRewind }
          line := t.line
          ports := t.ports } ∧
      PortsRaise s t (Attn.measureStale.bit ||| holdKind s t) := by
  obtain ⟨ports, form, raised⟩ := raiseIf_form (s.updateTension fun t => t.mapZones (Zone.expire m.tensionStaleMs s.now))
    (s.tension.zones.any (Zone.expires m.tensionStaleMs)) .measureStale
  rw [if_pos ((any_expires_iff _ _).mpr due), ← form] at raised
  change expireTensions m s = _ at form
  obtain ⟨line, frame, kinds⟩ := staleExpiry_ends (s := s) (u := expireTensions m s) active (by rw [form]; rfl)
    (by rw [form]; rfl) (.inr (by rw [form]; exact expired_stale s.now due)) raised rfl
  refine ⟨_, tensionStaleExpiry_due active due, ?_, line, ?_, kinds⟩
  · rw [frame, form]
    rfl
  · rw [frame, form]
    rfl

/-! ## The hard stale expiry (R132) -/

/-- The state with both tables judged, before the causes of MEASURE_LOST. -/
def lostJudged (s : State) (hot tight : Bool) : State :=
  { s with
    tension :=
      { s.tension with
        lostTemperature := s.tension.lostTemperature || hot
        lostTension := s.tension.lostTension || tight } }

theorem judgeLost_eq {s : State} {m : MachineRecord} {hot tight : Bool} (active : s.line.active = some m)
    (isHot : hot = true ↔ RaisesMeasureLost m s.pos.vCal s.now s.dose.zones s.tension.lostTemperature)
    (isTight : tight = true ↔ RaisesMeasureLost m s.pos.vCal s.now s.tension.zones s.tension.lostTension) :
    judgeLost s = (lostJudged s hot tight, lostCauses hot tight) := by
  have hotEq : tableLost m s (tableStaleSince s.dose.zones) s.tension.lostTemperature = hot := by
    rw [Bool.eq_iff_iff, tableLost_iff active, isHot]
  have tightEq : tableLost m s (tableStaleSince s.tension.zones) s.tension.lostTension = tight := by
    rw [Bool.eq_iff_iff, tableLost_iff active, isTight]
  simp only [judgeLost, active, hotEq, tightEq]
  rfl

/-- Where neither table is lost, judging changes nothing. -/
theorem lostJudged_none (s : State) : lostJudged s false false = s := by
  simp only [lostJudged, Bool.or_false]

/-- The causes end the event: line control, queue and ports change, and LINE_HALTED is raised at a latch. -/
theorem lostCauses_end {s t : State} {hot tight : Bool}
    (ht : t = closeEvent s (lostJudged s hot tight) (lostCauses hot tight)) :
    t.line = ((lostCauses hot tight).foldl raiseCause (lostJudged s hot tight)).line ∧
      t.queue = ((lostCauses hot tight).foldl raiseCause (lostJudged s hot tight)).queue ∧
      t = { lostJudged s hot tight with line := t.line, queue := t.queue, ports := t.ports } ∧
      PortsRaise s t
        ((if lostCauses hot tight ≠ [] ∧ s.line.state = .tracking then Attn.lineHalted.bit else 0) ||| holdKind s t) := by
  rw [closeEvent_lostCauses] at ht
  have caused := raiseCauses_frame (lostCauses hot tight) (lostJudged s hot tight)
  have halts := portsRaise_raiseCauses (lostCauses hot tight) (lostJudged s hot tight)
  generalize (lostCauses hot tight).foldl raiseCause (lostJudged s hot tight) = u at *
  have ended := closeEvent_nil_frame s u
  have changed := portsRaise_closeEvent_nil s u
  rw [← ht] at ended changed
  have line := congrArg State.line ended
  refine ⟨line, by rw [ended], ?_, ?_⟩
  · rw [ended, caused]
  · rw [holdKind_of_line line]
    exact portsRaise_trans halts changed

/-- A cause taken is told by line control and the queue alone. -/
theorem causeTaken_of_ends {s u t : State} {c : StopCause} (line : t.line = u.line) (queue : t.queue = u.queue)
    (h : CauseTaken s u c) : CauseTaken s t c := by
  unfold CauseTaken at *
  rw [line, queue]
  exact h

/-- The causes of MEASURE_LOST on the judged state are taken over the state itself, whose line, queue and position it has. -/
theorem lostCause_taken (s : State) (hot tight : Bool) :
    CauseTaken s (raiseCause (lostJudged s hot tight) .measureLost) .measureLost :=
  causeTaken_congr rfl rfl rfl (causeTaken_raiseCause _ _)

/-- A hard stale expiry by the tables it finds lost: neither, one, or both (R132, R160 to R162). -/
theorem hardStale_cases {s t : State} {hot tight : Bool}
    (ht : t = closeEvent s (lostJudged s hot tight) (lostCauses hot tight)) :
    (hot = false → tight = false → t = s) ∧
      (hot ≠ tight → CauseTaken s t .measureLost ∧ PortsRaise s t (causeKinds s t)) ∧
      (hot = true → tight = true →
        (∃ u, CauseTaken s u .measureLost ∧ CauseTaken u t .measureLost) ∧ PortsRaise s t (causeKinds s t)) := by
  obtain ⟨line, queue, -, kinds⟩ := lostCauses_end ht
  simp only [lostCauses_ne_nil] at kinds
  refine ⟨fun cold slack => ?_, fun one => ?_, fun isHot isTight => ?_⟩
  · subst cold slack
    rw [lostJudged_none] at ht
    exact ht.trans (closeEvent_nil_of_line rfl)
  · have once : lostCauses hot tight = [.measureLost] := by
      cases hot with
      | false => rw [show tight = true by simpa using one.symm]; rfl
      | true => rw [show tight = false by simpa using one.symm]; rfl
    have lost : hot = true ∨ tight = true := lostCauses_ne_nil.mp (once ▸ List.cons_ne_nil _ _)
    rw [once] at line queue
    simp only [lost, true_and] at kinds
    exact ⟨causeTaken_of_ends line queue (lostCause_taken s hot tight), kinds⟩
  · subst isHot isTight
    simp only [true_or, true_and] at kinds
    exact ⟨⟨_, lostCause_taken s true true, causeTaken_of_ends line queue (causeTaken_raiseCause _ _)⟩, kinds⟩

/-- Settles O50: both expiries by the table they leave, and the hard one by the causes of the tables it finds lost. -/
theorem staleExpiries : Obligations.StaleExpiries := by
  intro s m active
  refine ⟨fun due => ?_, fun due => ?_, _, rfl, fun hot tight isHot isTight => ?_⟩
  · simpa only [map_expire_eq] using temperatures_expire active due
  · simpa only [map_expire_eq] using tensions_expire active due
  · rw [judgeLost_eq active isHot isTight]
    generalize ht : closeEvent s (lostJudged s hot tight) (lostCauses hot tight) = t
    obtain ⟨-, -, frame, -⟩ := lostCauses_end ht.symm
    obtain ⟨none, one, both⟩ := hardStale_cases ht.symm
    refine ⟨?_, none, one, both, ?_⟩
    · rw [frame]
      rfl
    · rw [frame]
      rfl

end Sys2Proof.Proofs
end

