-- ==== Sys2Proof/Proofs/DoseTicks.lean ====
section
/-!
O48: the dose tick, by what it does to one record, to the queue, and to the attention kinds.
-/
namespace Sys2Proof.Proofs

open Sys2Proof.Machine Sys2Proof.Safety

/-! ## Flags added to a record -/

theorem flagIf_eq (r : Panel) (c : Bool) (f : Flag) : r.flagIf c f = { r with flags := addFlagIf c f r.flags } := by
  cases c <;> rfl

/-- The flags in the order of Table 7 (R194). -/
def flagOrder : List Flag :=
  [.lengthMismatch, .gateFault, .markMissed, .markRejected, .offDose, .scorch, .standstill, .spread, .slip, .tensionExcursion,
    .unverified, .overrun, .stoppedDuringPrint, .heldStart, .uncorrected, .doseClamped, .inkLimited, .inkScaled, .scaleClamped,
    .stoppedInArc, .scrapped]

theorem flagOrder_index (f : Flag) : flagOrder[f.index]? = some f := by
  cases f <;> rfl

theorem flagIndex_inj {f g : Flag} (h : f.index = g.index) : f = g :=
  Option.some.inj ((flagOrder_index f).symm.trans ((congrArg (flagOrder[·]?) h).trans (flagOrder_index g)))

theorem hasFlag_addFlagIf_same (c : Bool) (f : Flag) (fs : FlagSet) :
    hasFlag (addFlagIf c f fs) f = (hasFlag fs f || c) := by
  rw [hasFlag_addFlagIf, decide_eq_true rfl, Bool.and_true]

theorem hasFlag_addFlagIf_other {f g : Flag} (c : Bool) (fs : FlagSet) (h : f ≠ g) :
    hasFlag (addFlagIf c f fs) g = hasFlag fs g := by
  rw [hasFlag_addFlagIf, decide_eq_false (mt flagIndex_inj h), Bool.and_false, Bool.or_false]

/-! ## The conditions of the flags (R104 to R108) -/

theorem probeTick_eq (m : MachineRecord) (x rate : Nat) (q : Probe) :
    q.tick m x rate =
      if q.position ≤ x ∧ x < q.position + 10 * m.arcLen then
        { q with accumulator := min (q.accumulator + rate) 2147483647, inArc := true }
      else { q with inArc := false } := by
  simp only [Probe.tick, probeInArc, decide_eq_true_eq]
  rfl

theorem probeTick_inArc (m : MachineRecord) (x rate : Nat) (q : Probe) : (q.tick m x rate).inArc = probeInArc m x q := by
  unfold Probe.tick
  cases probeInArc m x q <;> rfl

/-- A record has a probe in the arc at a tick exactly where a probe's indication says so after it (R103). -/
theorem any_probeInArc_iff {m : MachineRecord} {x rate : Nat} {probes : List Probe} :
    probes.any (probeInArc m x) = true ↔ ∃ q ∈ probes.map (Probe.tick m x rate), q.inArc = true := by
  rw [← List.any_eq_true, List.any_map]
  simp only [Function.comp_def, probeTick_inArc]

/-- No covered zone is fresh (R104). -/
theorem freshValues_zoneReadings_empty {s : State} {picked : List Nat} :
    (freshValues (zoneReadings s) picked).isEmpty = true ↔
      ∀ i ∈ picked, ∀ z, s.dose.zones[i]? = some z → z.isFresh = false := by
  rw [freshValues_eq, List.isEmpty_iff, List.map_eq_nil_iff, List.filter_eq_nil_iff]
  simp only [zoneReadings, List.mem_filterMap, List.getElem?_map, Option.map_eq_some_iff, Bool.not_eq_true]
  constructor
  · exact fun none i picks z at_ => none (z.value, z.isFresh) ⟨i, picks, z, at_, rfl⟩
  · rintro none - ⟨i, picks, z, at_, rfl⟩
    exact none i picks z at_

/-- The spread of the values used is beyond a limit where two of them differ by more (R106). -/
theorem lt_spreadOf_iff {limit : Nat} {values : List Nat} :
    limit < spreadOf values ↔ ∃ low ∈ values, ∃ high ∈ values, low + limit < high := by
  by_cases nil : values = []
  · subst nil
    simp [spreadOf]
  · obtain ⟨top, htop⟩ := Option.ne_none_iff_exists'.mp (mt List.max?_eq_none_iff.mp nil)
    obtain ⟨bottom, hbottom⟩ := Option.ne_none_iff_exists'.mp (mt List.min?_eq_none_iff.mp nil)
    obtain ⟨topMem, leTop⟩ := List.max?_eq_some_iff.mp htop
    obtain ⟨bottomMem, bottomLe⟩ := List.min?_eq_some_iff.mp hbottom
    rw [spreadOf, htop, hbottom, Option.getD_some, Option.getD_some]
    constructor
    · exact fun wide => ⟨bottom, bottomMem, top, topMem, by omega⟩
    · rintro ⟨low, lowMem, high, highMem, apart⟩
      have := leTop high highMem
      have := bottomLe low lowMem
      omega

theorem standsStill_iff {m : MachineRecord} {v : Speed} :
    standsStill m v = true ↔ v.magnitude < m.vMin ∨ v.reverse = true := by
  rw [standsStill, Bool.or_eq_true, decide_eq_true_eq]

theorem stopoutAsserted_iff {s : State} : stopoutAsserted s = true ↔ s.line.state = .halted := decide_eq_true_iff

/-! ## One record at a tick -/

/-- The probes of a record after a tick (R103, R105). -/
def probesTicked (m : MachineRecord) (zones : List (Nat × Bool)) (x : Nat) (r : Panel) : List Probe :=
  r.probes.map (Probe.tick m x (stageRate m (meanOf (valuesUsed m zones r))))

theorem tickPanel_eq (m : MachineRecord) (zones : List (Nat × Bool)) (x : Nat) (v : Speed) (halted : Bool) (r : Panel) :
    tickPanel m zones x v halted r =
      { r with
        probes := probesTicked m zones x r
        flags :=
          addFlagIf ((probesTicked m zones x r).any fun q => decide (100 * scorchDose m r < q.accumulator)) .scorch <|
          addFlagIf (r.probes.any (probeInArc m x) && standsStill m v && halted) .stoppedInArc <|
          addFlagIf (r.probes.any (probeInArc m x) && standsStill m v) .standstill <|
          addFlagIf (r.probes.any (probeInArc m x) && decide (m.spreadLimit < spreadOf (valuesUsed m zones r))) .spread <|
          addFlagIf (r.probes.any (probeInArc m x) && (freshValues zones (panelZones m r)).isEmpty) .unverified r.flags } := by
  simp only [tickPanel, flagIf_eq]
  rfl

/-- A record at the dose tick of a state. -/
def panelAtTick (m : MachineRecord) (s : State) (r : Panel) : Panel :=
  tickPanel m (zoneReadings s) s.pos.xNip s.pos.vCal (stopoutAsserted s) r

/-- The flags a record takes at a tick of a state (R104 to R108). -/
def flagGained (m : MachineRecord) (s : State) (r : Panel) : Flag → Bool
  | .unverified => r.probes.any (probeInArc m s.pos.xNip) && (freshValues (zoneReadings s) (panelZones m r)).isEmpty
  | .spread => r.probes.any (probeInArc m s.pos.xNip) && decide (m.spreadLimit < spreadOf (valuesUsed m (zoneReadings s) r))
  | .standstill => r.probes.any (probeInArc m s.pos.xNip) && standsStill m s.pos.vCal
  | .stoppedInArc => r.probes.any (probeInArc m s.pos.xNip) && standsStill m s.pos.vCal && stopoutAsserted s
  | .scorch => (panelAtTick m s r).probes.any fun q => decide (100 * scorchDose m r < q.accumulator)
  | _ => false

section
variable (m : MachineRecord) (s : State) (r : Panel)

theorem panelAtTick_frame :
    panelAtTick m s r = { r with probes := (panelAtTick m s r).probes, flags := (panelAtTick m s r).flags } := by
  rw [panelAtTick, tickPanel_eq]

theorem panelAtTick_probes : (panelAtTick m s r).probes = probesTicked m (zoneReadings s) s.pos.xNip r := by
  rw [panelAtTick, tickPanel_eq]

/-- The arc's indication after the tick (R103). -/
theorem inArc_iff :
    r.probes.any (probeInArc m s.pos.xNip) = true ↔ ∃ q ∈ (panelAtTick m s r).probes, q.inArc = true := by
  rw [panelAtTick_probes]
  exact any_probeInArc_iff

/-- A record keeps its flags at a tick and takes those gained. -/
theorem hasFlag_panelAtTick (f : Flag) :
    hasFlag (panelAtTick m s r).flags f = (hasFlag r.flags f || flagGained m s r f) := by
  simp only [flagGained, panelAtTick_probes]
  rw [panelAtTick, tickPanel_eq]
  cases f <;>
    simp only [hasFlag_addFlagIf_same, hasFlag_addFlagIf_other, ne_eq, reduceCtorEq, not_false_iff, Bool.or_false]

theorem panelAtTick_unverified :
    hasFlag (panelAtTick m s r).flags .unverified = true ↔
      hasFlag r.flags .unverified = true ∨
        (∃ q ∈ (panelAtTick m s r).probes, q.inArc = true) ∧
          ∀ i ∈ panelZones m r, ∀ z, s.dose.zones[i]? = some z → z.isFresh = false := by
  rw [hasFlag_panelAtTick, flagGained, ← inArc_iff, ← freshValues_zoneReadings_empty, Bool.or_eq_true, Bool.and_eq_true]

theorem panelAtTick_spread :
    hasFlag (panelAtTick m s r).flags .spread = true ↔
      hasFlag r.flags .spread = true ∨
        (∃ q ∈ (panelAtTick m s r).probes, q.inArc = true) ∧
          ∃ low ∈ valuesUsed m (zoneReadings s) r, ∃ high ∈ valuesUsed m (zoneReadings s) r, low + m.spreadLimit < high := by
  rw [hasFlag_panelAtTick, flagGained, ← inArc_iff, ← lt_spreadOf_iff, Bool.or_eq_true, Bool.and_eq_true, decide_eq_true_eq]

theorem panelAtTick_standstill :
    hasFlag (panelAtTick m s r).flags .standstill = true ↔
      hasFlag r.flags .standstill = true ∨
        (∃ q ∈ (panelAtTick m s r).probes, q.inArc = true) ∧ (s.pos.vCal.magnitude < m.vMin ∨ s.pos.vCal.reverse = true) := by
  rw [hasFlag_panelAtTick, flagGained, ← inArc_iff, ← standsStill_iff, Bool.or_eq_true, Bool.and_eq_true]

theorem panelAtTick_stoppedInArc :
    hasFlag (panelAtTick m s r).flags .stoppedInArc = true ↔
      hasFlag r.flags .stoppedInArc = true ∨
        (∃ q ∈ (panelAtTick m s r).probes, q.inArc = true) ∧ (s.pos.vCal.magnitude < m.vMin ∨ s.pos.vCal.reverse = true) ∧
          s.line.state = .halted := by
  rw [hasFlag_panelAtTick, flagGained, ← inArc_iff, ← standsStill_iff, ← stopoutAsserted_iff, Bool.or_eq_true, Bool.and_eq_true,
    Bool.and_eq_true, and_assoc]

theorem panelAtTick_scorch :
    hasFlag (panelAtTick m s r).flags .scorch = true ↔
      hasFlag r.flags .scorch = true ∨ ∃ q ∈ (panelAtTick m s r).probes, 100 * scorchDose m r < q.accumulator := by
  simp only [hasFlag_panelAtTick, flagGained, Bool.or_eq_true, List.any_eq_true, decide_eq_true_eq]

theorem panelAtTick_otherFlags (f : Flag) (h1 : f ≠ .unverified) (h2 : f ≠ .spread) (h3 : f ≠ .standstill)
    (h4 : f ≠ .stoppedInArc) (h5 : f ≠ .scorch) : hasFlag (panelAtTick m s r).flags f = hasFlag r.flags f := by
  have nothing : flagGained m s r f = false := by simp only [flagGained]
  rw [hasFlag_panelAtTick, nothing, Bool.or_false]

end

/-! ## The queue and the attention kinds at a tick -/

/-- The queue after the dose tick of a state. -/
def queueAtTick (m : MachineRecord) (s : State) : List Panel :=
  s.queue.map fun r => if r.isTransferring then panelAtTick m s r else r

/-- A record of the queue takes SCORCH at the tick of a state (R108). -/
def scorchGained (m : MachineRecord) (s : State) : Bool :=
  s.queue.any fun r => r.isTransferring && !hasFlag r.flags .scorch && hasFlag (panelAtTick m s r).flags .scorch

theorem scorchGained_iff {m : MachineRecord} {s : State} :
    scorchGained m s = true ↔
      ∃ (k : Nat) (r r' : Panel), s.queue[k]? = some r ∧ (queueAtTick m s)[k]? = some r' ∧
        hasFlag r.flags .scorch = false ∧ hasFlag r'.flags .scorch = true := by
  simp only [scorchGained, List.any_eq_true, Bool.and_eq_true, Bool.not_eq_true']
  constructor
  · rintro ⟨r, mem, ⟨moves, before⟩, after⟩
    obtain ⟨k, at_⟩ := List.getElem?_of_mem mem
    refine ⟨k, r, panelAtTick m s r, at_, ?_, before, after⟩
    rw [queueAtTick, List.getElem?_map, at_, Option.map_some, if_pos moves]
  · rintro ⟨k, r, r', at_, at', before, after⟩
    rw [queueAtTick, List.getElem?_map, at_, Option.map_some, Option.some.injEq] at at'
    by_cases moves : r.isTransferring = true
    · rw [if_pos moves] at at'
      exact ⟨r, List.mem_of_getElem? at_, ⟨moves, before⟩, at' ▸ after⟩
    · rw [if_neg moves] at at'
      rw [← at', before] at after
      cases after

/-- The state with the tick counted (R102). -/
def tickCounted (s : State) : State :=
  { s with dose := { s.dose with ticks := (s.dose.ticks + 1) % 4294967296 } }

theorem ticks_wrap (n : Nat) :
    (n + 1) % 4294967296 = if n % 4294967296 = 4294967295 then 0 else n % 4294967296 + 1 := by
  split <;> omega

theorem exec_doseTick {s : State} (on : s.running = true) : exec .doseTick s = .next (doseTick s) :=
  congrArg Host.Outcome.next (if_pos on)

/-- A tick outside TRACKING and HALTED, or without a machine record, is only counted (R102, R117). -/
theorem doseTick_idle {s : State} (h : s.line.active = none ∨ s.line.state = .unset) : doseTick s = tickCounted s := by
  unfold doseTick
  split
  · next m active =>
    have off : ¬ s.onLine = true := fun on => onLine_iff.mp on (h.resolve_left (by simp [active]))
    exact if_neg off
  · rfl

theorem doseTick_acts {s : State} {m : MachineRecord} (active : s.line.active = some m) (on : s.line.state ≠ .unset) :
    doseTick s = { tickCounted s with queue := queueAtTick m s }.raiseIf (scorchGained m s) .scorch := by
  unfold doseTick
  rw [active]
  exact if_pos (onLine_iff.mpr on)

/-- The tick in TRACKING and HALTED: the queue as ticked, and SCORCH where a record takes it first (R103 to R108). -/
theorem doseTick_form {s : State} {m : MachineRecord} (active : s.line.active = some m) (on : s.line.state ≠ .unset) :
    ∃ ports, doseTick s = { tickCounted s with queue := queueAtTick m s, ports := ports } ∧
      PortsRaise s (doseTick s) (if scorchGained m s then Attn.scorch.bit else 0) ∧
      (scorchGained m s = false → (doseTick s).ports = s.ports) := by
  rw [doseTick_acts active on]
  obtain ⟨ports, form, raised⟩ := raiseIf_form { tickCounted s with queue := queueAtTick m s } (scorchGained m s) .scorch
  refine ⟨ports, form, form ▸ raised, fun none => ?_⟩
  rw [none]
  rfl

/-- The tick changes the tick count, the queue and the ports alone. -/
theorem doseTick_frame (s : State) :
    doseTick s =
        { s with
          dose := { s.dose with ticks := (s.dose.ticks + 1) % 4294967296 }
          queue := (doseTick s).queue
          ports := (doseTick s).ports } := by
  by_cases idle : s.line.active = none ∨ s.line.state = .unset
  · rw [doseTick_idle idle]
    rfl
  · obtain ⟨present, on⟩ := not_or.mp idle
    obtain ⟨m, active⟩ := Option.ne_none_iff_exists'.mp present
    obtain ⟨ports, form, -⟩ := doseTick_form active on
    rw [form]
    rfl

/-- Settles O48: the tick counts; on the line each record ticks, and SCORCH attention follows the records that take it. -/
theorem doseTicks : Obligations.DoseTicks := by
  intro s running
  have frame := doseTick_frame s
  have counted : (doseTick s).dose.ticks = (s.dose.ticks + 1) % 4294967296 := by rw [frame]
  refine ⟨_, exec_doseTick running, counted.trans (ticks_wrap _), by rw [counted]; exact frame, fun unset => ?_,
    fun m active on => ?_⟩
  · rw [doseTick_idle (.inr unset)]
    exact ⟨rfl, rfl⟩
  · obtain ⟨ports, form, raised, quiet⟩ := doseTick_form active on
    have queue : (doseTick s).queue = queueAtTick m s := by rw [form]
    rw [queue]
    refine ⟨List.length_map .., fun k r at_ => ?_, fun gains => ?_, fun none => quiet ?_⟩
    · refine ⟨if r.isTransferring then panelAtTick m s r else r, ?_, fun rests => ?_, fun moves => ?_⟩
      · rw [queueAtTick, List.getElem?_map, at_, Option.map_some]
      · exact if_neg (mt isTransferring_iff.mp rests)
      · rw [if_pos (isTransferring_iff.mpr moves)]
        refine ⟨panelAtTick_frame m s r, ?_, panelAtTick_unverified m s r, panelAtTick_spread m s r,
          panelAtTick_standstill m s r, panelAtTick_stoppedInArc m s r, panelAtTick_scorch m s r,
          panelAtTick_otherFlags m s r⟩
        rw [panelAtTick_probes]
        exact List.map_congr_left fun q _ => probeTick_eq m _ _ q
    · rwa [if_pos (scorchGained_iff.mpr gains)] at raised
    · rw [← Bool.not_eq_true, scorchGained_iff]
      rintro ⟨k, r, r', at_, at', before, after⟩
      rw [none k r r' at_ at' after] at before
      cases before

end Sys2Proof.Proofs
end

