-- ==== Sys2Proof/Proofs/TensionTicks.lean ====
section
/-!
O49: the tension tick, by the targets it sets and the ramp of the setpoints toward them.
-/
namespace Sys2Proof.Proofs

open Sys2Proof.Machine Sys2Proof.Safety

/-! ## Targets (R123, R124) -/

/-- The FABRIC_REWIND target rounds the tapered base tension at the diameter as used, between core and full roll (R124). -/
theorem isRounded_rewindTarget {m : MachineRecord} (c : ProfileCopies) (diameter : Nat)
    (width : m.coreDiameter < m.maxDiameter) :
    IsRounded
      (c.baseTension *
        (100 * (m.maxDiameter - m.coreDiameter) -
          c.taper * (max m.coreDiameter (min m.maxDiameter diameter) - m.coreDiameter)))
      (100 * (m.maxDiameter - m.coreDiameter)) (rewindTarget m c diameter) := by
  rw [← clampNat_eq width.le]
  exact isRounded_roundNat _ (by omega)

/-- The targets and the governed indication under a governing record (R123). -/
theorem targetsAt_of_governs {m : MachineRecord} {s : State} {r : Panel} {c : Correction} (h : Governs s.queue r c) :
    targetsAt m s = governedTargets m c.copies s.tension.diameter ∧ governedAfter s = true := by
  rw [targetsAt, governedAfter, governing_of_governs h]
  exact ⟨rfl, Bool.or_true _⟩

/-- Without a governing record the indication stays, and it alone decides between the defaults and the targets as they were
(R123). -/
theorem targetsAt_of_noneGoverns {m : MachineRecord} {s : State} (h : NoneGoverns s.queue) :
    targetsAt m s = (if s.tension.governed = true then s.tension.targets else defaultTargets m) ∧
      governedAfter s = s.tension.governed := by
  rw [targetsAt, governedAfter, governing_none h]
  exact ⟨rfl, Bool.or_false _⟩

/-! ## Setpoints (R125) -/

/-- A setpoint reaches a goal within the ramp rate, and else moves toward it by the ramp rate. -/
theorem rampOne_moves (rate before goal : Nat) :
    (goal ≤ before + rate ∧ before ≤ goal + rate → rampOne rate before goal = goal) ∧
      (before + rate < goal → rampOne rate before goal = before + rate) ∧
      (goal + rate < before → rampOne rate before goal + rate = before) := by
  unfold rampOne
  split
  · split <;> omega
  · split <;> omega

/-! ## The tick (R122) -/

theorem exec_tensionTick {s : State} {m : MachineRecord} (active : s.line.active = some m) :
    exec .tensionTick s = .next (tensionTick m s) := by
  refine congrArg Host.Outcome.next ?_
  rw [active]

/-- The tension unit after a tick. -/
def tensionTicked (m : MachineRecord) (s : State) : Tension :=
  { s.tension with
    targets := targetsAt m s
    governed := governedAfter s
    setpoints := ramp m.rampRate s.tension.setpoints (targetsAt m s).scaled }

theorem tensionTick_tension (m : MachineRecord) (s : State) : (tensionTick m s).tension = tensionTicked m s :=
  State.raiseIf_tension _ _ _

/-- A tick changes the tension unit, and raises SETPOINT_CHANGED where a target changes. -/
theorem tensionTick_form (m : MachineRecord) (s : State) :
    tensionTick m s = { s with ports := (tensionTick m s).ports, tension := tensionTicked m s } ∧
      PortsRaise s (tensionTick m s) (if targetsAt m s = s.tension.targets then 0 else Attn.setpointChanged.bit) := by
  obtain ⟨ports, form, raised⟩ := raiseIf_form (s.updateTension fun _ => tensionTicked m s)
    (decide (targetsAt m s ≠ s.tension.targets)) .setpointChanged
  rw [← form] at raised
  change tensionTick m s = _ at form
  simp only [decide_eq_true_eq, ite_not] at raised
  refine ⟨?_, raised⟩
  rw [form]
  rfl

/-- Settles O49: the targets by the record that governs, each setpoint by its ramp, and the kind by the targets' change. -/
theorem tensionTicks : Obligations.TensionTicks := by
  intro s m moved active isMoved
  obtain ⟨frame, raised⟩ := tensionTick_form m s
  have ramps (before goal : Nat) : moved before goal (rampOne m.rampRate before goal) :=
    (isMoved _ _ _).mpr (rampOne_moves _ _ _)
  refine ⟨tensionTick m s, exec_tensionTick active, ?_⟩
  simp only [tensionTick_tension]
  refine ⟨fun r c governs => ?_, fun none fresh => ?_, fun none kept => ?_, ramps _ _, ramps _ _, ramps _ _, ramps _ _,
    frame, raised⟩
  · obtain ⟨targets, governed⟩ := targetsAt_of_governs (m := m) governs
    simp only [tensionTicked, targets]
    refine ⟨governed, rfl, rfl, rfl, rfl, fun d width _ used => ?_⟩
    subst used
    exact isRounded_rewindTarget c.copies s.tension.diameter width
  · obtain ⟨targets, governed⟩ := targetsAt_of_noneGoverns (m := m) none
    rw [if_neg (by rw [fresh]; decide)] at targets
    exact ⟨governed.trans fresh, targets⟩
  · obtain ⟨targets, governed⟩ := targetsAt_of_noneGoverns (m := m) none
    rw [if_pos kept] at targets
    exact ⟨governed.trans kept, targets⟩

end Sys2Proof.Proofs
end

