-- ==== Sys2Proof/Proofs/TensionReports.lean ====
section
/-!
O36: a report of tensions, by what it does to the table, the bias, the records and the lost indication.
-/
namespace Sys2Proof.Proofs

open Sys2Proof.Machine Sys2Proof.Safety

/-! ## The values of a report (R120) -/

/-- The four readings of a REPORT_TENSIONS payload as numbers. -/
def readings (paperIn fabricUnwind calIn fabricRewind : BitVec 16) : Tensions :=
  { paperIn := paperIn.toNat, fabricUnwind := fabricUnwind.toNat, calIn := calIn.toNat, fabricRewind := fabricRewind.toNat }

theorem takeDiameter_eq {m : MachineRecord} (range : m.coreDiameter ≤ m.maxDiameter) (old v : Nat) :
    takeDiameter m old v = if v = 65535 then old else max m.coreDiameter (min m.maxDiameter v) := by
  rw [takeDiameter, clampNat_eq range]

theorem diameterClamps_iff {m : MachineRecord} (range : m.coreDiameter ≤ m.maxDiameter) {v : Nat} :
    diameterClamps m v = true ↔ v ≠ 65535 ∧ (v < m.coreDiameter ∨ m.maxDiameter < v) := by
  rw [diameterClamps, decide_eq_true_eq, clampNat_eq range]
  exact and_congr_right fun _ => by omega

theorem readingClamps_iff {limit v : Nat} : readingClamps limit v = true ↔ limit < v ∧ v ≠ 65535 := decide_eq_true_iff

/-- A report is clamped where one of its four readings or its diameter is. -/
theorem reportClamps_iff {m : MachineRecord} (range : m.coreDiameter ≤ m.maxDiameter)
    {paperIn fabricUnwind calIn fabricRewind : BitVec 16} {diameter : Nat} :
    reportClamps m (readings paperIn fabricUnwind calIn fabricRewind) diameter = true ↔
      (∃ v ∈ [paperIn, fabricUnwind, calIn, fabricRewind], 5000 < v.toNat ∧ v.toNat ≠ 65535) ∨
        diameter ≠ 65535 ∧ (diameter < m.coreDiameter ∨ m.maxDiameter < diameter) := by
  rw [reportClamps, Bool.or_eq_true, diameterClamps_iff range]
  simp only [readings, Bool.or_eq_true, readingClamps_iff, maxTension, List.exists_mem_cons_iff, List.not_mem_nil, false_and,
    exists_false, or_false, or_assoc]

/-! ## Bias and excursion (R128, R129) -/

theorem isFresh_iff {z : Zone} : z.isFresh = true ↔ z.standing = .fresh := decide_eq_true_iff

theorem updateBias_eq (t : Tension) :
    updateBias t =
      { t with
        bias :=
          if t.calIn.standing = .fresh then
            max (-200) (min 200 (t.bias + roundInt (100 * (t.calIn.value : Int) - t.setpoints.calIn - 100 * t.bias) 1600))
          else t.bias } := by
  rw [updateBias, biasAfter, clampInt_eq (by decide)]
  by_cases fresh : t.calIn.standing = .fresh
  · rw [if_pos (isFresh_iff.mpr fresh), if_pos fresh]
  · rw [if_neg (mt isFresh_iff.mp fresh), if_neg fresh]

theorem clearLostTension_eq (t : Tension) :
    clearLostTension t = { t with lostTension := t.lostTension && t.zones.any fun z => !z.isFresh } := by
  rw [clearLostTension, tableStaleSince_isSome_eq]

/-- The excursion check flags the TRANSFERRING records of a reading beyond the band, and changes nothing else. -/
theorem checkExcursion_eq (m : MachineRecord) (reading : Bool) (s : State) :
    checkExcursion m reading s =
      { s with
        queue := s.queue.map fun r =>
          if r.isTransferring = true ∧ reading = true ∧
              100 * m.excursionBand < (100 * (s.tension.calIn.value : Int) - s.tension.setpoints.calIn).natAbs
          then r.flag .tensionExcursion else r } := by
  unfold checkExcursion
  split
  · next beyond =>
    rw [Bool.and_eq_true, decide_eq_true_eq] at beyond
    simp only [beyond, and_true]
    rfl
  · next within =>
    rw [Bool.and_eq_true, decide_eq_true_eq] at within
    simp only [within, and_false, if_false, List.map_id']

/-! ## The report -/

/-- The tension unit after a report. -/
def tensionReported (m : MachineRecord) (v : Tensions) (diameter : Nat) (t : Tension) : Tension :=
  clearLostTension (updateBias (t.take m v diameter))

theorem tensionReported_calIn (m : MachineRecord) (v : Tensions) (diameter : Nat) (t : Tension) :
    (tensionReported m v diameter t).calIn = t.calIn.take maxTension v.calIn := by
  rw [tensionReported, clearLostTension_eq, updateBias_eq]
  rfl

/-- The state a report leaves, before STALE and the answer. -/
def tensionsStored (m : MachineRecord) (v : Tensions) (diameter : Nat) (s : State) : State :=
  { s with
    tension := tensionReported m v diameter s.tension
    queue := s.queue.map fun r =>
      if r.isTransferring = true ∧ v.calIn ≠ 65535 ∧
          100 * m.excursionBand <
            (100 * ((tensionReported m v diameter s.tension).calIn.value : Int) - s.tension.setpoints.calIn).natAbs
      then r.flag .tensionExcursion else r }

theorem reportTensionsOwner_taken {s : State} {v : Tensions} {diameter : Nat} {m : MachineRecord}
    (active : s.line.active = some m) :
    reportTensionsOwner v diameter s =
      Served.of (syncStale (tensionsStored m v diameter s)) (doneOr (reportClamps m v diameter) []) := by
  simp only [reportTensionsOwner, active, checkExcursion_eq, decide_eq_true_eq, tensionsStored, tensionReported_calIn]
  rfl

theorem exec_reportTensions (p : PortId) (paperIn fabricUnwind calIn fabricRewind diameter : BitVec 16) (s : State) :
    exec (.reportTensions p paperIn fabricUnwind calIn fabricRewind diameter) s =
      .next (takeRequest p 0x60 onlyDrive
        (reportTensionsOwner (readings paperIn fabricUnwind calIn fabricRewind) diameter.toNat) s) := rfl

/-- Settles O36: the owner's state with STALE brought to its condition, and an answer that says whether a value was clamped. -/
theorem tensionReports : Obligations.TensionReports := by
  intro s p paperIn fabricUnwind calIn fabricRewind diameter m taken serves active range isTaken
  have takes (z : Zone) (v : BitVec 16) : z.take maxTension v.toNat = taken z v := (isTaken z v).symm
  obtain ⟨frame, answer⟩ := takeRequest_silent (code := 0x60)
    (owner := reportTensionsOwner (readings paperIn fabricUnwind calIn fabricRewind) diameter.toNat) serves rfl
    (reportTensionsOwner_taken (s := s.updatePort p Port.accept) active) (frame_doneOr _ [] _) rfl
  simp only [reportClamps_iff range] at answer
  refine ⟨_, exec_reportTensions .., ?_⟩
  generalize takeRequest p 0x60 onlyDrive (reportTensionsOwner _ _) s = t at frame answer ⊢
  have table : t.tension = tensionReported m (readings paperIn fabricUnwind calIn fabricRewind) diameter.toNat s.tension := by
    rw [frame]
    rfl
  have unit := table
  rw [tensionReported, clearLostTension_eq, updateBias_eq] at unit
  refine ⟨(congrArg Tension.paperIn unit).trans (takes _ _), (congrArg Tension.fabricUnwind unit).trans (takes _ _),
    (congrArg Tension.calIn unit).trans (takes _ _), (congrArg Tension.fabricRewind unit).trans (takes _ _),
    (congrArg Tension.diameter unit).trans (takeDiameter_eq range _ _), ?bias, ?queue, ?lost, ?unit, ?line, ?frame, answer⟩
  case bias | lost | unit =>
    rw [unit]
    rfl
  case queue =>
    rw [table, frame]
    rfl
  case line | frame =>
    rw [frame]
    rfl

end Sys2Proof.Proofs
end

