-- ==== Sys2Proof/Proofs/StoreArray.lean ====
section
/-!
O4 and O27: what programming rows and a cut-off erase leave of the array, and the completion of a write.
-/
namespace Sys2Proof.Proofs

open Sys2Proof.Machine Sys2Proof.Safety

/-! ## Addresses of slots -/

theorem slotBase_add_ne {i j : SlotId} (other : j ≠ i) {a b : Nat} (ha : a < 1024) (hb : b < 1024) :
    slotBase j + a ≠ slotBase i + b := by
  have ne : j.val ≠ i.val := fun h => other (Fin.ext h)
  unfold slotBase
  omega

/-! ## A cut-off erase (R141) -/

/-- The byte that an erase cut off after byte 0 has changed leaves at an offset. -/
def scrambledByte (n : Nat) (slot : SlotId) (off : Nat) : Byte :=
  if off = 0 ∧ Config.cutByte n (slotBase slot + off) = 0x3C then 0 else Config.cutByte n (slotBase slot + off)

/-- Writes of a slot's bytes in turn, as a scrambled slot has them. -/
def writeBytes (slot : SlotId) (f : Nat → Byte) (offs : List Nat) (m : Memory) : Memory :=
  offs.foldl (fun t off => Memory.write t (slotBase slot + off) (f off)) m

theorem scrambleSlot_eq (n : Nat) (m : Memory) (slot : SlotId) :
    scrambleSlot n m slot = writeBytes slot (scrambledByte n slot) (List.range 1024) m := rfl

theorem read_writeBytes_other {slot : SlotId} {f : Nat → Byte} {offs : List Nat} {m : Memory} {x : Nat}
    (outside : ∀ off ∈ offs, x ≠ slotBase slot + off) : Memory.read (writeBytes slot f offs m) x = Memory.read m x := by
  induction offs generalizing m with
  | nil => rfl
  | cons off rest ih =>
    obtain ⟨here, later⟩ := List.forall_mem_cons.mp outside
    exact (ih later).trans (Memory.read_write_other _ here)

theorem scrambledByte_zero (n : Nat) (slot : SlotId) : scrambledByte n slot 0 ≠ 0x3C := by
  unfold scrambledByte
  split
  · decide
  · rename_i h
    exact fun mark => h ⟨rfl, mark⟩

/-- Byte 0 written first keeps its value through writes of later bytes. -/
theorem slotByte_writeBytes_zero {slot : SlotId} {f : Nat → Byte} {offs : List Nat} {m : Memory}
    (canonical : Memory.wf m = true) (later : ∀ off ∈ offs, off ≠ 0) :
    slotByte (writeBytes slot f (0 :: offs) m) slot 0 = f 0 := by
  have kept : slotByte (writeBytes slot f (0 :: offs) m) slot 0 =
      Memory.read (Memory.write m (slotBase slot + 0) (f 0)) (slotBase slot + 0) :=
    read_writeBytes_other (m := Memory.write m (slotBase slot + 0) (f 0)) fun off listed => by
      have := later off listed
      omega
  rw [kept, Memory.read_write _ _ canonical]

/-- A scrambled slot has no commit mark. -/
theorem scrambleSlot_uncommitted {m : Memory} (n : Nat) (slot : SlotId) (canonical : Memory.wf m = true) :
    slotByte (scrambleSlot n m slot) slot 0 ≠ 0x3C := by
  rw [scrambleSlot_eq, List.range_succ_eq_map, slotByte_writeBytes_zero canonical]
  · exact scrambledByte_zero n slot
  · intro off listed
    obtain ⟨k, -, rfl⟩ := List.mem_map.mp listed
    exact Nat.succ_ne_zero k

/-- The three outcomes that R141 gives a cut-off erase. -/
theorem cutErase_cases (n progress : Nat) (m : Memory) (slot : SlotId) :
    cutErase n progress m slot = m ∨ cutErase n progress m slot = Memory.eraseRange m (slotBase slot) 1024 ∨
      cutErase n progress m slot = scrambleSlot n m slot := by
  unfold cutErase
  split
  · exact .inl rfl
  · split
    · exact .inr (.inl rfl)
    · exact .inr (.inr rfl)

theorem slotByte_eraseRange_own (m : Memory) (slot : SlotId) {off : Nat} (inside : off < 1024) :
    slotByte (Memory.eraseRange m (slotBase slot) 1024) slot off = 0xFF := by
  rw [slotByte, Memory.read_eraseRange, if_pos (by omega)]
  rfl

theorem slotByte_eraseRange_other (m : Memory) {slot other : SlotId} (ne : other ≠ slot) {off : Nat} (inside : off < 1024) :
    slotByte (Memory.eraseRange m (slotBase slot) 1024) other off = slotByte m other off := by
  have differ : other.val ≠ slot.val := fun h => ne (Fin.ext h)
  rw [slotByte, Memory.read_eraseRange, if_neg (by unfold slotBase; omega)]
  rfl

theorem slotByte_scrambleSlot_other (n : Nat) (m : Memory) {slot other : SlotId} (ne : other ≠ slot) {off : Nat}
    (inside : off < 1024) : slotByte (scrambleSlot n m slot) other off = slotByte m other off :=
  read_writeBytes_other fun _ listed => slotBase_add_ne ne inside (List.mem_range.mp listed)

theorem slotByte_cutErase_other (n progress : Nat) (m : Memory) {slot other : SlotId} (ne : other ≠ slot) {off : Nat}
    (inside : off < 1024) : slotByte (cutErase n progress m slot) other off = slotByte m other off := by
  rcases cutErase_cases n progress m slot with kept | erased | scrambled
  · rw [kept]
  · rw [erased, slotByte_eraseRange_other m ne inside]
  · rw [scrambled, slotByte_scrambleSlot_other n m ne inside]

/-- Settles O4: reset leaves the array as the cut-off erase has it, in one of its three outcomes. -/
theorem cutOffEraseLeavesSlotOldErasedOrUncommitted : Obligations.CutOffEraseLeavesSlotOldErasedOrUncommitted := by
  intro s p slot c live canonical erasing source
  obtain ⟨cause, named⟩ : ∃ cause, (c = .powerOnReset ∧ cause = ResetCause.powerOn) ∨
      (c = .supplyMonitorReset ∧ cause = .supply) ∨ (c = .resetnReset ∧ cause = .pin) := by
    rcases source with h | h | h
    · exact ⟨_, .inl ⟨h, rfl⟩⟩
    · exact ⟨_, .inr (.inl ⟨h, rfl⟩)⟩
    · exact ⟨_, .inr (.inr ⟨h, rfl⟩)⟩
  have array : (beginReset cause s).store.array =
      cutErase s.freeSeq (Config.cutProgress s.freeSeq) s.store.array slot := by
    change arrayAfterReset s = _
    simp only [arrayAfterReset, erasing]
  refine ⟨beginReset cause s, by rw [exec_resetSource named, deviceReset, if_pos live], ?_⟩
  rw [array]
  refine ⟨fun other ne off inside => slotByte_cutErase_other _ _ _ ne inside, ?_⟩
  rcases cutErase_cases s.freeSeq (Config.cutProgress s.freeSeq) s.store.array slot with kept | erased | scrambled
  · exact .inl fun off _ => by rw [kept]
  · exact .inr (.inl fun off inside => by rw [erased, slotByte_eraseRange_own _ _ inside])
  · exact .inr (.inr (by rw [scrambled]; exact scrambleSlot_uncommitted _ _ canonical))

/-! ## Rows programmed (R135, R148) -/

theorem read_programList {m : Memory} {a k : Nat} {vs : List Byte} (canonical : Memory.wf m = true) (inside : k < vs.length) :
    Memory.read (Memory.programList m a vs) (a + k) = Memory.read m (a + k) &&& vs[k] := by
  induction vs generalizing m a k with
  | nil => cases inside
  | cons v rest ih =>
    cases k with
    | zero =>
      rw [Nat.add_zero, Memory.programList, Memory.read_programList_other _ (.inl (Nat.lt_add_one a))]
      exact Memory.read_program a v canonical
    | succ k =>
      have shift : a + (k + 1) = a + 1 + k := by omega
      rw [Memory.programList, shift, ih (Memory.wf_program a v canonical) (Nat.lt_of_succ_lt_succ inside),
        Memory.read_program_other v (by omega)]
      rfl

/-- A row as the arbiter holds it: of 32 bytes, within its slot (R148). -/
def RowFits (r : StagingRow) : Prop :=
  r.bytes.length = 32 ∧ r.row < 32

theorem read_programRow_other {m : Memory} {r : StagingRow} {a : Nat} (fits : RowFits r)
    (outside : a < slotBase r.slot + 32 * r.row ∨ slotBase r.slot + 32 * r.row + 32 ≤ a) :
    Memory.read (programRow m r) a = Memory.read m a :=
  Memory.read_programList_other _ (by rw [StagingRow.content, List.length_map, fits.1]; exact outside)

/-- A row's program clears bits of its own 32 bytes and leaves every other byte of the slots (R135). -/
theorem slotByte_programRow {m : Memory} {r : StagingRow} (fits : RowFits r) (canonical : Memory.wf m = true) (slot : SlotId)
    {row k : Nat} (hrow : row < 32) (hk : k < 32) :
    slotByte (programRow m r) slot (32 * row + k) =
      if r.slot = slot ∧ r.row = row then slotByte m slot (32 * row + k) &&& ((r.bytes.getD k none).getD 0xFF)
      else slotByte m slot (32 * row + k) := by
  obtain ⟨length, within⟩ := fits
  split
  · rename_i own
    obtain ⟨rfl, rfl⟩ := own
    have inside : k < r.content.length := by rw [StagingRow.content, List.length_map, length]; exact hk
    have here : k < r.bytes.length := length ▸ hk
    rw [slotByte, slotByte, ← Nat.add_assoc, programRow, read_programList canonical inside]
    simp [StagingRow.content, here, erasedByte]
  · rename_i other
    refine read_programRow_other ⟨length, within⟩ ?_
    have differ : r.slot.val ≠ slot.val ∨ r.row ≠ row := by
      rw [← not_and_or]
      exact fun same => other ⟨Fin.ext same.1, same.2⟩
    unfold slotBase
    omega

/-- Rows programmed in turn. -/
def rowsOver (rows : List StagingRow) (m : Memory) : Memory :=
  rows.foldl programRow m

theorem rowsOver_cons (r : StagingRow) (rest : List StagingRow) (m : Memory) :
    rowsOver (r :: rest) m = rowsOver rest (programRow m r) := rfl

theorem rowsOver_wf {m : Memory} (rows : List StagingRow) (canonical : Memory.wf m = true) :
    Memory.wf (rowsOver rows m) = true := by
  induction rows generalizing m with
  | nil => exact canonical
  | cons r rest ih => exact ih (programRow_wf r canonical)

theorem read_rowsOver_other {m : Memory} {rows : List StagingRow} {a : Nat} (fit : ∀ r ∈ rows, RowFits r)
    (outside : ∀ r ∈ rows, a < slotBase r.slot + 32 * r.row ∨ slotBase r.slot + 32 * r.row + 32 ≤ a) :
    Memory.read (rowsOver rows m) a = Memory.read m a := by
  induction rows generalizing m with
  | nil => rfl
  | cons r rest ih =>
    obtain ⟨fits, fitRest⟩ := List.forall_mem_cons.mp fit
    obtain ⟨here, later⟩ := List.forall_mem_cons.mp outside
    rw [rowsOver_cons, ih fitRest later, read_programRow_other fits here]

/-- Each byte of the slots after rows were programmed in turn (R135, R148). -/
theorem slotByte_rowsOver {m : Memory} {rows : List StagingRow} (fit : ∀ r ∈ rows, RowFits r)
    (canonical : Memory.wf m = true) (slot : SlotId) {row k : Nat} (hrow : row < 32) (hk : k < 32) :
    slotByte (rowsOver rows m) slot (32 * row + k) =
      (rows.filter fun r => decide (r.slot = slot ∧ r.row = row)).foldl
        (fun b r => b &&& ((r.bytes.getD k none).getD 0xFF)) (slotByte m slot (32 * row + k)) := by
  induction rows generalizing m with
  | nil => rfl
  | cons r rest ih =>
    obtain ⟨fits, fitRest⟩ := List.forall_mem_cons.mp fit
    rw [rowsOver_cons, ih fitRest (programRow_wf r canonical), slotByte_programRow fits canonical slot hrow hk]
    by_cases own : r.slot = slot ∧ r.row = row
    · rw [if_pos own, List.filter_cons_of_pos (by simpa using own), List.foldl_cons]
    · rw [if_neg own, List.filter_cons_of_neg (by simpa using own)]

theorem rowsProgrammed_rowsOver {m : Memory} {rows : List StagingRow} (fit : ∀ r ∈ rows, RowFits r)
    (canonical : Memory.wf m = true) : RowsProgrammed m (rowsOver rows m) rows := by
  refine ⟨fun slot row k hrow hk => slotByte_rowsOver fit canonical slot hrow hk, fun a beyond => ?_⟩
  refine read_rowsOver_other fit fun r listed => .inr ?_
  have slot := r.slot.isLt
  have row := (fit r listed).2
  unfold slotBase
  omega

/-! ## Rows programmed and their slots' directory lines (R148) -/

/-- Programming a row in the state: the array, and the row in its slot's programmed rows. -/
def rowProgrammed (s : State) (r : StagingRow) : State :=
  (s.updateStore fun x => { x with array := programRow x.array r }).updateDir r.slot fun d =>
    { d with programmed := d.programmed ||| BitVec.ofNat 32 (2 ^ r.row) }

theorem programRows_cons (r : StagingRow) (rest : List StagingRow) (s : State) :
    programRows (r :: rest) s = programRows rest (rowProgrammed s r) := rfl

/-- Programming rows changes the array and the directory alone. -/
theorem programRows_frame (rows : List StagingRow) (s : State) :
    programRows rows s =
      { s with store := { s.store with array := rowsOver rows s.store.array, dir := (programRows rows s).store.dir } } := by
  induction rows generalizing s with
  | nil => rfl
  | cons r rest ih =>
    rw [programRows_cons, ih]
    rfl

theorem dirEntry_rowProgrammed (s : State) (r : StagingRow) (slot : SlotId) :
    dirEntry (rowProgrammed s r) slot =
      if slot = r.slot then
        { dirEntry s slot with programmed := (dirEntry s slot).programmed ||| BitVec.ofNat 32 (2 ^ r.row) }
      else dirEntry s slot := by
  rw [rowProgrammed, dirEntry_updateDir]
  split
  · rename_i own
    subst own
    rfl
  · rfl

/-- Of a directory line, programming rows changes the set of programmed rows alone. -/
theorem dirEntry_programRows (rows : List StagingRow) (s : State) (slot : SlotId) :
    dirEntry (programRows rows s) slot =
      { dirEntry s slot with programmed := (dirEntry (programRows rows s) slot).programmed } := by
  induction rows generalizing s with
  | nil => rfl
  | cons r rest ih =>
    rw [programRows_cons, ih, dirEntry_rowProgrammed]
    split <;> rfl

/-- A slot of which no row is programmed keeps its directory line. -/
theorem dirEntry_programRows_other {rows : List StagingRow} (s : State) {slot : SlotId} (others : ∀ r ∈ rows, r.slot ≠ slot) :
    dirEntry (programRows rows s) slot = dirEntry s slot := by
  induction rows generalizing s with
  | nil => rfl
  | cons r rest ih =>
    obtain ⟨other, later⟩ := List.forall_mem_cons.mp others
    rw [programRows_cons, ih _ later, dirEntry_rowProgrammed, if_neg other.symm]

theorem getLsbD_rowBit {row r : Nat} (hrow : row < 32) : (BitVec.ofNat 32 (2 ^ r)).getLsbD row = decide (r = row) := by
  rw [BitVec.getLsbD_ofNat, Nat.testBit_two_pow, decide_eq_true hrow, Bool.true_and]

/-- Each row programmed joins its slot's programmed rows, and no other row does. -/
theorem programmed_programRows {rows : List StagingRow} (s : State) (slot : SlotId) {row : Nat} (hrow : row < 32) :
    (dirEntry (programRows rows s) slot).programmed.getLsbD row = true ↔
      (dirEntry s slot).programmed.getLsbD row = true ∨ ∃ r ∈ rows, r.slot = slot ∧ r.row = row := by
  induction rows generalizing s with
  | nil => simp [programRows]
  | cons r rest ih =>
    have joined : (dirEntry (rowProgrammed s r) slot).programmed.getLsbD row = true ↔
        (dirEntry s slot).programmed.getLsbD row = true ∨ r.slot = slot ∧ r.row = row := by
      rw [dirEntry_rowProgrammed]
      by_cases own : slot = r.slot
      · simp only [own, if_true, BitVec.getLsbD_or, getLsbD_rowBit hrow, Bool.or_eq_true, decide_eq_true_eq, true_and]
      · simp [own, Ne.symm own]
    rw [programRows_cons, ih, joined, List.exists_mem_cons_iff, or_assoc]

end Sys2Proof.Proofs
end

