-- ==== Sys2Proof/Proofs/StoreCompletions.lean ====
section
/-!
O26 to O29: the completions of the store's operations.
-/
namespace Sys2Proof.Proofs

open Sys2Proof.Machine Sys2Proof.Safety

/-! ## The end of an operation (R142, R143) -/

/-- A request answered after its take event, over a state that has raised kinds. -/
theorem portsAnswer_answerLater {s u : State} {p : PortId} {code : Byte} {reply : Reply} {frame : List Byte}
    {raised : AttnSet} (framed : reply.frame code = some frame) (raises : PortsRaise s u raised) :
    PortsAnswer s (answerLater p code reply u) p frame (raised ||| Attn.storeDone.bit) := by
  have placed : PortsAnswer s (u.answer p code reply) p frame raised := fun q => by
    rw [State.answer, updatePort_port, raises q]
    by_cases own : q = p
    · simp [own, Port.place, framed]
    · simp [own]
  exact portsAnswer_raise placed (portsRaise_raise _ .storeDone)

/-- An operation that ends with no client waiting and HOLDn as it was: its state but for the ports, the port's answer, and the
kinds raised with STORE_DONE. -/
theorem endOperation_raised {b u t : State} {p : PortId} {code : Byte} {reply : Reply} {frame : List Byte} {raised : AttnSet}
    (ended : t = endOperation b p code reply u) (noFill : u.store.fillWaiting = none)
    (noRequest : u.store.requestWaiting = none) (level : holdAsserted u = holdAsserted b)
    (framed : reply.frame code = some frame) (raises : PortsRaise b u raised) :
    t = { u with ports := t.ports } ∧ PortsAnswer b t p frame (raised ||| Attn.storeDone.bit) := by
  have same : holdAsserted b = holdAsserted (answerLater p code reply u) := level.symm
  have event : t = answerLater p code reply u := by
    rw [ended, endOperation, grantWaiting_idle (s := answerLater p code reply u) noFill noRequest,
      closeEvent_nil, same, bne_self_eq_false]
    rfl
  rw [event]
  exact ⟨rfl, portsAnswer_answerLater framed raises⟩

/-- An operation that ends without raising a kind of its own. -/
theorem endOperation_silent {b u t : State} {p : PortId} {code : Byte} {reply : Reply} {frame : List Byte}
    (ended : t = endOperation b p code reply u) (noFill : u.store.fillWaiting = none)
    (noRequest : u.store.requestWaiting = none) (level : holdAsserted u = holdAsserted b)
    (framed : reply.frame code = some frame) (ports : u.ports = b.ports) :
    t = { u with ports := t.ports } ∧ PortsAnswer b t p frame Attn.storeDone.bit := by
  obtain ⟨form, answer⟩ := endOperation_raised ended noFill noRequest level framed (portsRaise_of_ports ports)
  exact ⟨form, fun q => by rw [answer q, show (0 : AttnSet) ||| Attn.storeDone.bit = Attn.storeDone.bit from BitVec.zero_or]⟩

/-! ## Erase, slot read and store clear (R146, R155, R156) -/

theorem exec_eraseCompletion {s : State} {p : PortId} {i : SlotId} (holds : s.store.holder = some (.erase p i)) :
    exec .eraseSlotCompletion s = .next (endErase p i s) := by
  change execEraseSlotCompletion s = _
  rw [execEraseSlotCompletion, holds]

theorem exec_readCompletion {s : State} {p : PortId} {i : SlotId} {offset n : Nat}
    (holds : s.store.holder = some (.read p i offset n)) :
    exec .readSlotCompletion s =
      .next (endOperation s p 0x34 (.done (leBytes 1 n ++ slotBytes s.store.array i offset n)) (freeStore s)) := by
  change execReadSlotCompletion s = _
  rw [execReadSlotCompletion, holds]

/-- With no slot VALID or LOCKED no record is eligible, and the scheduler has nothing to start (R78, R80). -/
theorem reevaluate_of_noneUsable {s : State} (noneUsable : ∀ i, slotUsable s i = false) : reevaluate s = s := by
  cases active : s.line.active with
  | none => rw [reevaluate, active]
  | some m =>
    refine reevaluate_of_noneEligible active (List.filter_eq_nil_iff.mpr fun r _ => ?_)
    cases normal : r.normal <;> simp [eligible, normal, noneUsable]

theorem exec_clearCompletion {s : State} {p : PortId} (holds : s.store.holder = some (.clear p))
    (erased : ∀ i : SlotId, (dirEntry s i).state = .erased) :
    exec .storeClearCompletion s =
      .next (endOperation s p 0x35 (.done []) ((freeStore s).updateStore fun x => { x with array := [] })) := by
  have unusable : ∀ i, slotUsable ((freeStore s).updateStore fun x => { x with array := [] }) i = false := fun i => by
    have entry : dirEntry ((freeStore s).updateStore fun x => { x with array := [] }) i = dirEntry s i := rfl
    simp [slotUsable, entry, erased i]
  change execStoreClearCompletion s = _
  rw [← reevaluate_of_noneUsable unusable, execStoreClearCompletion, holds]

/-- Settles O26: each operation's end on the freed store, answered with STORE_DONE. -/
theorem eraseReadAndClearCompletions : Obligations.EraseReadAndClearCompletions := by
  refine ⟨fun s p i holds noFill noRequest => ?_, fun s p i offset n holds noFill noRequest => ?_,
    fun s p holds noFill noRequest erased => ?_⟩
  · refine ⟨_, exec_eraseCompletion holds, ?_⟩
    generalize ended : endErase p i s = t
    obtain ⟨form, answer⟩ := endOperation_silent ended.symm noFill noRequest rfl rfl rfl
    have array : t.store.array = Memory.eraseRange s.store.array (slotBase i) 1024 := by
      rw [form]
      rfl
    rw [array]
    refine ⟨by rw [form]; rfl, fun off inside => slotByte_eraseRange_own _ _ inside,
      fun j other off inside => slotByte_eraseRange_other _ other inside, form, answer⟩
  · refine ⟨_, exec_readCompletion holds, ?_⟩
    generalize ended : endOperation s p 0x34 _ _ = t
    exact endOperation_silent ended.symm noFill noRequest rfl rfl rfl
  · refine ⟨_, exec_clearCompletion holds erased, ?_⟩
    generalize ended : endOperation s p 0x35 _ _ = t
    obtain ⟨form, answer⟩ := endOperation_silent ended.symm noFill noRequest rfl rfl rfl
    have array : t.store.array = [] := by
      rw [form]
      rfl
    rw [array]
    exact ⟨fun _ => rfl, form, answer⟩

/-! ## Write (R148, R149) -/

theorem exec_writeCompletion {s : State} {p : PortId} {rows : List StagingRow} (holds : s.store.holder = some (.write p rows)) :
    exec .writeSlotCompletion s = .next (endOperation s p 0x31 (.done []) (programRows rows (freeStore s))) := by
  change execWriteSlotCompletion s = _
  rw [execWriteSlotCompletion, holds]

/-- The freed store with rows programmed, beside the state it was held in. -/
theorem programRows_freeStore (rows : List StagingRow) (s : State) :
    programRows rows (freeStore s) =
      { s with
        store :=
          { s.store with
            array := rowsOver rows s.store.array
            dir := (programRows rows (freeStore s)).store.dir
            holder := none } } :=
  programRows_frame rows (freeStore s)

/-- Settles O27: the rows programmed in turn into the array and their slots' directory lines. -/
theorem writeCompletionProgramsItsRows : Obligations.WriteCompletionProgramsItsRows := by
  intro s p rows holds canonical noFill noRequest fit
  refine ⟨_, exec_writeCompletion holds, ?_⟩
  have lines := dirEntry_programRows rows (freeStore s)
  have joined (slot : SlotId) (row : Nat) := programmed_programRows (rows := rows) (freeStore s) slot (row := row)
  have freed := programRows_freeStore rows s
  generalize programRows rows (freeStore s) = u at *
  generalize ended : endOperation s p 0x31 _ _ = t
  obtain ⟨form, answer⟩ := endOperation_silent ended.symm (by rw [freed]; exact noFill) (by rw [freed]; exact noRequest)
    (by rw [freed]; rfl) rfl (by rw [freed])
  have array : t.store.array = rowsOver rows s.store.array := by rw [form, freed]
  have entry (slot : SlotId) : dirEntry t slot = dirEntry u slot := by rw [dirEntry, form, dirEntry]
  have dir : t.store.dir = u.store.dir := by rw [form]
  refine ⟨by rw [form, freed], array ▸ rowsProgrammed_rowsOver fit canonical, fun a outside => ?_, fun slot => ?_, ?_, answer⟩
  · rw [array, read_rowsOver_other fit outside]
  · rw [entry]
    exact ⟨lines slot, fun row within => joined slot row within⟩
  · rw [array, dir, form]
    exact congrArg (fun x : State => { x with ports := t.ports }) freed

/-! ## Lock (R154) -/

theorem exec_lockCompletion {s : State} {p : PortId} {i : SlotId} (holds : s.store.holder = some (.lock p i)) :
    exec .lockSlotCompletion s = .next (endLock p i s) := by
  change execLockSlotCompletion s = _
  rw [execLockSlotCompletion, holds]

/-- A checked read of a slot that is not LOCKED is its CRC's (R136). -/
theorem readPasses_of_valid {s : State} {i : SlotId} (valid : (dirEntry s i).state = .valid) :
    readPasses s i = slotCrcHolds s.store.array i := by
  simp [readPasses, valid]

theorem entries_invalidate (c : Cache) (i : SlotId) (k : Fin 8) :
    (c.invalidate i).entries[k] = if (c.entries[k]).map (·.slot) = some i then none else c.entries[k] := by
  simp [Cache.invalidate]

theorem slot_ne_of_invalidate {c : Cache} {i : SlotId} {k : Fin 8} {e : CacheEntry}
    (entry : (c.invalidate i).entries[k] = some e) : e.slot ≠ i := by
  rw [entries_invalidate] at entry
  split at entry
  · cases entry
  · rename_i other
    exact fun named => other (by rw [entry, Option.map_some, named])

/-- The lock mark programmed and the slot LOCKED, on the freed store. -/
def slotLocked (i : SlotId) (s : State) : State :=
  ((freeStore s).updateStore fun x => { x with array := Memory.program x.array (slotBase i + 1) 0xC3 }).updateDir i
    fun d => { d with state := .locked }

/-- The slot found damaged and its entry invalidated, on the freed store. -/
def lockFailed (i : SlotId) (s : State) : State :=
  (markDamaged i (freeStore s)).updateCache fun c => c.invalidate i

theorem endLock_of_valid {s : State} {p : PortId} {i : SlotId} (valid : (dirEntry s i).state = .valid) :
    endLock p i s =
      if slotCrcHolds s.store.array i then endOperation s p 0x33 (.done []) (slotLocked i s)
      else endOperation s p 0x33 (.refused .badCheck) (lockFailed i s) := by
  rw [← readPasses_of_valid valid]
  rfl

theorem dirEntry_slotLocked (i : SlotId) (s : State) (j : SlotId) :
    dirEntry (slotLocked i s) j = if j = i then { dirEntry s i with state := .locked } else dirEntry s j :=
  dirEntry_updateDir _ i _ j

theorem dirEntry_lockFailed (i : SlotId) (s : State) (j : SlotId) :
    dirEntry (lockFailed i s) j = if j = i then (dirEntry s i).without .damaged else dirEntry s j :=
  dirEntry_updateDir (freeStore s) i (·.without .damaged) j

/-- Settles O29: the lock's checked read in its two outcomes. -/
theorem lockCompletion : Obligations.LockCompletion := by
  intro s p i holds canonical valid noFill noRequest
  refine ⟨_, exec_lockCompletion holds, ?_⟩
  generalize ended : endLock p i s = t
  rw [endLock_of_valid valid] at ended
  cases crc : slotCrcHolds s.store.array i with
  | true =>
    rw [if_pos crc] at ended
    obtain ⟨form, answer⟩ := endOperation_silent ended.symm noFill noRequest rfl rfl rfl
    have array : t.store.array = Memory.program s.store.array (slotBase i + 1) 0xC3 := by
      rw [form]
      rfl
    have dir : t.store.dir = (slotLocked i s).store.dir := by rw [form]
    have entry (j : SlotId) : dirEntry t j = if j = i then { dirEntry s i with state := .locked } else dirEntry s j := by
      rw [← dirEntry_slotLocked, dirEntry, dirEntry, dir]
    refine ⟨fun j other => (entry j).trans (if_neg other), fun _ => ?_, nofun⟩
    rw [array, dir]
    exact ⟨Memory.read_program _ _ canonical, fun a other => Memory.read_program_other _ other,
      (entry i).trans (if_pos rfl), form, answer⟩
  | false =>
    rw [if_neg (by rw [crc]; exact Bool.false_ne_true)] at ended
    obtain ⟨form, answer⟩ := endOperation_raised ended.symm noFill noRequest rfl rfl
      (portsRaise_raise s .profileDamaged)
    have dir : t.store.dir = (lockFailed i s).store.dir := by rw [form]
    have cache : t.cache = s.cache.invalidate i := by
      rw [form]
      rfl
    have entry (j : SlotId) : dirEntry t j = if j = i then (dirEntry s i).without .damaged else dirEntry s j := by
      rw [← dirEntry_lockFailed, dirEntry, dirEntry, dir]
    refine ⟨fun j other => (entry j).trans (if_neg other), nofun, fun _ => ?_⟩
    rw [entry, if_pos rfl, cache, dir]
    exact ⟨rfl, rfl, fun k e => slot_ne_of_invalidate, form, answer⟩

/-! ## Commit (R150, R152) -/

theorem exec_commitCompletion {s : State} {p : PortId} {i : SlotId} {rows : List StagingRow}
    (holds : s.store.holder = some (.commit p i rows)) : exec .commitSlotCompletion s = .next (endCommit p i rows s) := by
  change execCommitSlotCompletion s = _
  rw [execCommitSlotCompletion, holds]

/-- The commit mark programmed, with the effects of R152 up to the re-evaluation. -/
def slotCommitted (i : SlotId) (s : State) : State :=
  setRecordPending i
    (((s.updateStore fun x => { x with array := Memory.program x.array (slotBase i) 0x3C }).updateDir i
      (committedEntry (Memory.program s.store.array (slotBase i) 0x3C) i)).updateCache fun c => c.invalidate i)

theorem commitEffects_eq (i : SlotId) (s : State) : commitEffects i s = reevaluate (slotCommitted i s) := rfl

theorem dirEntry_slotCommitted (i : SlotId) (s : State) (j : SlotId) :
    dirEntry (slotCommitted i s) j =
      if j = i then committedEntry (Memory.program s.store.array (slotBase i) 0x3C) i (dirEntry s i) else dirEntry s j :=
  dirEntry_updateDir _ i _ j

theorem slotByte_marked_other (m : Memory) (i : SlotId) {off : Nat} (later : 0 < off) :
    slotByte (Memory.program m (slotBase i) 0x3C) i off = slotByte m i off :=
  Memory.read_program_other _ (by omega)

/-- The mark leaves the fields that a commit copies into the directory (R152). -/
theorem committedEntry_marked (m : Memory) (i : SlotId) (d : DirEntry) :
    committedEntry (Memory.program m (slotBase i) 0x3C) i d =
      { state := .valid
        generation := (d.generation + 1) % 65536
        channels := if i = 0 then none else some (slotByte m i 3).toNat
        name := some (slotBytes m i 4 16)
        programmed := 0 } := by
  have channels : slotField (Memory.program m (slotBase i) 0x3C) i 3 1 = (slotByte m i 3).toNat := by
    rw [← slotByte_marked_other m i (off := 3) (by decide)]
    simp [slotField, slotBytes, fromLe]
  have name : slotBytes (Memory.program m (slotBase i) 0x3C) i 4 16 = slotBytes m i 4 16 :=
    List.map_congr_left fun k _ => slotByte_marked_other m i (by omega)
  rw [committedEntry, channels, name]
  simp only [Fin.val_eq_zero_iff]

section Commit

variable {s t : State} {p : PortId} {i : SlotId} {rows : List StagingRow}

theorem array_programRows_freeStore (rows : List StagingRow) (s : State) :
    (programRows rows (freeStore s)).store.array = rowsOver rows s.store.array := by
  rw [programRows_freeStore]

theorem endCommit_badCheck (p : PortId) (fails : slotCrcHolds (rowsOver rows s.store.array) i = false) :
    endCommit p i rows s = endOperation s p 0x32 (.refused .badCheck) (programRows rows (freeStore s)) := by
  simp only [endCommit, array_programRows_freeStore, fails, Bool.false_eq_true, if_false]

theorem endCommit_badContent {offset : Nat} (p : PortId) (passes : slotCrcHolds (rowsOver rows s.store.array) i = true)
    (fault : contentFault (rowsOver rows s.store.array) i = some offset) :
    endCommit p i rows s = endOperation s p 0x32 (.badContent offset) (programRows rows (freeStore s)) := by
  simp only [endCommit, array_programRows_freeStore, passes, if_true, fault]

theorem endCommit_passes (p : PortId) (passes : slotCrcHolds (rowsOver rows s.store.array) i = true)
    (faultless : contentFault (rowsOver rows s.store.array) i = none) :
    endCommit p i rows s =
      endOperation s p 0x32 (.done []) (reevaluate (slotCommitted i (programRows rows (freeStore s)))) := by
  simp only [endCommit, array_programRows_freeStore, passes, if_true, faultless, commitEffects_eq]

/-- A commit that a check refuses: the rows programmed, the slot's line with them and no other, and the answer (R150). -/
theorem commit_refused {reply : Reply} {frame : List Byte} (ended : t = endOperation s p 0x32 reply (programRows rows (freeStore s)))
    (noFill : s.store.fillWaiting = none) (noRequest : s.store.requestWaiting = none) (own : ∀ r ∈ rows, r.slot = i)
    (framed : reply.frame 0x32 = some frame) :
    (∀ j : SlotId, j ≠ i → dirEntry t j = dirEntry s j) ∧
      dirEntry t i = { dirEntry s i with programmed := (dirEntry t i).programmed } ∧
      (∀ row < 32, ((dirEntry t i).programmed.getLsbD row = true ↔
        (dirEntry s i).programmed.getLsbD row = true ∨ ∃ r ∈ rows, r.row = row)) ∧
      t = { s with
        ports := t.ports
        store := { s.store with array := rowsOver rows s.store.array, dir := t.store.dir, holder := none } } ∧
      PortsAnswer s t p frame Attn.storeDone.bit := by
  have others (j : SlotId) (other : j ≠ i) : dirEntry (programRows rows (freeStore s)) j = dirEntry s j :=
    dirEntry_programRows_other _ fun r listed => (own r listed).trans_ne other.symm
  have line := dirEntry_programRows rows (freeStore s) i
  have joined (row : Nat) (within : row < 32) := programmed_programRows (rows := rows) (freeStore s) i within
  have freed := programRows_freeStore rows s
  generalize programRows rows (freeStore s) = u at *
  obtain ⟨form, answer⟩ := endOperation_silent ended (by rw [freed]; exact noFill) (by rw [freed]; exact noRequest)
    (by rw [freed]; rfl) framed (by rw [freed])
  have dir : t.store.dir = u.store.dir := by rw [form]
  have entry (j : SlotId) : dirEntry t j = dirEntry u j := by rw [dirEntry, dirEntry, dir]
  simp only [entry]
  refine ⟨others, line, fun row within => (joined row within).trans (or_congr_right ?_), ?_, answer⟩
  · exact exists_congr fun r => and_congr_right fun listed => and_iff_right (own r listed)
  · rw [dir, form]
    exact congrArg (fun x : State => { x with ports := t.ports }) freed

/-- A commit's effects before the re-evaluation, beside the state its store was held in (R152). -/
theorem slotCommitted_frame (i : SlotId) (rows : List StagingRow) (s : State) :
    slotCommitted i (programRows rows (freeStore s)) =
      { s with
        line := { s.line with recordPending := s.line.recordPending || decide (i = 0) }
        cache := s.cache.invalidate i
        store :=
          { s.store with
            array := Memory.program (rowsOver rows s.store.array) (slotBase i) 0x3C
            dir := (slotCommitted i (programRows rows (freeStore s))).store.dir
            holder := none } } := by
  have pending : decide (i.val = 0) = decide (i = 0) := by simp only [Fin.val_eq_zero_iff]
  have freed := programRows_freeStore rows s
  generalize programRows rows (freeStore s) = u at freed
  rw [← pending]
  generalize u.store.dir = d at freed
  subst freed
  rfl

/-- A commit that passes: the mark, the slot's line, its entry, what the scheduler may start, and the answer (R152). -/
theorem commit_passed (ended : t = endOperation s p 0x32 (.done []) (reevaluate (slotCommitted i (programRows rows (freeStore s)))))
    (noFill : s.store.fillWaiting = none) (noRequest : s.store.requestWaiting = none) (own : ∀ r ∈ rows, r.slot = i) :
    t.store.array = Memory.program (rowsOver rows s.store.array) (slotBase i) 0x3C ∧
      (∀ j : SlotId, j ≠ i → dirEntry t j = dirEntry s j) ∧
      dirEntry t i = committedEntry (Memory.program (rowsOver rows s.store.array) (slotBase i) 0x3C) i (dirEntry s i) ∧
      t.cache.entries = (s.cache.invalidate i).entries ∧
      t = withScheduling
        { s with
          ports := t.ports
          line := { s.line with recordPending := s.line.recordPending || decide (i = 0) }
          cache := { s.cache with entries := t.cache.entries }
          store := { s.store with array := t.store.array, dir := t.store.dir } } t ∧
      PortsAnswer s t p (doneFrame 0x32 []) Attn.storeDone.bit := by
  have line (j : SlotId) := dirEntry_slotCommitted i (programRows rows (freeStore s)) j
  have others (j : SlotId) (other : j ≠ i) : dirEntry (programRows rows (freeStore s)) j = dirEntry s j :=
    dirEntry_programRows_other _ fun r listed => (own r listed).trans_ne other.symm
  have generation : (dirEntry (programRows rows (freeStore s)) i).generation = (dirEntry s i).generation := by
    rw [dirEntry_programRows]
    rfl
  rw [array_programRows_freeStore] at line
  have marked := slotCommitted_frame i rows s
  generalize slotCommitted i (programRows rows (freeStore s)) = w at *
  have holder : w.store.holder = none := by rw [marked]
  obtain ⟨e, n, h, started⟩ := reevaluate_of_free holder
  rw [started] at ended
  obtain ⟨form, answer⟩ := endOperation_silent ended (by rw [marked]; exact noFill) (by rw [marked]; exact noRequest)
    (by rw [marked]; rfl) rfl (by rw [marked])
  have dir : t.store.dir = w.store.dir := by rw [form]
  have array : t.store.array = w.store.array := by rw [form]
  have entries : t.cache.entries = w.cache.entries := by rw [form]
  have entry (j : SlotId) : dirEntry t j = dirEntry w j := by rw [dirEntry, dirEntry, dir]
  refine ⟨array.trans (by rw [marked]), fun j other => ?_, ?_, entries.trans (by rw [marked]), ?_, answer⟩
  · rw [entry, line, if_neg other, others j other]
  · rw [entry, line, if_pos rfl, committedEntry, committedEntry, generation]
  · rw [dir, array, entries]
    generalize t.ports = ports at form
    rw [form, marked]
    rfl

end Commit

/-- Settles O28: the rows programmed, then the two checks of the slot in their three outcomes. -/
theorem commitCompletion : Obligations.CommitCompletion := by
  intro s p i rows holds canonical noFill noRequest fit
  have own : ∀ r ∈ rows, r.slot = i := fun r listed => (fit r listed).1
  have written := rowsProgrammed_rowsOver (m := s.store.array) (fun r listed => (fit r listed).2) canonical
  refine ⟨_, rowsOver rows s.store.array, exec_commitCompletion holds, written, ?_⟩
  generalize ended : endCommit p i rows s = t
  cases crc : slotCrcHolds (rowsOver rows s.store.array) i with
  | false =>
    rw [endCommit_badCheck p crc] at ended
    obtain ⟨others, line, joined, form, answer⟩ := commit_refused ended.symm noFill noRequest own rfl
    exact ⟨others, nofun, fun _ => ⟨line, joined, form⟩, fun _ => answer, nofun⟩
  | true =>
    cases fault : contentFault (rowsOver rows s.store.array) i with
    | some offset =>
      rw [endCommit_badContent p crc fault] at ended
      obtain ⟨others, line, joined, form, answer⟩ := commit_refused ended.symm noFill noRequest own rfl
      refine ⟨others, nofun, fun _ => ⟨line, joined, form⟩, nofun, fun other _ same => ?_⟩
      cases same
      exact answer
    | none =>
      rw [endCommit_passes p crc fault] at ended
      obtain ⟨array, others, line, entries, form, answer⟩ := commit_passed ended.symm noFill noRequest own
      refine ⟨others, fun _ _ => ⟨?_, fun a other => ?_, line.trans (committedEntry_marked _ i _), fun k => ?_, form, answer⟩,
        fun fails => by simp at fails, nofun, nofun⟩
      · rw [array, slotByte, slotByte, Nat.add_zero]
        exact Memory.read_program _ _ (rowsOver_wf rows canonical)
      · rw [array, Memory.read_program_other _ other]
      · rw [entries, entries_invalidate]

end Sys2Proof.Proofs
end

