-- ==== Sys2Proof/Proofs/StoreGrants.lean ====
section
/-!
O22 to O24: the grants of an erase and of a store clear, at their requests and in the grant rows of a free store.
-/
namespace Sys2Proof.Proofs

open Sys2Proof.Machine Sys2Proof.Safety

/-! ## Re-evaluation on a held store (R80) -/

/-- On a held store a re-evaluation may start a computation where none is in flight, and may leave a fill waiting. -/
theorem reevaluate_of_held {s : State} {op : StoreOp} (held : s.store.holder = some op) :
    ∃ e n w, reevaluate s =
        { s with engine := e, cache := { s.cache with nlu := n }, store := { s.store with fillWaiting := w } } ∧
      ∀ k, s.engine = some k → e = some k := by
  have missing (l : List Panel) (u : State) (hu : u.store.holder = some op) :
      ∃ w, requestMissing l u = { u with store := { u.store with fillWaiting := w } } := by
    unfold requestMissing
    split
    · split
      · rw [requestFill, hu]
        exact ⟨_, rfl⟩
      · exact ⟨_, rfl⟩
    · exact ⟨_, rfl⟩
  have start (m : MachineRecord) (l : List Panel) :
      ∃ e n, startComputation m l s = { s with engine := e, cache := { s.cache with nlu := n } } ∧
        ∀ k, s.engine = some k → e = some k := by
    unfold startComputation
    split
    · rename_i idle _
      exact ⟨_, _, rfl, fun k computing => absurd (idle.symm.trans computing) nofun⟩
    · exact ⟨_, _, rfl, fun _ => id⟩
  unfold reevaluate
  split
  · rename_i m _
    obtain ⟨e, n, started, kept⟩ := start m (eligibleRecords m s)
    obtain ⟨w, requested⟩ := missing (eligibleRecords m s) { s with engine := e, cache := { s.cache with nlu := n } } held
    exact ⟨e, n, w, by rw [started, requested], kept⟩
  · exact ⟨_, _, _, rfl, fun _ => id⟩

/-! ## The grant of an erase (R145) -/

/-- The grant of an erase before the re-evaluation. -/
def eraseStarted (p : PortId) (i : SlotId) (u : State) : State :=
  syncUnready (setRecordPending i (hold (.erase p i)
    ((((u.mapPanels (unfetchedNames i) Panel.returnToQueued).updateCache fun c => c.invalidate i).updateStore fun x =>
      { x with staging := x.staging.filter fun r => decide (r.slot ≠ i) }).updateDir i fun d => d.without .writing)))

theorem grantErase_eq (p : PortId) (i : SlotId) (u : State) : grantErase p i u = reevaluate (eraseStarted p i u) := rfl

theorem dirEntry_eraseStarted (p : PortId) (i : SlotId) (u : State) (j : SlotId) :
    dirEntry (eraseStarted p i u) j = if j = i then (dirEntry u i).without .writing else dirEntry u j :=
  dirEntry_updateDir _ i (·.without .writing) j

theorem eraseStarted_frame (p : PortId) (i : SlotId) (u : State) :
    eraseStarted p i u =
      { u with
        queue := u.queue.map fun r => if unfetchedNames i r then r.returnToQueued else r
        cache := u.cache.invalidate i
        line :=
          { u.line with
            recordPending := u.line.recordPending || decide (i = 0)
            hold := { u.line.hold with unready := unreadyHolds (eraseStarted p i u) } }
        store :=
          { u.store with
            dir := (eraseStarted p i u).store.dir
            staging := u.store.staging.filter fun r => decide (r.slot ≠ i)
            holder := some (.erase p i) } } := by
  have pending : decide (i.val = 0) = decide (i = 0) := by simp only [Fin.val_eq_zero_iff]
  rw [← pending]
  rfl

/-- Where no fetched record names the slot, the records that return to QUEUED are the READY ones that name it (R145). -/
theorem returned_of_noneFetched {queue : List Panel} {i : SlotId}
    (noneFetched : ∀ r ∈ queue, r.isFetched = true → r.slot ≠ some i) :
    (queue.map fun r => if unfetchedNames i r then r.returnToQueued else r) =
      queue.map fun r =>
        if r.isReady = true ∧ r.slot = some i then
          { r with state := .queued, correction := none, flags := withoutCorrectionFlags r.flags } else r := by
  refine List.map_congr_left fun r listed => ?_
  have same : unfetchedNames i r = true ↔ r.isReady = true ∧ r.slot = some i := by
    cases fetched : r.isFetched with
    | true => simp [unfetchedNames, fetched, noneFetched r listed fetched]
    | false => simp [unfetchedNames, fetched]
  simp only [same]
  rfl

/-- The grant of an erase, in the statement's words. -/
theorem eraseGranted_of_grantErase {s t u : State} {p : PortId} {i : SlotId}
    (before : u = { s with ports := u.ports, store := { s.store with requestWaiting := none } })
    (noneFetched : ∀ r ∈ s.queue, r.isFetched = true → r.slot ≠ some i)
    (granted : t = { grantErase p i u with ports := t.ports }) : EraseGranted s t p i := by
  have frame := eraseStarted_frame p i u
  have line (j : SlotId) := dirEntry_eraseStarted p i u j
  have entries (j : SlotId) : dirEntry u j = dirEntry s j := by rw [dirEntry, before, dirEntry]
  rw [grantErase_eq] at granted
  generalize eraseStarted p i u = w at *
  generalize u.ports = ports at before
  subst before
  obtain ⟨e, n, waiting, scheduled, kept⟩ := reevaluate_of_held (s := w) (op := .erase p i) (by rw [frame])
  rw [scheduled] at granted
  have queue : t.queue = w.queue := by rw [granted]
  have active : t.line.active = w.line.active := by rw [granted]
  have unready : unreadyHolds t = unreadyHolds w := unreadyHolds_congr active queue
  have dir : t.store.dir = w.store.dir := by rw [granted]
  have entry (j : SlotId) : dirEntry t j = if j = i then (dirEntry s i).without .writing else dirEntry s j := by
    rw [dirEntry, dir, ← entries, ← entries, ← line, dirEntry]
  refine ⟨?queue, fun k => ?cache, ?store, (entry i).trans (if_pos rfl), fun j other => (entry j).trans (if_neg other),
    ?line, fun k computing => ?engine, ?frame⟩
  case queue => rw [queue, frame, returned_of_noneFetched noneFetched]
  case cache =>
    have cache : t.cache.entries = (s.cache.invalidate i).entries := by rw [granted, frame]
    rw [cache, entries_invalidate]
  case store =>
    rw [granted, frame]
  case line =>
    have line : t.line = w.line := by rw [granted]
    rw [unready, line]
    exact congrArg State.line frame
  case engine =>
    rw [granted]
    exact kept k (by rw [frame]; exact computing)
  case frame =>
    rw [granted, frame]

/-! ## A request granted at its take event (R142, R191) -/

/-- A request whose owner answers later: its owner's state but for the ports, its port executing, and HOLD_CHANGED by the level
of HOLDn. -/
theorem takeRequest_waits {s t u : State} {p : PortId} {code : Byte} {allowed : Role → Bool} {owner : State → Served}
    (serves : Serves s p allowed) (taken : t = takeRequest p code allowed owner s)
    (owned : owner (s.updatePort p Port.accept) = Served.of u .later)
    (ports : u.ports = (s.updatePort p Port.accept).ports) :
    t = { u with ports := t.ports } ∧ PortsWait s t p (holdKind s t) := by
  rw [takeRequest_served code owner (portFree_of_serves serves) serves.2.2, owned] at taken
  change t = closeEvent s (u.answer p code .later) [] at taken
  have frame : t = { u with ports := t.ports } := by
    rw [taken]
    exact closeEvent_nil_frame s (u.answer p code .later)
  have line : t.line = (u.answer p code .later).line := by
    rw [frame]
    rfl
  refine ⟨frame, fun q => ?_⟩
  have raised := portsRaise_closeEvent_nil s (u.answer p code .later) q
  have placed : (u.ports[q]).place code .later = u.ports[q] := rfl
  rw [← taken, ← holdKind_of_line line, State.answer, updatePort_port, placed, ite_self, ports, updatePort_port] at raised
  rw [raised]
  by_cases own : q = p
  · simp [own, Port.accept]
  · simp [own]

/-- A store request whose checks pass, on an idle store: the state its start leaves, with its port executing. -/
theorem storeRequest_starts {s : State} {p : PortId} {code : Byte} {owner : State → Served} {r : StoreRequest}
    (serves : Serves s p onlyProduction) (idle : StoreIdle s)
    (asks : owner (s.updatePort p Port.accept) = askStore r (s.updatePort p Port.accept))
    (ports : (startRequest r (s.updatePort p Port.accept)).ports = (s.updatePort p Port.accept).ports) :
    let t := takeRequest p code onlyProduction owner s
    t = { startRequest r (s.updatePort p Port.accept) with ports := t.ports } ∧ PortsWait s t p (holdKind s t) :=
  takeRequest_waits serves rfl (asks.trans (askStore_idle (s := s.updatePort p Port.accept) r idle)) ports

theorem fetchedNames_eq_false {s : State} {i : SlotId} (noneFetched : ∀ r ∈ s.queue, r.isFetched = true → r.slot ≠ some i) :
    fetchedNames s i = false :=
  List.any_eq_false.mpr fun r listed => by simpa using noneFetched r listed

theorem fetchedNames_eq_true {s : State} {i : SlotId} (fetched : ∃ r ∈ s.queue, r.isFetched = true ∧ r.slot = some i) :
    fetchedNames s i = true := by
  simpa [fetchedNames] using fetched

theorem startRequest_erase {s : State} {p : PortId} {i : SlotId}
    (noneFetched : ∀ r ∈ s.queue, r.isFetched = true → r.slot ≠ some i) :
    startRequest (.erase p i) s = grantErase p i s := by
  rw [startRequest, fetchedNames_eq_false noneFetched, if_neg Bool.false_ne_true]

theorem grantErase_ports (p : PortId) (i : SlotId) (s : State) : (grantErase p i s).ports = s.ports := by
  rw [grantErase_eq, reevaluate_ports]
  rfl

/-- Settles O22: the request asks an idle store, which grants the erase. -/
theorem eraseGrantEffects : Obligations.EraseGrantEffects := by
  intro s p slot i serves idle named unlocked noneFetched
  have starts := startRequest_erase (s := s.updatePort p Port.accept) (p := p) noneFetched
  obtain ⟨frame, waits⟩ := storeRequest_starts (code := 0x30) (owner := eraseOwner p slot) serves idle
    (eraseOwner_asks (s := s.updatePort p Port.accept) named unlocked noneFetched) (by rw [starts, grantErase_ports])
  rw [starts] at frame
  refine ⟨takeRequest p 0x30 onlyProduction (eraseOwner p slot) s, rfl, ?_, waits⟩
  refine eraseGranted_of_grantErase ?_ noneFetched frame
  obtain ⟨-, -, noRequest⟩ := idle
  rw [← noRequest]
  rfl

/-! ## The grant of a store clear (R156) -/

theorem dirEntry_grantClear (p : PortId) (u : State) (i : SlotId) :
    dirEntry (grantClear p u) i = (dirEntry u i).without .erased := by
  simp [dirEntry, grantClear, setRecordPending, State.updateStore, State.updateCache]

theorem grantClear_frame (p : PortId) (u : State) :
    grantClear p u =
      { u with
        line := { u.line with recordPending := true }
        cache := u.cache.clear
        store := { u.store with dir := (grantClear p u).store.dir, staging := [], holder := some (.clear p) } } := by
  rw [← Bool.or_true u.line.recordPending]
  rfl

/-- What the grant of a store clear leaves (R156, R157). -/
structure ClearGranted (s t : State) (p : PortId) : Prop where
  holder : t.store.holder = some (.clear p)
  staging : t.store.staging = []
  array : t.store.array = s.store.array
  line : t.line = { s.line with recordPending := true }
  nlu : t.cache.nlu = 0
  entries : ∀ k : Fin 8, t.cache.entries[k] = none
  slots : ∀ i : SlotId, dirEntry t i =
    { state := .erased, generation := (dirEntry s i).generation, channels := none, name := none, programmed := 0 }
  frame : t = { s with ports := t.ports, store := t.store, line := t.line, cache := t.cache }

theorem clearGranted_of_grantClear {s t u : State} {p : PortId}
    (before : u = { s with ports := u.ports, store := { s.store with requestWaiting := none } })
    (granted : t = { grantClear p u with ports := t.ports }) : ClearGranted s t p := by
  have frame := grantClear_frame p u
  have slots (i : SlotId) := dirEntry_grantClear p u i
  have entries (i : SlotId) : dirEntry u i = dirEntry s i := by rw [dirEntry, before, dirEntry]
  generalize grantClear p u = w at *
  generalize u.ports = ports at before
  subst before
  have dir : t.store.dir = w.store.dir := by rw [granted]
  have cache : t.cache = s.cache.clear := by rw [granted, frame]
  refine ⟨by rw [granted, frame], by rw [granted, frame], by rw [granted, frame], by rw [granted, frame], by rw [cache]; rfl,
    fun k => by rw [cache, clear_entry], fun i => ?_, by rw [granted, frame]⟩
  rw [dirEntry, dir, ← dirEntry, slots, entries]
  rfl

/-- HOLDn follows the line state and the hold reasons, which the grant of a store clear leaves (R169). -/
theorem ClearGranted.holdKind {s t : State} {p : PortId} (h : ClearGranted s t p) : holdKind s t = 0 := by
  simp [Safety.holdKind, holdAsserted, h.line]

/-- Settles O24: the two checks, then the grant on an idle store. -/
theorem storeClearRequest : Obligations.StoreClearRequest := by
  intro s p serves idle
  obtain ⟨t, taken⟩ : ∃ t, t = takeRequest p 0x35 onlyProduction (storeClearOwner p) s := ⟨_, rfl⟩
  have refused {reason : Reason} (owned : storeClearOwner p (s.updatePort p Port.accept) =
      Served.refuse (s.updatePort p Port.accept) reason) :
      t = { s with ports := t.ports } ∧ PortsAnswer s t p (refusedFrame 0x35 reason) 0 :=
    takeRequest_refused serves taken owned
  have low (maint : s.resetUnit.maint = false) := refused (reason := .notPermitted) (by
    rw [storeClearOwner, State.updatePort_resetUnit, maint]
    rfl)
  have inUse (maint : s.resetUnit.maint = true) (held : ∃ r ∈ s.queue, r.unprinted = true) :=
    refused (reason := .inUse) (by
      rw [storeClearOwner, State.updatePort_resetUnit, maint, State.updatePort_queue, List.any_eq_true.mpr held]
      rfl)
  have granted (maint : s.resetUnit.maint = true) (printed : ∀ r ∈ s.queue, r.unprinted = false) :
      ClearGranted s t p ∧ PortsWait s t p 0 := by
    obtain ⟨frame, waits⟩ := storeRequest_starts (code := 0x35) (r := .clear p) serves idle
      (storeClearOwner_asks (s := s.updatePort p Port.accept) maint printed) rfl
    rw [← taken] at frame waits
    have clear : ClearGranted s t p := clearGranted_of_grantClear (by rw [← idle.2.2]; rfl) frame
    rw [clear.holdKind] at waits
    exact ⟨clear, waits⟩
  refine ⟨t, by rw [taken]; rfl, ?_, low, inUse, fun maint printed => ?_⟩
  · cases maint : s.resetUnit.maint with
    | false => rw [(low maint).1]
    | true =>
      by_cases held : ∃ r ∈ s.queue, r.unprinted = true
      · rw [(inUse maint held).1]
      · exact (granted maint fun r listed => Bool.eq_false_iff.mpr fun unprinted => held ⟨r, listed, unprinted⟩).1.array
  · obtain ⟨clear, waits⟩ := granted maint printed
    exact ⟨clear.holder, clear.staging, clear.line, fun i => by rw [clear.slots]; exact ⟨rfl, rfl⟩, clear.entries, clear.nlu,
      clear.frame, waits⟩

/-! ## The grant rows of a free store (R142, R144) -/

theorem grantWaiting_request {s : State} {r : StoreRequest} (free : s.store.holder = none)
    (noFill : s.store.fillWaiting = none) (waits : s.store.requestWaiting = some r) :
    grantWaiting s = startRequest r (dropRequest s) := by
  have fill : grantFill s = s := by simp only [grantFill, free, noFill]
  rw [grantWaiting, fill]
  simp only [grantRequest, free, waits]
  rfl

/-- A grant row whose client waits with no fill before it. -/
theorem grantRow_starts {s : State} {r : StoreRequest} {picks : StoreRequest → Bool} (free : s.store.holder = none)
    (noFill : s.store.fillWaiting = none) (waits : s.store.requestWaiting = some r) (picked : picks r = true) :
    (if requestNext s picks then closeEvent s (grantWaiting s) [] else s) =
      closeEvent s (startRequest r (dropRequest s)) [] := by
  have next : requestNext s picks = true := by simp [requestNext, noFill, waits, picked]
  rw [if_pos next, grantWaiting_request free noFill waits]

/-- A grant row whose client's start leaves line control alone. -/
theorem grantRow_keeps_line {s : State} {r : StoreRequest} {picks : StoreRequest → Bool} (free : s.store.holder = none)
    (noFill : s.store.fillWaiting = none) (waits : s.store.requestWaiting = some r) (picked : picks r = true)
    (line : (startRequest r (dropRequest s)).line = s.line) :
    (if requestNext s picks then closeEvent s (grantWaiting s) [] else s) = startRequest r (dropRequest s) :=
  (grantRow_starts free noFill waits picked).trans (closeEvent_nil_of_line line)

/-- An event that ends without a cause over a state with the ports of its beginning. -/
theorem portsRaise_event {s u : State} (ports : u.ports = s.ports) :
    PortsRaise s (closeEvent s u []) (holdKind s (closeEvent s u [])) := by
  rw [holdKind_of_line (closeEvent_line_nil s u)]
  intro q
  rw [portsRaise_closeEvent_nil s u q, ports]

theorem grantWaiting_fill {s : State} {i : SlotId} (free : s.store.holder = none) (waits : s.store.fillWaiting = some i)
    (usable : slotUsable s i = true) : grantWaiting s = hold (.fill i) (dropFill s) := by
  have fill : grantFill s = hold (.fill i) (dropFill s) := by
    simp only [grantFill, free, waits, usable, if_true]
    rfl
  rw [grantWaiting, fill]
  rfl

/-- Settles O23: each row starts the request that waits, or reads for the fill that waits. -/
theorem grantRowsServeTheWaitingClient : Obligations.GrantRowsServeTheWaitingClient := by
  intro s free
  refine ⟨fun p i noFill waits noneFetched => ?erase, fun p i noFill waits fetched => ?inUse, fun i waits usable => ?fill,
    fun p i offset n noFill waits => ?read, fun p noFill waits => ?clear⟩
  case erase =>
    have started : startRequest (.erase p i) (dropRequest s) = grantErase p i (dropRequest s) :=
      startRequest_erase (s := dropRequest s) noneFetched
    refine ⟨_, congrArg Host.Outcome.next (grantRow_starts free noFill waits rfl), ?_, ?_⟩
    · rw [started]
      exact eraseGranted_of_grantErase rfl noneFetched (closeEvent_nil_frame s _)
    · rw [started]
      exact portsRaise_event (grantErase_ports p i _)
  case inUse =>
    have refused : startRequest (.erase p i) (dropRequest s) = answerLater p 0x30 (.refused .inUse) (dropRequest s) :=
      if_pos (fetchedNames_eq_true (s := dropRequest s) fetched)
    refine ⟨_, congrArg Host.Outcome.next (grantRow_keeps_line free noFill waits rfl (by rw [refused]; rfl)), ?_⟩
    rw [refused]
    have answer := portsAnswer_answerLater (s := s) (u := dropRequest s) (p := p) (code := 0x30) (reply := .refused .inUse)
      rfl (portsRaise_of_ports rfl)
    rw [show (0 : AttnSet) ||| Attn.storeDone.bit = Attn.storeDone.bit from BitVec.zero_or] at answer
    exact ⟨rfl, rfl, answer⟩
  case fill =>
    have run : execCacheFillGrant s = .next (hold (.fill i) (dropFill s)) := by
      rw [execCacheFillGrant, waits, grantWaiting_fill free waits usable,
        closeEvent_nil_of_line (b := s) (s := hold (.fill i) (dropFill s)) rfl]
      rfl
    exact ⟨_, run, rfl, rfl, portsRaise_of_ports rfl⟩
  case read =>
    exact ⟨_, congrArg Host.Outcome.next (grantRow_keeps_line free noFill waits rfl rfl), rfl, rfl, portsRaise_of_ports rfl⟩
  case clear =>
    refine ⟨_, congrArg Host.Outcome.next (grantRow_starts free noFill waits rfl), ?_⟩
    have clear : ClearGranted s (closeEvent s (startRequest (.clear p) (dropRequest s)) []) p :=
      clearGranted_of_grantClear (u := dropRequest s) rfl (closeEvent_nil_frame s _)
    have raised := portsRaise_event (s := s) (u := startRequest (.clear p) (dropRequest s)) rfl
    rw [clear.holdKind] at raised
    exact ⟨clear.holder, clear.staging, clear.array, clear.line, clear.nlu, clear.entries, clear.slots, clear.frame, raised⟩

end Sys2Proof.Proofs
end

