-- ==== Sys2Proof/Proofs/StagedWrites.lean ====
section
/-!
O25: WRITE_SLOT into a slot with no row staged, whose bytes stay staged or complete a row.
-/
namespace Sys2Proof.Proofs

open Sys2Proof.Machine Sys2Proof.Safety

/-! ## A row just staged (R148) -/

/-- The staging row that a write within one row takes. -/
def stagedRow (i : SlotId) (offset : Nat) (data : List Byte) : StagingRow :=
  (emptyRow i (offset / 32)).merge offset data

theorem stagedRow_slot (i : SlotId) (offset : Nat) (data : List Byte) : (stagedRow i offset data).slot = i := rfl

theorem stagedRow_row (i : SlotId) (offset : Nat) (data : List Byte) : (stagedRow i offset data).row = offset / 32 := rfl

theorem merge_byte {r : StagingRow} {offset k : Nat} {data : List Byte} {old : Option Byte} (byte : r.bytes[k]? = some old) :
    (r.merge offset data).bytes[k]? =
      some (if offset ≤ 32 * r.row + k then (data[32 * r.row + k - offset]?).or old else old) := by
  rw [StagingRow.merge, List.getElem?_mapIdx, byte, Option.map_some]

/-- Each byte of the row is the written one from the write's offset on, and not staged elsewhere. -/
theorem stagedRow_byte (i : SlotId) (offset : Nat) (data : List Byte) {k : Nat} (hk : k < 32) :
    (stagedRow i offset data).bytes[k]? = some (if offset % 32 ≤ k then data[k - offset % 32]? else none) := by
  have start : (offset ≤ 32 * (offset / 32) + k) = (offset % 32 ≤ k) := propext (by omega)
  have place : 32 * (offset / 32) + k - offset = k - offset % 32 := by omega
  have empty : (emptyRow i (offset / 32)).bytes[k]? = some none := by
    rw [emptyRow, List.getElem?_replicate, if_pos hk]
  rw [stagedRow, merge_byte empty, show (emptyRow i (offset / 32)).row = offset / 32 from rfl, place, Option.or_none]
  simp only [start]

theorem stagedRow_length (i : SlotId) (offset : Nat) (data : List Byte) : (stagedRow i offset data).bytes.length = 32 := by
  rw [stagedRow, StagingRow.merge, List.length_mapIdx, emptyRow, List.length_replicate]

/-- A whole row written at once is staged as it was written. -/
theorem stagedRow_whole (i : SlotId) {offset : Nat} {data : List Byte} (aligned : offset % 32 = 0) (whole : data.length = 32) :
    stagedRow i offset data = { slot := i, row := offset / 32, bytes := data.map some } := by
  have bytes : (stagedRow i offset data).bytes = data.map some := by
    refine List.ext_getElem? fun k => ?_
    by_cases hk : k < 32
    · rw [stagedRow_byte i offset data hk, aligned, if_pos (Nat.zero_le k), List.getElem?_map, Nat.sub_zero,
        List.getElem?_eq_getElem (whole ▸ hk), Option.map_some]
    · have beyond : (stagedRow i offset data).bytes.length ≤ k := by
        rw [stagedRow_length]
        exact Nat.le_of_not_lt hk
      have alike : (data.map some).length ≤ k := by
        rw [List.length_map, whole]
        exact Nat.le_of_not_lt hk
      rw [List.getElem?_eq_none beyond, List.getElem?_eq_none alike]
  have slot := stagedRow_slot i offset data
  have row := stagedRow_row i offset data
  generalize stagedRow i offset data = r at *
  obtain ⟨⟩ := r
  subst slot row bytes
  rfl

/-- A row whose last byte is not staged is not complete (R148). -/
theorem incomplete_of_last {r : StagingRow} (last : r.bytes[31]? = some none) : r.complete = false := by
  have start : (if r.row = 0 then 2 else 0) ≤ 31 := by
    split <;> decide
  refine Bool.eq_false_iff.mpr fun complete => ?_
  rw [StagingRow.complete, List.all_eq_true] at complete
  have listed : none ∈ r.bytes.drop (if r.row = 0 then 2 else 0) := by
    refine List.mem_of_getElem? (i := 31 - (if r.row = 0 then 2 else 0)) ?_
    rw [List.getElem?_drop, Nat.add_sub_cancel' start, last]
  exact absurd (complete none listed) Bool.false_ne_true

/-! ## The plan of a write within one row (R148, R149) -/

/-- With no row held, a write within one row displaces none, and completes its row or leaves it held. -/
theorem planWrite_none_held (i : SlotId) {offset : Nat} {data : List Byte} (nonempty : 1 ≤ data.length)
    (within : offset % 32 + data.length ≤ 32) :
    planWrite [] i offset data =
      { displaced := []
        completed := if (stagedRow i offset data).complete then [stagedRow i offset data] else []
        held := if (stagedRow i offset data).complete then [] else [stagedRow i offset data] } := by
  have own : (emptyRow i (offset / 32)).isFor i (offset / 32) = true := isFor_emptyRow _
  have staged : (stagedRow i offset data).isFor i (offset / 32) = true :=
    (isFor_merge _ _ _ _).trans own
  have missing : missingRows [] i [offset / 32] = [offset / 32] := rfl
  have displaced : displacedRows [] i [offset / 32] = [] := rfl
  rw [planWrite, touchedRows_one nonempty within]
  simp only [missing, displaced, List.filter_nil, List.nil_append, List.map_cons, List.map_nil, List.any_cons, List.any_nil,
    Bool.or_false, own, if_true, List.flatMap_cons, List.flatMap_nil, List.append_nil]
  rw [show (emptyRow i (offset / 32)).merge offset data = stagedRow i offset data from rfl]
  generalize stagedRow i offset data = r at staged ⊢
  cases complete : r.complete <;> simp [staged, complete]

theorem writeOwner_stages {s : State} {p : PortId} {slot : Byte} {i : SlotId} {offset : BitVec 16} {data : List Byte}
    (named : slot.toNat = i.val) (low : 1 ≤ data.length) (high : data.length ≤ 32)
    (checked : writeRefusal s i offset.toNat data.length = none)
    (nothing : (planWrite s.store.staging i offset.toNat data).programs = []) :
    writeOwner p slot offset data s =
      Served.of (s.updateStore fun x => { x with staging := (planWrite s.store.staging i offset.toNat data).held })
        (.done []) := by
  rw [writeOwner, if_neg (by omega), slotOf_eq_some named]
  simp only [checked, nothing, List.isEmpty_nil, if_true]

/-- Settles O25: the write's plan leaves its row held, or has it to program. -/
theorem writeSlotStagesOrPrograms : Obligations.WriteSlotStagesOrPrograms := by
  refine ⟨fun s p slot i offset data serves named writing noneStaged noneProgrammed low nonempty within last _ => ?_,
    fun s p slot i offset data serves idle named writing noneStaged noneProgrammed whole aligned low high => ?_⟩
  · have checked : writeRefusal s i offset.toNat data.length = none :=
      writeRefusal_none writing noneProgrammed low (by omega) fun r listed => absurd (noneStaged ▸ listed) List.not_mem_nil
    have incomplete : (stagedRow i offset.toNat data).complete = false := by
      refine incomplete_of_last ?_
      rw [stagedRow_byte i _ _ (by decide), List.getElem?_eq_none (by omega), ite_self]
    have plan := planWrite_none_held i nonempty (offset := offset.toNat) (data := data) (by omega)
    rw [incomplete] at plan
    have staged : writeOwner p slot offset data (s.updatePort p Port.accept) =
        Served.of { s.updatePort p Port.accept with store := { s.store with staging := [stagedRow i offset.toNat data] } }
          (.done []) := by
      rw [writeOwner_stages (s := s.updatePort p Port.accept) named nonempty (by omega) checked
        (by rw [State.updatePort_store, noneStaged, plan]; rfl), State.updatePort_store, noneStaged, plan]
      rfl
    obtain ⟨frame, answer⟩ := takeRequest_raised (code := 0x31) serves rfl staged rfl (portsRaise_of_ports rfl) rfl
    refine ⟨_, stagedRow i offset.toNat data, rfl, ?_, rfl, rfl, fun k hk => stagedRow_byte i _ data hk, ?_, answer⟩
    · rw [frame]
    · rw [frame]
      rfl
  · have checked : writeRefusal s i offset.toNat data.length = none :=
      writeRefusal_none writing noneProgrammed (by omega) (by omega) fun r listed =>
        absurd (noneStaged ▸ listed) List.not_mem_nil
    have complete : (stagedRow i offset.toNat data).complete = true := by
      have there : 32 * (offset.toNat / 32) = offset.toNat := by omega
      have completed := merge_complete (r := emptyRow i (offset.toNat / 32)) (data := data)
        (show offset.toNat / 32 ≠ 0 by omega) List.length_replicate whole
      rwa [show (emptyRow i (offset.toNat / 32)).row = offset.toNat / 32 from rfl, there] at completed
    have plan := planWrite_none_held i (offset := offset.toNat) (data := data) (by omega) (by omega)
    rw [complete, if_pos rfl, if_pos rfl, stagedRow_whole i aligned whole] at plan
    have asks : writeOwner p slot offset data (s.updatePort p Port.accept) =
        askStore (.write p i offset.toNat data) (s.updatePort p Port.accept) :=
      writeOwner_asks named (by omega) (by omega) checked (by
        rw [State.updatePort_store, noneStaged, plan]
        exact List.cons_ne_nil _ _)
    refine storeTakes_idle serves idle asks ?_
    have store (h : Option StoreOp) :
        ({ s.store with staging := [], holder := h } : Store) = { s.store with holder := h } := by rw [← noneStaged]
    rw [startRequest, grantWrite, State.updatePort_store, noneStaged, plan, ← store]
    rfl

end Sys2Proof.Proofs
end

