-- ==== Sys2Proof/Proofs/ProfileScan.lean ====
section
/-!
O6: the state, the channel count and the name that the scan gives a profile slot.
-/
namespace Sys2Proof.Proofs

open Sys2Proof.Machine Sys2Proof.Safety

/-! ## Profile slots by their header (R139) -/

/-- A profile's header: committed, the profile format code, and a channel count of 1 to 8 (R139). -/
def ProfileHeader (m : Memory) (slot : SlotId) : Prop :=
  slotByte m slot 0 = 0x3C ∧ slotByte m slot 2 = 0x50 ∧ 1 ≤ (slotByte m slot 3).toNat ∧ (slotByte m slot 3).toNat ≤ 8

theorem headerHolds_profile (m : Memory) {slot : SlotId} (profile : slot ≠ 0) :
    headerHolds m slot = true ↔
      slotByte m slot 2 = 0x50 ∧ 1 ≤ (slotByte m slot 3).toNat ∧ (slotByte m slot 3).toNat ≤ 8 := by
  have other : slot.val ≠ 0 := fun zero => profile (Fin.ext zero)
  simp [headerHolds, formatCode, other, ← BitVec.toNat_inj]

/-- A blank slot is ERASED (R139). -/
theorem scannedState_blank {m : Memory} {slot : SlotId} (blank : slotBlank m slot = true) : scannedState m slot = .erased :=
  if_pos blank

/-- A slot with a profile's header is LOCKED or VALID by its lock mark (R139). -/
theorem scannedState_profile {m : Memory} {slot : SlotId} (canonical : Memory.wf m = true) (profile : slot ≠ 0)
    (header : ProfileHeader m slot) : scannedState m slot = if slotByte m slot 1 = 0xC3 then .locked else .valid := by
  obtain ⟨mark, fields⟩ := header
  have written : ¬ slotBlank m slot = true := fun blank => by
    have erased := (slotBlank_iff canonical).mp blank 0 (by decide)
    rw [mark] at erased
    exact absurd erased (by decide)
  simp [scannedState, written, mark, (headerHolds_profile m profile).mpr fields, committedState]

/-- A slot that is neither blank nor has a profile's header is DAMAGED (R139). -/
theorem scannedState_damaged {m : Memory} {slot : SlotId} (profile : slot ≠ 0) (written : slotBlank m slot = false)
    (headless : ¬ ProfileHeader m slot) : scannedState m slot = .damaged := by
  rw [scannedState, written, if_neg Bool.false_ne_true]
  by_cases mark : slotByte m slot 0 = 0x3C
  · have header : headerHolds m slot = false :=
      Bool.eq_false_iff.mpr fun holds => headless ⟨mark, (headerHolds_profile m profile).mp holds⟩
    simp [mark, header]
  · rw [if_pos mark]

/-- The three states of R139's table that a profile slot can be told to have, by its content, and the one it never gets. -/
theorem scannedState_iff {m : Memory} {slot : SlotId} (canonical : Memory.wf m = true) (profile : slot ≠ 0) :
    (scannedState m slot = .erased ↔ slotBlank m slot = true) ∧
      (scannedState m slot = .locked ↔ ProfileHeader m slot ∧ slotByte m slot 1 = 0xC3) ∧
      (scannedState m slot = .valid ↔ ProfileHeader m slot ∧ slotByte m slot 1 ≠ 0xC3) ∧
      scannedState m slot ≠ .writing := by
  by_cases header : ProfileHeader m slot
  · have written : slotBlank m slot ≠ true := fun blank => by
      have states := (scannedState_blank blank).symm.trans (scannedState_profile canonical profile header)
      split at states <;> cases states
    rw [scannedState_profile canonical profile header]
    split
    · rename_i locked
      simp [locked, header, written]
    · rename_i unlocked
      simpa [header, written] using unlocked
  · cases blank : slotBlank m slot with
    | true => simp [scannedState_blank blank, header]
    | false => simp [scannedState_damaged profile blank header, header]

/-- The scan ends with a profile slot's directory line as scanned: the check of slot 0 changes no other line. -/
theorem dirEntry_endScan (s : State) {slot : SlotId} (profile : slot ≠ 0) :
    dirEntry (endScan s) slot = scannedEntry s.store.array slot := by
  have dir : (endScan s).store.dir = (loadSlotZero (scannedPart s)).store.dir := by rw [(endScan_form s).1]
  rw [dirEntry, dir, ← dirEntry_scannedPart, ← dirEntry]
  rcases loadSlotZero_cases (scannedPart s) with loaded | damaged | absent
  · rw [loaded]
    rfl
  · rw [damaged, (dirEntry_markDamaged _).2 slot profile]
  · rw [absent]

/-- Settles O6: the scanned line of a profile slot, in the statement's words. -/
theorem scanClassifiesProfileSlots : Obligations.ScanClassifiesProfileSlots := by
  intro s slot scanning canonical profile
  obtain ⟨running, pending, store⟩ := endScan_runs s
  have array : (endScan s).store.array = s.store.array := by rw [store]
  have entry := dirEntry_endScan s profile
  obtain ⟨erased, locked, valid, notWriting⟩ := scannedState_iff (m := s.store.array) canonical profile
  refine ⟨endScan s, exec_startUpScanEnd scanning, array, running, pending, ?_⟩
  rw [slotUsable, entry, scannedEntry_state]
  refine ⟨rfl, rfl, erased.trans (slotBlank_iff canonical), ?_, ?_, notWriting, fun usable => ?_⟩
  · rw [locked, ProfileHeader, and_assoc, and_assoc, and_assoc]
  · rw [valid, ProfileHeader, and_assoc, and_assoc, and_assoc]
  · have other : slot.val ≠ 0 := fun zero => profile (Fin.ext zero)
    rw [scannedEntry, usable]
    simp [other]

end Sys2Proof.Proofs
end

