-- ==== Sys2Proof/Proofs/LineRequests.lean ====
section
/-!
O11, O12 and O13: the requests of line control.
-/
namespace Sys2Proof.Proofs

open Sys2Proof.Machine Sys2Proof.Safety

/-! ## An event that changes the ports alone -/

theorem line_of_ports {s t : State} (h : t = { s with ports := t.ports }) : t.line = s.line := by
  rw [h]

theorem queue_of_ports {s t : State} (h : t = { s with ports := t.ports }) : t.queue = s.queue := by
  rw [h]

/-! ## Requests turned away, and requests that raise a stop cause (R160, R192) -/

/-- A request of a role that may not make it changes nothing but the port (R192). -/
theorem takeRequest_turnedAway {s t : State} {p : PortId} {code : Byte} {allowed : Role → Bool} {owner : State → Served}
    (running : s.running = true) (idle : s.ports[p].executing = false) (role : allowed s.ports[p].role = false)
    (taken : t = takeRequest p code allowed owner s) :
    t = { s with ports := t.ports } ∧ PortsAnswer s t p (refusedFrame code .notPermitted) 0 := by
  have free : portFree s p = true := by
    rw [portFree, running, idle]
    rfl
  rw [takeRequest_notPermitted code owner free role] at taken
  subst taken
  exact ⟨rfl, portsAnswer_answer rfl (portsRaise_refl _)⟩

/-- A request whose owner raises one stop cause and changes nothing itself: the cause taken, and the port's answer with the kinds
of the cause. -/
theorem takeRequest_cause {s t : State} {p : PortId} {code : Byte} {allowed : Role → Bool} {owner : State → Served}
    {c : StopCause} {reply : Reply} {frame : List Byte} (serves : Serves s p allowed)
    (taken : t = takeRequest p code allowed owner s)
    (owned : owner (s.updatePort p Port.accept) = { st := s.updatePort p Port.accept, causes := [c], reply := reply })
    (framed : reply.frame code = some frame) :
    t = { s with ports := t.ports, line := t.line, queue := t.queue } ∧ CauseTaken s t c ∧
      PortsAnswer s t p frame (causeKinds s t) := by
  rw [takeRequest_served code owner (portFree_of_serves serves) serves.2.2, owned] at taken
  change t = closeEvent s ((s.updatePort p Port.accept).answer p code reply) [c] at taken
  obtain ⟨cause, unchanged, raised⟩ := closeEvent_one s ((s.updatePort p Port.accept).answer p code reply) c
  rw [← taken] at cause unchanged raised
  refine ⟨unchanged, cause, ?_⟩
  have answer := portsAnswer_raise (portsAnswer_answer (s := s) framed (portsRaise_refl _)) raised
  exact fun q => by rw [answer q, show (0 : AttnSet) ||| _ = _ from BitVec.zero_or]; rfl

/-! ## STOP (R163) -/

theorem stopOwner_unset {s : State} (h : s.line.state = .unset) : stopOwner s = Served.refuse s .wrongState :=
  if_neg (by simp [State.onLine, h])

theorem stopOwner_onLine {s : State} (h : s.line.state ≠ .unset) :
    stopOwner s = { st := s, causes := [.requested], reply := .done [] } :=
  if_pos (decide_eq_true h)

/-- Another cause of a halted line raises nothing: HOLDn is asserted before it and after it (R162, R169). -/
theorem causeKinds_halted {s t : State} (before : s.line.state = .halted) (after : t.line.state = .halted) :
    causeKinds s t = 0 := by
  simp [causeKinds, holdKind, holdAsserted, before, after]

/-- Settles O11: an OBSERVER is turned away, the owner refuses in UNSET, and on the line it raises REQUESTED. -/
theorem stopRequest : Obligations.StopRequest := by
  intro s p running idle
  refine ⟨_, rfl, ?_⟩
  generalize taken : takeRequest p 0x18 anyStation stopOwner s = t
  have serves (role : s.ports[p].role ≠ .observer) : Serves s p anyStation := ⟨running, idle, decide_eq_true role⟩
  have observer (role : s.ports[p].role = .observer) := takeRequest_turnedAway running idle
    (decide_eq_false (not_not_intro role)) taken.symm
  have unset (role : s.ports[p].role ≠ .observer) (line : s.line.state = .unset) :=
    takeRequest_refused (serves role) taken.symm (stopOwner_unset (s := s.updatePort p Port.accept) line)
  have onLine (role : s.ports[p].role ≠ .observer) (line : s.line.state ≠ .unset) :=
    takeRequest_cause (code := 0x18) (frame := doneFrame 0x18 []) (serves role) taken.symm
      (stopOwner_onLine (s := s.updatePort p Port.accept) line) rfl
  have kept : t = { s with ports := t.ports, line := t.line, queue := t.queue } ∧
      t.line.hold = s.line.hold ∧ t.line.active = s.line.active ∧ t.line.recordPending = s.line.recordPending := by
    have refusedOrTaken : t = { s with ports := t.ports } ∨
        t = { s with ports := t.ports, line := t.line, queue := t.queue } ∧ CauseTaken s t .requested := by
      by_cases role : s.ports[p].role = .observer
      · exact .inl (observer role).1
      · by_cases line : s.line.state = .unset
        · exact .inl (unset role line).1
        · obtain ⟨frame, cause, -⟩ := onLine role line
          exact .inr ⟨frame, cause⟩
    rcases refusedOrTaken with same | ⟨frame, hold, active, recordPending, -⟩
    · rw [same]
      exact ⟨rfl, rfl, rfl, rfl⟩
    · exact ⟨frame, hold, active, recordPending⟩
  obtain ⟨frame, hold, active, recordPending⟩ := kept
  refine ⟨frame, hold, active, recordPending, fun role => ?_, fun role line => ?_, fun role line => ?_, fun role line => ?_⟩
  · obtain ⟨same, answer⟩ := observer role
    exact ⟨line_of_ports same, queue_of_ports same, answer⟩
  · obtain ⟨same, answer⟩ := unset role line
    exact ⟨line_of_ports same, queue_of_ports same, answer⟩
  · obtain ⟨-, ⟨-, -, -, -, halts, latches, -⟩, answer⟩ := onLine role (by simp [line])
    obtain ⟨halted, flagged⟩ := halts (by simp [line])
    rw [causeKinds, if_pos line] at answer
    exact ⟨halted, latches line, flagged, answer⟩
  · obtain ⟨-, ⟨-, -, -, -, halts, -, further⟩, answer⟩ := onLine role (by simp [line])
    obtain ⟨halted, flagged⟩ := halts (by simp [line])
    rw [causeKinds_halted line halted] at answer
    exact ⟨halted, further line, flagged, answer⟩

/-! ## HOLD and UNHOLD (R168) -/

/-- A request whose owner changes the hold reason set. -/
theorem takeRequest_updateHold {s t : State} {p : PortId} {code : Byte} {owner : State → Served} {f : HoldSet → HoldSet}
    (serves : Serves s p holdRoles) (taken : t = takeRequest p code holdRoles owner s)
    (owned : ∀ u, owner u = Served.of (u.updateHold f) (.done [])) :
    t = { s with ports := t.ports, line := t.line } ∧ t.line = { s.line with hold := f s.line.hold } ∧
      PortsAnswer s t p (doneFrame code []) (holdKind s t) := by
  obtain ⟨frame, answer⟩ := takeRequest_silent serves taken (owned _) rfl rfl
  have line : t.line = { s.line with hold := f s.line.hold } := congrArg State.line frame
  refine ⟨?_, line, answer⟩
  rw [line]
  exact frame

/-- A hold reason asserts HOLDn (R169). -/
theorem holdAsserted_of_requested {s : State} (h : s.line.hold.requested = true) : holdAsserted s = true := by
  simp [holdAsserted, HoldSet.any, h]

/-- Settles O12: each owner changes REQUESTED alone. -/
theorem holdAndUnhold : Obligations.HoldAndUnhold := by
  intro s p serves
  obtain ⟨frame, line, answer⟩ := takeRequest_updateHold (code := 0x70) (owner := holdOwner) serves rfl fun _ => rfl
  have asserted := holdAsserted_of_requested (congrArg (·.hold.requested) line)
  exact ⟨⟨_, rfl, frame, line, asserted, answer⟩,
    _, rfl, takeRequest_updateHold (code := 0x71) (owner := unholdOwner) serves rfl fun _ => rfl⟩

/-! ## RELEASE_STOP (R164) -/

theorem releaseStopOwner_notHalted {s : State} (h : s.line.state ≠ .halted) :
    releaseStopOwner s = Served.refuse s .wrongState :=
  if_neg (mt stopoutAsserted_iff.mp h)

theorem releaseStopOwner_stillActive {s : State} (halted : s.line.state = .halted)
    (low : s.inputs.breakn.level = false ∨ s.inputs.stopinn.level = false) :
    releaseStopOwner s = Served.refuse s .stillActive := by
  have chain : stopChainOpen s = true := by
    rcases low with low | low <;> simp [stopChainOpen, low]
  rw [releaseStopOwner, if_pos (stopoutAsserted_iff.mpr halted), if_pos chain]

theorem releaseStopOwner_releases {s : State} (halted : s.line.state = .halted) (breakn : s.inputs.breakn.level = true)
    (stopinn : s.inputs.stopinn.level = true) : releaseStopOwner s = Served.of (releaseLine s) (.done []) := by
  have chain : ¬ stopChainOpen s = true := by simp [stopChainOpen, breakn, stopinn]
  rw [releaseStopOwner, if_pos (stopoutAsserted_iff.mpr halted), if_neg chain]

/-- Settles O13: the owner's two refusals in their order, and the release. -/
theorem releaseStopRequest : Obligations.ReleaseStopRequest := by
  intro s p serves
  refine ⟨_, rfl, ?_⟩
  generalize taken : takeRequest p 0x72 releaseRoles releaseStopOwner s = t
  have notHalted (line : s.line.state ≠ .halted) := takeRequest_refused serves taken.symm
    (releaseStopOwner_notHalted (s := s.updatePort p Port.accept) line)
  have stillActive (line : s.line.state = .halted) (low : s.inputs.breakn.level = false ∨ s.inputs.stopinn.level = false) :=
    takeRequest_refused serves taken.symm (releaseStopOwner_stillActive (s := s.updatePort p Port.accept) line low)
  have released (line : s.line.state = .halted) (breakn : s.inputs.breakn.level = true)
      (stopinn : s.inputs.stopinn.level = true) :=
    takeRequest_answer (code := 0x72) (frame := doneFrame 0x72 []) serves taken.symm
      (releaseStopOwner_releases (s := s.updatePort p Port.accept) line breakn stopinn) rfl (portsRaise_raise _ .lineReleased)
  refine ⟨?_, fun line => ?_, fun line low => ?_, fun line breakn stopinn => ?_⟩
  · by_cases line : s.line.state = .halted
    · by_cases low : s.inputs.breakn.level = false ∨ s.inputs.stopinn.level = false
      · rw [(stillActive line low).1]
      · obtain ⟨breakn, stopinn⟩ := not_or.mp low
        rw [(released line (by simpa using breakn) (by simpa using stopinn)).1]
        rfl
    · rw [(notHalted line).1]
  · obtain ⟨same, answer⟩ := notHalted line
    exact ⟨line_of_ports same, answer⟩
  · obtain ⟨same, answer⟩ := stillActive line low
    exact ⟨line_of_ports same, answer⟩
  · obtain ⟨frame, answer⟩ := released line breakn stopinn
    exact ⟨congrArg State.line frame, answer⟩

end Sys2Proof.Proofs
end

