-- ==== Sys2Proof/Proofs/RecordRequests.lean ====
section
/-!
O19 and O20: the requests of PRODUCTION on the transfer record queue.
-/
namespace Sys2Proof.Proofs

open Sys2Proof.Machine Sys2Proof.Safety

/-- A request whose owner changes the transfer record queue. -/
theorem takeRequest_updateRecords {s t : State} {p : PortId} {code : Byte} {allowed : Role → Bool}
    {owner : State → Served} {f : RecordQueue → RecordQueue} {reply : Reply} {frame : List Byte}
    (serves : Serves s p allowed) (taken : t = takeRequest p code allowed owner s)
    (owned : owner (s.updatePort p Port.accept) = Served.of ((s.updatePort p Port.accept).updateRecords f) reply)
    (framed : reply.frame code = some frame) :
    t.records = f s.records ∧ t = { s with ports := t.ports, records := t.records } ∧ PortsAnswer s t p frame 0 := by
  obtain ⟨same, answer⟩ := takeRequest_raised serves taken owned framed (portsRaise_of_ports rfl) rfl
  have records : t.records = f s.records := congrArg State.records same
  refine ⟨records, ?_, answer⟩
  rw [records]
  exact same

/-! ## ACK_RECORDS (R178) -/

theorem ackRecordsOwner_removes {n : Byte} (s : State) (positive : 1 ≤ n.toNat) :
    ackRecordsOwner n s = Served.of (s.updateRecords fun q => { q with list := q.list.drop n.toNat })
      (doneOr (decide (s.records.list.length < n.toNat))
        (leBytes 1 (min n.toNat s.records.list.length) ++ leBytes 1 (s.records.list.length - n.toNat))) :=
  if_neg (Nat.one_le_iff_ne_zero.mp positive)

theorem ackRecordsOwner_clears (s : State) :
    ackRecordsOwner 0 s = Served.of (s.updateRecords fun q => { q with lost := false, drops := 0 })
      (.done (leBytes 1 0 ++ leBytes 1 s.records.list.length)) := rfl

/-- Settles O19: the owner drops the oldest n, or clears the loss, and answers the two counts. -/
theorem ackRecords : Obligations.AckRecords := by
  intro s p serves
  constructor
  · intro n positive
    refine ⟨_, rfl, ?_⟩
    simpa only [State.updatePort_records, decide_eq_true_eq, ← Nat.not_le, ite_not] using
      takeRequest_updateRecords (code := 0x25) serves rfl (ackRecordsOwner_removes _ positive) (frame_doneOr _ _ _)
  · exact ⟨_, rfl, takeRequest_updateRecords (code := 0x25) serves rfl (ackRecordsOwner_clears _) rfl⟩

/-! ## SET_RECORD_QUEUE (R179) -/

theorem queueModeOf_of_code {b : Byte} {m : QueueMode} (h : b.toNat = m.code) : queueModeOf b = some m := by
  cases m <;> simp [queueModeOf, h, QueueMode.code]

theorem queueModeOf_none {b : Byte} (h : 1 < b.toNat) : queueModeOf b = none := by
  rw [queueModeOf, if_neg (by omega), if_neg (by omega)]

theorem queueFilterOf_of_code {b : Byte} {f : QueueFilter} (h : b.toNat = f.code) : queueFilterOf b = some f := by
  cases f <;> simp [queueFilterOf, h, QueueFilter.code]

theorem queueFilterOf_none {b : Byte} (h : 2 < b.toNat) : queueFilterOf b = none := by
  rw [queueFilterOf, if_neg (by omega), if_neg (by omega), if_neg (by omega)]

theorem setRecordQueueOwner_sets {mode watermark filter : Byte} {m : QueueMode} {f : QueueFilter} (s : State)
    (modeCode : mode.toNat = m.code) (filterCode : filter.toNat = f.code) (low : watermark.toNat ≤ 32) :
    setRecordQueueOwner mode watermark filter s =
      Served.of (s.updateRecords fun q => { q with mode := m, watermark := watermark.toNat, filter := f }) (.done []) := by
  simp only [setRecordQueueOwner, queueModeOf_of_code modeCode, queueFilterOf_of_code filterCode, if_pos low]

theorem setRecordQueueOwner_refuses {mode watermark filter : Byte} (s : State)
    (outside : 1 < mode.toNat ∨ 32 < watermark.toNat ∨ 2 < filter.toNat) :
    setRecordQueueOwner mode watermark filter s = Served.refuse s .badArg := by
  unfold setRecordQueueOwner
  split
  case h_1 hm hf =>
    rcases outside with mode | watermark | filter
    · rw [queueModeOf_none mode] at hm
      cases hm
    · exact if_neg (Nat.not_le.mpr watermark)
    · rw [queueFilterOf_none filter] at hf
      cases hf
  case h_2 => rfl

/-- Settles O20: the three values by their codes, and the refusal of any value outside them. -/
theorem setRecordQueue : Obligations.SetRecordQueue := by
  intro s p serves
  constructor
  · intro mode watermark filter m f modeCode filterCode low
    exact ⟨_, rfl, takeRequest_updateRecords (code := 0x26) serves rfl
      (setRecordQueueOwner_sets _ modeCode filterCode low) rfl⟩
  · intro mode watermark filter outside
    exact ⟨_, rfl, takeRequest_refused (code := 0x26) serves rfl (setRecordQueueOwner_refuses _ outside)⟩

end Sys2Proof.Proofs
end

