-- ==== Sys2Proof/Proofs/AttentionRequests.lean ====
section
/-!
O10: the requests on a port's own attention sets.
-/
namespace Sys2Proof.Proofs

open Sys2Proof.Machine Sys2Proof.Safety

/-- An event without a cause that leaves line control alone raises nothing. -/
theorem closeEvent_of_line {b s : State} (line : s.line = b.line) : closeEvent b s [] = s := by
  have hold : holdAsserted b = holdAsserted s := by rw [holdAsserted, holdAsserted, line]
  rw [closeEvent_nil, hold, bne_self_eq_false]
  rfl

/-- A request whose owner changes the asking port alone: that port changed, idle and holding the answer, and no other state. -/
theorem takeRequest_ownPort {s t : State} {p : PortId} {code : Byte} {allowed : Role → Bool} {owner : State → Served}
    {f : Port → Port} {reply : Reply} {frame : List Byte} (serves : Serves s p allowed)
    (taken : t = takeRequest p code allowed owner s)
    (owned : owner (s.updatePort p Port.accept) = Served.of ((s.updatePort p Port.accept).updatePort p f) reply)
    (framed : reply.frame code = some frame) :
    t = { s with ports := t.ports } ∧
      t.ports[p] = { f s.ports[p].accept with executing := false, response := some frame } ∧
      ∀ q : PortId, q ≠ p → t.ports[q] = s.ports[q] := by
  rw [takeRequest_served code owner (portFree_of_serves serves) serves.2.2, owned] at taken
  have quiet : t = ((s.updatePort p Port.accept).updatePort p f).answer p code reply :=
    taken.trans (closeEvent_of_line rfl)
  refine ⟨by rw [quiet]; rfl, ?_, fun q other => ?_⟩
  · rw [quiet]
    simp only [State.answer, updatePort_port, if_true, Port.place, framed]
  · rw [quiet]
    simp only [State.answer, updatePort_port, if_neg other]

/-- The asking port's sets are what they were before the frame was accepted. -/
theorem readAndClearOwner_accepted (p : PortId) (s : State) :
    readAndClearOwner p (s.updatePort p Port.accept) =
      Served.of ((s.updatePort p Port.accept).updatePort p fun q => { q with pending := 0 })
        (.done (leBytes 2 s.ports[p].pending.toNat ++ leBytes 2 s.ports[p].mask.toNat)) := by
  have port : (s.updatePort p Port.accept).ports[p] = s.ports[p].accept := by rw [updatePort_port, if_pos rfl]
  rw [readAndClearOwner, port]
  rfl

/-- Settles O10: each owner changes its own port's set, and ATTNn follows the two sets. -/
theorem attentionRequestsActOnTheirPort : Obligations.AttentionRequestsActOnTheirPort := by
  intro s p serves
  constructor
  · obtain ⟨same, port, others⟩ := takeRequest_ownPort (code := 0x16) serves rfl (readAndClearOwner_accepted p s) rfl
    refine ⟨_, rfl, same, port, ?_, others⟩
    rw [attnAsserted, port]
    simp
  · intro mask
    obtain ⟨same, port, others⟩ :=
      takeRequest_ownPort (code := 0x17) (owner := setAttentionMaskOwner p mask) serves rfl rfl rfl
    refine ⟨_, rfl, same, port, ?_, others⟩
    rw [attnAsserted, port, decide_eq_true_iff]
    rfl

end Sys2Proof.Proofs
end

