-- ==== Sys2Proof/Proofs/ResetEnd.lean ====
section
/-!
O5: the end of device reset, from the straps to the roles.
-/
namespace Sys2Proof.Proofs

open Sys2Proof.Machine Sys2Proof.Safety

/-! ## Straps (R184) -/

/-- Exactly one port straps the role of port p when no other port does. -/
theorem strapCount_eq_one_iff (rolea roleb : BitVec 4) (p : PortId) :
    strapCount rolea roleb (strapOf rolea roleb p) = 1 ↔
      ∀ q : PortId, q ≠ p → strapOf rolea roleb q ≠ strapOf rolea roleb p := by
  constructor
  · intro one q other same
    obtain ⟨r, only⟩ := List.length_eq_one_iff.mp one
    have mem {i : PortId} (h : strapOf rolea roleb i = strapOf rolea roleb p) : i = r :=
      List.mem_singleton.mp (only ▸ List.mem_filter.mpr ⟨List.mem_finRange i, decide_eq_true h⟩)
    exact other ((mem same).trans (mem rfl).symm)
  · intro alone
    have itself (q : PortId) : decide (strapOf rolea roleb q = strapOf rolea roleb p) = (q == p) := by
      by_cases same : q = p
      · simp [same]
      · simp [same, alone q same]
    rw [strapCount, List.filter_congr fun q _ => itself q, ← List.countP_eq_length_filter]
    exact List.count_eq_one_of_mem (List.nodup_finRange 4) (List.mem_finRange p)

theorem roleTaken_alone {rolea roleb : BitVec 4} {p : PortId}
    (alone : ∀ q : PortId, q ≠ p → strapOf rolea roleb q ≠ strapOf rolea roleb p) :
    roleTaken rolea roleb p = strapOf rolea roleb p :=
  if_pos ((strapCount_eq_one_iff rolea roleb p).mpr alone)

theorem roleTaken_shared {rolea roleb : BitVec 4} {p q : PortId} (other : q ≠ p)
    (same : strapOf rolea roleb q = strapOf rolea roleb p) : roleTaken rolea roleb p = .observer :=
  if_neg fun one => (strapCount_eq_one_iff rolea roleb p).mp one q other same

/-! ## The vacant set and the conflict indication (R184, R194) -/

theorem roleHeld_iff {rolea roleb : BitVec 4} {r : Role} :
    roleHeld rolea roleb r = true ↔ ∃ p : PortId, roleTaken rolea roleb p = r := by
  simp [roleHeld]

theorem roleConflict_iff {rolea roleb : BitVec 4} :
    roleConflict rolea roleb = true ↔ ∃ p : PortId, roleTaken rolea roleb p = .observer :=
  roleHeld_iff

/-- The bits of a set of role codes are those of the roles that add their power of two to it. -/
theorem getLsbD_vacant (print calender drive production : Bool) :
    let set := BitVec.ofNat 8
      [if print then 0 else 2 ^ 1, if calender then 0 else 2 ^ 2, if drive then 0 else 2 ^ 3,
        if production then 0 else 2 ^ 4].sum
    set.getLsbD 1 = !print ∧ set.getLsbD 2 = !calender ∧ set.getLsbD 3 = !drive ∧ set.getLsbD 4 = !production := by
  revert print calender drive production
  decide

theorem vacantSet_bit {rolea roleb : BitVec 4} {r : Role} (station : r ≠ .observer) :
    (vacantSet rolea roleb).getLsbD r.code = !roleHeld rolea roleb r := by
  obtain ⟨print, calender, drive, production⟩ := getLsbD_vacant (roleHeld rolea roleb .print)
    (roleHeld rolea roleb .calender) (roleHeld rolea roleb .drive) (roleHeld rolea roleb .production)
  cases r with
  | observer => exact absurd rfl station
  | print => exact print
  | calender => exact calender
  | drive => exact drive
  | production => exact production

theorem vacantSet_bit_iff {rolea roleb : BitVec 4} {r : Role} (station : r ≠ .observer) :
    (vacantSet rolea roleb).getLsbD r.code = true ↔ ∀ p : PortId, roleTaken rolea roleb p ≠ r := by
  rw [vacantSet_bit station, Bool.not_eq_true', Bool.eq_false_iff, ne_eq, roleHeld_iff, not_exists]

/-! ## The end of reset (R183, R185) -/

theorem exec_resetEnd {s : State} (rolea roleb : BitVec 4) (maint : Bool) (held : s.live = false) :
    exec (.resetEnd rolea roleb maint) s = .next (endReset rolea roleb maint s) :=
  congrArg Host.Outcome.next (if_neg (Bool.eq_false_iff.mp held))

theorem endReset_port (rolea roleb : BitVec 4) (maint : Bool) (s : State) (p : PortId) :
    (endReset rolea roleb maint s).ports[p] =
      { s.ports[p] with role := roleTaken rolea roleb p, mask := defaultMask (roleTaken rolea roleb p) } := by
  simp [endReset]

/-- Settles O5: the straps decide the roles, the roles the masks, the vacant set and the conflict. -/
theorem resetEndGivesRoles : Obligations.ResetEndGivesRoles := by
  intro s rolea roleb maint strapped held straps
  obtain rfl : strapped = strapOf rolea roleb := by
    funext p
    obtain ⟨print, calender, drive, production⟩ := straps p
    unfold strapOf strappedRole
    split
    case h_1 a b => exact print a b
    case h_2 a b => exact calender a b
    case h_3 a b => exact drive a b
    case h_4 a b => exact production a b
  have role (p : PortId) : (endReset rolea roleb maint s).ports[p].role = roleTaken rolea roleb p := by
    rw [endReset_port]
  have mask (p : PortId) {r : Role} (taken : (endReset rolea roleb maint s).ports[p].role = r) :
      (endReset rolea roleb maint s).ports[p].mask = defaultMask r := by
    rw [← taken, endReset_port]
  refine ⟨_, exec_resetEnd rolea roleb maint held, fun p => ⟨?_, ?_, ?_, mask p, mask p, mask p, mask p, mask p⟩,
    fun r station => ?_, ?_, rfl, rfl, rfl, rfl, rfl⟩
  · rw [endReset_port]
  · rintro ⟨q, other, same⟩
    rw [role, roleTaken_shared other same]
  · intro alone
    rw [role, roleTaken_alone alone]
  · simp only [role]
    exact vacantSet_bit_iff station
  · simp only [role]
    exact roleConflict_iff

end Sys2Proof.Proofs
end

