-- ==== Sys2Proof/Proofs/Frames.lean ====
section
/-!
The link of a station port: bits and bytes, the status byte, what a transaction shifts out, and the judgement of the inbound
stream.
-/
namespace Sys2Proof.Proofs

open Sys2Proof.Machine Sys2Proof.Safety

/-! ## Bits and bytes (R187) -/

/-- A byte is read as it was sent, most significant bit first. -/
theorem bitsBytes_byteBits_append (b : Byte) (bits : List Bool) :
    bitsBytes (byteBits b ++ bits) = b :: bitsBytes bits := by
  have value : 128 * (b.getLsbD 7).toNat + 64 * (b.getLsbD 6).toNat + 32 * (b.getLsbD 5).toNat +
      16 * (b.getLsbD 4).toNat + 8 * (b.getLsbD 3).toNat + 4 * (b.getLsbD 2).toNat + 2 * (b.getLsbD 1).toNat +
      (b.getLsbD 0).toNat = b.toNat := by
    have := b.isLt
    simp only [BitVec.getLsbD, Nat.toNat_testBit]
    omega
  simp only [byteBits, List.cons_append, List.nil_append, bitsBytes, value, BitVec.ofNat_toNat, BitVec.setWidth_eq]

theorem bitsBytes_flatMap_byteBits (bytes : List Byte) : bitsBytes (bytes.flatMap byteBits) = bytes := by
  induction bytes with
  | nil => rfl
  | cons b rest ih => rw [List.flatMap_cons, bitsBytes_byteBits_append, ih]

/-- Low bits make up idle bytes. -/
theorem bitsBytes_low {bits : List Bool} (low : ∀ b ∈ bits, b = false) : ∀ b ∈ bitsBytes bits, b = 0 := by
  induction bits using bitsBytes.induct with
  | case1 b7 b6 b5 b4 b3 b2 b1 b0 rest ih =>
    simp only [List.forall_mem_cons] at low
    obtain ⟨rfl, rfl, rfl, rfl, rfl, rfl, rfl, rfl, low⟩ := low
    rw [bitsBytes, List.forall_mem_cons]
    exact ⟨rfl, ih low⟩
  | case2 bits short =>
    rw [bitsBytes.eq_2 bits short]
    exact nofun

/-! ## What is shifted out (R187, R188) -/

/-- Five bits over a role code (Table 41). -/
theorem byteBits_status (ready busy attn stopped held : Bool) (r : Role) :
    byteBits (BitVec.ofNat 8 (128 * ready.toNat + 64 * busy.toNat + 32 * attn.toNat + 16 * stopped.toNat +
      8 * held.toNat + r.code)) =
      [ready, busy, attn, stopped, held, decide (r = .production), decide (r = .calender ∨ r = .drive),
        decide (r = .print ∨ r = .drive)] := by
  revert ready busy attn stopped held
  cases r <;> decide

theorem shiftedOut_iff {s t : State} {p : PortId} {n : Nat} :
    ShiftedOut s t p n ↔ t.ports[p].miso = misoBits s p n := by
  rw [ShiftedOut, misoBits, statusByte, byteBits_status]
  rfl

/-- A state in which a port has shifted out n bits, and nothing else has happened. -/
def shifted (s : State) (p : PortId) (n : Nat) : State :=
  s.updatePort p fun q => { q with miso := misoBits s p n }

theorem shifted_port (s : State) (p : PortId) (n : Nat) (q : PortId) :
    (shifted s p n).ports[q] = { s.ports[q] with miso := if q = p then misoBits s p n else s.ports[q].miso } := by
  rw [shifted, updatePort_port]
  split <;> rfl

theorem shiftedOut_shifted (s : State) (p : PortId) (n : Nat) : ShiftedOut s (shifted s p n) p n := by
  rw [shiftedOut_iff, shifted_port, if_pos rfl]

theorem portFree_shifted (s : State) (p : PortId) (n : Nat) : portFree (shifted s p n) p = portFree s p := by
  rw [portFree, portFree, shifted_port]
  rfl

theorem shifted_port_kept (s : State) (p : PortId) (n : Nat) (q : PortId) :
    (shifted s p n).ports[q] =
      { s.ports[q] with miso := if q = p then (shifted s p n).ports[p].miso else s.ports[q].miso } := by
  rw [shifted_port, shifted_port, if_pos rfl]

/-- A transaction: the bits shifted out, then the inbound stream judged. -/
theorem exec_spiTransaction {s : State} (live : s.live = true) (p : PortId) (mosi : List Bool) :
    exec (.spiTransaction p mosi) s =
      .next (judgeStream p (busyBit s p) (bitsBytes mosi) (shifted s p mosi.length)) :=
  congrArg Host.Outcome.next (if_pos live)

/-! ## The inbound stream (R189, R190) -/

theorem judgeStream_idle {stream : List Byte} (idle : ∀ b ∈ stream, b = 0) (p : PortId) (busy : Bool) (s : State) :
    judgeStream p busy stream s = s := by
  have skipped : skipIdle stream = [] := List.dropWhile_eq_nil_iff.mpr fun b mem => decide_eq_true (idle b mem)
  rw [judgeStream, skipped]
  rfl

theorem judgeStream_busy (p : PortId) (stream : List Byte) (s : State) : judgeStream p true stream s = s := by
  rw [judgeStream, Bool.or_true, if_pos rfl]

theorem judgeStream_frame {len : Byte} (present : len ≠ 0) (p : PortId) (rest : List Byte) (s : State) :
    judgeStream p false (len :: rest) s = judgeFrame p (len :: rest) s := by
  have kept : skipIdle (len :: rest) = len :: rest := List.dropWhile_cons_of_neg (by simpa using present)
  rw [judgeStream, kept]
  rfl

/-- A stream is malformed by its length byte, by what follows it, or by the CRC-8 of the frame (R189, R190). -/
theorem malformed_iff (len : Byte) (rest : List Byte) :
    malformed (len :: rest) len.toNat = true ↔
      62 < len.toNat ∨ rest.length ≤ len.toNat ∨ rest[len.toNat]? ≠ some (crc8 (len :: rest.take len.toNat)) := by
  rw [malformed, decide_eq_true_iff, List.take_succ_cons, List.getD_cons_succ, List.length_cons]
  refine or_congr Iff.rfl ?_
  by_cases whole : len.toNat < rest.length
  · simp [whole, Nat.not_le.mpr whole, List.getD, eq_comm]
  · simp [Nat.not_lt.mp whole]

/-- The bytes of a request's frame (Table 42). -/
def requestFrame (code : Byte) (payload : List Byte) : List Byte :=
  let body := byte (payload.length + 1) :: code :: payload
  body ++ [crc8 body]

theorem requestBits_eq (code : Byte) (payload : List Byte) :
    requestBits code payload = (requestFrame code payload).flatMap byteBits := rfl

/-- A payload that fits a frame is counted by the length byte. -/
theorem toNat_lengthByte {payload : List Byte} (fits : payload.length ≤ 61) :
    (byte (payload.length + 1)).toNat = payload.length + 1 := by
  rw [byte, BitVec.toNat_ofNat]
  omega

/-- The frame of a request is taken whole, its code and its payload as they were sent (Table 42). -/
theorem judgeFrame_requestFrame {payload : List Byte} (fits : payload.length ≤ 61) (p : PortId) (code : Byte) (s : State) :
    judgeFrame p (requestFrame code payload) s = acceptFrame p code payload s := by
  have sound : ¬ malformed (requestFrame code payload) (byte (payload.length + 1)).toNat = true := by
    rw [requestFrame, List.cons_append, malformed_iff, toNat_lengthByte fits]
    simp
    omega
  simp only [judgeFrame, requestFrame, List.cons_append, List.getD_cons_zero, List.getD_cons_succ] at sound ⊢
  rw [if_neg sound, toNat_lengthByte fits]
  simp

theorem portFree_iff {s : State} {p : PortId} :
    portFree s p = true ↔ s.running = true ∧ s.ports[p].executing = false := by
  rw [portFree, Bool.and_eq_true_iff, Bool.not_eq_true']

theorem live_of_portFree {s : State} {p : PortId} (free : portFree s p = true) : s.live = true := by
  obtain ⟨running, -⟩ := portFree_iff.mp free
  rw [State.live, of_decide_eq_true running]
  rfl

theorem busyBit_of_portFree {s : State} {p : PortId} (free : portFree s p = true) : busyBit s p = false := by
  obtain ⟨running, idle⟩ := portFree_iff.mp free
  rw [busyBit, of_decide_eq_true running, idle]
  rfl

/-- Bytes sent on a port that does not show BUSY, the first not idle. -/
theorem judgeStream_bytes {s : State} {p : PortId} (free : portFree s p = true) {len : Byte} (present : len ≠ 0)
    (rest : List Byte) (u : State) :
    judgeStream p (busyBit s p) (bitsBytes ((len :: rest).flatMap byteBits)) u = judgeFrame p (len :: rest) u := by
  rw [busyBit_of_portFree free, bitsBytes_flatMap_byteBits, judgeStream_frame present]

/-- The frame of a request, sent on a port that does not show BUSY. -/
theorem judgeStream_requestBits {s : State} {p : PortId} (free : portFree s p = true) (code : Byte) {payload : List Byte}
    (fits : payload.length ≤ 61) (u : State) :
    judgeStream p (busyBit s p) (bitsBytes (requestBits code payload)) u = acceptFrame p code payload u := by
  have present : byte (payload.length + 1) ≠ 0 := fun zero =>
    Nat.succ_ne_zero _ ((toNat_lengthByte fits).symm.trans (congrArg BitVec.toNat zero))
  rw [requestBits_eq, ← judgeFrame_requestFrame fits]
  exact judgeStream_bytes free present _ u

end Sys2Proof.Proofs
end

