-- ==== Sys2Proof/Proofs/RequestTable.lean ====
section
/-!
Table 43 as the port reads it: the roles of each code and the form of its payload, and the codes that are none of the table.
-/
namespace Sys2Proof.Proofs

open Sys2Proof.Machine Sys2Proof.Safety

/-! ## Roles -/

theorem anyRole_iff_mem (r : Role) : anyRole r = true ↔ r ∈ [.observer, .print, .calender, .drive, .production] := by
  cases r <;> decide

theorem anyStation_iff_mem (r : Role) : anyStation r = true ↔ r ∈ [.print, .calender, .drive, .production] := by
  cases r <;> decide

theorem onlyProduction_iff_mem (r : Role) : onlyProduction r = true ↔ r ∈ [.production] := by
  simp [onlyProduction]

theorem onlyPrint_iff_mem (r : Role) : onlyPrint r = true ↔ r ∈ [.print] := by
  simp [onlyPrint]

theorem onlyCalender_iff_mem (r : Role) : onlyCalender r = true ↔ r ∈ [.calender] := by
  simp [onlyCalender]

theorem onlyDrive_iff_mem (r : Role) : onlyDrive r = true ↔ r ∈ [.drive] := by
  simp [onlyDrive]

theorem holdRoles_iff_mem (r : Role) : holdRoles r = true ↔ r ∈ [.production, .calender, .drive] := by
  simp [holdRoles]

theorem releaseRoles_iff_mem (r : Role) : releaseRoles r = true ↔ r ∈ [.calender, .drive] := by
  simp [releaseRoles]

/-! ## Forms -/

/-- A code other than ANNOUNCE_PANEL's fixes the length of its payload alone. -/
theorem fitsRow_iff_length {code : Byte} (other : code ≠ 0x20) (lengths : List Nat) (a : List Byte) :
    FitsRow code lengths a ↔ a.length ∈ lengths :=
  and_iff_left fun announce => absurd announce other

theorem isSome_withArgs (n : Nat) (a : List Byte) (owner : State → Served) :
    (withArgs n a owner).isSome = true ↔ a.length ∈ [n] := by
  rw [withArgs, Option.isSome_ite, List.mem_singleton]

theorem isSome_writeForm (p : PortId) (a : List Byte) :
    (writeForm p a).isSome = true ↔ a.length ∈ List.range' 4 32 := by
  rw [writeForm, Option.isSome_ite, List.mem_range'_1]
  omega

/-- A list of two-byte values has an even length, and at most 60 bytes of it fit a frame. -/
theorem isSome_temperaturesForm {a : List Byte} (fits : a.length ≤ 61) :
    (temperaturesForm a).isSome = true ↔ a.length ∈ List.range' 0 31 2 := by
  rw [temperaturesForm, Option.isSome_ite, List.mem_range']
  constructor
  · exact fun even => ⟨a.length / 2, by omega, by omega⟩
  · rintro ⟨i, -, length⟩
    omega

theorem isSome_announceForm (a : List Byte) :
    (announceForm a).isSome = true ↔ FitsRow 0x20 [13, 14, 15, 16, 17, 18, 19, 20] a := by
  rw [announceForm, Option.isSome_ite, FitsRow, argByte]
  simp only [forall_const, List.mem_cons, List.not_mem_nil, or_false]
  omega

/-! ## Rows -/

/-- The request of a row of Table 43: it is allowed to the row's roles, and has an owner exactly for a payload of the row's
form. -/
structure FollowsRow (row : Byte × List Role × List Nat) (a : List Byte) (r : Request) : Prop where
  roles : ∀ role, r.allowed role = true ↔ role ∈ row.2.1
  form : a.length ≤ 61 → (r.owner.isSome = true ↔ FitsRow row.1 row.2.2 a)

/-- The port reads a code by a row of Table 43. -/
def ReadsRow (p : PortId) (a : List Byte) (row : Byte × List Role × List Nat) : Prop :=
  ∃ r, requestOf p row.1 a = some r ∧ FollowsRow row a r

theorem readsRow_withArgs {p : PortId} {a : List Byte} {code : Byte} {allowed : Role → Bool} {roles : List Role} {n : Nat}
    {owner : State → Served} (read : requestOf p code a = some ⟨allowed, withArgs n a owner⟩)
    (allows : ∀ role, allowed role = true ↔ role ∈ roles) (other : code ≠ 0x20 := by decide) :
    ReadsRow p a (code, roles, [n]) :=
  ⟨_, read, allows, fun _ => (isSome_withArgs n a owner).trans (fitsRow_iff_length other [n] a).symm⟩

theorem readsRow_noArgs {p : PortId} {a : List Byte} {code : Byte} {allowed : Role → Bool} {roles : List Role}
    {owner : State → Served} (read : requestOf p code a = some ⟨allowed, noArgs a owner⟩)
    (allows : ∀ role, allowed role = true ↔ role ∈ roles) (other : code ≠ 0x20 := by decide) :
    ReadsRow p a (code, roles, [0]) :=
  readsRow_withArgs (n := 0) read allows other

theorem readsRow_announcePanel (p : PortId) (a : List Byte) :
    ReadsRow p a (0x20, [.production], [13, 14, 15, 16, 17, 18, 19, 20]) :=
  ⟨_, rfl, onlyProduction_iff_mem, fun _ => isSome_announceForm a⟩

theorem readsRow_writeSlot (p : PortId) (a : List Byte) : ReadsRow p a (0x31, [.production], List.range' 4 32) :=
  ⟨_, rfl, onlyProduction_iff_mem, fun _ => (isSome_writeForm p a).trans (fitsRow_iff_length (by decide) _ a).symm⟩

theorem readsRow_reportTemperatures (p : PortId) (a : List Byte) :
    ReadsRow p a (0x50, [.calender], List.range' 0 31 2) :=
  ⟨_, rfl, onlyCalender_iff_mem,
    fun fits => (isSome_temperaturesForm fits).trans (fitsRow_iff_length (by decide) _ a).symm⟩

/-- Every row of Table 43 is read as the table has it. -/
theorem readsRow_requestRows (p : PortId) (a : List Byte) : ∀ row ∈ requestRows, ReadsRow p a row := by
  simp only [requestRows, List.forall_mem_append, List.forall_mem_cons]
  refine ⟨⟨⟨?_, ?_, ?_, ?_, ?_, ?_, ?_, ?_, ?_, nofun⟩,
    ?_, ?_, ?_, ?_, ?_, ?_, ?_, ?_, ?_, ?_, ?_, ?_, ?_, ?_, ?_, nofun⟩, ?_, ?_, ?_, ?_, ?_, ?_, ?_, ?_, ?_, nofun⟩
  · exact readsRow_noArgs rfl anyRole_iff_mem
  · exact readsRow_withArgs rfl anyRole_iff_mem
  · exact readsRow_noArgs rfl anyRole_iff_mem
  · exact readsRow_noArgs rfl anyRole_iff_mem
  · exact readsRow_noArgs rfl anyRole_iff_mem
  · exact readsRow_withArgs rfl anyRole_iff_mem
  · exact readsRow_noArgs rfl anyRole_iff_mem
  · exact readsRow_withArgs rfl anyRole_iff_mem
  · exact readsRow_noArgs rfl anyStation_iff_mem
  · exact readsRow_announcePanel p a
  · exact readsRow_withArgs rfl onlyProduction_iff_mem
  · exact readsRow_withArgs rfl onlyProduction_iff_mem
  · exact readsRow_withArgs rfl onlyProduction_iff_mem
  · exact readsRow_withArgs rfl onlyProduction_iff_mem
  · exact readsRow_withArgs rfl onlyProduction_iff_mem
  · exact readsRow_withArgs rfl onlyProduction_iff_mem
  · exact readsRow_withArgs rfl onlyProduction_iff_mem
  · exact readsRow_writeSlot p a
  · exact readsRow_withArgs rfl onlyProduction_iff_mem
  · exact readsRow_withArgs rfl onlyProduction_iff_mem
  · exact readsRow_withArgs rfl onlyProduction_iff_mem
  · exact readsRow_noArgs rfl onlyProduction_iff_mem
  · exact readsRow_withArgs rfl onlyProduction_iff_mem
  · exact readsRow_noArgs rfl onlyProduction_iff_mem
  · exact readsRow_withArgs rfl onlyPrint_iff_mem
  · exact readsRow_withArgs rfl onlyPrint_iff_mem
  · exact readsRow_reportTemperatures p a
  · exact readsRow_noArgs rfl onlyCalender_iff_mem
  · exact readsRow_withArgs rfl onlyDrive_iff_mem
  · exact readsRow_noArgs rfl onlyDrive_iff_mem
  · exact readsRow_noArgs rfl holdRoles_iff_mem
  · exact readsRow_noArgs rfl holdRoles_iff_mem
  · exact readsRow_noArgs rfl releaseRoles_iff_mem

/-! ## Codes -/

theorem generalRequest_unknown {n : Nat} (unknown : n ∉ [0x10, 0x11, 0x12, 0x13, 0x14, 0x15, 0x16, 0x17, 0x18])
    (p : PortId) (a : List Byte) : generalRequest p n a = none := by
  unfold generalRequest
  split
  case h_10 => rfl
  all_goals exact absurd (by decide) unknown

theorem productionRequest_unknown {n : Nat} (unknown : n ∉ [0x20, 0x21, 0x22, 0x23, 0x24, 0x25, 0x26]) (p : PortId)
    (a : List Byte) : productionRequest p n a = none := by
  unfold productionRequest
  split
  case h_8 => rfl
  all_goals exact absurd (by decide) unknown

theorem storeRequest_unknown {n : Nat} (unknown : n ∉ [0x30, 0x31, 0x32, 0x33, 0x34, 0x35, 0x36, 0x37]) (p : PortId)
    (a : List Byte) : storeRequest p n a = none := by
  unfold storeRequest
  split
  case h_9 => rfl
  all_goals exact absurd (by decide) unknown

theorem stationRequest_unknown {n : Nat} (unknown : n ∉ [0x40, 0x41, 0x50, 0x51, 0x60, 0x61, 0x70, 0x71, 0x72])
    (a : List Byte) : stationRequest n a = none := by
  unfold stationRequest
  split
  case h_10 => rfl
  all_goals exact absurd (by decide) unknown

/-- A code that is none of Table 43 is no request. -/
theorem requestOf_unknown {code : Byte} (unknown : ∀ row ∈ requestRows, row.1 ≠ code) (p : PortId) (a : List Byte) :
    requestOf p code a = none := by
  have absent {codes : List Nat} (listed : codes ⊆ requestRows.map (·.1.toNat)) : code.toNat ∉ codes := fun mem => by
    obtain ⟨row, mem, same⟩ := List.mem_map.mp (listed mem)
    exact unknown row mem (BitVec.eq_of_toNat_eq same)
  rw [requestOf, generalRequest_unknown (absent (by decide)), productionRequest_unknown (absent (by decide)),
    storeRequest_unknown (absent (by decide)), stationRequest_unknown (absent (by decide))]
  rfl

end Sys2Proof.Proofs
end

