-- ==== Sys2Proof/Proofs/Transactions.lean ====
section
/-!
O37: transactions that carry no request, malformed frames, and the frames that R192 turns away.
-/
namespace Sys2Proof.Proofs

open Sys2Proof.Machine Sys2Proof.Safety

/-! ## A frame answered on the spot -/

/-- A state after a transaction whose frame was answered at once, its port's bits shifted out, and nothing else changed. -/
def turnedAway (s : State) (p : PortId) (n : Nat) (code : Byte) (reply : Reply) : State :=
  ((shifted s p n).updatePort p Port.accept).answer p code reply

theorem turnedAway_port {s : State} {p : PortId} (idle : s.ports[p].executing = false) (n : Nat) {code : Byte}
    {reply : Reply} {frame : List Byte} (framed : reply.frame code = some frame) (q : PortId) :
    (turnedAway s p n code reply).ports[q] =
      { s.ports[q] with
        miso := if q = p then misoBits s p n else s.ports[q].miso
        response := if q = p then some frame else s.ports[q].response } := by
  rw [turnedAway, State.answer, updatePort_port, updatePort_port, shifted_port]
  by_cases own : q = p
  · subst own
    simp only [if_true, Port.place, framed, Port.accept, idle]
  · simp only [if_neg own]

/-- What a frame answered at once leaves (R191, R193). -/
theorem turnedAway_leaves {s : State} {p : PortId} (idle : s.ports[p].executing = false) (n : Nat) {code : Byte}
    {reply : Reply} {frame : List Byte} (framed : reply.frame code = some frame) :
    ShiftedOut s (turnedAway s p n code reply) p n ∧
      turnedAway s p n code reply = { s with ports := (turnedAway s p n code reply).ports } ∧
      ∀ q : PortId, (turnedAway s p n code reply).ports[q] =
        { s.ports[q] with
          miso := if q = p then (turnedAway s p n code reply).ports[p].miso else s.ports[q].miso
          response := if q = p then some frame else s.ports[q].response } := by
  have own : (turnedAway s p n code reply).ports[p].miso = misoBits s p n := by
    rw [turnedAway_port idle n framed]
    exact if_pos rfl
  exact ⟨shiftedOut_iff.mpr own, rfl, fun q => by rw [own, turnedAway_port idle n framed]⟩

theorem judgeFrame_malformed {p : PortId} {len : Byte} {rest : List Byte}
    (bad : malformed (len :: rest) len.toNat = true) (s : State) (n : Nat) :
    judgeFrame p (len :: rest) (shifted s p n) = turnedAway s p n 0 .linkError :=
  if_pos bad

/-! ## The checks of R192 -/

theorem acceptFrame_unknown {code : Byte} (unknown : ∀ row ∈ requestRows, row.1 ≠ code) (s : State) (p : PortId) (n : Nat)
    (payload : List Byte) : acceptFrame p code payload (shifted s p n) = turnedAway s p n code (.refused .badRequest) := by
  rw [acceptFrame, requestOf_unknown unknown]
  rfl

theorem acceptFrame_notPermitted {row : Byte × List Role × List Nat} (mem : row ∈ requestRows) {s : State} {p : PortId}
    (foreign : s.ports[p].role ∉ row.2.1) (n : Nat) (payload : List Byte) :
    acceptFrame p row.1 payload (shifted s p n) = turnedAway s p n row.1 (.refused .notPermitted) := by
  obtain ⟨r, read, follows⟩ := readsRow_requestRows p payload row mem
  have denied : ¬ r.allowed (shifted s p n).ports[p].role = true := by
    rw [shifted_port, follows.roles]
    exact foreign
  rw [acceptFrame, read]
  exact if_neg denied

theorem acceptFrame_badForm {row : Byte × List Role × List Nat} (mem : row ∈ requestRows) {s : State} {p : PortId}
    (permitted : s.ports[p].role ∈ row.2.1) (n : Nat) {payload : List Byte} (fits : payload.length ≤ 61)
    (misfit : ¬ FitsRow row.1 row.2.2 payload) :
    acceptFrame p row.1 payload (shifted s p n) = turnedAway s p n row.1 (.refused .badArg) := by
  obtain ⟨r, read, follows⟩ := readsRow_requestRows p payload row mem
  have allowed : r.allowed (shifted s p n).ports[p].role = true := by
    rw [shifted_port, follows.roles]
    exact permitted
  have ownerless : r.owner = none := by
    rw [← Option.not_isSome_iff_eq_none, follows.form fits]
    exact misfit
  rw [acceptFrame, read]
  dsimp only
  rw [serve, if_pos allowed, Request.serveOwner, ownerless]
  exact closeEvent_of_line rfl

/-- Settles O37: the port judges a stream by its bytes, and what it turns away touches only its own buffer. -/
theorem transactionsWithoutARequest : Obligations.TransactionsWithoutARequest := by
  intro s p mosi live
  refine ⟨_, exec_spiTransaction live p mosi, ?_, ?_, ?_⟩
  · intro quiet
    have unjudged : judgeStream p (busyBit s p) (bitsBytes mosi) (shifted s p mosi.length) = shifted s p mosi.length := by
      rcases quiet with low | busy
      · exact judgeStream_idle (bitsBytes_low low) ..
      · have shown : busyBit s p = true := by simpa [busyBit] using busy
        rw [shown, judgeStream_busy]
    rw [unjudged]
    exact ⟨shiftedOut_shifted s p _, rfl, shifted_port_kept s p _⟩
  · rintro len rest rfl present running idle bad
    have free := portFree_iff.mpr ⟨running, idle⟩
    rw [judgeStream_bytes free present, judgeFrame_malformed ((malformed_iff len rest).mpr bad)]
    exact turnedAway_leaves idle _ rfl
  · rintro code payload reason rfl fits running idle refused
    have free := portFree_iff.mpr ⟨running, idle⟩
    have answered : acceptFrame p code payload (shifted s p (requestBits code payload).length) =
        turnedAway s p (requestBits code payload).length code (.refused reason) := by
      rcases refused with ⟨rfl, unknown⟩ | ⟨rfl, row, mem, rfl, foreign⟩ | ⟨rfl, row, mem, rfl, permitted, misfit⟩
      · exact acceptFrame_unknown unknown s p _ payload
      · exact acceptFrame_notPermitted mem foreign _ payload
      · exact acceptFrame_badForm mem permitted _ fits misfit
    rw [judgeStream_requestBits free code fits, answered]
    exact turnedAway_leaves idle _ rfl

end Sys2Proof.Proofs
end

