-- ==== Sys2Proof/Proofs/RequestFrames.lean ====
section
/-!
O38: the frame of every request, laid out by Table 43, reaches the owner of its row with the arguments it was sent with.
-/
namespace Sys2Proof.Proofs

open Sys2Proof.Machine Sys2Proof.Safety

/-! ## Fields of a payload (R194) -/

theorem leBytes_succ (k n : Nat) : leBytes (k + 1) n = byte n :: leBytes k (n / 256) := by
  simp only [leBytes, List.range_succ_eq_map, List.map_cons, List.map_map, pow_zero, Nat.div_one]
  congr 1
  refine List.map_congr_left fun i _ => ?_
  simp only [Function.comp_apply, Nat.pow_succ', Nat.div_div_eq_div_mul]

theorem fromLe_leBytes (k n : Nat) : fromLe (leBytes k n) = n % 256 ^ k := by
  induction k generalizing n with
  | zero => simp [leBytes, fromLe, Nat.mod_one]
  | succ k ih =>
    rw [leBytes_succ, fromLe, ih, byte, BitVec.toNat_ofNat]
    exact (Nat.pow_succ' (m := 256) ▸ Nat.mod_mul).symm

/-- A word's two bytes spell it. -/
theorem ofNat_fromLe_word (w : BitVec 16) : BitVec.ofNat 16 (fromLe (leBytes 2 w.toNat)) = w := by
  rw [fromLe_leBytes, Nat.mod_eq_of_lt (by simpa using w.isLt), BitVec.ofNat_toNat, BitVec.setWidth_eq]

theorem argWord_of_field {payload : List Byte} {at_ : Nat} {w : BitVec 16}
    (field : (payload.drop at_).take 2 = leBytes 2 w.toNat) : argWord payload at_ = w := by
  rw [argWord, field, ofNat_fromLe_word]

theorem argLong_of_field {payload : List Byte} {at_ : Nat} {w : BitVec 32}
    (field : (payload.drop at_).take 4 = leBytes 4 w.toNat) : argLong payload at_ = w := by
  rw [argLong, field, fromLe_leBytes, Nat.mod_eq_of_lt (by simpa using w.isLt), BitVec.ofNat_toNat, BitVec.setWidth_eq]

theorem argWords_flatMap (values : List (BitVec 16)) : argWords (values.flatMap fun v => leBytes 2 v.toNat) = values := by
  induction values with
  | nil => rfl
  | cons v rest ih => exact congrArg₂ List.cons (ofNat_fromLe_word v) ih

theorem length_flatMap_words (values : List (BitVec 16)) :
    (values.flatMap fun v => leBytes 2 v.toNat).length = 2 * values.length := by
  simp [List.length_flatMap, leBytes, Nat.mul_comm]

/-! ## Frames and rows -/

/-- The row of Table 43 for a frame serves it by given roles and a given owner. -/
def Carries (p : PortId) (code : Byte) (payload : List Byte) (allowed : Role → Bool) (owner : State → Served) : Prop :=
  ∃ r, requestOf p code payload = some r ∧ r.allowed = allowed ∧ r.serveOwner = owner

theorem Carries.accept {p : PortId} {code : Byte} {payload : List Byte} {allowed : Role → Bool} {owner : State → Served}
    (carries : Carries p code payload allowed owner) {s : State} (free : portFree s p = true) :
    acceptFrame p code payload s = takeRequest p code allowed owner s := by
  obtain ⟨r, read, rfl, rfl⟩ := carries
  rw [acceptFrame, read, takeRequest, if_pos free]

theorem carries_noArgs {p : PortId} {code : Byte} {allowed : Role → Bool} {owner : State → Served}
    (read : requestOf p code [] = some ⟨allowed, noArgs [] owner⟩) : Carries p code [] allowed owner :=
  ⟨_, read, rfl, rfl⟩

/-- A payload of fixed length, from which the owner's arguments are read. -/
theorem carries_withArgs {p : PortId} {code : Byte} {payload : List Byte} {allowed : Role → Bool}
    {owner sent : State → Served} {n : Nat} (read : requestOf p code payload = some ⟨allowed, withArgs n payload owner⟩)
    (length : payload.length = n) (args : owner = sent) : Carries p code payload allowed sent :=
  ⟨_, read, rfl, by rw [Request.serveOwner, withArgs, if_pos length]; exact args⟩

/-- The payload of ANNOUNCE_PANEL (Table 43). -/
def announcePayload (jobId : BitVec 32) (slot : Byte) (length : BitVec 32) (width : BitVec 16) (coverage : List Byte) :
    List Byte :=
  leBytes 4 jobId.toNat ++ [slot] ++ leBytes 4 length.toNat ++ leBytes 2 width.toNat ++ [byte coverage.length] ++ coverage

theorem length_announcePayload (jobId : BitVec 32) (slot : Byte) (length : BitVec 32) (width : BitVec 16)
    (coverage : List Byte) : (announcePayload jobId slot length width coverage).length = 12 + coverage.length := by
  simp [announcePayload, leBytes]
  omega

/-- The owner reads the fields of its payload. -/
theorem announceOwner_payload (jobId : BitVec 32) (slot : Byte) (length : BitVec 32) (width : BitVec 16)
    (coverage : List Byte) :
    let a := announcePayload jobId slot length width coverage
    announceOwner (argLong a 0) (argByte a 4) (argLong a 5) (argWord a 9) (a.drop 12) =
      announceOwner jobId slot length width coverage := by
  intro a
  have job : argLong a 0 = jobId := argLong_of_field rfl
  have announced : argLong a 5 = length := argLong_of_field rfl
  have wide : argWord a 9 = width := argWord_of_field rfl
  rw [job, announced, wide]
  rfl

/-- ANNOUNCE_PANEL's coverage is refused by its count in the form check and in the owner alike (R192, R5). -/
theorem carries_announcePanel (p : PortId) (jobId : BitVec 32) (slot : Byte) (length : BitVec 32) (width : BitVec 16)
    {coverage : List Byte} (fits : 12 + coverage.length ≤ 61) :
    Carries p 0x20 (announcePayload jobId slot length width coverage) onlyProduction
      (announceOwner jobId slot length width coverage) := by
  refine ⟨_, rfl, rfl, ?_⟩
  have count : (argByte (announcePayload jobId slot length width coverage) 11).toNat = coverage.length := by
    change (byte coverage.length).toNat = coverage.length
    rw [byte, BitVec.toNat_ofNat]
    omega
  rw [Request.serveOwner, announceForm, count, length_announcePayload, announceOwner_payload]
  by_cases counted : 1 ≤ coverage.length ∧ coverage.length ≤ 8
  · rw [if_pos ⟨rfl, counted⟩]
    rfl
  · rw [if_neg fun form => counted form.2]
    funext s
    exact (if_pos (by omega)).symm

theorem length_writePayload (slot : Byte) (offset : BitVec 16) (data : List Byte) :
    ([slot] ++ leBytes 2 offset.toNat ++ data).length = 3 + data.length := by
  simp [leBytes]
  omega

/-- WRITE_SLOT's data is refused by its length in the form check and in the owner alike (R192, R147). -/
theorem carries_writeSlot (p : PortId) (slot : Byte) (offset : BitVec 16) (data : List Byte) :
    Carries p 0x31 ([slot] ++ leBytes 2 offset.toNat ++ data) onlyProduction (writeOwner p slot offset data) := by
  refine ⟨_, rfl, rfl, ?_⟩
  have offsetRead : argWord ([slot] ++ leBytes 2 offset.toNat ++ data) 1 = offset := argWord_of_field rfl
  rw [Request.serveOwner, writeForm, length_writePayload, offsetRead]
  by_cases sized : 1 ≤ data.length ∧ data.length ≤ 32
  · rw [if_pos (by omega)]
    rfl
  · rw [if_neg (by omega)]
    funext s
    exact (if_pos (by omega)).symm

theorem carries_reportTemperatures (p : PortId) (values : List (BitVec 16)) :
    Carries p 0x50 (values.flatMap fun v => leBytes 2 v.toNat) onlyCalender (reportTemperaturesOwner values) := by
  refine ⟨_, rfl, rfl, ?_⟩
  rw [Request.serveOwner, temperaturesForm, argWords_flatMap, length_flatMap_words, if_pos (Nat.mul_mod_right 2 _)]
  rfl

theorem carries_reportTensions (p : PortId) (paperIn fabricUnwind calIn fabricRewind diameter : BitVec 16) :
    Carries p 0x60 (leBytes 2 paperIn.toNat ++ leBytes 2 fabricUnwind.toNat ++ leBytes 2 calIn.toNat ++
      leBytes 2 fabricRewind.toNat ++ leBytes 2 diameter.toNat) onlyDrive
      (reportTensionsOwner
        { paperIn := paperIn.toNat, fabricUnwind := fabricUnwind.toNat, calIn := calIn.toNat
          fabricRewind := fabricRewind.toNat } diameter.toNat) := by
  refine carries_withArgs rfl rfl ?_
  rw [tensionsOwner, argWord_of_field (w := paperIn) rfl, argWord_of_field (w := fabricUnwind) rfl,
    argWord_of_field (w := calIn) rfl, argWord_of_field (w := fabricRewind) rfl, argWord_of_field (w := diameter) rfl]

/-- The frame of a well-formed request carries the owner of that request's row. -/
theorem carries_requestBytes {c : Instr} {p : PortId} {code : Byte} {payload : List Byte} (sendable : c.wellFormed = true)
    (bytes : requestBytes c = some (p, code, payload)) :
    ∃ allowed owner, requestRow c = some (p, code, allowed, owner) ∧ Carries p code payload allowed owner := by
  cases c <;> cases bytes <;> refine ⟨_, _, rfl, ?_⟩
  case announcePanel => exact carries_announcePanel p _ _ _ _ (of_decide_eq_true sendable)
  case writeSlot => exact carries_writeSlot p _ _ _
  case reportTemperatures => exact carries_reportTemperatures p _
  case reportTensions => exact carries_reportTensions p ..
  case readPanel => exact carries_withArgs rfl rfl (congrArg readPanelOwner (argWord_of_field rfl))
  case setAttentionMask => exact carries_withArgs rfl rfl (congrArg (setAttentionMaskOwner p) (argWord_of_field rfl))
  case withdrawPanel => exact carries_withArgs rfl rfl (congrArg withdrawOwner (argWord_of_field rfl))
  case scrapPanel => exact carries_withArgs rfl rfl (congrArg scrapOwner (argWord_of_field rfl))
  case lineClear => exact carries_withArgs rfl rfl (congrArg (lineClearOwner p) (argLong_of_field rfl))
  case setTrim => exact carries_withArgs rfl rfl (congrArg setTrimOwner (argWord_of_field rfl))
  case readSlot slot offset n =>
    exact carries_withArgs rfl rfl (congrArg (readSlotOwner p slot · n) (argWord_of_field rfl))
  case getCorrection => exact carries_withArgs rfl rfl (congrArg getCorrectionOwner (argWord_of_field rfl))
  case printAbort => exact carries_withArgs rfl rfl (congrArg printAbortOwner (argWord_of_field rfl))
  case readRecords | ackRecords | setRecordQueue | eraseSlot | commitSlot | lockSlot | probeCache =>
    exact carries_withArgs rfl rfl rfl
  all_goals exact carries_noArgs rfl

theorem requestBytes_length {c : Instr} {p : PortId} {code : Byte} {payload : List Byte} (sendable : c.wellFormed = true)
    (bytes : requestBytes c = some (p, code, payload)) : payload.length ≤ 61 := by
  cases c <;> cases bytes
  case announcePanel =>
    rw [← announcePayload, length_announcePayload]
    exact of_decide_eq_true sendable
  case writeSlot slot offset data =>
    rw [length_writePayload]
    exact of_decide_eq_true sendable
  case reportTemperatures =>
    rw [length_flatMap_words]
    exact of_decide_eq_true sendable
  all_goals simp [leBytes]

/-- Settles O38: the frame reaches the owner that the request's row is taken by, on the state that has shifted out its bits. -/
theorem requestFramesReachTheirCommands : Obligations.RequestFramesReachTheirCommands := by
  intro s c p code payload sendable bytes running idle
  have free := portFree_iff.mpr ⟨running, idle⟩
  obtain ⟨allowed, owner, row, carries⟩ := carries_requestBytes sendable bytes
  refine ⟨_, shifted s p (requestBits code payload).length, exec_spiTransaction (live_of_portFree free) p _,
    shiftedOut_shifted s p _, rfl, shifted_port_kept s p _, ?_⟩
  have taken := (portFree_shifted s p (requestBits code payload).length).trans free
  rw [judgeStream_requestBits free code (requestBytes_length sendable bytes), carries.accept taken,
    exec_of_requestRow row]

end Sys2Proof.Proofs
end

