-- ==== Sys2Proof/Proofs/ArrayUntouched.lean ====
section
/-!
What leaves the profile store, or its array, as it is: the web, the ticks and windows, the scheduler, the grants and every
request.
-/
namespace Sys2Proof.Proofs

open Sys2Proof.Machine Sys2Proof.Safety

/-! ## Outside the profile store -/

@[simp] theorem paceNominal_store (s : State) : (paceNominal s).store = s.store := by
  unfold paceNominal
  split <;> rfl

@[simp] theorem paceAtEdge_store (s : State) : (paceAtEdge s).store = s.store := by
  obtain ⟨g, form⟩ := paceAtEdge_frame s
  rw [form]

@[simp] theorem judgeLost_store (s : State) : (judgeLost s).1.store = s.store := by
  unfold judgeLost
  split <;> rfl

@[simp] theorem recomputeAdvice_store (s : State) : (recomputeAdvice s).store = s.store := by
  obtain ⟨ports, form, -⟩ := recomputeAdvice_eq s
  rw [form]

@[simp] theorem syncStale_store (s : State) : (syncStale s).store = s.store := rfl

@[simp] theorem syncUnready_store (s : State) : (syncUnready s).store = s.store := rfl

@[simp] theorem evaluateSlip_store (s : State) : (evaluateSlip s).store = s.store := by
  cases active : s.line.active with
  | some m => rw [evaluateSlip_eq active, slipped]
  | none =>
    unfold evaluateSlip
    rw [active]
    rfl

@[simp] theorem speedWindow_store (s : State) : (Machine.speedWindow s).store = s.store := by
  simp [Machine.speedWindow]

@[simp] theorem doseTick_store (s : State) : (doseTick s).store = s.store := by
  rw [doseTick_frame]

@[simp] theorem tensionTick_store (m : MachineRecord) (s : State) : (tensionTick m s).store = s.store := by
  simp [tensionTick]

@[simp] theorem expireTemperatures_store (m : MachineRecord) (s : State) : (expireTemperatures m s).store = s.store := by
  simp [expireTemperatures]

@[simp] theorem expireTensions_store (m : MachineRecord) (s : State) : (expireTensions m s).store = s.store := by
  simp [expireTensions]

@[simp] theorem idle_store (s : State) : (idle s).store = s.store := by
  unfold idle
  split <;> rfl

/-! ### The web -/

@[simp] theorem completeRecords_store (m : MachineRecord) (s : State) : (completeRecords m s).store = s.store := by
  rw [completeRecords, foldl_completeOne_frame]

@[simp] theorem closeOpenTrail_store (m : MachineRecord) (f : Panel → Panel) (s : State) :
    (closeOpenTrail m f s).store = s.store := by
  simp [closeOpenTrail]

@[simp] theorem evaluateFill_store (m : MachineRecord) (s : State) : (evaluateFill m s).1.store = s.store := by
  simp [evaluateFill]

@[simp] theorem nipChanged_store (m : MachineRecord) (s : State) : (nipChanged m s).1.store = s.store := by
  simp [nipChanged, missByPosition, nipArrival]

@[simp] theorem printCount_store (d : Direction) (s : State) : (printCount d s).1.store = s.store := by
  have forward (m : MachineRecord) : (printForward m s).1.store = s.store := by
    simp only [printForward]
    split
    · rfl
    · split <;> simp
  have reverse (m : MachineRecord) : (printReverse m s).1.store = s.store := by
    simp only [printReverse]
    split
    · rfl
    · split <;> simp
  unfold printCount
  split
  · split
    · cases d with
      | forward => exact forward _
      | reverse => exact reverse _
    · rfl
  · rfl

@[simp] theorem nipCount_store (d : Direction) (s : State) : (nipCount d s).1.store = s.store := by
  have forward (m : MachineRecord) : (nipForward m s).1.store = s.store := by
    simp only [nipForward]
    split
    · rfl
    · split
      · split <;> simp
      · simp
  have reverse (m : MachineRecord) : (nipReverse m s).1.store = s.store := by
    simp only [nipReverse]
    split
    · rfl
    · split <;> simp
  unfold nipCount
  split
  · split
    · cases d with
      | forward => exact forward _
      | reverse => exact reverse _
    · rfl
  · rfl

@[simp] theorem matchMark_store (m : MachineRecord) (code stamp : Nat) (s : State) :
    (matchMark m code stamp s).1.store = s.store := by
  unfold matchMark
  split
  · rfl
  · dsimp only
    split
    · simp [markSeen, missSkipped]
    · rfl

@[simp] theorem judgeMark_store (stamp : Nat) (bits : List Bool) (s : State) :
    (judgeMark stamp bits s).1.store = s.store := by
  unfold judgeMark
  split
  · split
    · rfl
    · split
      · rfl
      · split
        · rfl
        · exact matchMark_store _ _ _ s
  · rfl

@[simp] theorem markEdge_store (bit : Bool) (s : State) : (markEdge bit s).store = s.store := by
  unfold markEdge
  dsimp only
  split <;> simp

@[simp] theorem startNext_store (held : Bool) (s : State) : (startNext held s).1.store = s.store := by
  unfold startNext
  split
  · rfl
  · split <;> rfl

@[simp] theorem gateFalling_store (s : State) : (gateFalling s).store = s.store := by
  unfold gateFalling
  split
  · split
    · simp [takeFallingEdge]
    · rfl
  · rfl

/-! ## Where the scheduler or the arbiter acts, the array stays (R80, R142) -/

@[simp] theorem gateRising_array (s : State) : (gateRising s).store.array = s.store.array := by
  unfold gateRising
  split
  · split
    · simp [takeRisingEdge, nipArrival]
    · rfl
  · rfl

@[simp] theorem completeComputation_array (k : Computation) (s : State) :
    (completeComputation k s).store.array = s.store.array := by
  unfold completeComputation
  dsimp only
  rw [closeEvent_store, reevaluate_array]
  split
  · split <;> rfl
  · rfl

@[simp] theorem clearLine_array (m : MachineRecord) (span : Nat) (s : State) :
    (clearLine m span s).store.array = s.store.array := by
  obtain ⟨ports, form, -⟩ := blocksCleared_eq m span s
  rw [clearLine_eq, syncStale_store, syncUnready_store, reevaluate_array, form]

@[simp] theorem startRequest_array (r : StoreRequest) (s : State) : (startRequest r s).store.array = s.store.array := by
  cases r with
  | erase p slot =>
    rw [startRequest]
    split
    · rfl
    · exact reevaluate_array _
  | _ => rfl

@[simp] theorem grantFill_array (s : State) : (grantFill s).store.array = s.store.array := by
  unfold grantFill
  split
  · dsimp only
    split
    · rfl
    · exact reevaluate_array _
  · rfl

@[simp] theorem grantWaiting_array (s : State) : (grantWaiting s).store.array = s.store.array := by
  rw [← grantFill_array s]
  unfold grantWaiting grantRequest
  split
  · exact startRequest_array _ _
  · rfl

@[simp] theorem askStore_array (r : StoreRequest) (s : State) : (askStore r s).st.store.array = s.store.array :=
  grantWaiting_array _

/-- The end of an operation frees the store and grants it; the array is as the operation left it. -/
@[simp] theorem endOperation_array (b : State) (p : PortId) (code : Byte) (r : Reply) (s : State) :
    (endOperation b p code r s).store.array = s.store.array := by
  rw [endOperation, closeEvent_store]
  exact grantWaiting_array _

@[simp] theorem endFill_array (slot : SlotId) (s : State) : (endFill slot s).store.array = s.store.array := by
  rw [endFill, closeEvent_store, grantWaiting_array, reevaluate_array]
  split <;> rfl

@[simp] theorem judgeLineClear_array (p : PortId) (span : Nat) (s : State) :
    (judgeLineClear p span s).store.array = s.store.array := by
  have ended (r : Reply) (t : State) : (endLineClear s p r t).store.array = t.store.array := by
    rw [endLineClear, closeEvent_store]
    exact grantWaiting_array _
  unfold judgeLineClear
  dsimp only
  split
  · split
    · exact ended _ _
    · exact (ended _ _).trans (clearLine_array _ _ _)
  · exact ended _ _

@[simp] theorem endScan_array (s : State) : (endScan s).store.array = s.store.array := by
  have loaded (t : State) : (loadSlotZero t).store.array = t.store.array := by
    rcases loadSlotZero_cases t with h | h | h <;> rw [h] <;> rfl
  rw [endScan, closeEvent_store, syncStale_store, syncUnready_store, loaded]
  simp [scanSlots, startRunning]

/-! ## Requests (R190 to R192) -/

/-- An owner that leaves the array: every request does, since an operation of the store acts on it only when it ends. -/
def OwnerKeepsArray (owner : State → Served) : Prop :=
  ∀ s, (owner s).st.store.array = s.store.array

theorem ownerKeepsArray_announce (jobId : BitVec 32) (slot : Byte) (length : BitVec 32) (width : BitVec 16)
    (coverage : List Byte) : OwnerKeepsArray (announceOwner jobId slot length width coverage) := fun s => by
  unfold announceOwner
  split
  · rfl
  · split
    · exact reevaluate_array _
    · rfl
    · rfl

theorem ownerKeepsArray_withdraw (id : BitVec 16) : OwnerKeepsArray (withdrawOwner id) := fun s => by
  unfold withdrawOwner
  split
  · rfl
  · split
    · exact reevaluate_array _
    · rfl

theorem ownerKeepsArray_scrap (id : BitVec 16) : OwnerKeepsArray (scrapOwner id) := fun s => by
  unfold scrapOwner
  split
  · rfl
  · split
    · exact reevaluate_array _
    · rfl

theorem ownerKeepsArray_lineClear (p : PortId) (span : BitVec 32) : OwnerKeepsArray (lineClearOwner p span) := fun s => by
  unfold lineClearOwner
  split
  · rfl
  · split
    · rfl
    · exact askStore_array _ s

theorem ownerKeepsArray_erase (p : PortId) (slot : Byte) : OwnerKeepsArray (eraseOwner p slot) := fun s => by
  unfold eraseOwner
  split
  · rfl
  · split
    · rfl
    · split
      · rfl
      · exact askStore_array _ s

theorem ownerKeepsArray_write (p : PortId) (slot : Byte) (offset : BitVec 16) (data : List Byte) :
    OwnerKeepsArray (writeOwner p slot offset data) := fun s => by
  unfold writeOwner
  split
  · rfl
  · split
    · rfl
    · split
      · rfl
      · dsimp only
        split
        · rfl
        · exact askStore_array _ s

theorem ownerKeepsArray_commit (p : PortId) (slot : Byte) : OwnerKeepsArray (commitOwner p slot) := fun s => by
  unfold commitOwner
  split
  · rfl
  · split
    · rfl
    · exact askStore_array _ s

theorem ownerKeepsArray_lock (p : PortId) (slot : Byte) : OwnerKeepsArray (lockOwner p slot) := fun s => by
  unfold lockOwner
  split
  · rfl
  · split
    · rfl
    · split
      · rfl
      · exact askStore_array _ s

theorem ownerKeepsArray_readSlot (p : PortId) (slot : Byte) (offset : BitVec 16) (n : Byte) :
    OwnerKeepsArray (readSlotOwner p slot offset n) := fun s => by
  unfold readSlotOwner
  split
  · rfl
  · split
    · rfl
    · exact askStore_array _ s

theorem ownerKeepsArray_storeClear (p : PortId) : OwnerKeepsArray (storeClearOwner p) := fun s => by
  unfold storeClearOwner
  split
  · rfl
  · split
    · rfl
    · exact askStore_array _ s

theorem ownerKeepsArray_printAbort (id : BitVec 16) : OwnerKeepsArray (printAbortOwner id) := fun s => by
  unfold printAbortOwner
  split
  · split
    · simp [Served.of]
    · rfl
  · rfl

theorem ownerKeepsArray_reportTensions (v : Tensions) (diameter : Nat) :
    OwnerKeepsArray (reportTensionsOwner v diameter) := fun s => by
  unfold reportTensionsOwner
  split
  · rfl
  · unfold checkExcursion
    dsimp only
    split <;> rfl

/-- The owner of every request row leaves the array; the rows without a lemma of their own leave the whole store. -/
theorem ownerKeepsArray_of_row {i : Instr} {p : PortId} {code : Byte} {allowed : Role → Bool} {owner : State → Served}
    (row : requestRow i = some (p, code, allowed, owner)) : OwnerKeepsArray owner := by
  cases i with
  | readPanel p id => cases row; intro s; unfold readPanelOwner; split <;> rfl
  | readRecords p n => cases row; intro s; unfold readRecordsOwner; split <;> rfl
  | stop p => cases row; intro s; unfold stopOwner; split <;> rfl
  | announcePanel p jobId slot length width coverage => cases row; exact ownerKeepsArray_announce _ _ _ _ _
  | withdrawPanel p id => cases row; exact ownerKeepsArray_withdraw id
  | scrapPanel p id => cases row; exact ownerKeepsArray_scrap id
  | lineClear p span => cases row; exact ownerKeepsArray_lineClear p span
  | ackRecords p n => cases row; intro s; unfold ackRecordsOwner; split <;> rfl
  | setRecordQueue p mode watermark filter =>
    cases row
    intro s
    unfold setRecordQueueOwner
    split
    · split <;> rfl
    · rfl
  | eraseSlot p slot => cases row; exact ownerKeepsArray_erase p slot
  | writeSlot p slot offset data => cases row; exact ownerKeepsArray_write p slot offset data
  | commitSlot p slot => cases row; exact ownerKeepsArray_commit p slot
  | lockSlot p slot => cases row; exact ownerKeepsArray_lock p slot
  | readSlot p slot offset n => cases row; exact ownerKeepsArray_readSlot p slot offset n
  | storeClear p => cases row; exact ownerKeepsArray_storeClear p
  | probeCache p slot =>
    cases row
    intro s
    unfold probeCacheOwner
    split
    · split <;> rfl
    · rfl
  | invalidateCache p => cases row; exact fun s => reevaluate_array _
  | getCorrection p id =>
    cases row
    intro s
    unfold getCorrectionOwner
    split
    · rfl
    · split <;> rfl
  | printAbort p id => cases row; exact ownerKeepsArray_printAbort id
  | reportTemperatures p values =>
    cases row
    intro s
    unfold reportTemperaturesOwner
    split
    · rfl
    · split <;> rfl
  | readHeatAdvice p =>
    cases row
    exact fun s => congrArg Store.array (recomputeAdvice_store s)
  | reportTensions p a b c d e => cases row; exact ownerKeepsArray_reportTensions _ _
  | releaseStop p =>
    cases row
    intro s
    unfold releaseStopOwner
    split
    · split <;> rfl
    · rfl
  | _ => cases row <;> exact fun _ => rfl

theorem ServedByRow.keepsArray {p : PortId} {allowed : Role → Bool} {owner : State → Served}
    (h : ServedByRow p allowed owner) : OwnerKeepsArray owner := by
  rcases h with ⟨i, code, row⟩ | rfl
  · exact ownerKeepsArray_of_row row
  · exact fun _ => rfl

theorem serve_array {owner : State → Served} (h : OwnerKeepsArray owner) (p : PortId) (code : Byte)
    (allowed : Role → Bool) (s : State) : (serve p code allowed owner s).store.array = s.store.array := by
  unfold serve
  split
  · rw [closeEvent_store, State.answer_store, h, State.updatePort_store]
  · rfl

theorem takeRequest_array {owner : State → Served} (h : OwnerKeepsArray owner) (p : PortId) (code : Byte)
    (allowed : Role → Bool) (s : State) : (takeRequest p code allowed owner s).store.array = s.store.array := by
  unfold takeRequest
  split
  · exact serve_array h p code allowed s
  · rfl

/-- A transaction leaves the array, whatever frame it carries. -/
theorem judgeStream_array (p : PortId) (busy : Bool) (stream : List Byte) (s : State) :
    (judgeStream p busy stream s).store.array = s.store.array := by
  unfold judgeStream
  split
  · rfl
  · unfold judgeFrame acceptFrame
    dsimp only
    split
    · rfl
    · split
      · exact serve_array (servedByRow_requestOf ‹_›).keepsArray _ _ _ s
      · rfl

end Sys2Proof.Proofs
end

