-- ==== Sys2Proof/Proofs/ArrayCanonical.lean ====
section
/-!
O1 and O53: a step takes the front command; what any command can do to the array, and that each of these keeps it canonical.
-/
namespace Sys2Proof.Proofs

open Sys2Proof.Machine Sys2Proof.Safety

/-- Settles O1: the branch of a step for a queue that is not empty. -/
theorem stepTakesFrontCommand : Obligations.StepTakesFrontCommand := by
  intro c rest s front
  rw [step, front]

/-! ## What a reset leaves of an operation it cuts off (R141) -/

section Cut

variable {m : Memory} (n : Nat) (canonical : Memory.wf m = true)
include canonical

theorem cutRow_wf (r : StagingRow) : Memory.wf (cutRow n m r) = true := by
  unfold cutRow
  dsimp only
  split
  · exact programRow_wf r canonical
  · exact programPart_wf n _ _ canonical

theorem cutRows_wf (k : Nat) (rows : List StagingRow) : Memory.wf (cutRows n k m rows) = true := by
  have whole : Memory.wf (rowsOver (rows.take k) m) = true := rowsOver_wf _ canonical
  unfold cutRows
  dsimp only
  split
  · exact cutRow_wf n whole _
  · exact whole

theorem cutMark_wf (a : Nat) (mark : Byte) : Memory.wf (cutMark n m a mark) = true := by
  unfold cutMark
  dsimp only
  split
  · exact canonical
  · exact Memory.wf_write _ _ canonical

theorem cutCommit_wf (progress : Nat) (slot : SlotId) (rows : List StagingRow) :
    Memory.wf (cutCommit n progress m slot rows) = true := by
  have left := cutRows_wf n canonical (progress % (rows.length + 1)) rows
  unfold cutCommit
  dsimp only
  split
  · exact cutMark_wf n left _ _
  · exact left

theorem cutLock_wf (slot : SlotId) : Memory.wf (cutLock n m slot) = true := by
  unfold cutLock
  split
  · exact cutMark_wf n canonical _ _
  · exact canonical

theorem cutClear_wf (progress : Nat) : Memory.wf (cutClear n progress m) = true :=
  cutErase_wf _ _ _ (Memory.wf_eraseRange _ _ canonical)

end Cut

theorem arrayAfterReset_wf {s : State} (canonical : ArrayCanonical s) : Memory.wf (arrayAfterReset s) = true := by
  unfold arrayAfterReset
  dsimp only
  split
  · exact cutErase_wf _ _ _ canonical
  · exact cutRows_wf _ canonical _ _
  · exact cutCommit_wf _ canonical _ _ _
  · exact cutLock_wf _ canonical _
  · exact cutClear_wf _ canonical _
  · exact canonical

/-! ## What a command can do to the array -/

/-- What the array is after a command: as before, as the end of the operation in progress leaves it (R146, R148, R150, R154,
R156), or as a reset that cuts that operation off does (R141, R185). -/
inductive ArrayStep (s t : State) : Prop
  | kept (array : t.store.array = s.store.array)
  | erased {p slot} (held : s.store.holder = some (.erase p slot))
      (array : t.store.array = Memory.eraseRange s.store.array (slotBase slot) 1024)
  | written {p rows} (held : s.store.holder = some (.write p rows)) (array : t.store.array = rowsOver rows s.store.array)
  | unmarked {p slot rows} (held : s.store.holder = some (.commit p slot rows))
      (array : t.store.array = rowsOver rows s.store.array)
  | committed {p slot rows} (held : s.store.holder = some (.commit p slot rows))
      (array : t.store.array = Memory.program (rowsOver rows s.store.array) (slotBase slot) 0x3C)
  | locked {p slot} (held : s.store.holder = some (.lock p slot))
      (array : t.store.array = Memory.program s.store.array (slotBase slot + 1) 0xC3)
  | cleared {p} (held : s.store.holder = some (.clear p)) (array : t.store.array = [])
  | cut (array : t.store.array = arrayAfterReset s)

/-- Each of these keeps the canonical form. -/
theorem ArrayStep.canonical {s t : State} (h : ArrayStep s t) (hs : ArrayCanonical s) : ArrayCanonical t := by
  unfold ArrayCanonical
  cases h with
  | kept array => rwa [array]
  | erased _ array => rw [array]; exact Memory.wf_eraseRange _ _ hs
  | written _ array => rw [array]; exact rowsOver_wf _ hs
  | unmarked _ array => rw [array]; exact rowsOver_wf _ hs
  | committed _ array => rw [array]; exact Memory.wf_program _ _ (rowsOver_wf _ hs)
  | locked _ array => rw [array]; exact Memory.wf_program _ _ hs
  | cleared _ array => rw [array]; rfl
  | cut array => rw [array]; exact arrayAfterReset_wf hs

theorem arrayStep_deviceReset (cause : ResetCause) (s : State) : ArrayStep s (deviceReset cause s) := by
  rcases deviceReset_cases cause s with ⟨-, e⟩ | ⟨-, -, e⟩ | ⟨-, -, e⟩ <;> rw [e]
  · exact .cut rfl
  · exact .kept rfl
  · exact .kept rfl

theorem programRows_freeStore_array (rows : List StagingRow) (s : State) :
    (programRows rows (freeStore s)).store.array = rowsOver rows s.store.array := by
  rw [programRows_frame]
  rfl

theorem arrayStep_endCommit {s : State} {p : PortId} {slot : SlotId} {rows : List StagingRow}
    (held : s.store.holder = some (.commit p slot rows)) : ArrayStep s (endCommit p slot rows s) := by
  have programmed := programRows_freeStore_array rows s
  unfold endCommit
  dsimp only
  split
  · split
    · exact .unmarked held ((endOperation_array _ _ _ _ _).trans programmed)
    · refine .committed held ((endOperation_array _ _ _ _ _).trans ?_)
      rw [← programmed]
      exact reevaluate_array _
  · exact .unmarked held ((endOperation_array _ _ _ _ _).trans programmed)

theorem arrayStep_endLock {s : State} {p : PortId} {slot : SlotId} (held : s.store.holder = some (.lock p slot)) :
    ArrayStep s (endLock p slot s) := by
  unfold endLock
  dsimp only
  split
  · exact .locked held (endOperation_array _ _ _ _ _)
  · exact .kept (endOperation_array _ _ _ _ _)

/-- What any command can do to the array. -/
theorem exec_arrayStep (i : Instr) (s : State) : ∃ t, exec i s = .next t ∧ ArrayStep s t := by
  have stays : ArrayStep s s := .kept rfl
  have guarded : ∀ (c : Prop) [Decidable c] (t : State), t.store.array = s.store.array →
      ArrayStep s (if c then t else s) := by
    intro c _ t array
    split
    · exact .kept array
    · exact stays
  have granted : ∀ c : Prop, [Decidable c] → ArrayStep s (if c then closeEvent s (grantWaiting s) [] else s) :=
    fun c _ => guarded c _ (by simp)
  cases row : requestRow i with
  | some r =>
    obtain ⟨p, code, allowed, owner⟩ := r
    exact ⟨_, exec_of_requestRow row s, .kept (takeRequest_array (ownerKeepsArray_of_row row) p code allowed s)⟩
  | none =>
    cases i with
    | spiTransaction p mosi =>
      refine ⟨_, rfl, .kept ?_⟩
      split
      · exact judgeStream_array _ _ _ _
      · rfl
    | powerOnReset => exact ⟨_, rfl, arrayStep_deviceReset _ s⟩
    | supplyMonitorReset => exact ⟨_, rfl, arrayStep_deviceReset _ s⟩
    | resetnReset => exact ⟨_, rfl, arrayStep_deviceReset _ s⟩
    | resetEnd rolea roleb maint =>
      refine ⟨_, rfl, .kept ?_⟩
      split <;> rfl
    | startUpScanEnd => exact ⟨_, rfl, guarded _ _ (endScan_array s)⟩
    | pencCount d => exact ⟨_, rfl, guarded _ _ (by simp)⟩
    | cencCount d => exact ⟨_, rfl, guarded _ _ (by simp)⟩
    | fencCount d => exact ⟨_, rfl, guarded _ _ rfl⟩
    | pacePulseTimer => exact ⟨_, rfl, .kept rfl⟩
    | pgateRisingEdge => exact ⟨_, rfl, guarded _ _ (by simp)⟩
    | pgateFallingEdge => exact ⟨_, rfl, guarded _ _ (by simp)⟩
    | breaknAssertion => exact ⟨_, rfl, guarded _ _ (by simp)⟩
    | breaknRelease => exact ⟨_, rfl, guarded _ _ rfl⟩
    | stopinnAssertion => exact ⟨_, rfl, guarded _ _ (by simp)⟩
    | stopinnRelease => exact ⟨_, rfl, guarded _ _ rfl⟩
    | markWord bit => exact ⟨_, rfl, guarded _ _ (by simp)⟩
    | mkclkRisingEdge bit => exact ⟨_, rfl, guarded _ _ (by simp)⟩
    | markWordTimeout =>
      refine ⟨_, rfl, .kept ?_⟩
      split <;> rfl
    | speedWindowExpiry => exact ⟨_, rfl, guarded _ _ (by simp)⟩
    | doseTick => exact ⟨_, rfl, guarded _ _ (by simp)⟩
    | tensionTick =>
      refine ⟨_, rfl, .kept ?_⟩
      split <;> simp
    | temperatureStaleExpiry =>
      refine ⟨_, rfl, ?_⟩
      split
      · exact guarded _ _ (by simp)
      · exact stays
    | tensionStaleExpiry =>
      refine ⟨_, rfl, ?_⟩
      split
      · exact guarded _ _ (by simp)
      · exact stays
    | hardStaleExpiry => exact ⟨_, rfl, .kept (by simp)⟩
    | refreshExpiry =>
      refine ⟨_, rfl, ?_⟩
      split
      · exact guarded _ _ (reevaluate_array s)
      · exact stays
    | correctionCompletion =>
      refine ⟨_, rfl, .kept ?_⟩
      split <;> simp
    | cacheFillGrant => exact ⟨_, rfl, granted _⟩
    | eraseSlotGrant => exact ⟨_, rfl, granted _⟩
    | storeGrant => exact ⟨_, rfl, granted _⟩
    | storeClearGrant => exact ⟨_, rfl, granted _⟩
    | cacheFillCompletion =>
      refine ⟨_, rfl, .kept ?_⟩
      split <;> simp
    | eraseSlotCompletion =>
      refine ⟨_, rfl, ?_⟩
      split
      · exact .erased ‹_› (endOperation_array _ _ _ _ _)
      · exact stays
    | writeSlotCompletion =>
      refine ⟨_, rfl, ?_⟩
      split
      · exact .written ‹_› ((endOperation_array _ _ _ _ _).trans (programRows_freeStore_array _ s))
      · exact stays
    | commitSlotCompletion =>
      refine ⟨_, rfl, ?_⟩
      split
      · exact arrayStep_endCommit ‹_›
      · exact stays
    | lockSlotCompletion =>
      refine ⟨_, rfl, ?_⟩
      split
      · exact arrayStep_endLock ‹_›
      · exact stays
    | readSlotCompletion =>
      refine ⟨_, rfl, .kept ?_⟩
      split
      · exact endOperation_array _ _ _ _ _
      · rfl
    | storeClearCompletion =>
      refine ⟨_, rfl, ?_⟩
      split
      · exact .cleared ‹_› ((endOperation_array _ _ _ _ _).trans (reevaluate_array _))
      · exact stays
    | lineClearReadCompletion =>
      refine ⟨_, rfl, .kept ?_⟩
      split <;> simp
    | quadratureTransitionError e => exact ⟨_, rfl, guarded _ _ rfl⟩
    | _ => cases row

/-- Settles O53: a millisecond leaves the array, and each thing a command can do to it keeps its canonical form. -/
theorem everyStepKeepsTheArrayCanonical : Obligations.EveryStepKeepsTheArrayCanonical := by
  intro s t canonical h
  cases front : s.pending with
  | nil =>
    cases (step_of_empty front).symm.trans h
    rwa [ArrayCanonical, idle_store]
  | cons c rest =>
    obtain ⟨u, taken, did⟩ := exec_arrayStep c { s with pending := rest }
    cases (taken.symm.trans (stepTakesFrontCommand c rest s front).symm).trans h
    exact did.canonical canonical

end Sys2Proof.Proofs
end
